-- ==== Sys2Proof/Word.lean ====
section
/-! DEFINITION. The word types of the bus (spec/00_scope.md R8, spec/20_memory.md R70). -/

namespace Sys2Proof

/-- A word of the host bus: 32 bits, bit 0 the least significant (R8). -/
abbrev Word := BitVec 32

/-- One byte, the unit in which the model stores memory (R75). -/
abbrev Byte := BitVec 8

/-- A word address of the bus window: 17 bits (R70). -/
abbrev WordAddr := BitVec 17

end Sys2Proof
end

