-- ==== Sys2Proof/Syntax.lean ====
section
/-! DEFINITION. The commands of SPC: one constructor per row of spec/opcode_table.json (spec/30_encoding.md R105),
with the assembler notation of R109 and the pseudo-instructions of R110. -/

namespace Sys2Proof

/-- A frame register number: `S0` to `S3` (R21, R103). Every value is legal. -/
abbrev SReg := Fin 4

/-- The eighteen commands (R105). Operands in the order of the assembler notation: destination first (R109). -/
inductive Instr where
  /-- `NOP` (R131). -/
  | nop
  /-- `CFG` (R133). -/
  | cfg
  /-- `RESET #imm3`; bit 0 phase vocoder, bit 1 quantizer, bit 2 spectral delay (R104, R139). -/
  | reset (imm3 : BitVec 3)
  /-- `WIN` (R161). -/
  | win
  /-- `FFTF` (R163). -/
  | fftf
  /-- `FFTI` (R166). -/
  | ffti
  /-- `POLAR Sd` (R186). -/
  | polar (rd : SReg)
  /-- `RECT Ss` (R188). -/
  | rect (rs1 : SReg)
  /-- `STFTF Sd` (R191). -/
  | stftf (rd : SReg)
  /-- `STFTI Ss` (R193). -/
  | stfti (rs1 : SReg)
  /-- `PV Sd, Ss` (R201). -/
  | pv (rd rs1 : SReg)
  /-- `FSH Sd, Ss` (R228). -/
  | fsh (rd rs1 : SReg)
  /-- `ENVC Ss` (R248). -/
  | envc (rs1 : SReg)
  /-- `QNT Sd, Ss` (R250). -/
  | qnt (rd rs1 : SReg)
  /-- `MSKB` (R286). -/
  | mskb
  /-- `MSK Sd, Sw, Sy`: destination, wet frame, dry frame (R288). -/
  | msk (rd rs1 rs2 : SReg)
  /-- `SDLP` (R304). -/
  | sdlp
  /-- `SDL Sd, Ss` (R306). -/
  | sdl (rd rs1 : SReg)
deriving DecidableEq, Repr

/-- `RSTALL` = `RESET #7` (R110). -/
def Instr.rstall : Instr := .reset 7

/-- `RSTPV` = `RESET #1` (R110). -/
def Instr.rstpv : Instr := .reset 1

/-- `RSTQ` = `RESET #2` (R110). -/
def Instr.rstq : Instr := .reset 2

/-- `RSTSD` = `RESET #4` (R110). -/
def Instr.rstsd : Instr := .reset 4

/-- The mnemonic of a command (R105). -/
def Instr.mnemonic : Instr → String
  | .nop => "NOP"
  | .cfg => "CFG"
  | .reset _ => "RESET"
  | .win => "WIN"
  | .fftf => "FFTF"
  | .ffti => "FFTI"
  | .polar _ => "POLAR"
  | .rect _ => "RECT"
  | .stftf _ => "STFTF"
  | .stfti _ => "STFTI"
  | .pv _ _ => "PV"
  | .fsh _ _ => "FSH"
  | .envc _ => "ENVC"
  | .qnt _ _ => "QNT"
  | .mskb => "MSKB"
  | .msk _ _ _ => "MSK"
  | .sdlp => "SDLP"
  | .sdl _ _ => "SDL"

/-- The name of a frame register in assembler text (R109). -/
def sregName (r : SReg) : String := "S" ++ toString r.val

/-- The operand text of a command (R109). -/
def Instr.operandText : Instr → String
  | .nop | .cfg | .win | .fftf | .ffti | .mskb | .sdlp => ""
  | .reset imm => " #" ++ toString imm.toNat
  | .polar r | .rect r | .stftf r | .stfti r | .envc r => " " ++ sregName r
  | .pv rd rs1 | .fsh rd rs1 | .qnt rd rs1 | .sdl rd rs1 => " " ++ sregName rd ++ ", " ++ sregName rs1
  | .msk rd rs1 rs2 => " " ++ sregName rd ++ ", " ++ sregName rs1 ++ ", " ++ sregName rs2

/-- One line of assembler text (R109). -/
def Instr.toAsm (i : Instr) : String := i.mnemonic ++ i.operandText

end Sys2Proof
end

