-- ==== Sys2Proof/WellFormed.lean ====
section
/-! DEFINITION. Which command words are well-formed (spec/30_encoding.md R102, R103, R105, R106). The operands of
`Instr` are typed so that every one is legal (R103: every value of a register field is legal), so what there is to check
is the word: an assigned opcode, and every bit outside the operand fields of its format equal to the row's match. -/

namespace Sys2Proof

/-- The six formats (R103). -/
inductive Format where
  | z | i | d | s | ds | dss
deriving DecidableEq, Repr

/-- The bits of a word that must match exactly in a format (R103). -/
def Format.mask : Format → Word
  | .z => 0xFFFFFFFF
  | .i => 0xFFFFFFF8
  | .d => 0xFFCFFFFF
  | .s => 0xFFFCFFFF
  | .ds => 0xFFCCFFFF
  | .dss => 0xFFCCCFFF

/-- A row of the opcode map: its opcode and its format (R105). -/
structure OpRow where
  op : BitVec 8
  format : Format
deriving DecidableEq, Repr

/-- The opcode map (R105), in the order of the table. -/
def opMap : List OpRow :=
  [⟨0x00, .z⟩, ⟨0x01, .z⟩, ⟨0x02, .i⟩, ⟨0x10, .z⟩, ⟨0x11, .z⟩, ⟨0x12, .z⟩, ⟨0x13, .d⟩, ⟨0x14, .s⟩, ⟨0x15, .d⟩,
   ⟨0x16, .s⟩, ⟨0x20, .ds⟩, ⟨0x21, .ds⟩, ⟨0x22, .s⟩, ⟨0x23, .ds⟩, ⟨0x24, .z⟩, ⟨0x25, .dss⟩, ⟨0x26, .z⟩, ⟨0x27, .ds⟩]

/-- The `op` field, bits 31:24 (R102). -/
def opField (w : Word) : BitVec 8 := w.extractLsb' 24 8

/-- The value of `w & mask` that selects the row (R105): the opcode with every other bit 0. -/
def OpRow.matchWord (r : OpRow) : Word := r.op.setWidth 32 <<< 24

/-- Whether a word matches a row (R106). -/
def OpRow.accepts (r : OpRow) (w : Word) : Bool := (w &&& r.format.mask) == r.matchWord

/-- The row with the word's opcode, if there is one (R106). -/
def rowOf (w : Word) : Option OpRow := opMap.find? fun r => r.op == opField w

/-- A word that matches a row of the opcode map (R106); every other word is illegal (R107). -/
def wordWellFormed (w : Word) : Bool :=
  match rowOf w with
  | none => false
  | some r => r.accepts w

end Sys2Proof
end

