-- ==== Sys2Proof/Decode.lean ====
section
/-! DEFINITION. The decoder and the encoder of command words (spec/30_encoding.md R102 to R107). -/

namespace Sys2Proof

/-- Why a word is illegal (R107). Both raise `IllegalCmd`. -/
inductive IllegalWord where
  /-- No row has the word's opcode. -/
  | unassignedOp
  /-- The row's reserved bits are not all 0. -/
  | reservedBits
deriving DecidableEq, Repr

/-- The `rd` field, bits 21:20 (R102). -/
def rdField (w : Word) : SReg := (w.extractLsb' 20 2).toFin

/-- The `rs1` field, bits 17:16 (R102). -/
def rs1Field (w : Word) : SReg := (w.extractLsb' 16 2).toFin

/-- The `rs2` field, bits 13:12 (R102). -/
def rs2Field (w : Word) : SReg := (w.extractLsb' 12 2).toFin

/-- The `imm3` field, bits 2:0 (R102, R104). -/
def imm3Field (w : Word) : BitVec 3 := w.extractLsb' 0 3

/-- The command that an opcode names, with its operands taken from the fields of the word (R105). -/
def commandOf (op : Nat) (w : Word) : Option Instr :=
  match op with
  | 0x00 => some .nop
  | 0x01 => some .cfg
  | 0x02 => some (.reset (imm3Field w))
  | 0x10 => some .win
  | 0x11 => some .fftf
  | 0x12 => some .ffti
  | 0x13 => some (.polar (rdField w))
  | 0x14 => some (.rect (rs1Field w))
  | 0x15 => some (.stftf (rdField w))
  | 0x16 => some (.stfti (rs1Field w))
  | 0x20 => some (.pv (rdField w) (rs1Field w))
  | 0x21 => some (.fsh (rdField w) (rs1Field w))
  | 0x22 => some (.envc (rs1Field w))
  | 0x23 => some (.qnt (rdField w) (rs1Field w))
  | 0x24 => some .mskb
  | 0x25 => some (.msk (rdField w) (rs1Field w) (rs2Field w))
  | 0x26 => some .sdlp
  | 0x27 => some (.sdl (rdField w) (rs1Field w))
  | _ => none

/-- Decoding of a command word (R106, R107): total, an illegal word is rejected with the reason. -/
def decode (w : Word) : Except IllegalWord Instr :=
  match rowOf w, commandOf (opField w).toNat w with
  | some r, some i => if r.accepts w then .ok i else .error .reservedBits
  | _, _ => .error .unassignedOp

/-- A word from its fields, every reserved bit 0 (R102). -/
def packFields (op : BitVec 8) (rd rs1 rs2 : SReg) (imm3 : BitVec 3) : Word :=
  (op.setWidth 32 <<< 24) ||| (BitVec.ofNat 32 rd.val <<< 20) ||| (BitVec.ofNat 32 rs1.val <<< 16)
    ||| (BitVec.ofNat 32 rs2.val <<< 12) ||| imm3.setWidth 32

/-- The word of a command (R102, R103, R105). -/
def encode : Instr → Word
  | .nop => packFields 0x00 0 0 0 0
  | .cfg => packFields 0x01 0 0 0 0
  | .reset imm3 => packFields 0x02 0 0 0 imm3
  | .win => packFields 0x10 0 0 0 0
  | .fftf => packFields 0x11 0 0 0 0
  | .ffti => packFields 0x12 0 0 0 0
  | .polar rd => packFields 0x13 rd 0 0 0
  | .rect rs1 => packFields 0x14 0 rs1 0 0
  | .stftf rd => packFields 0x15 rd 0 0 0
  | .stfti rs1 => packFields 0x16 0 rs1 0 0
  | .pv rd rs1 => packFields 0x20 rd rs1 0 0
  | .fsh rd rs1 => packFields 0x21 rd rs1 0 0
  | .envc rs1 => packFields 0x22 0 rs1 0 0
  | .qnt rd rs1 => packFields 0x23 rd rs1 0 0
  | .mskb => packFields 0x24 0 0 0 0
  | .msk rd rs1 rs2 => packFields 0x25 rd rs1 rs2 0
  | .sdlp => packFields 0x26 0 0 0 0
  | .sdl rd rs1 => packFields 0x27 rd rs1 0 0

/-- The word that the low `nbits` bits of `w` make, every bit above them 0. A command is one 32-bit word (R100). -/
def tableWord (nbits w : Nat) : Word := BitVec.ofNat 32 (w % 2 ^ nbits)

/-- The command the decoder reads from the word whose low `nbits` bits are those of `w`. -/
def decodeTableWord (nbits w : Nat) : Option Instr := (decode (tableWord nbits w)).toOption

end Sys2Proof
end

