-- ==== Sys2Proof/Config.lean ====
section
/-! DEFINITION. What an implementation fixes: the parameters of spec/00_scope.md R6, the numerics record `Num` of
spec/48_numerics.md R320, and the free values, which are opaque constants without a body. -/

namespace Sys2Proof

/-- A decimal constant of the spec as the quotient of two integers (log 6). -/
structure Ratio where
  num : Int
  den : Nat
deriving DecidableEq, Repr

/-- The parameters of the hardware, the rows of R6 but `NUM`. The word addresses and region sizes of R73 are fixed, as that
rule says, so a hardware with the map of R73 has `LOG2N_MAX` at most 12, `NSREG` at most 4, `NNOTES` at most 128 and `NBANDS`
at most 48 (log 14). -/
structure Params where
  /-- `LOG2N_MIN`. -/
  log2nMin : Nat
  /-- `LOG2N_MAX`. -/
  log2nMax : Nat
  /-- `NSREG`, at most 4, which the 2-bit fields of a command word fix (U14, log 14). -/
  nsReg : Nat
  /-- `LOCK_HALF_WIDTH`, in bins. -/
  lockHalfWidth : Nat
  /-- The peak floor `PEAK_FLOOR_DB` as a factor on magnitude. -/
  peakFloor : Ratio
  /-- `NNOTES`. -/
  notes : Nat
  /-- `SIL_FRAMES`. -/
  silFrames : Nat
  /-- `Q_SIL_THR`. -/
  silThr : Ratio
  /-- `NBANDS`. -/
  bands : Nat
  /-- `BANDS_PER_OCT`. -/
  bandsPerOct : Nat
  /-- `ENV_FMIN` in Hz. -/
  envFmin : Ratio
  /-- `Q_EPS`. -/
  qEps : Ratio
  /-- `Q_GMAX`. -/
  qGmax : Ratio
  /-- `TR_FRAMES`. -/
  trFrames : Nat
  /-- `A4_HZ`. -/
  a4Hz : Ratio
  /-- `SCALE_ROM`, the scale-degree sets as 12-bit masks (R243); `NSCALES` is their number. -/
  scaleRom : List (BitVec 12)
  /-- `SD_MAXMS`. -/
  sdMaxMs : Nat
  /-- `DL_DEPTH_MAX`. -/
  dlDepthMax : Nat
  /-- `MASK_PHASE_SPLIT`. -/
  maskPhaseSplit : Ratio
  /-- `WIN_DENOM` as a function of N. -/
  winDenom : Nat → Nat

/-- `NSCALES`, the entries of the scale table (R6, R243). -/
def Params.nScales (p : Params) : Nat := p.scaleRom.length

/-- `B_MAX`, the pairs of a frame register: the bins of an analysis frame at the largest size (R21, R73). -/
def Params.binsMax (p : Params) : Nat := 2 ^ p.log2nMax / 2 + 1

/-- The values this hardware takes (R6, R243, R301). -/
def Params.spc : Params where
  log2nMin := 2
  log2nMax := 12
  nsReg := 4
  lockHalfWidth := 4
  peakFloor := ⟨1, 100⟩
  notes := 128
  silFrames := 8
  silThr := ⟨1, 1000⟩
  bands := 48
  bandsPerOct := 5
  envFmin := ⟨20, 1⟩
  qEps := ⟨1, 10000000000⟩
  qGmax := ⟨16, 1⟩
  trFrames := 4
  a4Hz := ⟨440, 1⟩
  scaleRom := [0xFFF, 0xAB5, 0x5AD, 0x295]
  sdMaxMs := 2000
  dlDepthMax := 4096
  maskPhaseSplit := ⟨1, 2⟩
  winDenom := fun n => n

/-- The numerics record `NUM` over a carrier of reals (R320). The units and every command are written once over this
record. `step` takes the default hardware instance (R323), the statements the spec makes in the exact reals take the
reference instance (R321). -/
structure Num (R : Type) where
  add : R → R → R
  sub : R → R → R
  mul : R → R → R
  div : R → R → R
  sqrt : R → R
  sin : R → R
  cos : R → R
  /-- `arg re im`, the two-argument arctangent with the conventions of R11. -/
  arg : R → R → R
  log2 : R → R
  exp2 : R → R
  pi : R
  lt : R → R → Bool
  le : R → R → Bool
  eq : R → R → Bool
  ofInt : Int → R
  floor : R → Int
  ceil : R → Int
  toBits : R → Word
  ofBits : Word → R
  /-- Whether an element of the carrier is a real number. It is the model's own: R327 refuses an overflow to infinity under a
  rounding record, whose carrier holds such elements, while the exact reals have none (log 5). -/
  isReal : R → Bool

/-- A hardware: its numerics record and its parameters, the whole of the table of R6. Every command and the step are
functions of it, so that a claim can quantify over it (R6, R320, U7 to U14). -/
structure Hardware (R : Type) where
  num : Num R
  par : Params

/-- Free value: the byte that address `a` of the bus memory holds after hard reset number `epoch`, before anything
is written there (R380, U1, U2: any value; log 3). -/
opaque Config.powerOnBus (epoch : Nat) (a : Nat) : Byte

/-- Free value: the real that a command finds in the word at word address `a` where nothing has been written since hard
reset number `epoch` and the power-on pattern is no real (U3: the command runs on any value; log 3). -/
opaque Config.powerOnReal (epoch : Nat) (a : Nat) : Word

/-- Free value: the byte that address `a` of the delay-line RAM holds after hard reset number `epoch` (R380, U1;
log 3). -/
opaque Config.powerOnDelay (epoch : Nat) (a : Nat) : Byte

/-- Free value: what the hardware's `sin` may answer; `Machine.f32Sin` keeps it inside the contract of R326. -/
opaque Config.sinRaw : Word → Word

/-- Free value: what the hardware's `cos` may answer; `Machine.f32Cos` keeps it inside the contract of R326. -/
opaque Config.cosRaw : Word → Word

/-- Free value: what the hardware's `arg` may answer for a real and an imaginary part; `Machine.f32Arg` keeps it
inside the contract of R326. -/
opaque Config.argRaw : Word → Word → Word

/-- Free value: what the hardware's `log2` may answer; `Machine.f32Log2` keeps it inside the contract of R326 for
arguments above 0; for others, which no rule asks for, it stays free. -/
opaque Config.log2Raw : Word → Word

/-- Free value: what the hardware's `exp2` may answer; `Machine.f32Exp2` keeps it inside the contract of R326. -/
opaque Config.exp2Raw : Word → Word

end Sys2Proof
end

