-- ==== Sys2Proof/Machine/State.lean ====
section
/-! DEFINITION. The state of SPC as plain data (spec/10_state.md), its value after hard reset (spec/70_reset_and_hazards.md
R380), and the reasons a step can stop. -/

namespace Sys2Proof.Machine

/-- The window enum of `WINDOW` and `WIN_ACT`: 0 Hann, 1 Hamming, 2 Blackman (R28). -/
inductive Window where
  | hann | hamming | blackman
deriving DecidableEq, Repr

/-- The mask mode enum of `MK_MODE`: 0 LowPass, 1 HighPass, 2 BandPass (R32). -/
inductive MaskMode where
  | lowPass | highPass | bandPass
deriving DecidableEq, Repr

/-- The six faults of SPC (R341). They are recorded in the state; none of them stops the machine. -/
inductive Cause where
  /-- CFG with a size that is no power of two or out of range. -/
  | cfgBadSize
  /-- CFG with a hop that is not positive or above the size. -/
  | cfgBadHop
  /-- A command reads a buffer whose length tag is not the length it needs. -/
  | lenMismatch
  /-- A command word that matches no row of the opcode map. -/
  | illegalCmd
  /-- A command other than NOP and CFG while `CFG_OK` is 0. -/
  | notConfigured
  /-- CFG with a sample rate that is not a finite number above 0. -/
  | cfgBadRate
deriving DecidableEq, Repr

/-- Storage in one canonical form: `cells` holds (address, byte) pairs with strictly rising addresses and no pair whose
byte is what an unlisted address reads as. An unlisted address reads as `fill`; `none` says that nothing has written it
since hard reset, so that its content is the free power-on value (R380, log 3). -/
structure Memory where
  fill : Option Byte
  cells : List Host.Cell
deriving DecidableEq, Repr

/-- Storage that nothing has written since hard reset (R380). -/
def Memory.powerOn : Memory := ⟨none, []⟩

/-- Storage cleared to zero (R139). -/
def Memory.zeroed : Memory := ⟨some 0, []⟩

/-- The staged configuration registers (R28). -/
structure StagedCfg where
  fftSize : Word
  hop : Word
  window : Window
  sampleRate : Word
deriving DecidableEq, Repr

/-- The active configuration registers, written by a successful CFG (R28). -/
structure ActiveCfg where
  n : Word
  hop : Word
  window : Window
  fs : Word
deriving DecidableEq, Repr

/-- The length tags (R29). -/
structure Tags where
  t : Word
  z : Word
  s : Vector Word 4
deriving DecidableEq, Repr

/-- The quantizer parameter registers (R31). -/
structure QuantCtl where
  strength : Word
  root : Fin 12
  /-- `Q_SCALE`, below `NSCALES` in every state a run reaches (R349). -/
  scale : Word
  driftEn : Bool
  envEn : Bool
  preserve : Word
  transThr : Word
  transAmt : Word
deriving DecidableEq, Repr

/-- The mask parameter registers (R32). -/
structure MaskCtl where
  mode : MaskMode
  lo : Word
  hi : Word
  width : Word
deriving DecidableEq, Repr

/-- The spectral delay parameter registers (R33). -/
structure DelayCtl where
  timeMs : Word
  slope : Word
  feedback : Word
  damping : Word
  mix : Word
  gain : Word
deriving DecidableEq, Repr

/-- The control registers (R26 to R33). `STATUS`, `IP` and `IE` are views of the flag bits kept here; `STATUS.BUSY` is
the presence of a command in flight; `ID` is a constant and `CMD` has no storage. -/
structure Csrs where
  /-- `STATUS.CFG_OK`. -/
  cfgOk : Bool
  /-- `STATUS.ERR`, the same bit as `IP.ERR`. -/
  err : Bool
  /-- `STATUS.PV_FIRST`. -/
  pvFirst : Bool
  /-- `STATUS.Q_FIRST`. -/
  qFirst : Bool
  /-- `STATUS.CFG_DIRTY`. -/
  cfgDirty : Bool
  /-- `STATUS.MASK_DIRTY`. -/
  maskDirty : Bool
  /-- `STATUS.SD_DIRTY`. -/
  sdDirty : Bool
  /-- `ERR_CODE`. -/
  errCode : Word
  /-- `ERR_INFO`. -/
  errInfo : Word
  /-- `IE.DONE`. -/
  ieDone : Bool
  /-- `IE.ERR`. -/
  ieErr : Bool
  /-- `IP.DONE`. -/
  ipDone : Bool
  staged : StagedCfg
  active : ActiveCfg
  tags : Tags
  /-- `SHIFT_HZ`. -/
  shiftHz : Word
  /-- `PV_CTRL.LOCK_EN`. -/
  lockEn : Bool
  quant : QuantCtl
  /-- `Q_PREV_E`. -/
  qPrevE : Word
  /-- `Q_TR_CNT`. -/
  qTrCnt : Word
  mask : MaskCtl
  delay : DelayCtl
  /-- `SD_DEPTH`. -/
  sdDepth : Word
  /-- `SD_WR`. -/
  sdWr : Word
deriving DecidableEq, Repr

/-- The command in flight: the latched command, decoded (R24, log 16), the control registers as latched at issue
(R82), and how many more host accesses are served before it completes (the free time of U4, log 10). -/
structure InFlight where
  instr : Instr
  latched : Csrs
  left : Nat
deriving DecidableEq, Repr

/-- What the outside world does to SPC: the host's one-word accesses (R72) and the hard-reset input (R380). -/
inductive HostEvent where
  /-- `MemRead(a, 1)`. -/
  | read (a : WordAddr)
  /-- `MemWrite(a, 1, v)`. -/
  | write (a : WordAddr) (v : Word)
  /-- The hard-reset input. -/
  | hardReset
deriving DecidableEq, Repr

/-- The state of one SPC and of what is to come at its bus. -/
structure State where
  /-- The control registers. -/
  csr : Csrs
  /-- The storage behind the bus window (R73), at byte addresses 4a to 4a + 3 for word address a (R75). -/
  mem : Memory
  /-- The delay-line RAM, not on the bus (R46, R71). -/
  delay : Memory
  /-- The command in flight, if `BUSY` is 1 (R25). -/
  inFlight : Option InFlight
  /-- The host's events to come, oldest first (the model's own input, log 11). -/
  pending : List HostEvent
  /-- For each command still to be issued, how many host accesses it overlaps; an absent entry is 0 (log 10). -/
  overlap : List Nat
  /-- The words the host's reads returned, oldest first (log 12). -/
  readLog : List Word
  /-- The number of hard resets so far, which selects the free power-on contents (log 3). -/
  epoch : Nat
deriving DecidableEq, Repr

/-- A step of SPC never stops the machine with a fault: the six faults of R341 are recorded in the state and the
machine goes on, and the spec gives no condition with the treatment "stuck" (spec/93_implementation_defined.md, after
U26). So there is no constructor. -/
inductive Fault
deriving DecidableEq, Repr

/-- The reasons a step has no meaning. -/
inductive Refusal where
  /-- An instruction the model has not reached. No arm of `exec` raises it. Safe: the model stops. -/
  | notModelled (mnemonic : String)
  /-- A command reads a real that is an infinity or NaN pattern, or computes one by overflow: the spec's treatment is
  "refuse", the state after such a command is not defined (R327, U5). Raised by `runCommand` for every command that
  handles reals. Safe: the model stops. -/
  | nonFiniteReal
deriving DecidableEq, Repr

/-- The control registers after hard reset (R380, R27 to R33). -/
def Csrs.reset : Csrs where
  cfgOk := false
  err := false
  pvFirst := true
  qFirst := true
  cfgDirty := false
  maskDirty := false
  sdDirty := false
  errCode := 0
  errInfo := 0
  ieDone := false
  ieErr := false
  ipDone := false
  staged := ⟨0, 0, .hann, 0⟩
  active := ⟨0, 0, .hann, 0⟩
  tags := ⟨0, 0, #v[0, 0, 0, 0]⟩
  shiftHz := 0
  lockEn := false
  quant := ⟨0, 0, 0, false, false, 0, 0, 0⟩
  qPrevE := 0
  qTrCnt := 0
  mask := ⟨.lowPass, 0, 0, 0⟩
  delay := ⟨0, 0, 0, 0, 0, 0⟩
  sdDepth := 0
  sdWr := 0

/-- The machine after hard reset (R380): the control registers at their values, every storage word an arbitrary value,
no command in flight, nothing yet at the bus. -/
def State.reset : State where
  csr := Csrs.reset
  mem := Memory.powerOn
  delay := Memory.powerOn
  inFlight := none
  pending := []
  overlap := []
  readLog := []
  epoch := 0

end Sys2Proof.Machine
end

