-- ==== Sys2Proof/Machine/Memory.lean ====
section
/-! DEFINITION. Storage: its canonical form, reading and writing bytes and words (spec/20_memory.md R70, R72, R75).
Byte order is decided here once: the word at word address a lies at byte addresses 4a to 4a + 3, least significant byte
first (R75). -/

namespace Sys2Proof.Machine

/-- The first byte listed for an address. -/
def lookupByte (a : Nat) : List Host.Cell → Option Byte
  | [] => none
  | (x, b) :: rest => if x = a then some b else lookupByte a rest

/-- The byte at an address: the listed one, else what an unlisted address reads as; `none` where nothing has been
written since hard reset. -/
def Memory.byte? (m : Memory) (a : Nat) : Option Byte := (lookupByte a m.cells).or m.fill

/-- The pairs to list for `bs` stored from address `a` on: those whose byte is not what an unlisted address reads as. -/
def cellsFrom (fill : Option Byte) : Nat → List Byte → List Host.Cell
  | _, [] => []
  | a, b :: bs => if fill = some b then cellsFrom fill (a + 1) bs else (a, b) :: cellsFrom fill (a + 1) bs

/-- Stores `bs` at addresses `a`, `a + 1`, …, keeping the canonical form. -/
def Memory.writeBytes (m : Memory) (a : Nat) (bs : List Byte) : Memory :=
  { m with
    cells := m.cells.filter (fun c => c.1 < a) ++ cellsFrom m.fill a bs
      ++ m.cells.filter (fun c => a + bs.length ≤ c.1) }

/-- Strictly rising addresses. -/
def risingFrom : Nat → List Host.Cell → Bool
  | _, [] => true
  | lo, (x, _) :: rest => decide (lo ≤ x) && risingFrom (x + 1) rest

/-- The canonical form: addresses strictly rising, no entry equal to what an unlisted address reads as. -/
def Memory.wf (m : Memory) : Bool := risingFrom 0 m.cells && m.cells.all fun c => m.fill != some c.2

/-- The bytes of a word, least significant first (R75). -/
def wordBytes (w : Word) : List Byte := [w.extractLsb' 0 8, w.extractLsb' 8 8, w.extractLsb' 16 8, w.extractLsb' 24 8]

/-- A word from its bytes, `b0` the least significant (R75). -/
def wordOfBytes (b0 b1 b2 b3 : Byte) : Word := b3 ++ b2 ++ b1 ++ b0

/-- The word at word address `a`, where `fresh` gives the bytes of addresses that nothing has written. -/
def Memory.word (m : Memory) (fresh : Nat → Byte) (a : Nat) : Word :=
  let byte := fun i => (m.byte? (4 * a + i)).getD (fresh (4 * a + i))
  wordOfBytes (byte 0) (byte 1) (byte 2) (byte 3)

/-- Stores words at consecutive word addresses from `a` on. -/
def Memory.writeWords (m : Memory) (a : Nat) (ws : List Word) : Memory := m.writeBytes (4 * a) (ws.flatMap wordBytes)

end Sys2Proof.Machine
end

