-- ==== Sys2Proof/Machine/Flags.lean ====
section
/-! DEFINITION. The flag words `STATUS`, `IE` and `IP`, the dirty bits and the interrupt line (spec/10_state.md R25, R27,
spec/60_exceptions.md R347, R350, R351). No command sets an arithmetic flag: SPC has none (R25). -/

namespace Sys2Proof.Machine

/-- A word with bit `i` equal to `b` and every other bit 0. -/
def flagBit (b : Bool) (i : Nat) : Word := if b then BitVec.ofNat 32 (2 ^ i) else 0

/-- `STATUS.BUSY` (R25). -/
def State.busy (s : State) : Bool := s.inFlight.isSome

/-- The word `STATUS` (R25); bits 31:8 read 0. -/
def State.status (s : State) : Word :=
  flagBit s.busy 0 ||| flagBit s.csr.cfgOk 1 ||| flagBit s.csr.err 2 ||| flagBit s.csr.pvFirst 3
    ||| flagBit s.csr.qFirst 4 ||| flagBit s.csr.cfgDirty 5 ||| flagBit s.csr.maskDirty 6 ||| flagBit s.csr.sdDirty 7

/-- The word `IE` (R27). -/
def Csrs.ieWord (c : Csrs) : Word := flagBit c.ieDone 0 ||| flagBit c.ieErr 1

/-- The word `IP` (R27): bit 0 `DONE`, bit 1 `ERR`, the same bit as `STATUS.ERR` (R351). -/
def Csrs.ipWord (c : Csrs) : Word := flagBit c.ipDone 0 ||| flagBit c.err 1

/-- The interrupt line: `(IE.DONE and IP.DONE) or (IE.ERR and IP.ERR)` (R350). -/
def State.irq (s : State) : Bool := (s.csr.ieDone && s.csr.ipDone) || (s.csr.ieErr && s.csr.err)

/-- A write to `IE`: bits 31:2 are ignored (R27). -/
def Csrs.writeIe (c : Csrs) (v : Word) : Csrs := { c with ieDone := v.getLsbD 0, ieErr := v.getLsbD 1 }

/-- Return from a fault: `STATUS.ERR`, `ERR_CODE` and `ERR_INFO` are cleared (R347). -/
def Csrs.clearFault (c : Csrs) : Csrs := { c with err := false, errCode := 0, errInfo := 0 }

/-- Clearing `IP.DONE` (R351). -/
def Csrs.clearDone (c : Csrs) : Csrs := { c with ipDone := false }

/-- A write to `IP`: a 1 in bit 0 clears `DONE`, a 1 in bit 1 is the return from a fault (R347, R351). -/
def Csrs.writeIp (c : Csrs) (v : Word) : Csrs :=
  let d := if v.getLsbD 0 then c.clearDone else c
  if v.getLsbD 1 then d.clearFault else d

end Sys2Proof.Machine
end

