-- ==== Sys2Proof/Machine/Float.lean ====
section
/-! DEFINITION. IEEE 754 binary32 arithmetic on bit patterns: the carrier and the correctly rounded operations of the
default hardware instance of `NUM` (spec/48_numerics.md R322, R323: round to nearest, ties to even).

Every finite pattern is an integer multiple of 2^-149, so a finite value is handled as that exact integer (`f32Fix`) and
every result is rounded once, from an exact quotient of naturals. An operation with a non-finite operand, or whose result
leaves the finite range, answers a non-finite pattern; commands refuse those (R327, log 5). -/

namespace Sys2Proof.Machine

/-- The one pattern by which an operation says that it has no finite result. -/
def f32Nan : Word := 0x7FC00000

/-- Bits 30:23, the biased exponent (R322). -/
def f32Exp (w : Word) : Nat := (w.extractLsb' 23 8).toNat

/-- Bits 22:0, the fraction (R322). -/
def f32Frac (w : Word) : Nat := (w.extractLsb' 0 23).toNat

/-- Bit 31, the sign (R322). -/
def f32Neg (w : Word) : Bool := w.msb

/-- Neither an infinity nor a NaN (R327). -/
def f32Finite (w : Word) : Bool := f32Exp w != 255

/-- A free value that is a real: the opaque constant where it is finite, else 0. -/
def freeReal (raw : Word) : Word := if f32Finite raw then raw else 0

/-- The size of a finite pattern in units of 2^-149. -/
def f32Mag (w : Word) : Nat :=
  if f32Exp w = 0 then f32Frac w else (2 ^ 23 + f32Frac w) <<< (f32Exp w - 1)

/-- The exact value of a finite pattern in units of 2^-149. -/
def f32Fix (w : Word) : Int := if f32Neg w then -(f32Mag w : Int) else (f32Mag w : Int)

/-- `q` rounded from the exact quotient `n / d` to the nearest integer, ties to even. -/
def roundQuot (n d : Nat) : Nat :=
  let q := n / d
  let r := n % d
  if 2 * r < d then q else if d < 2 * r then q + 1 else q + q % 2

/-- The binary32 pattern nearest to `n / d` units of 2^-149, ties to even, with the sign given; the infinity pattern if
it rounds beyond the finite range. -/
def f32Pack (neg : Bool) (n d : Nat) : Word :=
  let k := Nat.log2 (n / d) - 23
  let body := (k <<< 23) + roundQuot n (d <<< k)
  let inRange := if body < 0x7F800000 then body else 0x7F800000
  BitVec.ofNat 32 (if neg then 0x80000000 + inRange else inRange)

/-- The pattern nearest to an exact integer number of units of 2^-149. -/
def f32OfFix (x : Int) : Word := f32Pack (x < 0) x.natAbs 1

/-- One unit: the value 1.0 in units of 2^-149. -/
def f32One : Nat := 1 <<< 149

/-- The pattern nearest to an integer (`ofInt` of R320). R323 does not say how an integer above 2^24 that is no binary32
value is rounded: to nearest, ties to even, as for the arithmetic, is the model's choice (DESIGN CHOICE, log 25). -/
def f32OfInt (x : Int) : Word := f32OfFix (x * (f32One : Int))

/-- Correctly rounded sum (R323). An exact zero is +0 unless both operands are negative zeros (IEEE 754). -/
def f32Add (a b : Word) : Word :=
  if f32Finite a && f32Finite b then
    let x := f32Fix a + f32Fix b
    f32Pack (x < 0 || (x == 0 && f32Neg a && f32Neg b)) x.natAbs 1
  else f32Nan

/-- The pattern with its sign bit changed. -/
def f32Flip (a : Word) : Word := a ^^^ 0x80000000

/-- Correctly rounded difference (R323). -/
def f32Sub (a b : Word) : Word := f32Add a (f32Flip b)

/-- Correctly rounded product (R323). -/
def f32Mul (a b : Word) : Word :=
  if f32Finite a && f32Finite b then
    f32Pack (f32Neg a != f32Neg b) (f32Mag a * f32Mag b) f32One
  else f32Nan

/-- Correctly rounded quotient (R323); a zero divisor has no finite result. -/
def f32Div (a b : Word) : Word :=
  if f32Finite a && f32Finite b && f32Mag b != 0 then
    f32Pack (f32Neg a != f32Neg b) (f32Mag a * f32One) (f32Mag b)
  else f32Nan

/-- The integer square root by bits, from bit `k - 1` of the root down: the largest `r` with `r * r ≤ x` among those
that extend `acc` by `k` bits. -/
def isqrtFrom : Nat → Nat → Nat → Nat
  | 0, _, acc => acc
  | k + 1, x, acc =>
    let r := acc + 1 <<< k
    isqrtFrom k x (if r * r ≤ x then r else acc)

/-- The integer square root. -/
def isqrt (x : Nat) : Nat := isqrtFrom (Nat.log2 x / 2 + 1) x 0

/-- Correctly rounded square root (R323). With `m` units, the root is `isqrt (m * 2^149)` units and a remainder; it
is computed with 256 further bits, and the last of them is set when the root is inexact, so that rounding never sees a
tie that is not one. A negative number has none. -/
def f32Sqrt (a : Word) : Word :=
  if !f32Finite a then f32Nan
  else if f32Mag a = 0 then a
  else if f32Neg a then f32Nan
  else
    let x := f32Mag a <<< (149 + 512)
    let r := isqrt x
    f32Pack false (2 * r + (if r * r = x then 0 else 1)) (1 <<< 257)

/-- `a < b` on finite patterns (R320 `lt`). -/
def f32Lt (a b : Word) : Bool := f32Finite a && f32Finite b && f32Fix a < f32Fix b

/-- `a ≤ b` on finite patterns (R320 `le`). -/
def f32Le (a b : Word) : Bool := f32Finite a && f32Finite b && f32Fix a ≤ f32Fix b

/-- `a = b` on finite patterns; the two zeros are equal (R320 `eq`). -/
def f32Eq (a b : Word) : Bool := f32Finite a && f32Finite b && f32Fix a == f32Fix b

/-- The greatest integer ≤ the value; 0 for a non-finite pattern, which commands refuse. -/
def f32Floor (a : Word) : Int := if f32Finite a then f32Fix a >>> 149 else 0

/-- The least integer ≥ the value; 0 for a non-finite pattern, which commands refuse. -/
def f32Ceil (a : Word) : Int := if f32Finite a then -((-(f32Fix a)) >>> 149) else 0

end Sys2Proof.Machine
end

