-- ==== Sys2Proof/Machine/BusMap.lean ====
section
/-! DEFINITION. The address map of the bus window (spec/20_memory.md R73) and the words of its storage. What depends on the
parameters of R6 takes them as a last argument, by default the values that this hardware has. -/

namespace Sys2Proof.Machine

/-- Whether the host may write a region (R73). -/
inductive HostAccess where
  | rw | ro
deriving DecidableEq, Repr

/-- A region of the bus window above the control registers: word base, size in words, host access, and the number of
words of it that exist (R73; pairs at k ≥ 2049 of a frame register do not exist). -/
structure Region where
  base : Nat
  size : Nat
  access : HostAccess
  exist : Nat
deriving DecidableEq, Repr

/-- Word base of `T` (R73). -/
def tBase : Nat := 0x01000
/-- Word base of `Z` (R73). -/
def zBase : Nat := 0x02000
/-- Word base of frame register `S[r]` (R73). -/
def sBase (r : SReg) : Nat := 0x04000 + 0x2000 * r.val
/-- Word base of `TW` (R73). -/
def twBase : Nat := 0x0C000
/-- Word base of `BR` (R73). -/
def brBase : Nat := 0x0E000
/-- Word base of `WIN` (R73). -/
def winBase : Nat := 0x0F000
/-- Word base of `MASK` (R73). -/
def maskBase : Nat := 0x10000
/-- Word base of `DAMP` (R73). -/
def dampBase : Nat := 0x10800
/-- Word base of `DLEN` (R73). -/
def dlenBase : Nat := 0x11000
/-- Word base of `BAND` (R73). -/
def bandBase : Nat := 0x11800
/-- Word base of `DRIFT` (R73). -/
def driftBase : Nat := 0x12000
/-- Word base of `PV_PMAG` (R73). -/
def pmagBase : Nat := 0x13000
/-- Word base of `PV_PPH` (R73). -/
def pphBase : Nat := 0x14000
/-- Word base of `PV_SPH` (R73). -/
def sphBase : Nat := 0x15000
/-- Word base of `Q_ACC` (R73). -/
def accBase : Nat := 0x16000
/-- Word base of `Q_SIL` (R73). -/
def silBase : Nat := 0x16080
/-- Word base of `Q_ENV` (R73). -/
def envBase : Nat := 0x16100

/-- Whether a frame register is there: `NSREG` of the four that the encoding can name (R21, U14, log 14). -/
def present (r : SReg) (par : Params := Params.spc) : Bool := decide (r.val < par.nsReg)

/-- The region of a frame register, of which the words of `B_MAX` pairs exist, or none if the register is absent (R73). -/
def frameRegion (r : SReg) (par : Params := Params.spc) : Region :=
  ⟨sBase r, 0x2000, .rw, if present r par then 2 * par.binsMax else 0⟩

/-- The regions of R73 above the control registers, in the order of the table. -/
def regions (par : Params := Params.spc) : List Region :=
  [⟨tBase, 0x1000, .rw, 0x1000⟩, ⟨zBase, 0x2000, .rw, 0x2000⟩,
   frameRegion 0 par, frameRegion 1 par, frameRegion 2 par, frameRegion 3 par,
   ⟨twBase, 0x1000, .ro, 0x1000⟩, ⟨brBase, 0x1000, .ro, 0x1000⟩, ⟨winBase, 0x1000, .ro, 0x1000⟩,
   ⟨maskBase, 0x800, .ro, 0x800⟩, ⟨dampBase, 0x800, .ro, 0x800⟩, ⟨dlenBase, 0x800, .ro, 0x800⟩,
   ⟨bandBase, 0x800, .ro, 0x800⟩, ⟨driftBase, 0x800, .rw, 0x800⟩,
   ⟨pmagBase, 0x1000, .ro, 0x1000⟩, ⟨pphBase, 0x1000, .ro, 0x1000⟩, ⟨sphBase, 0x1000, .ro, 0x1000⟩,
   ⟨accBase, 0x80, .ro, 0x80⟩, ⟨silBase, 0x80, .ro, 0x80⟩, ⟨envBase, 0x30, .ro, 0x30⟩]

/-- The region that holds a word address, if it is mapped (R73). -/
def regionOf (a : Nat) (par : Params := Params.spc) : Option Region :=
  (regions par).find? fun r => decide (r.base ≤ a ∧ a < r.base + r.size)

/-- Whether a word of storage stands behind a word address (R73). -/
def Region.existsAt (r : Region) (a : Nat) : Bool := decide (a < r.base + r.exist)

/-- Whether a host write to a word address lands in storage (R73, R371). -/
def hostWritable (a : Nat) (par : Params := Params.spc) : Bool :=
  match regionOf a par with
  | none => false
  | some r => r.access == .rw && r.existsAt a

/-- The word of bus storage at a word address as the host reads it (R73); an unwritten byte is the free power-on value
(R380, log 3). -/
def State.rawWord (s : State) (a : Nat) : Word := s.mem.word (Config.powerOnBus s.epoch) a

/-- The word of bus storage at a word address as a command reads it. A word that nothing has written since hard reset, and
whose power-on pattern is no real, is read as some real: a command runs on every value of unloaded words (U3, R381, log 3).
-/
def State.word (s : State) (a : Nat) : Word :=
  if (s.mem.byte? (4 * a)).isNone && !f32Finite (s.rawWord a) then freeReal (Config.powerOnReal s.epoch a) else s.rawWord a

/-- `n` words of bus storage from a word address on. -/
def State.words (s : State) (a n : Nat) : List Word := (List.range n).map fun i => s.word (a + i)

/-- The state with words stored from a word address on. -/
def State.putWords (s : State) (a : Nat) (ws : List Word) : State := { s with mem := s.mem.writeWords a ws }

/-- A host read above the control registers: the word stored there, 0 where nothing exists (R73). -/
def State.busRead (s : State) (a : Nat) (par : Params := Params.spc) : Word :=
  match regionOf a par with
  | none => 0
  | some r => if r.existsAt a then s.rawWord a else 0

/-- A host write above the control registers: lands in a read-write region, is ignored elsewhere (R73, R371). -/
def State.busWrite (s : State) (a : Nat) (v : Word) (par : Params := Params.spc) : State :=
  if hostWritable a par then s.putWords a [v] else s

/-- The word index of `DL_MAG[k][i]` in the delay-line RAM, `DL_DEPTH_MAX` pairs a line; `DL_PH[k][i]` follows it. The
layout is the model's: the RAM is not on the bus (R46, log 4). -/
def delayIndex (k i : Nat) (par : Params := Params.spc) : Nat := 2 * (par.dlDepthMax * k + i)

/-- The word of delay-line RAM at an index (R46, R71). -/
def State.delayWord (s : State) (a : Nat) : Word := s.delay.word (Config.powerOnDelay s.epoch) a

end Sys2Proof.Machine
end

