-- ==== Sys2Proof/Machine/Elementary.lean ====
section
/-! DEFINITION. `sin`, `cos`, `arg`, `log2` and `exp2` of the hardware instance of `NUM` (spec/48_numerics.md R323): "any
functions within the tolerance contract of rule R326". Each is a free value (an opaque constant of Config) held inside
that contract. R326 bounds the results of rules and commands, which are made of many such values, so one value is held closer
than 1e-5: where the free value is within 2^-23 of the reference value, relative to it, it stands, elsewhere the binary32 pattern
nearest to the reference value stands. At the angles of the twiddle table `sin` and `cos` answer the pattern nearest to the value
at the exact angle, and at the intervals of the 128 notes `exp2` the pattern nearest to the exact power (DESIGN CHOICE, log 2).

The reference values are computed in integers: `fixBits` fraction bits, error below 2^-60. -/

namespace Sys2Proof.Machine

/-- The fraction bits of the fixed-point reference values. -/
def fixBits : Nat := 80

/-- 1 with `fixBits` fraction bits. -/
def fixOne : Int := ((1 <<< fixBits : Nat) : Int)

/-- 2π with 400 fraction bits. -/
def twoPi400 : Int :=
  16224754493461942477724542702601789038322303200358530407182382075230461810747980997491046721853633630855133559454655152472

/-- π with `fixBits` fraction bits. -/
def piFix : Int := 3797952473636338580787993

/-- The natural logarithm of 2 with `fixBits` fraction bits. -/
def ln2Fix : Int := 837963523372001241319907

/-- Fixed-point product. -/
def fixMul (a b : Int) : Int := (a * b) >>> fixBits

/-- Fixed-point quotient of naturals. -/
def fixDiv (a b : Nat) : Nat := (a <<< fixBits) / b

/-- A fixed-point value in units of 2^-149. -/
def fixToUnits (x : Int) : Int := x * ((1 <<< 69 : Nat) : Int)

/-- Whether a value is within 2^-23 of the reference value, relative to it (DESIGN CHOICE, log 2): the bound on one
elementary value under which the results of rules stay within the contract (R326). Both in units of 2^-149. -/
def withinContract (ref x : Int) : Bool := (x - ref).natAbs <<< 23 ≤ ref.natAbs

/-- A free value held within the bound around the reference value `ref`, in units of 2^-149. -/
def heldBy (ref : Int) (raw : Word) : Word :=
  if f32Finite raw && withinContract ref (f32Fix raw) then raw else f32OfFix ref

/-- The sum `t + t * (-r2) / ((k+1)(k+2)) + …` of `fuel` terms, the Taylor series of sine (from `t = r`, `k = 1`) and
cosine (from `t = 1`, `k = 0`). -/
def alternatingSeries : Nat → Int → Int → Nat → Int
  | 0, _, _, _ => 0
  | fuel + 1, r2, t, k => t + alternatingSeries fuel r2 (-(fixMul t r2) / (((k + 1) * (k + 2) : Nat) : Int)) (k + 2)

/-- The value of a finite pattern modulo 2π, in (-π, π], with `fixBits` fraction bits. -/
def reduceAngle (w : Word) : Int :=
  let r := (f32Fix w * ((1 <<< 251 : Nat) : Int)) % twoPi400
  let c := if 2 * r ≤ twoPi400 then r else r - twoPi400
  c >>> 320

/-- Reference value of sin, in units of 2^-149. -/
def sinRef (w : Word) : Int :=
  let r := reduceAngle w
  fixToUnits (alternatingSeries 24 (fixMul r r) r 1)

/-- Reference value of cos, in units of 2^-149. -/
def cosRef (w : Word) : Int :=
  let r := reduceAngle w
  fixToUnits (alternatingSeries 24 (fixMul r r) fixOne 0)

/-- The angle of entry `i` of the twiddle table, `2π i / 4096`, among them those of every smaller N (R151). -/
def twiddleAngle (i : Nat) : Word := f32Div (f32Mul (f32Mul (f32OfInt 2) 0x40490FDB) (f32OfInt i)) (f32OfInt 4096)

/-- The entry of the twiddle table whose angle is nearest to `w`. -/
def twiddleIndex (w : Word) : Int := (f32Fix w * ((1 <<< 264 : Nat) : Int) + twoPi400) / (2 * twoPi400)

/-- Whether a finite pattern is the angle of one of the 2048 entries. -/
def isTwiddleAngle (w : Word) : Bool :=
  let i := twiddleIndex w
  0 ≤ i && i < 2048 && w == twiddleAngle i.toNat

/-- `sin (2π j / 4096)` for j in 0..1024, the exact angle, in units of 2^-149. -/
def quarterSin (j : Nat) : Int :=
  let r := (twoPi400 * j / 4096) >>> 320
  fixToUnits (alternatingSeries 24 (fixMul r r) r 1)

/-- `sin (2π i / 4096)` for i in 0..2047, from the first quadrant. -/
def turnSin (i : Nat) : Int := if i ≤ 1024 then quarterSin i else quarterSin (2048 - i)

/-- `cos (2π i / 4096)` for i in 0..2047, from the first quadrant. -/
def turnCos (i : Nat) : Int := if i ≤ 1024 then quarterSin (1024 - i) else -quarterSin (i - 1024)

/-- A sine or cosine of `w`: at the angles of the twiddle table the pattern nearest to the value `exact` of the exact angle
`2π i / 4096`, not of the rounded one, so that `TW[N/4]` is exactly `-j` (R151), the program P1 is exact in binary32
(95_test_vectors.md) and the round trip of R326 (a) holds through up to 24 stages of the network (DESIGN CHOICE, log 2); a held
free value elsewhere. -/
def heldAngle (w : Word) (exact : Nat → Int) (ref : Int) (raw : Word) : Word :=
  if isTwiddleAngle w then f32OfFix (exact (twiddleIndex w).toNat) else heldBy ref raw

/-- `sin` (R320, R323). -/
def f32Sin (w : Word) : Word := if f32Finite w then heldAngle w turnSin (sinRef w) (Config.sinRaw w) else f32Nan

/-- `cos` (R320, R323). -/
def f32Cos (w : Word) : Word := if f32Finite w then heldAngle w turnCos (cosRef w) (Config.cosRaw w) else f32Nan

/-- The series of arctan, `q - q^3/3 + q^5/5 - …`, from the power `p` and the odd number `k`. -/
def arctanSeries : Nat → Int → Int → Nat → Int
  | 0, _, _, _ => 0
  | fuel + 1, q2, p, k => p / (k : Int) + arctanSeries fuel q2 (-(fixMul p q2)) (k + 2)

/-- Half the angle whose tangent is `q`: `q / (1 + sqrt (1 + q^2))`. -/
def halfTangent (q : Nat) : Nat :=
  fixDiv q (fixOne.natAbs + isqrt ((fixOne.natAbs * fixOne.natAbs) + q * q))

/-- arctan of a tangent in [0, 1], three times halved before the series. -/
def arctanFix (q : Nat) : Int :=
  let h : Int := halfTangent (halfTangent (halfTangent q))
  8 * arctanSeries 24 (fixMul h h) h 1

/-- Reference value of the angle of the point with sizes `x` and `y`, in [0, π/2], `fixBits` fraction bits. -/
def firstQuadrant (x y : Nat) : Int :=
  if y ≤ x then arctanFix (fixDiv y x) else piFix / 2 - arctanFix (fixDiv x y)

/-- Reference value of the principal argument of a point that is not the origin, in units of 2^-149 (R11). -/
def argRef (re im : Word) : Int :=
  let a := firstQuadrant (f32Mag re) (f32Mag im)
  let b := if f32Neg re then piFix - a else a
  fixToUnits (if f32Fix im < 0 then -b else b)

/-- The binary32 pattern nearest to π (R322, R330). -/
def f32Pi : Word := 0x40490FDB

/-- `arg` with the conventions of R11: `arg 0 = 0`, else within the contract and between -π and π, both ends as R330
allows. For a negative real part and a negative-zero imaginary part the free value may also be near -π (R330). -/
def f32Arg (re im : Word) : Word :=
  if !(f32Finite re && f32Finite im) then f32Nan
  else if f32Mag re = 0 && f32Mag im = 0 then 0
  else
    let raw := Config.argRaw re im
    let ref := argRef re im
    let inRange := f32Finite raw && f32Mag raw ≤ f32Mag f32Pi
    if inRange && f32Neg re && im == 0x80000000 && withinContract (-ref) (f32Fix raw) then raw
    else if inRange then heldBy ref raw
    else f32OfFix ref

/-- The fraction bits of log2 of a number in [1, 2), by repeated squaring. -/
def log2Bits : Nat → Nat → Nat → Nat
  | 0, _, acc => acc
  | fuel + 1, y, acc =>
    let y2 := (y * y) >>> fixBits
    if 2 <<< fixBits ≤ y2 then log2Bits fuel (y2 >>> 1) (2 * acc + 1) else log2Bits fuel y2 (2 * acc)

/-- Reference value of log2 of a positive finite pattern, in units of 2^-149. -/
def log2Ref (w : Word) : Int :=
  let m := f32Mag w
  let e := Nat.log2 m
  let y := (m <<< fixBits) >>> e
  let frac := log2Bits 64 y 0
  ((e : Int) - 149) * (f32One : Int) + ((frac <<< 85 : Nat) : Int)

/-- `log2` (R320, R323). The relative bound makes `log2(1) = 0`, on which the worked mask values rest (R328, log 2). At 0 and
below the spec states no value: a free real, which no rule asks for (log 2). -/
def f32Log2 (w : Word) : Word :=
  if !f32Finite w then f32Nan
  else if f32Neg w || f32Mag w = 0 then freeReal (Config.log2Raw w)
  else heldBy (log2Ref w) (Config.log2Raw w)

/-- The sum `t + t * x / k + …` of `fuel` terms, the Taylor series of the exponential (from `t = 1`, `k = 1`). -/
def expSeries : Nat → Int → Int → Nat → Int
  | 0, _, _, _ => 0
  | fuel + 1, x, t, k => t + expSeries fuel x (fixMul t x / (k : Int)) (k + 1)

/-- `2^(n + frac)` for an integer `n` and a fixed-point `frac` in [0, 1), in units of 2^-149; 0 for `n` below -200. -/
def exp2Fix (n frac : Int) : Int :=
  if n < -200 then 0
  else
    let v := expSeries 32 (fixMul frac ln2Fix) fixOne 1
    (v * ((1 <<< (n + 269).toNat : Nat) : Int)) >>> 200

/-- Reference value of exp2 of a finite pattern below 128, in units of 2^-149. -/
def exp2Ref (w : Word) : Int :=
  let n := f32Floor w
  exp2Fix n ((f32Fix w - n * (f32One : Int)) >>> 69)

/-- The binary32 quotient `i / 12`: the interval of `i` semitones in octaves, the argument of `exp2` in R241. -/
def semitones (i : Int) : Word := f32Div (f32OfInt i) (f32OfInt 12)

/-- The number of semitones nearest to an interval. -/
def nearestSemitone (w : Word) : Int := (f32Fix w * 24 + (f32One : Int)) / (2 * (f32One : Int))

/-- Whether a finite pattern is the interval from note 69 to one of the notes 0 to 127 (R241). -/
def isNoteInterval (w : Word) : Bool :=
  let i := nearestSemitone w
  i ≤ 58 && -69 ≤ i && w == semitones i

/-- Reference value of `2^(i / 12)` for the exact quotient, in units of 2^-149. -/
def noteRatio (i : Int) : Int := exp2Fix (i / 12) (i % 12 * fixOne / 12)

/-- `exp2` (R320, R323); beyond the finite range there is no result (R327). At the interval of a note it is the pattern nearest to
the power of the exact quotient, not of the rounded one, so that the accumulator of R265, which turns the phase by 99 radians a
frame, is within the contract (R326 d; DESIGN CHOICE, log 2). -/
def f32Exp2 (w : Word) : Word :=
  if !f32Finite w then f32Nan
  else if isNoteInterval w then f32OfFix (noteRatio (nearestSemitone w))
  else if 128 ≤ f32Floor w then f32Nan
  else heldBy (exp2Ref w) (Config.exp2Raw w)

end Sys2Proof.Machine
end

