-- ==== Sys2Proof/Machine/Numerics.lean ====
section
/-! DEFINITION. The hardware instance of the numerics record (spec/48_numerics.md R323), the active configuration as the
environment in which the units compute (spec/00_scope.md R7), and the notation of R9 and R10 over any numerics record.

Expressions are evaluated in the order written, left to right with the usual precedence (R325). -/

namespace Sys2Proof.Machine

/-- A real-to-integer conversion outside the signed 32-bit range gives the nearer end of the range (R324). -/
def saturate (x : Int) : Int := if x < -2147483648 then -2147483648 else if 2147483647 < x then 2147483647 else x

/-- The default hardware instance of `NUM`: carrier binary32 (R323). The carrier is the bus pattern itself. Its conversions
to integers saturate, also the one inside `wrap` (R324, log 7). -/
def hwNum : Num Word where
  add := f32Add
  sub := f32Sub
  mul := f32Mul
  div := f32Div
  sqrt := f32Sqrt
  sin := f32Sin
  cos := f32Cos
  arg := f32Arg
  log2 := f32Log2
  exp2 := f32Exp2
  pi := f32Pi
  lt := f32Lt
  le := f32Le
  eq := f32Eq
  ofInt := f32OfInt
  floor := fun x => saturate (f32Floor x)
  ceil := fun x => saturate (f32Ceil x)
  toBits := fun x => x
  ofBits := fun w => w
  isReal := f32Finite

/-- The default hardware: the default hardware instance and the values of R6. -/
def spcHardware : Hardware Word := ⟨hwNum, Params.spc⟩

/-- What the units compute in: a numerics record, the parameters, and the active N, HOP and FS (R6, R7). -/
structure Env (R : Type) where
  num : Num R
  par : Params
  /-- `N`. -/
  n : Nat
  /-- `HOP`, a signed integer. -/
  hop : Int
  /-- `FS`. -/
  fs : R

section
variable {R : Type} (E : Env R)

/-- `B = N/2 + 1`, the bins of an analysis frame (R7). -/
def Env.bins : Nat := E.n / 2 + 1

/-- `L = N/2`, the bins the post-shift units process (R7). -/
def Env.lines : Nat := E.n / 2

/-- `LOG2N` (R7). -/
def Env.log2n : Nat := Nat.log2 E.n

/-- A natural number as a real. -/
def Env.nat (k : Nat) : R := E.num.ofInt (k : Int)

/-- The real 0. -/
def Env.zero : R := E.num.ofInt 0

/-- The real 1. -/
def Env.one : R := E.num.ofInt 1

/-- The real 2. -/
def Env.two : R := E.num.ofInt 2

/-- A decimal constant of the spec: the quotient of its two integers (log 6). -/
def Env.lit (q : Ratio) : R := if q.den = 1 then E.num.ofInt q.num else E.num.div (E.num.ofInt q.num) (E.nat q.den)

/-- The real 1/2. -/
def Env.half : R := E.lit ⟨1, 2⟩

/-- The smaller of two reals. `NUM` has no `min`, so it is a comparison; where +0 and -0 meet the spec does not say which of
the two it is, and the model takes the first operand (DESIGN CHOICE, log 24). -/
def Env.min2 (a b : R) : R := if E.num.lt b a then b else a

/-- The larger of two reals. `NUM` has no `max`, so it is a comparison; where +0 and -0 meet the spec does not say which of
the two it is, and the model takes the first operand, so that `max(-0, +0)` is -0 (DESIGN CHOICE, log 24). -/
def Env.max2 (a b : R) : R := if E.num.lt a b then b else a

/-- `clamp(x, lo, hi) = min(max(x, lo), hi)` (R9). -/
def Env.clamp (x lo hi : R) : R := E.min2 (E.max2 x lo) hi

/-- `clamp(x, 0, 1)`. -/
def Env.clamp01 (x : R) : R := E.clamp x E.zero E.one

/-- `-x`, computed as `0 - x` (log 8). -/
def Env.neg (x : R) : R := E.num.sub E.zero x

/-- `|x|` of a real. -/
def Env.abs (x : R) : R := if E.num.lt x E.zero then E.neg x else x

/-- `2π`. -/
def Env.twoPi : R := E.num.mul E.two E.num.pi

/-- `wrap(x) = x − 2π × ceil((x − π) / (2π))`, in (−π, π] (R10). -/
def Env.wrap (x : R) : R :=
  E.num.sub x (E.num.mul E.twoPi (E.num.ofInt (E.num.ceil (E.num.div (E.num.sub x E.num.pi) E.twoPi))))

/-- `log2(f / g)` for f and g above 0. Where the rounded quotient is no longer above 0, so that it has no logarithm, the same
real is computed as `log2(f) − log2(g)` (log 21). -/
def Env.logRatio (f g : R) : R :=
  let q := E.num.div f g
  if E.num.le q E.zero then E.num.sub (E.num.log2 f) (E.num.log2 g) else E.num.log2 q

/-- `binfreq(k) = k × FS / N` (R7). -/
def Env.binfreq (k : Nat) : R := E.num.div (E.num.mul (E.nat k) E.fs) (E.nat E.n)

end

/-- `rnd(x) = floor(x + 1/2)` (R9), saturated (R324). -/
def Env.rnd {R : Type} (E : Env R) (x : R) : Int := saturate (E.num.floor (E.num.add x E.half))

/-- The integer clamp. -/
def clampInt (x lo hi : Int) : Int := min (max x lo) hi

/-- `xs[i]` of an array of reals; an index outside the array does not occur in any rule. -/
def Env.at_ {R : Type} (E : Env R) (xs : List R) (i : Nat) : R := xs.getD i E.zero

/-- The array `f 0, …, f (n - 1)`. -/
def tabulate {A : Type} (n : Nat) (f : Nat → A) : List A := (List.range n).map f

/-- A sum in ascending order starting from 0 (R325). -/
def Env.sum {R : Type} (E : Env R) (xs : List R) : R := xs.foldl E.num.add E.zero

/-- The largest element of a list, the given element where the list is empty. -/
def Env.maxOf {R : Type} (E : Env R) (empty : R) : List R → R
  | [] => empty
  | x :: xs => xs.foldl E.max2 x

/-- A complex number (R9). -/
structure Cx (R : Type) where
  re : R
  im : R
deriving DecidableEq, Repr

section
variable {R : Type} (E : Env R)

/-- Complex sum. -/
def Env.cadd (a b : Cx R) : Cx R := ⟨E.num.add a.re b.re, E.num.add a.im b.im⟩

/-- Complex difference. -/
def Env.csub (a b : Cx R) : Cx R := ⟨E.num.sub a.re b.re, E.num.sub a.im b.im⟩

/-- `(x + j y)(u + j v) = (x u − y v) + j (x v + y u)` (R155). -/
def Env.cmul (a b : Cx R) : Cx R :=
  ⟨E.num.sub (E.num.mul a.re b.re) (E.num.mul a.im b.im), E.num.add (E.num.mul a.re b.im) (E.num.mul a.im b.re)⟩

/-- The conjugate. -/
def Env.conj (a : Cx R) : Cx R := ⟨a.re, E.neg a.im⟩

/-- The complex 0. -/
def Env.czero : Cx R := ⟨E.zero, E.zero⟩

/-- `zs[i]` of an array of complex numbers. -/
def Env.cat_ (zs : List (Cx R)) (i : Nat) : Cx R := zs.getD i E.czero

end

/-- A bin of a spectral frame: magnitude and phase (R21, R22). -/
structure Bin (R : Type) where
  mag : R
  ph : R
deriving DecidableEq, Repr

end Sys2Proof.Machine
end

