-- ==== Sys2Proof/Machine/FftUnit.lean ====
section
/-! DEFINITION. The FFT engine and the window unit as functions over any numerics record (spec/41_fft.md R151 to R159),
and the converters of the STFT unit (spec/42_stft.md R186, R188). -/

namespace Sys2Proof.Machine

section
variable {R : Type} (E : Env R)

/-- `2π i / N`. -/
def Env.angle (i : Nat) : R := E.num.div (E.num.mul E.twoPi (E.nat i)) (E.nat E.n)

/-- `TW[i] = cos(2π i / N) − j sin(2π i / N)` (R151). -/
def Env.twiddle (i : Nat) : Cx R := ⟨E.num.cos (E.angle i), E.neg (E.num.sin (E.angle i))⟩

/-- The twiddle table, N/2 entries (R151). -/
def Env.twTable : List (Cx R) := tabulate (E.n / 2) E.twiddle

end

/-- `n` with its `b`-bit binary representation read backwards (R152). -/
def bitReverse : Nat → Nat → Nat
  | 0, _ => 0
  | b + 1, n => (n % 2) * 2 ^ b + bitReverse b (n / 2)

section
variable {R : Type} (E : Env R)

/-- The bit-reversal table, N entries (R152). -/
def Env.brTable : List Nat := tabulate E.n (bitReverse E.log2n)

/-- `θ(n) = 2π n / WIN_DENOM` (R153). -/
def Env.windowAngle (k : Nat) : R := E.num.div (E.num.mul E.twoPi (E.nat k)) (E.nat (E.par.winDenom E.n))

/-- The window functions (R153). -/
def Env.windowAt (w : Window) (k : Nat) : R :=
  let c := E.num.cos (E.windowAngle k)
  match w with
  | .hann => E.num.sub E.half (E.num.mul E.half c)
  | .hamming => E.num.sub (E.lit ⟨54, 100⟩) (E.num.mul (E.lit ⟨46, 100⟩) c)
  | .blackman =>
    E.num.add (E.num.sub (E.lit ⟨42, 100⟩) (E.num.mul E.half c))
      (E.num.mul (E.lit ⟨8, 100⟩) (E.num.cos (E.num.mul E.two (E.windowAngle k))))

/-- The window table, N entries (R154). -/
def Env.winTable (w : Window) : List R := tabulate E.n (E.windowAt w)

/-- The window applier: `T[n] × WIN[n]` (R161). -/
def Env.applyWindow (t win : List R) : List R := tabulate E.n fun k => E.num.mul (E.at_ t k) (E.at_ win k)

/-- The butterfly unit: `(a + w × b, a − w × b)` (R155). -/
def Env.butterfly (a b w : Cx R) : Cx R × Cx R := (E.cadd a (E.cmul w b), E.csub a (E.cmul w b))

/-- The permutation of the network: `for n in 0..N-1: Y[BR[n]] <- X[n]` (R156). -/
def Env.permute (br : List Nat) (x : List (Cx R)) : List (Cx R) :=
  (List.range E.n).foldl (fun y k => y.set (br.getD k 0) (E.cat_ x k)) (tabulate E.n fun _ => E.czero)

/-- The twiddle of a butterfly: `w <- TW[i * stride]; if inv: w <- conj(w)` (R156). -/
def Env.stageTwiddle (tw : List (Cx R)) (inv : Bool) (half i : Nat) : Cx R :=
  let w := E.cat_ tw (i * (E.n / (2 * half)))
  if inv then E.conj w else w

/-- One stage of the network with butterflies of span `half` (R156). Entry `p` of a group is the upper or the lower
output of its butterfly; the butterflies of a stage touch disjoint pairs, so each entry is written once. -/
def Env.stage (tw : List (Cx R)) (inv : Bool) (half : Nat) (y : List (Cx R)) : List (Cx R) :=
  tabulate E.n fun p =>
    let i := p % (2 * half)
    if i < half then (E.butterfly (E.cat_ y p) (E.cat_ y (p + half)) (E.stageTwiddle tw inv half i)).1
    else (E.butterfly (E.cat_ y (p - half)) (E.cat_ y p) (E.stageTwiddle tw inv half (i - half))).2

/-- The stages in ascending order: `for s in 1..LOG2N` with `m = 2^s`, `half = m / 2` (R156). -/
def Env.stages (tw : List (Cx R)) (inv : Bool) (y : List (Cx R)) : List (Cx R) :=
  (List.range E.log2n).foldl (fun y s => E.stage tw inv (2 ^ s) y) y

/-- The butterfly network `NET(X, inv)` (R156), reading the tables it is given. -/
def Env.net (tw : List (Cx R)) (br : List Nat) (inv : Bool) (x : List (Cx R)) : List (Cx R) :=
  E.stages tw inv (E.permute br x)

/-- The forward transform of real samples: `FWD(T + j 0)` (R158, R163). -/
def Env.fwd (tw : List (Cx R)) (br : List Nat) (t : List R) : List (Cx R) :=
  E.net tw br false (tabulate E.n fun k => ⟨E.at_ t k, E.zero⟩)

/-- The inverse transform: `INV(X)[n] = (1/N) × NET(X, true)[n]` (R159). -/
def Env.inv (tw : List (Cx R)) (br : List Nat) (z : List (Cx R)) : List (Cx R) :=
  let scale := E.num.div E.one (E.nat E.n)
  (E.net tw br true z).map fun y => ⟨E.num.mul scale y.re, E.num.mul scale y.im⟩

/-- Rectangular to polar: modulus and principal argument (R186). -/
def Env.polarBin (z : Cx R) : Bin R :=
  ⟨E.num.sqrt (E.num.add (E.num.mul z.re z.re) (E.num.mul z.im z.im)), E.num.arg z.re z.im⟩

/-- The first B bins of a spectrum as a spectral frame (R186). -/
def Env.polarFrame (z : List (Cx R)) : List (Bin R) := tabulate E.bins fun k => E.polarBin (E.cat_ z k)

/-- `frame[k]`. -/
def Env.binAt (frame : List (Bin R)) (k : Nat) : Bin R := frame.getD k ⟨E.zero, E.zero⟩

/-- Polar to rectangular: `mag cos(ph) + j mag sin(ph)` (R188). -/
def Env.rectBin (b : Bin R) : Cx R := ⟨E.num.mul b.mag (E.num.cos b.ph), E.num.mul b.mag (E.num.sin b.ph)⟩

/-- The conjugate-symmetric spectrum of a frame: bins 0 to B-1 as they are, `Z[N-k] = conj(Z[k])` for k in 1..B-2
(R188). -/
def Env.rectFrame (frame : List (Bin R)) : List (Cx R) :=
  tabulate E.n fun p =>
    if p < E.bins then E.rectBin (E.binAt frame p) else E.conj (E.rectBin (E.binAt frame (E.n - p)))

end

end Sys2Proof.Machine
end

