-- ==== Sys2Proof/Machine/PhaseUnit.lean ====
section
/-! DEFINITION. The phase vocoder and the energy redistributor with the bin shift, as functions over any numerics record
(spec/43_phase_vocoder.md R202 to R208, spec/44_shifter.md R220 to R228). -/

namespace Sys2Proof.Machine

section
variable {R : Type} (E : Env R)

/-- `EXPECT(k) = 2π × binfreq(k) × HOP / FS`, the first of the two equal forms of R202. Which of them a rounding record
evaluates is the model's choice (DESIGN CHOICE, log 22). -/
def Env.expect (k : Nat) : R :=
  E.num.div (E.num.mul (E.num.mul E.twoPi (E.binfreq k)) (E.num.ofInt E.hop)) E.fs

/-- The peak test on bin `k` of magnitudes `mag` (R205). -/
def Env.isPeak (mag : List R) (k : Nat) : Bool :=
  let gmax := E.maxOf E.zero (mag.take E.bins)
  decide (1 ≤ k ∧ k + 2 ≤ E.bins) && E.num.lt (E.at_ mag (k - 1)) (E.at_ mag k)
    && E.num.lt (E.at_ mag (k + 1)) (E.at_ mag k) && E.num.lt (E.num.mul (E.lit E.par.peakFloor) gmax) (E.at_ mag k)

/-- The bins within `h` of bin `k`, nearest first and of two at equal distance the lower first (R206). -/
def lockCandidates (h k : Nat) : List Nat :=
  (List.range (h + 1)).flatMap fun d => if d = 0 then [k] else if d ≤ k then [k - d, k + d] else [k + d]

/-- The peak whose phase bin `k` takes, if some peak's region holds it (R206). -/
def Env.lockPeak (mag : List R) (k : Nat) : Option Nat :=
  (lockCandidates E.par.lockHalfWidth k).find? (E.isPeak mag)

/-- `LOCK(mag, ph)` (R206). -/
def Env.lock (mag ph : List R) : List R :=
  tabulate E.bins fun k => E.at_ ph ((E.lockPeak mag k).getD k)

/-- `dev <- wrap(lph[k] - PV_PPH[k] - EXPECT(k))` (R207). -/
def Env.deviation (k : Nat) (lph pph : R) : R := E.wrap (E.num.sub (E.num.sub lph pph) (E.expect k))

/-- `instf <- binfreq(k) + dev * FS / (2π * HOP)` (R207). -/
def Env.instFreq (k : Nat) (lph pph : R) : R :=
  E.num.add (E.binfreq k)
    (E.num.div (E.num.mul (E.deviation k lph pph) E.fs) (E.num.mul E.twoPi (E.num.ofInt E.hop)))

/-- `inc <- 2π * (instf + shift) * HOP / FS` (R208). -/
def Env.phaseInc (k : Nat) (shift lph pph : R) : R :=
  E.num.div (E.num.mul (E.num.mul E.twoPi (E.num.add (E.instFreq k lph pph) shift)) (E.num.ofInt E.hop)) E.fs

/-- The new synthesis phase `wrap(PV_SPH[k] + inc)` (R208). -/
def Env.synthPhase (k : Nat) (shift lph pph sph : R) : R := E.wrap (E.num.add sph (E.phaseInc k shift lph pph))

/-- The phases a call after the first works with: locked where `LOCK_EN` is 1 (R201). -/
def Env.lockedPhases (lockEn : Bool) (mag ph : List R) : List R := if lockEn then E.lock mag ph else ph

/-- The new synthesis phases of a call after the first, B entries (R201, R208). -/
def Env.synthPhases (shift : R) (lph pph sph : List R) : List R :=
  tabulate E.bins fun k => E.synthPhase k shift (E.at_ lph k) (E.at_ pph k) (E.at_ sph k)

/-- The contributors `C(t)` among source bins 0..M-1, ascending (R220). -/
def contributors (m : Nat) (tgt : Nat → Option Nat) (t : Nat) : List Nat :=
  (List.range m).filter fun k => tgt k == some t

/-- The magnitude of a target from its contributors (R221): the root of the sum of squares, 0 for none, and a single
contributor's magnitude unchanged (log 9). -/
def Env.mergeMag (mag : List R) : List Nat → R
  | [] => E.zero
  | [k] => if E.num.lt (E.at_ mag k) E.zero then E.num.sqrt (E.num.mul (E.at_ mag k) (E.at_ mag k)) else E.at_ mag k
  | ks => E.num.sqrt (E.sum (ks.map fun k => E.num.mul (E.at_ mag k) (E.at_ mag k)))

/-- The dominant contributor: largest magnitude, of several the lowest index (R222). -/
def Env.dominant (mag : List R) : List Nat → Option Nat
  | [] => none
  | k :: ks => some (ks.foldl (fun b j => if E.num.lt (E.at_ mag b) (E.at_ mag j) then j else b) k)

end

/-- What the redistributor returns for one target: `omag[t]`, `oph[t]`, `dom[t]` (R220). -/
structure Merged (R : Type) where
  mag : R
  ph : R
  dom : Option Nat

section
variable {R : Type} (E : Env R)

/-- One target of `REDIST(mag, ph, M, tgt)` (R220 to R224). -/
def Env.redistAt (mag ph : List R) (m : Nat) (tgt : Nat → Option Nat) (t : Nat) : Merged R :=
  let c := contributors m tgt t
  let d := E.dominant mag c
  ⟨E.mergeMag mag c, (d.map (E.at_ ph)).getD E.zero, d⟩

/-- `REDIST(mag, ph, M, tgt)` (R220). -/
def Env.redist (mag ph : List R) (m : Nat) (tgt : Nat → Option Nat) : List (Merged R) :=
  tabulate m (E.redistAt mag ph m tgt)

/-- `δ = SHIFT_HZ × N / FS`, the shift in bins (R227). -/
def Env.shiftBins (shift : R) : R := E.num.div (E.num.mul shift (E.nat E.n)) E.fs

/-- The target of source bin `k` under a shift by `d` bins: dropped outside 0..B-1 (R227, R228). -/
def shiftTarget (bins : Nat) (d : Int) (k : Nat) : Option Nat :=
  if 0 ≤ (k : Int) + d ∧ (k : Int) + d < bins then some ((k : Int) + d).toNat else none

/-- The frame FSH writes (R228). -/
def Env.shiftFrame (shift : R) (mag ph : List R) : List (Bin R) :=
  (E.redist mag ph E.bins (shiftTarget E.bins (E.rnd (E.shiftBins shift)))).map fun o => ⟨o.mag, o.ph⟩

end

end Sys2Proof.Machine
end

