-- ==== Sys2Proof/Machine/QuantUnit.lean ====
section
/-! DEFINITION. The quantization mapper as functions over any numerics record (spec/45_quantizer.md R241 to R266). -/

namespace Sys2Proof.Machine

section
variable {R : Type} (E : Env R)

/-- `midi(f) = 69 + 12 × log2(f / A4_HZ)` for f above 0 (R241). -/
def Env.midi (f : R) : R :=
  E.num.add (E.nat 69) (E.num.mul (E.nat 12) (E.logRatio f (E.lit E.par.a4Hz)))

/-- `notefreq(n) = A4_HZ × exp2((n − 69) / 12)` (R241). -/
def Env.notefreq (n : Nat) : R :=
  E.num.mul (E.lit E.par.a4Hz) (E.num.exp2 (E.num.div (E.num.ofInt ((n : Int) - 69)) (E.nat 12)))

end

/-- The in-scale test: bit `((n − root) mod 12)` of the scale's mask (R242). -/
def inScale (scaleMask : BitVec 12) (root : Nat) (n : Nat) : Bool :=
  scaleMask.getLsbD (((n : Int) - root) % 12).toNat

section
variable {R : Type} (E : Env R)

/-- `NEAR(m)`: the in-scale note nearest to `m`, of two at equal distance the lower, none if no note is in scale
(R244). -/
def Env.near (inScl : Nat → Bool) (m : R) : Option Nat :=
  match (List.range E.par.notes).filter inScl with
  | [] => none
  | n :: ns =>
    let dist := fun n => E.abs (E.num.sub (E.nat n) m)
    some (ns.foldl (fun b j => if E.num.lt (dist j) (dist b) then j else b) n)

/-- `SCALEFREQ(minF, maxF)`: the helper of R266, which no command exposes. -/
def Env.scaleFreq (inScl : Nat → Bool) (minF maxF : R) : List R :=
  if E.num.lt maxF minF then []
  else (((List.range E.par.notes).filter inScl).map E.notefreq).filter fun f => E.num.le minF f && E.num.le f maxF

/-- `band(f)` (R245). -/
def Env.band (f : R) : Nat :=
  if E.num.le f E.zero then 0
  else
    let octaves := E.logRatio f (E.lit E.par.envFmin)
    (clampInt (saturate (E.num.floor (E.num.mul (E.nat E.par.bandsPerOct) octaves))) 0 ((E.par.bands : Int) - 1)).toNat

/-- The band table, L entries (R246). -/
def Env.bandTable : List Nat := tabulate E.lines fun k => E.band (E.binfreq k)

/-- `ENVOF(mag)[b]`: the peak of the bins of band `b`, 0 if there is none (R247). -/
def Env.envAt (band : List Nat) (mag : List R) (b : Nat) : R :=
  E.maxOf E.zero (((List.range E.lines).filter fun k => band.getD k 0 == b).map (E.at_ mag))

/-- `ENVOF(mag)` (R247). -/
def Env.envOf (band : List Nat) (mag : List R) : List R := tabulate E.par.bands (E.envAt band mag)

/-- The frame energy `E = Σ mag[k]²` over bins 0..L-1 (R252). -/
def Env.energy (mag : List R) : R := E.sum (tabulate E.lines fun k => E.num.mul (E.at_ mag k) (E.at_ mag k))

/-- The right side of the detection test, `Q_TRANS_THR × max(Q_PREV_E, Q_EPS)` (R255). -/
def Env.transientLimit (thr prevE : R) : R := E.num.mul thr (E.max2 prevE (E.lit E.par.qEps))

/-- Detection of a transient (R255). -/
def Env.transientDetected (first : Bool) (cnt : Nat) (thr prevE e : R) : Bool :=
  !first && cnt == 0 && E.num.lt (E.transientLimit thr prevE) e

/-- The counter as the ramp uses it: set to two ramps on detection (R256). -/
def Env.rampStart (detected : Bool) (cnt : Nat) : Nat := if detected then 2 * E.par.trFrames else cnt

/-- The ramp factor `r` for a counter value (R256): position `j = 9 - cnt`, up to the middle `j/4`, then `(8 - j)/4`. -/
def Env.rampFactor (cnt : Nat) : R :=
  if cnt = 0 then E.zero
  else
    let j := 2 * E.par.trFrames + 1 - cnt
    if j ≤ E.par.trFrames then E.num.div (E.nat j) (E.nat E.par.trFrames)
    else E.num.div (E.nat (2 * E.par.trFrames - j)) (E.nat E.par.trFrames)

/-- The effective strength `s × (1 − amt × r)` (R256, R257); `amt` is clamped. -/
def Env.effStrength (s amt r : R) : R := E.num.mul s (E.num.sub E.one (E.num.mul (E.clamp01 amt) r))

end

/-- The quantizer's inputs that fix the target map (R258): effective strength, the in-scale test, and the drift table
where `DRIFT_EN` is 1. -/
structure QuantMap (R : Type) where
  strength : R
  inScl : Nat → Bool
  drift : Option (List R)

section
variable {R : Type} (E : Env R)

/-- The note of bin `k`, none where the bin is skipped before a target is computed (R258). -/
def Env.binNote (q : QuantMap R) (k : Nat) : Option Nat :=
  let f := E.binfreq k
  if E.num.eq q.strength E.zero then none
  else if E.num.le f E.zero then none
  else
    let m := E.midi f
    if E.num.lt m E.zero || E.num.lt (E.nat (E.par.notes - 1)) m then none else E.near q.inScl m

/-- The target frequency of bin `k` for note `n` (R258): toward the note in Hz, then the drift. -/
def Env.targetFreq (q : QuantMap R) (k n : Nat) : R :=
  let f := E.binfreq k
  let ft := E.num.add f (E.num.mul q.strength (E.num.sub (E.notefreq n) f))
  match q.drift with
  | none => ft
  | some d => E.num.mul ft (E.num.exp2 (E.num.div (E.at_ d k) (E.nat 1200)))

/-- The position of the target in bins, `ft × N / FS` (R258). -/
def Env.targetPos (q : QuantMap R) (k n : Nat) : R := E.num.div (E.num.mul (E.targetFreq q k n) (E.nat E.n)) E.fs

/-- The target and the note of bin `k` of a bin that is not skipped (R258). -/
def Env.quantTarget (q : QuantMap R) (k : Nat) : Option (Nat × Nat) :=
  match E.binNote q k with
  | none => none
  | some n =>
    let t := E.rnd (E.targetPos q k n)
    if t < 0 ∨ (E.lines : Int) - 1 < t then none else some (t.toNat, n)

/-- `TGT(k)`: a skipped bin stays where it is (R258). -/
def Env.tgt (q : QuantMap R) (k : Nat) : Nat := ((E.quantTarget q k).map Prod.fst).getD k

/-- `NOTE(k)`: none for a skipped bin (R258). -/
def Env.note (q : QuantMap R) (k : Nat) : Option Nat := (E.quantTarget q k).map Prod.snd

/-- The note of a target: that of its dominant contributor (R259, R260). -/
def targetNote (notes : List (Option Nat)) (o : Merged R) : Option Nat := o.dom.bind fun k => (notes.getD k none)

/-- `A(n)`: the targets of note `n`, ascending, each with its merged value (R259). -/
def noteTargets (notes : List (Option Nat)) (merged : List (Merged R)) (n : Nat) : List (Merged R) :=
  merged.filter fun o => targetNote notes o == some n

/-- The target `t*(n)` of largest magnitude, the lowest of several (R259). -/
def Env.loudest : List (Merged R) → Option (Merged R)
  | [] => none
  | o :: os => some (os.foldl (fun b p => if E.num.lt b.mag p.mag then p else b) o)

/-- `level(n)`, 0 where `A(n)` is empty (R259). -/
def Env.level (a : List (Merged R)) : R := ((E.loudest a).map Merged.mag).getD E.zero

/-- `incr(n) = 2π × notefreq(n) × HOP / FS` (R259). -/
def Env.noteIncr (n : Nat) : R :=
  E.num.div (E.num.mul (E.num.mul E.twoPi (E.notefreq n)) (E.num.ofInt E.hop)) E.fs

/-- An accumulator one frame on: `wrap(Q_ACC[n] + incr(n))` (R259). -/
def Env.accNext (n : Nat) (acc : R) : R := E.wrap (E.num.add acc (E.noteIncr n))

/-- Whether a note sounds: `level(n) ≥ Q_SIL_THR` (R259). -/
def Env.sounds (a : List (Merged R)) : Bool := E.num.le (E.lit E.par.silThr) (E.level a)

/-- Whether the step of a note reads and advances its accumulator, as against setting it anew (R259). -/
def Env.advances (a : List (Merged R)) (sil : Nat) : Bool :=
  if E.sounds a then sil != E.par.silFrames else min (sil + 1) E.par.silFrames != E.par.silFrames

/-- The new `Q_ACC[n]` and `Q_SIL[n]` from the old ones and the targets of the note (R259). -/
def Env.noteStep (ph : List R) (a : List (Merged R)) (n : Nat) (acc : R) (sil : Nat) : R × Nat :=
  if E.sounds a then
    if sil = E.par.silFrames then
      (E.wrap ((((E.loudest a).bind Merged.dom).map (E.at_ ph)).getD E.zero), 0)
    else (E.accNext n acc, 0)
  else
    let sil' := min (sil + 1) E.par.silFrames
    if sil' = E.par.silFrames then (E.zero, sil') else (E.accNext n acc, sil')

/-- The output phase of a target (R260): the accumulator of its note where that sounds, else the redistributor's. -/
def Env.quantPhase (notes : List (Option Nat)) (merged : List (Merged R)) (acc : List R) (o : Merged R) : R :=
  match targetNote notes o with
  | none => o.ph
  | some n => if E.sounds (noteTargets notes merged n) then E.at_ acc n else o.ph

/-- The envelope gain of band `b`, `min(Q_ENV[b] / max(post[b], Q_EPS), Q_GMAX)` (R261). -/
def Env.envGain (env post : R) : R := E.min2 (E.num.div env (E.max2 post (E.lit E.par.qEps))) (E.lit E.par.qGmax)

/-- The magnitude after the envelope step: `omag[t] * (1 - p + p * g)` (R261). -/
def Env.envScale (p g mag : R) : R := E.num.mul mag (E.num.add (E.num.sub E.one p) (E.num.mul p g))

end

/-- What a QNT with positive strength reads (R250): the source bins 0..L-1, the clamped strength `s`, the parameters, the
tables and the history. `drift` is present where `DRIFT_EN` is 1, `envelope` (`Q_ENV`) where `ENV_EN` is 1. -/
structure QuantIn (R : Type) where
  mag : List R
  ph : List R
  strength : R
  transThr : R
  transAmt : R
  preserve : R
  inScl : Nat → Bool
  drift : Option (List R)
  envelope : Option (List R)
  band : List Nat
  first : Bool
  cnt : Nat
  prevE : R
  acc : List R
  sil : List Nat

section
variable {R : Type} (E : Env R) (x : QuantIn R)

/-- The counter at the start of the ramp step (R256). -/
def Env.quantCnt : Nat :=
  E.rampStart (E.transientDetected x.first x.cnt x.transThr x.prevE (E.energy x.mag)) x.cnt

/-- `s_eff` (R256, R257). -/
def Env.quantStrength : R := E.effStrength x.strength x.transAmt (E.rampFactor (E.quantCnt x))

/-- The inputs of the target map (R258). -/
def Env.quantMap : QuantMap R := ⟨E.quantStrength x, x.inScl, x.drift⟩

/-- The target and the note of every bin, none for a skipped bin (R258). -/
def Env.quantTargets : List (Option (Nat × Nat)) := tabulate E.lines (E.quantTarget (E.quantMap x))

/-- `NOTE` of every bin (R258). -/
def Env.quantNotes : List (Option Nat) := (E.quantTargets x).map fun o => o.map Prod.snd

/-- `TGT` of a bin as the redistributor takes it: every bin has a target (R258). -/
def targetOf (targets : List (Option (Nat × Nat))) (k : Nat) : Option Nat :=
  some (((targets.getD k none).map Prod.fst).getD k)

/-- The redistributed bins (R250). -/
def Env.quantMerged : List (Merged R) := E.redist x.mag x.ph E.lines (targetOf (E.quantTargets x))

/-- The new accumulators and silence counters, one pair a note (R259). -/
def Env.quantHistory : List (R × Nat) :=
  let notes := E.quantNotes x
  let merged := E.quantMerged x
  tabulate E.par.notes fun n =>
    E.noteStep x.ph (noteTargets notes merged n) n (E.at_ x.acc n) (x.sil.getD n 0)

/-- The output phases, L entries (R260). -/
def Env.quantPhases : List R :=
  let notes := E.quantNotes x
  let merged := E.quantMerged x
  let acc := (E.quantHistory x).map Prod.fst
  merged.map (E.quantPhase notes merged acc)

/-- Reimposing the envelope on magnitudes `omag` with preserve strength `p` (R261). -/
def Env.reimpose (band : List Nat) (env omag : List R) (p : R) : List R :=
  let post := E.envOf band omag
  tabulate E.lines fun t =>
    let b := band.getD t 0
    E.envScale p (E.envGain (E.at_ env b) (E.at_ post b)) (E.at_ omag t)

/-- The output magnitudes, L entries (R250, R261): the envelope step where `ENV_EN` is 1 and the clamped preserve
strength is above 0. -/
def Env.quantMags : List R :=
  let omag := (E.quantMerged x).map Merged.mag
  match x.envelope with
  | none => omag
  | some env => if E.num.lt E.zero (E.clamp01 x.preserve) then E.reimpose x.band env omag (E.clamp01 x.preserve) else omag

/-- The frame QNT writes: L quantized bins and the zeroed Nyquist bin (R250, R232). -/
def Env.quantFrame : List (Bin R) :=
  List.zipWith Bin.mk (E.quantMags x) (E.quantPhases x) ++ [⟨E.zero, E.zero⟩]

end

end Sys2Proof.Machine
end

