-- ==== Sys2Proof/Machine/ShapeUnit.lean ====
section
/-! DEFINITION. The spectral mask and the spectral delay as functions over any numerics record (spec/46_mask.md R281 to
R288, spec/47_delay.md R301 to R306). -/

namespace Sys2Proof.Machine

section
variable {R : Type} (E : Env R)

/-- `smooth(x) = x² × (3 − 2x)` (R281). -/
def Env.smooth (x : R) : R := E.num.mul (E.num.mul x x) (E.num.sub (E.nat 3) (E.num.mul E.two x))

/-- `(log2(f / fc) + w/2) / w`, the transition position before the clamp, from the logarithm (R282). -/
def Env.posRaw (l w : R) : R := E.num.div (E.num.add l (E.num.div w E.two)) w

/-- `pos(f, fc, w)` (R282). -/
def Env.pos (f fc w : R) : R := E.clamp01 (E.posRaw (E.logRatio f fc) w)

/-- The pass-through test `fc ≤ 0 or w ≤ 0` (R283). -/
def Env.passThrough (fc w : R) : Bool := E.num.le fc E.zero || E.num.le w E.zero

/-- The low-pass curve (R283). -/
def Env.lowPass (f fc w : R) : R :=
  if E.passThrough fc w then E.one
  else if E.num.le f E.zero then E.one
  else E.num.sub E.one (E.smooth (E.pos f fc w))

/-- The high-pass curve (R283). -/
def Env.highPass (f fc w : R) : R :=
  if E.passThrough fc w then E.one
  else if E.num.le f E.zero then E.zero
  else E.smooth (E.pos f fc w)

/-- `MASKFN(f)` (R284). -/
def Env.maskFn (mode : MaskMode) (lo hi w f : R) : R :=
  match mode with
  | .lowPass => E.lowPass f hi w
  | .highPass => E.highPass f lo w
  | .bandPass => E.num.mul (E.highPass f lo w) (E.lowPass f hi w)

/-- The mask table, L entries (R285). -/
def Env.maskTable (mode : MaskMode) (lo hi w : R) : List R :=
  tabulate E.lines fun k => E.maskFn mode lo hi w (E.binfreq k)

/-- The blend of one bin (R288, R289): magnitudes linearly, the phase by a switch at `MASK_PHASE_SPLIT`. -/
def Env.maskBin (m : R) (wet dry : Bin R) : Bin R :=
  ⟨E.num.add (E.num.mul wet.mag m) (E.num.mul dry.mag (E.num.sub E.one m)),
   if E.num.lt m (E.lit E.par.maskPhaseSplit) then dry.ph else wet.ph⟩

/-- `SD_MAXMS × FS / (1000 × HOP)` (R301). -/
def Env.depthRaw : R :=
  E.num.div (E.num.mul (E.nat E.par.sdMaxMs) E.fs) (E.num.mul (E.nat 1000) (E.num.ofInt E.hop))

/-- `DEPTH` (R301). -/
def Env.depth : Nat := (clampInt (saturate (E.num.ceil E.depthRaw)) 2 E.par.dlDepthMax).toNat

/-- `binNorm(k) = k / L` (R302). -/
def Env.binNorm (k : Nat) : R := E.num.div (E.nat k) (E.nat E.lines)

/-- `DAMP[k] = max(0, 1 − a × binNorm(k)²)` with `a = max(SD_DAMPING, 0)` (R302). -/
def Env.damp (damping : R) (k : Nat) : R :=
  let a := E.max2 damping E.zero
  E.max2 E.zero (E.num.sub E.one (E.num.mul a (E.num.mul (E.binNorm k) (E.binNorm k))))

/-- The damping table, L entries (R302). -/
def Env.dampTable (damping : R) : List R := tabulate E.lines (E.damp damping)

/-- `s = clamp(SD_SLOPE, −100, 100) / 100` (R303). -/
def Env.slope (slope : R) : R :=
  E.num.div (E.clamp slope (E.num.ofInt (-100)) (E.nat 100)) (E.nat 100)

/-- `base = SD_TIME_MS × FS / (1000 × HOP)`, the base delay in frames (R303). -/
def Env.delayBase (timeMs : R) : R :=
  E.num.div (E.num.mul timeMs E.fs) (E.num.mul (E.nat 1000) (E.num.ofInt E.hop))

/-- `warp(k)` for the slope fraction `s` (R303). -/
def Env.warp (s : R) (k : Nat) : R :=
  if E.num.le E.zero s then E.num.add E.one (E.num.mul s (E.binNorm k))
  else E.num.add E.one (E.num.mul (E.neg s) (E.num.sub E.one (E.binNorm k)))

/-- `base × warp(k)` (R303). -/
def Env.delayRaw (timeMs slope : R) (k : Nat) : R := E.num.mul (E.delayBase timeMs) (E.warp (E.slope slope) k)

/-- `DLEN[k] = clamp(rnd(base × warp(k)), 1, DEPTH − 1)` (R303). -/
def Env.delayLen (depth : Nat) (timeMs slope : R) (k : Nat) : Nat :=
  (clampInt (E.rnd (E.delayRaw timeMs slope k)) 1 ((depth : Int) - 1)).toNat

/-- The delay-length table, L entries (R303). -/
def Env.dlenTable (depth : Nat) (timeMs slope : R) : List Nat := tabulate E.lines (E.delayLen depth timeMs slope)

end

/-- The read index `(w − DLEN[k]) mod DEPTH` (R306). -/
def delayReadIndex (w dlen depth : Nat) : Nat := (((w : Int) - dlen) % (depth : Int)).toNat

/-- The scalars one SDL uses, clamped (R306). -/
structure DelayMix (R : Type) where
  fb : R
  mix : R
  gain : R

section
variable {R : Type} (E : Env R)

/-- `fb`, `mix` and `gain` of R306. -/
def Env.delayMix (feedback mix gain : R) : DelayMix R :=
  ⟨E.clamp01 feedback, E.clamp01 mix, E.max2 gain E.zero⟩

/-- The pair written to the line: feedback added to the dry magnitude, dry phase (R306). -/
def Env.delayWrite (q : DelayMix R) (damp : R) (dry delayed : Bin R) : Bin R :=
  ⟨E.num.add dry.mag (E.num.mul (E.num.mul delayed.mag q.fb) damp), dry.ph⟩

/-- The output pair: a linear blend, the gain on the magnitude only, no wrap (R306, R307). -/
def Env.delayOut (q : DelayMix R) (dry delayed : Bin R) : Bin R :=
  ⟨E.num.add (E.num.mul (E.num.sub E.one q.mix) dry.mag) (E.num.mul (E.num.mul q.mix delayed.mag) q.gain),
   E.num.add (E.num.mul (E.num.sub E.one q.mix) dry.ph) (E.num.mul q.mix delayed.ph)⟩

end

end Sys2Proof.Machine
end

