-- ==== Sys2Proof/Machine/Operands.lean ====
section
/-! DEFINITION. The operands of commands: the latched control registers (spec/20_memory.md R82), the frame registers and
buffers as arrays (spec/20_memory.md R73, R88), the length tags (spec/10_state.md R23). -/

namespace Sys2Proof.Machine

/-- `csr(NAME)`: the control registers a command reads. While a command is in flight they are the copy latched at issue,
else the registers themselves (R82, R13). -/
def State.params (s : State) : Csrs :=
  match s.inFlight with
  | some c => c.latched
  | none => s.csr

/-- What the units of a hardware compute in for a configuration: N, HOP (signed) and FS (R7, R324). -/
def envFor {R : Type} (H : Hardware R) (n hop fs : Word) : Env R :=
  ⟨H.num, H.par, n.toNat, hop.toInt, H.num.ofBits fs⟩

/-- The environment of the active configuration (R7) on a hardware. -/
def Csrs.envOf {R : Type} (p : Csrs) (H : Hardware R) : Env R := envFor H p.active.n p.active.hop p.active.fs

/-- The environment of the active configuration (R7) on the default hardware. -/
def Csrs.env (p : Csrs) : Env Word := p.envOf spcHardware

/-- The parts of a list of bins, interleaved as R73 lays them out. -/
def binWords {A : Type} (bs : List (Bin A)) : List A := bs.flatMap fun b => [b.mag, b.ph]

/-- The parts of a list of complex numbers, interleaved as R73 lays them out. -/
def cxWords {A : Type} (zs : List (Cx A)) : List A := zs.flatMap fun z => [z.re, z.im]

/-- The first `n` bins of frame register `r`: the operand snapshot (R15). -/
def State.frame (s : State) (r : SReg) (n : Nat) : List (Bin Word) :=
  tabulate n fun k => ⟨s.word (sBase r + 2 * k), s.word (sBase r + 2 * k + 1)⟩

/-- `n` complex numbers from a word base on. -/
def State.complexes (s : State) (base n : Nat) : List (Cx Word) :=
  tabulate n fun k => ⟨s.word (base + 2 * k), s.word (base + 2 * k + 1)⟩

/-- `n` unsigned integers from a word base on. -/
def State.nats (s : State) (base n : Nat) : List Nat := (s.words base n).map BitVec.toNat

/-- Natural numbers as words. -/
def natWords (ns : List Nat) : List Word := ns.map (BitVec.ofNat 32)

/-- Stores bins from bin 0 of frame register `r` on. -/
def State.putFrame (s : State) (r : SReg) (bs : List (Bin Word)) : State := s.putWords (sBase r) (binWords bs)

/-- Stores complex numbers from a word base on. -/
def State.putComplexes (s : State) (base : Nat) (zs : List (Cx Word)) : State := s.putWords base (cxWords zs)

/-- `TLEN <- v`. -/
def State.setTLen (s : State) (v : Nat) : State :=
  { s with csr := { s.csr with tags := { s.csr.tags with t := BitVec.ofNat 32 v } } }

/-- `ZLEN <- v`. -/
def State.setZLen (s : State) (v : Nat) : State :=
  { s with csr := { s.csr with tags := { s.csr.tags with z := BitVec.ofNat 32 v } } }

/-- `SLEN[r] <- v`. -/
def State.setSLen (s : State) (r : SReg) (v : Nat) : State :=
  { s with csr := { s.csr with tags := { s.csr.tags with s := s.csr.tags.s.set r (BitVec.ofNat 32 v) } } }

/-- The pair of a delay line: `DL_MAG[k][i]`, `DL_PH[k][i]` (R46), as words. -/
def State.delayBin (s : State) (k i : Nat) (par : Params := Params.spc) : Bin Word :=
  ⟨s.delayWord (delayIndex k i par), s.delayWord (delayIndex k i par + 1)⟩

end Sys2Proof.Machine
end

