-- ==== Sys2Proof/Machine/Storage.lean ====
section
/-! DEFINITION. Where a command finds and leaves its reals. The rules of the spec read and write reals (spec/48_numerics.md
R320); what a register or a word of storage keeps of one depends on the numerics record. The default hardware keeps the binary32
word and nothing else. Another record keeps the real itself: R322 rounds a real only where it crosses the bus. Every command
is written once over the interface `Storage`, which says how a kind of machine state keeps its reals. -/

namespace Sys2Proof.Machine

/-- A real in storage: the word that the bus shows of it (R322), the real itself, and whether it is one (R327). -/
structure Datum (R : Type) where
  word : Word
  real : R
  ok : Bool
deriving DecidableEq, Repr

/-- A bus word as a real: `ofBits`, and no real where the pattern is an infinity or a NaN (R322, R327). -/
def wordDatum {R : Type} (num : Num R) (w : Word) : Datum R := ⟨w, num.ofBits w, f32Finite w⟩

/-- A computed real: the bus shows `toBits` of it (R320, R322). -/
def realDatum {R : Type} (num : Num R) (x : R) : Datum R := ⟨num.toBits x, x, num.isReal x⟩

/-- How the state `S` of a machine keeps the reals of storage. -/
structure Storage (R S : Type) where
  /-- The state as the bus shows it, every real as its word. -/
  base : S → State
  /-- Changes what holds no real of storage: the control registers and the sequencing of commands. -/
  modify : S → (State → State) → S
  /-- The real at a word address of the bus window. -/
  get : S → Nat → Datum R
  /-- Stores reals at consecutive word addresses. -/
  put : S → Nat → List (Datum R) → S
  /-- Stores integers and zeros at consecutive word addresses. -/
  putWords : S → Nat → List Word → S
  /-- The real at a word index of the delay-line RAM (R46). -/
  getDelay : S → Nat → Datum R
  /-- Stores reals at consecutive word indices of the delay-line RAM (R46). -/
  putDelay : S → Nat → List (Datum R) → S
  /-- Clears the delay-line RAM (R139). -/
  clearDelay : S → S
  /-- `Q_PREV_E`, for the control registers that the command has latched (R45, R82). -/
  prevE : S → Csrs → Datum R
  /-- `Q_PREV_E <- e` (R45). -/
  setPrevE : S → Datum R → S
  /-- What a host event leaves, when it leaves `t` of the state that the bus shows. -/
  served : S → HostEvent → State → S

/-- The machine that keeps the bus words alone, as the default hardware does. -/
def busStorage {R : Type} (num : Num R) : Storage R State where
  base := fun s => s
  modify := fun s f => f s
  get := fun s a => wordDatum num (s.word a)
  put := fun s a ds => s.putWords a (ds.map Datum.word)
  putWords := fun s a ws => s.putWords a ws
  getDelay := fun s a => wordDatum num (s.delayWord a)
  putDelay := fun s a ds => { s with delay := s.delay.writeWords a (ds.map Datum.word) }
  clearDelay := fun s => { s with delay := Memory.zeroed }
  prevE := fun _ p => wordDatum num p.qPrevE
  setPrevE := fun s e => { s with csr := { s.csr with qPrevE := e.word } }
  served := fun _ _ t => t

/-- The storage of the default hardware. -/
def hwStorage : Storage Word State := busStorage hwNum

section
variable {R S : Type} (M : Storage R S)

/-- `n` reals from a word address on. -/
def Storage.reals (s : S) (a n : Nat) : List (Datum R) := tabulate n fun i => M.get s (a + i)

/-- The first `n` bins of frame register `r`: the operand snapshot (R15). -/
def Storage.frame (s : S) (r : SReg) (n : Nat) : List (Bin (Datum R)) :=
  tabulate n fun k => ⟨M.get s (sBase r + 2 * k), M.get s (sBase r + 2 * k + 1)⟩

/-- `n` complex numbers from a word base on. -/
def Storage.complexes (s : S) (base n : Nat) : List (Cx (Datum R)) :=
  tabulate n fun k => ⟨M.get s (base + 2 * k), M.get s (base + 2 * k + 1)⟩

/-- `n` unsigned integers from a word base on. -/
def Storage.nats (s : S) (base n : Nat) : List Nat := (M.base s).nats base n

/-- The pair of a delay line: `DL_MAG[k][i]`, `DL_PH[k][i]` (R46). -/
def Storage.delayBin (s : S) (k i : Nat) (par : Params) : Bin (Datum R) :=
  ⟨M.getDelay s (delayIndex k i par), M.getDelay s (delayIndex k i par + 1)⟩

/-- Stores pairs in slot `i` of delay lines `k`, `k + 1`, … (R306). -/
def Storage.putDelaySlot (par : Params) (i : Nat) : Nat → List (Bin (Datum R)) → S → S
  | _, [], s => s
  | k, b :: bs, s => Storage.putDelaySlot par i (k + 1) bs (M.putDelay s (delayIndex k i par) [b.mag, b.ph])

end

section
variable {R : Type}

/-- The reals of a list. -/
def realsOf (ds : List (Datum R)) : List R := ds.map Datum.real

/-- The bins of a frame as reals. -/
def binsOf (bs : List (Bin (Datum R))) : List (Bin R) := bs.map fun b => ⟨b.mag.real, b.ph.real⟩

/-- Complex numbers as reals. -/
def cxsOf (zs : List (Cx (Datum R))) : List (Cx R) := zs.map fun z => ⟨z.re.real, z.im.real⟩

variable (E : Env R)

/-- Computed reals, to be stored. -/
def Env.data (xs : List R) : List (Datum R) := xs.map (realDatum E.num)

/-- A computed bin, to be stored. -/
def Env.binDatum (b : Bin R) : Bin (Datum R) := ⟨realDatum E.num b.mag, realDatum E.num b.ph⟩

/-- Computed bins, to be stored, interleaved as R73 lays them out. -/
def Env.binData (bs : List (Bin R)) : List (Datum R) := binWords (bs.map E.binDatum)

/-- Computed complex numbers, to be stored, interleaved as R73 lays them out. -/
def Env.cxData (zs : List (Cx R)) : List (Datum R) :=
  cxWords (zs.map fun z => ⟨realDatum E.num z.re, realDatum E.num z.im⟩)

/-- Control registers that a command reads as reals. -/
def Env.registers (ws : List Word) : List (Datum R) := ws.map (wordDatum E.num)

end

end Sys2Proof.Machine
end

