-- ==== Sys2Proof/Machine/Ops.lean ====
section
/-! DEFINITION. The shared operations of all commands: taking a fault and returning from it (spec/60_exceptions.md R345,
R347), the checks of issue (spec/30_encoding.md R101, spec/60_exceptions.md R343, R344), completion (spec/20_memory.md
R80), and hard reset (spec/70_reset_and_hazards.md R380). -/

namespace Sys2Proof.Machine

/-- The code of a fault in `ERR_CODE` (R341). -/
def Cause.code : Cause → Word
  | .cfgBadSize => 1
  | .cfgBadHop => 2
  | .lenMismatch => 3
  | .illegalCmd => 4
  | .notConfigured => 5
  | .cfgBadRate => 6

/-- Whether a fault clears `CFG_OK`: the three CFG faults do (R345). -/
def Cause.clearsCfgOk : Cause → Bool
  | .cfgBadSize | .cfgBadHop | .cfgBadRate => true
  | .lenMismatch | .illegalCmd | .notConfigured => false

/-- Taking a fault: `raise F(info)` (R345). It writes `ERR_CODE`, `ERR_INFO`, `STATUS.ERR`, for the CFG faults `CFG_OK`,
and nothing else. -/
def State.raise (s : State) (c : Cause) (info : Word) : State :=
  { s with
    csr := { s.csr with
      errCode := c.code, errInfo := info, err := true, cfgOk := s.csr.cfgOk && !c.clearsCfgOk } }

/-- Returning from a fault (R347): the effect of a host write to `IP` with bit 1 set. -/
def State.returnFromFault (s : State) : State := { s with csr := s.csr.clearFault }

/-- A fault to raise: its cause and its information word (R341). -/
structure RaisedFault where
  cause : Cause
  info : Word
deriving DecidableEq, Repr

/-- The information word of `LenMismatch`: buffer id in bits 7:0, the tag's low 24 bits in bits 31:8 (R341). -/
def lenInfo (bufferId : Nat) (tag : Word) : Word := (tag <<< 8) ||| BitVec.ofNat 32 bufferId

/-- A length check: the fault if the tag is not the length needed (R343). -/
def lenCheck (bufferId : Nat) (tag : Word) (need : Nat) : Option RaisedFault :=
  if tag.toNat = need then none else some ⟨.lenMismatch, lenInfo bufferId tag⟩

/-- `B = N/2 + 1` of the active configuration (R7). -/
def Csrs.bins (p : Csrs) : Nat := p.active.n.toNat / 2 + 1

/-- The check of T, buffer id 0 (R341, R343). -/
def Csrs.checkT (p : Csrs) : Option RaisedFault := lenCheck 0 p.tags.t p.active.n.toNat

/-- The check of Z, buffer id 1 (R341, R343). -/
def Csrs.checkZ (p : Csrs) : Option RaisedFault := lenCheck 1 p.tags.z p.active.n.toNat

/-- The check of `S[r]`, buffer ids 4 to 7 (R341, R343). -/
def Csrs.checkS (p : Csrs) (r : SReg) : Option RaisedFault := lenCheck (4 + r.val) p.tags.s[r] p.bins

/-- The sizes CFG accepts: powers of two from `2^LOG2N_MIN` to `2^LOG2N_MAX`, 4 to 4096 here (R133, R134). -/
def sizeOk (n : Nat) (par : Params := Params.spc) : Bool :=
  n != 0 && n &&& (n - 1) == 0 && decide (2 ^ par.log2nMin ≤ n ∧ n ≤ 2 ^ par.log2nMax)

/-- The hops CFG accepts for a size: `0 < h ≤ n`, signed (R133). -/
def hopOk (n : Nat) (h : Int) : Bool := decide (0 < h ∧ h ≤ n)

/-- The sample rates CFG accepts: finite and above 0 (R133), compared by the numerics record (R320). -/
def rateOkOn {R : Type} (num : Num R) (f : Word) : Bool := f32Finite f && num.lt (num.ofInt 0) (num.ofBits f)

/-- The sample rates CFG accepts on the default hardware (R133). -/
def rateOk (f : Word) : Bool := rateOkOn hwNum f

/-- CFG's validation of the staged values, in order: size, hop, rate (R133). -/
def Csrs.checkCfg (p : Csrs) (par : Params := Params.spc) (rateOk : Word → Bool := rateOk) : Option RaisedFault :=
  if !sizeOk p.staged.fftSize.toNat par then some ⟨.cfgBadSize, p.staged.fftSize⟩
  else if !hopOk p.staged.fftSize.toNat p.staged.hop.toInt then some ⟨.cfgBadHop, p.staged.hop⟩
  else if !rateOk p.staged.sampleRate then some ⟨.cfgBadRate, p.staged.sampleRate⟩
  else none

/-- Step (3) of issue before a command's own checks: `NotConfigured` with the command word (R101, R341). -/
def Csrs.configured (p : Csrs) (i : Instr) (own : Option RaisedFault) : Option RaisedFault :=
  if p.cfgOk then own else some ⟨.notConfigured, encode i⟩

/-- The fault a command raises at issue, if any: steps (3) and (4) of R101 in the order of each command's rule (R343,
R344). -/
def Csrs.issueFault (p : Csrs) (i : Instr) (par : Params := Params.spc) (rateOk : Word → Bool := rateOk) :
    Option RaisedFault :=
  match i with
  | .nop => none
  | .cfg => p.checkCfg par rateOk
  | .reset _ => p.configured i none
  | .win => p.configured i p.checkT
  | .fftf => p.configured i p.checkT
  | .ffti => p.configured i p.checkZ
  | .polar _ => p.configured i p.checkZ
  | .rect rs1 => p.configured i (p.checkS rs1)
  | .stftf _ => p.configured i p.checkT
  | .stfti rs1 => p.configured i (p.checkS rs1)
  | .pv _ rs1 => p.configured i (p.checkS rs1)
  | .fsh _ rs1 => p.configured i (p.checkS rs1)
  | .envc rs1 => p.configured i (p.checkS rs1)
  | .qnt _ rs1 => p.configured i (p.checkS rs1)
  | .mskb => p.configured i none
  | .msk _ rs1 rs2 => p.configured i ((p.checkS rs1).or (p.checkS rs2))
  | .sdlp => p.configured i none
  | .sdl _ rs1 => p.configured i (p.checkS rs1)

/-- What a command does once its checks pass: the state with its writes, and every real it reads, stores, compares or
converts to an integer, each of which must be a real (R327, log 5). -/
structure Effect (R S : Type) where
  data : List (Datum R)
  after : S

/-- One effect after another, as one command (R191, R193). -/
def Effect.andThen {R S : Type} (e : Effect R S) (f : S → Effect R S) : Effect R S :=
  ⟨e.data ++ (f e.after).data, (f e.after).after⟩

/-- Completion: `BUSY <- 0`, `IP.DONE <- 1` (R101, R351). -/
def State.complete (s : State) : State := { s with inFlight := none, csr := { s.csr with ipDone := true } }

/-- A command from its checks to its completion (R101 steps 3 to 5): a failing check raises its fault and nothing else
happens, else the effect takes place as a whole (R80). What is no real is refused (R327). -/
def runCommand {R S : Type} (M : Storage R S) (i : Instr) (s : S) (effect : Csrs → S → Effect R S)
    (par : Params := Params.spc) (rateOk : Word → Bool := rateOk) : Host.Outcome S Fault Refusal :=
  let p := (M.base s).params
  match p.issueFault i par rateOk with
  | some f => .next (M.modify s fun t => t.raise f.cause f.info)
  | none =>
    let e := effect p s
    if e.data.all Datum.ok then .next (M.modify e.after State.complete) else .refused .nonFiniteReal

/-- Hard reset (R380): every register at its reset value, every storage word an arbitrary value (a fresh one at each
reset), no command in flight. What the host still does afterwards is kept. -/
def State.hardReset (s : State) : State :=
  { State.reset with pending := s.pending, overlap := s.overlap, readLog := s.readLog, epoch := s.epoch + 1 }

end Sys2Proof.Machine
end

