-- ==== Sys2Proof/Machine/Control.lean ====
section
/-! DEFINITION. The control commands NOP, CFG and RESET (spec/40_control.md). -/

namespace Sys2Proof.Machine

section
variable {R S : Type} (M : Storage R S)

/-- RESET bit 0: the phase vocoder history of B bins (R139). -/
def Storage.resetPv (s : S) (bins : Nat) : S :=
  let s := M.putWords s pmagBase (List.replicate bins 0)
  let s := M.putWords s pphBase (List.replicate bins 0)
  let s := M.putWords s sphBase (List.replicate bins 0)
  M.modify s fun t => { t with csr := { t.csr with pvFirst := true } }

/-- RESET bit 1: the quantizer history (R139). -/
def Storage.resetQ (num : Num R) (s : S) (par : Params) : S :=
  let s := M.putWords s accBase (List.replicate par.notes 0)
  let s := M.putWords s silBase (List.replicate par.notes (BitVec.ofNat 32 par.silFrames))
  let s := M.putWords s envBase (List.replicate par.bands 0)
  let s := M.setPrevE s (wordDatum num 0)
  M.modify s fun t => { t with csr := { t.csr with qTrCnt := 0, qFirst := true } }

/-- RESET bit 2: the delay lines (R139). All of the delay-line RAM is cleared; what lies beyond the L lines and DEPTH
slots in use is read by nothing before the next clear (log 4). -/
def Storage.resetSd (s : S) : S := M.modify (M.clearDelay s) fun t => { t with csr := { t.csr with sdWr := 0 } }

/-- The units that a RESET names (R104, R139). -/
def Storage.resetUnits (H : Hardware R) (s : S) (imm3 : BitVec 3) (bins : Nat) : S :=
  let s := if imm3.getLsbD 0 then M.resetPv s bins else s
  let s := if imm3.getLsbD 1 then M.resetQ H.num s H.par else s
  if imm3.getLsbD 2 then M.resetSd s else s

end

/-- What NOP does besides `BUSY` and `IP.DONE`: nothing (R131). -/
def nopEffect {R S : Type} (_ : Csrs) (s : S) : Effect R S := ⟨[], s⟩

/-- `NOP` (R131): only `BUSY` and `IP.DONE`. -/
def execNop (s : State) : Host.Outcome State Fault Refusal := runCommand hwStorage .nop s nopEffect

/-- The staged configuration as the environment CFG builds tables in (R133), on a hardware. -/
def Csrs.stagedEnvOf {R : Type} (p : Csrs) (H : Hardware R) : Env R :=
  envFor H p.staged.fftSize p.staged.hop p.staged.sampleRate

/-- The staged configuration as the environment CFG builds tables in (R133), on the default hardware. -/
def Csrs.stagedEnv (p : Csrs) : Env Word := p.stagedEnvOf spcHardware

/-- The mask parameters, read by every build of the mask table (R286). -/
def Csrs.maskParams (p : Csrs) : List Word := [p.mask.lo, p.mask.hi, p.mask.width]

/-- The delay parameters, read by every build of the delay tables (R304). -/
def Csrs.delayParams (p : Csrs) : List Word := [p.delay.timeMs, p.delay.slope, p.delay.damping]

section
variable {R : Type}

/-- The mask table from the latched parameters (R284, R285). -/
def Csrs.maskTable (p : Csrs) (E : Env R) : List R :=
  E.maskTable p.mask.mode (E.num.ofBits p.mask.lo) (E.num.ofBits p.mask.hi) (E.num.ofBits p.mask.width)

/-- The damping table from the latched parameters (R302). -/
def Csrs.dampTable (p : Csrs) (E : Env R) : List R := E.dampTable (E.num.ofBits p.delay.damping)

/-- The delay lengths from the latched parameters (R303). -/
def Csrs.dlenTable (p : Csrs) (E : Env R) (depth : Nat) : List Nat :=
  E.dlenTable depth (E.num.ofBits p.delay.timeMs) (E.num.ofBits p.delay.slope)

/-- The reals of a build of the delay tables: those that become delay lengths, and the damping table (R302, R303). -/
def Csrs.delayReals (p : Csrs) (E : Env R) : List R :=
  tabulate E.lines (E.delayRaw (E.num.ofBits p.delay.timeMs) (E.num.ofBits p.delay.slope)) ++ p.dampTable E

/-- The reals that a CFG computes: the tables, and the reals that become bands, lengths and the depth. -/
def Csrs.cfgReals (p : Csrs) (E : Env R) : List R :=
  p.delayReals E ++ cxWords E.twTable ++ E.winTable p.staged.window ++ tabulate E.lines E.binfreq ++ [E.depthRaw]
    ++ p.maskTable E

end

section
variable {R S : Type} (M : Storage R S)

/-- Builds `DAMP` and `DLEN` (R302, R303). -/
def Storage.buildDelay (s : S) (p : Csrs) (E : Env R) (depth : Nat) : S :=
  M.putWords (M.put s dampBase (E.data (p.dampTable E))) dlenBase (natWords (p.dlenTable E depth))

/-- Every table of the configuration and the cleared drift table (R133). -/
def Storage.buildTables (s : S) (p : Csrs) (E : Env R) : S :=
  let s := M.put s twBase (E.cxData E.twTable)
  let s := M.putWords s brBase (natWords E.brTable)
  let s := M.put s winBase (E.data (E.winTable p.staged.window))
  let s := M.putWords s bandBase (natWords E.bandTable)
  let s := M.put s maskBase (E.data (p.maskTable E))
  let s := M.buildDelay s p E E.depth
  M.putWords s driftBase (List.replicate E.lines 0)

end

/-- The registers a successful CFG writes: the active configuration, `SD_DEPTH`, the tags, `CFG_OK` and the dirty bits
(R133). -/
def State.activate (s : State) (p : Csrs) (depth : Nat) : State :=
  { s with
    csr := { s.csr with
      active := ⟨p.staged.fftSize, p.staged.hop, p.staged.window, p.staged.sampleRate⟩
      sdDepth := BitVec.ofNat 32 depth
      tags := ⟨0, 0, #v[0, 0, 0, 0]⟩
      cfgOk := true, cfgDirty := false, maskDirty := false, sdDirty := false } }

section
variable {R S : Type} (M : Storage R S) (H : Hardware R)

/-- What a CFG whose checks pass does (R133). -/
def cfgEffect (p : Csrs) (s : S) : Effect R S :=
  let E := p.stagedEnvOf H
  ⟨E.registers (p.maskParams ++ p.delayParams) ++ E.data (p.cfgReals E),
   M.modify (M.resetUnits H (M.buildTables s p E) 7 E.bins) fun t => t.activate p E.depth⟩

/-- What RESET does (R139). -/
def resetEffect (imm3 : BitVec 3) (p : Csrs) (s : S) : Effect R S := ⟨[], M.resetUnits H s imm3 p.bins⟩

end

/-- `CFG` (R133). -/
def execCfg (s : State) : Host.Outcome State Fault Refusal :=
  runCommand hwStorage .cfg s (cfgEffect hwStorage spcHardware)

/-- `RESET #imm3` (R139). -/
def execReset (imm3 : BitVec 3) (s : State) : Host.Outcome State Fault Refusal :=
  runCommand hwStorage (.reset imm3) s (resetEffect hwStorage spcHardware imm3)

end Sys2Proof.Machine
end

