-- ==== Sys2Proof/Machine/MaskDelay.lean ====
section
/-! DEFINITION. The spectral mask commands MSKB and MSK (spec/46_mask.md) and the spectral delay commands SDLP and SDL
(spec/47_delay.md). -/

namespace Sys2Proof.Machine

section
variable {R S : Type} (M : Storage R S) (H : Hardware R)

/-- What MSKB does (R286). -/
def mskbEffect (p : Csrs) (s : S) : Effect R S :=
  let E := p.envOf H
  let table := E.data (p.maskTable E)
  ⟨E.registers p.maskParams ++ table,
   M.modify (M.put s maskBase table) fun u => { u with csr := { u.csr with maskDirty := false } }⟩

/-- The frame MSK writes: L blended bins and the zeroed Nyquist bin (R288). -/
def maskFrame (E : Env R) (mask : List R) (wet dry : List (Bin R)) : List (Bin R) :=
  tabulate E.lines (fun k => E.maskBin (E.at_ mask k) (E.binAt wet k) (E.binAt dry k)) ++ [⟨E.zero, E.zero⟩]

/-- What MSK does (R288). -/
def mskEffect (rd rs1 rs2 : SReg) (p : Csrs) (s : S) : Effect R S :=
  let E := p.envOf H
  let wet := M.frame s rs1 E.lines
  let dry := M.frame s rs2 E.lines
  let mask := M.reals s maskBase E.lines
  let out := E.binData (maskFrame E (realsOf mask) (binsOf wet) (binsOf dry))
  ⟨binWords wet ++ binWords dry ++ mask ++ out, M.modify (M.put s (sBase rd) out) fun u => u.setSLen rd E.bins⟩

/-- What SDLP does (R304): the tables for the depth in force. -/
def sdlpEffect (p : Csrs) (s : S) : Effect R S :=
  let E := p.envOf H
  ⟨E.registers p.delayParams ++ E.data (p.delayReals E),
   M.modify (M.buildDelay s p E p.sdDepth.toNat) fun u => { u with csr := { u.csr with sdDirty := false } }⟩

/-- The delayed pairs, one a line, read before anything is written (R306, R396). -/
def Storage.delayedBins (s : S) (w depth : Nat) (dlen : List Nat) (lines : Nat) (par : Params) : List (Bin (Datum R)) :=
  tabulate lines fun k => M.delayBin s k (delayReadIndex w (dlen.getD k 0) depth) par

/-- What SDL does (R306). -/
def sdlEffect (rd rs1 : SReg) (p : Csrs) (s : S) : Effect R S :=
  let E := p.envOf H
  let frame := M.frame s rs1 E.lines
  let dry := binsOf frame
  let damp := M.reals s dampBase E.lines
  let q := E.delayMix (E.num.ofBits p.delay.feedback) (E.num.ofBits p.delay.mix) (E.num.ofBits p.delay.gain)
  let w := p.sdWr.toNat
  let depth := p.sdDepth.toNat
  let read := M.delayedBins s w depth (M.nats s dlenBase E.lines) E.lines H.par
  let delayed := binsOf read
  let written := tabulate E.lines fun k =>
    E.binDatum (E.delayWrite q (E.at_ (realsOf damp) k) (E.binAt dry k) (E.binAt delayed k))
  let out := E.binData
    (tabulate E.lines (fun k => E.delayOut q (E.binAt dry k) (E.binAt delayed k)) ++ [⟨E.zero, E.zero⟩])
  ⟨E.registers [p.delay.feedback, p.delay.mix, p.delay.gain] ++ binWords frame ++ damp ++ binWords read
     ++ binWords written ++ out,
   M.modify (M.put (M.putDelaySlot H.par w 0 written s) (sBase rd) out) fun u =>
     let v := u.setSLen rd E.bins
     { v with csr := { v.csr with sdWr := BitVec.ofNat 32 ((w + 1) % depth) } }⟩

end

/-- `MSKB` (R286). -/
def execMskb (s : State) : Host.Outcome State Fault Refusal := runCommand hwStorage .mskb s (mskbEffect hwStorage spcHardware)

/-- `MSK Sd, Sw, Sy` (R288). -/
def execMsk (rd rs1 rs2 : SReg) (s : State) : Host.Outcome State Fault Refusal :=
  runCommand hwStorage (.msk rd rs1 rs2) s (mskEffect hwStorage spcHardware rd rs1 rs2)

/-- `SDLP` (R304). -/
def execSdlp (s : State) : Host.Outcome State Fault Refusal := runCommand hwStorage .sdlp s (sdlpEffect hwStorage spcHardware)

/-- `SDL Sd, Ss` (R306). -/
def execSdl (rd rs1 : SReg) (s : State) : Host.Outcome State Fault Refusal :=
  runCommand hwStorage (.sdl rd rs1) s (sdlEffect hwStorage spcHardware rd rs1)

end Sys2Proof.Machine
end

