-- ==== Sys2Proof/Machine/Quantizer.lean ====
section
/-! DEFINITION. The quantizer commands ENVC and QNT (spec/45_quantizer.md). -/

namespace Sys2Proof.Machine

/-- The in-scale test of the latched root and scale (R242, R243). -/
def Csrs.inScl (p : Csrs) (n : Nat) (par : Params := Params.spc) : Bool :=
  inScale (par.scaleRom.getD p.quant.scale.toNat 0) p.quant.root.val n

section
variable {R : Type} (E : Env R) (x : QuantIn R)

/-- The bins whose drift value the target map reads: those that are not skipped before (R258). -/
def driftBins : List Nat :=
  if x.drift.isSome then (List.range E.lines).filter fun k => (E.binNote (E.quantMap x) k).isSome else []

/-- Whether the envelope step runs (R261). -/
def Env.reimposes : Bool := x.envelope.isSome && E.num.lt E.zero (E.clamp01 x.preserve)

/-- The bands whose entry of `Q_ENV` the envelope step reads: those that bins lie in (R261). -/
def envelopeBands : List Nat :=
  if E.reimposes x then (tabulate E.lines fun k => x.band.getD k 0).filter fun b => b < E.par.bands else []

/-- The notes whose accumulator is read: those it advances (R259). -/
def accNotes : List Nat :=
  (List.range E.par.notes).filter fun n =>
    E.advances (noteTargets (E.quantNotes x) (E.quantMerged x) n) (x.sil.getD n 0)

/-- Whether the detection test compares the energy with the last one (R255). -/
def QuantIn.comparesEnergy : Bool := !x.first && x.cnt == 0

/-- The reals that the transient step computes: the energy, the effective strength, and the limit where it is compared (R255,
R256). -/
def transientReals : List R :=
  [E.energy x.mag, E.quantStrength x]
    ++ (if x.comparesEnergy then [E.transientLimit x.transThr x.prevE] else [])

/-- The reals of the target map that are computed and compared or converted: frequencies, pitches and positions (R258). -/
def targetReals : List R :=
  let q := E.quantMap x
  if E.num.eq q.strength E.zero then []
  else
    tabulate E.lines E.binfreq
      ++ ((List.range E.lines).filter fun k => !E.num.le (E.binfreq k) E.zero).map (fun k => E.midi (E.binfreq k))
      ++ (List.range E.lines).filterMap fun k => (E.binNote q k).map (E.targetPos q k)

/-- The reals that a QNT with positive strength computes, compares, converts or stores (R250, log 5). -/
def quantReals : List R :=
  transientReals E x ++ targetReals E x ++ (E.quantHistory x).map Prod.fst ++ binWords (E.quantFrame x)

end

section
variable {R S : Type} (M : Storage R S) (H : Hardware R)

/-- What ENVC does (R248): the envelope of bins 0..L-1 by the band table as it stands. -/
def envcEffect (rs1 : SReg) (p : Csrs) (s : S) : Effect R S :=
  let E := p.envOf H
  let mag := (M.frame s rs1 E.lines).map Bin.mag
  ⟨mag, M.put s envBase (E.data (E.envOf (M.nats s bandBase E.lines) (realsOf mag)))⟩

/-- The inputs of a QNT with positive strength (R250). -/
def Storage.quantIn (s : S) (rs1 : SReg) (p : Csrs) : QuantIn R :=
  let E := p.envOf H
  let frame := binsOf (M.frame s rs1 E.lines)
  { mag := frame.map Bin.mag
    ph := frame.map Bin.ph
    strength := E.clamp01 (E.num.ofBits p.quant.strength)
    transThr := E.num.ofBits p.quant.transThr
    transAmt := E.num.ofBits p.quant.transAmt
    preserve := E.num.ofBits p.quant.preserve
    inScl := fun n => p.inScl n H.par
    drift := if p.quant.driftEn then some (realsOf (M.reals s driftBase E.lines)) else none
    envelope := if p.quant.envEn then some (realsOf (M.reals s envBase H.par.bands)) else none
    band := M.nats s bandBase E.lines
    first := p.qFirst
    cnt := p.qTrCnt.toNat
    prevE := (M.prevE s p).real
    acc := realsOf (M.reals s accBase H.par.notes)
    sil := M.nats s silBase H.par.notes }

/-- The reals that a QNT with positive strength reads for the inputs at hand (R250, log 5): its registers, its source bins, and
of the tables and the history the elements that its rules read. -/
def Storage.quantReads (s : S) (rs1 : SReg) (p : Csrs) : List (Datum R) :=
  let E := p.envOf H
  let x := M.quantIn H s rs1 p
  E.registers [p.quant.strength, p.quant.transThr, p.quant.transAmt] ++ binWords (M.frame s rs1 E.lines)
    ++ (if x.comparesEnergy then [M.prevE s p] else [])
    ++ (driftBins E x).map (fun k => M.get s (driftBase + k))
    ++ (if p.quant.envEn then E.registers [p.quant.preserve] else [])
    ++ (envelopeBands E x).map (fun b => M.get s (envBase + b))
    ++ (accNotes E x).map (fun n => M.get s (accBase + n))

/-- Strength 0 (R251): bins 0..L-1 are copied word for word, the Nyquist bin is zeroed, no history is read or written. -/
def quantCopyEffect (rd rs1 : SReg) (p : Csrs) (s : S) : Effect R S :=
  let E := p.envOf H
  let frame := M.frame s rs1 E.lines
  ⟨E.registers [p.quant.strength] ++ binWords frame,
   M.modify (M.put s (sBase rd) (binWords (frame ++ [E.binDatum ⟨E.zero, E.zero⟩]))) fun u => u.setSLen rd E.bins⟩

/-- The registers of the quantizer history after a call (R256): `Q_PREV_E`, `Q_TR_CNT`, `Q_FIRST`. -/
def Storage.setQuantHistory (s : S) (prevE : Datum R) (cnt : Nat) : S :=
  M.modify (M.setPrevE s prevE) fun u => { u with csr := { u.csr with qTrCnt := BitVec.ofNat 32 cnt, qFirst := false } }

/-- Positive strength (R250): transient, target map, redistribution, accumulators, envelope. -/
def quantRunEffect (rd rs1 : SReg) (p : Csrs) (s : S) : Effect R S :=
  let E := p.envOf H
  let x := M.quantIn H s rs1 p
  let hist := E.quantHistory x
  let s' := M.put s (sBase rd) (E.binData (E.quantFrame x))
  let s' := M.putWords (M.put s' accBase (E.data (hist.map Prod.fst))) silBase (natWords (hist.map Prod.snd))
  let s' := M.setQuantHistory s' (realDatum E.num (E.energy x.mag)) (E.quantCnt x - 1)
  ⟨M.quantReads H s rs1 p ++ E.data (quantReals E x), M.modify s' fun u => u.setSLen rd E.bins⟩

/-- Whether the clamped strength is 0 (R251), for an environment. -/
def Csrs.strengthZeroIn (p : Csrs) (E : Env R) : Bool :=
  E.num.eq (E.clamp01 (E.num.ofBits p.quant.strength)) E.zero

/-- Whether the clamped strength is 0 (R251), on the default hardware. -/
def Csrs.strengthZero (p : Csrs) : Bool := p.strengthZeroIn p.env

/-- What QNT does (R250, R251). -/
def qntEffect (rd rs1 : SReg) (p : Csrs) (s : S) : Effect R S :=
  if p.strengthZeroIn (p.envOf H) then quantCopyEffect M H rd rs1 p s else quantRunEffect M H rd rs1 p s

end

/-- The inputs of a QNT with positive strength (R250), on the default hardware. -/
def State.quantIn (s : State) (rs1 : SReg) (p : Csrs) : QuantIn Word := hwStorage.quantIn spcHardware s rs1 p

/-- The reals that a QNT with positive strength reads, on the default hardware. -/
def State.quantReads (s : State) (rs1 : SReg) (p : Csrs) : List (Datum Word) := hwStorage.quantReads spcHardware s rs1 p

/-- `ENVC Ss` (R248). -/
def execEnvc (rs1 : SReg) (s : State) : Host.Outcome State Fault Refusal :=
  runCommand hwStorage (.envc rs1) s (envcEffect hwStorage spcHardware rs1)

/-- `QNT Sd, Ss` (R250). -/
def execQnt (rd rs1 : SReg) (s : State) : Host.Outcome State Fault Refusal :=
  runCommand hwStorage (.qnt rd rs1) s (qntEffect hwStorage spcHardware rd rs1)

end Sys2Proof.Machine
end

