-- ==== Sys2Proof/Machine/Transform.lean ====
section
/-! DEFINITION. The transform commands WIN, FFTF, FFTI (spec/41_fft.md) and POLAR, RECT, STFTF, STFTI
(spec/42_stft.md). -/

namespace Sys2Proof.Machine

section
variable {R S : Type} (M : Storage R S) (H : Hardware R)

/-- `T[n] <- T[n] × WIN[n]` (R161). -/
def winEffect (p : Csrs) (s : S) : Effect R S :=
  let E := p.envOf H
  let t := M.reals s tBase E.n
  let win := M.reals s winBase E.n
  let out := E.data (E.applyWindow (realsOf t) (realsOf win))
  ⟨t ++ win ++ out, M.put s tBase out⟩

/-- `Z <- FWD(T)`, `ZLEN <- N` (R163), with the tables as they stand. -/
def fftfEffect (p : Csrs) (s : S) : Effect R S :=
  let E := p.envOf H
  let t := M.reals s tBase E.n
  let tw := M.complexes s twBase (E.n / 2)
  let out := E.cxData (E.fwd (cxsOf tw) (M.nats s brBase E.n) (realsOf t))
  ⟨t ++ cxWords tw ++ out, M.modify (M.put s zBase out) fun u => u.setZLen E.n⟩

/-- `Z <- INV(Z)`, `T[n] <- Re Z[n]`, both tags set (R166). -/
def fftiEffect (p : Csrs) (s : S) : Effect R S :=
  let E := p.envOf H
  let z := M.complexes s zBase E.n
  let tw := M.complexes s twBase (E.n / 2)
  let y := E.inv (cxsOf tw) (M.nats s brBase E.n) (cxsOf z)
  let out := E.cxData y
  ⟨cxWords z ++ cxWords tw ++ out,
   M.modify (M.put (M.put s zBase out) tBase (E.data (y.map Cx.re))) fun u => (u.setZLen E.n).setTLen E.n⟩

/-- `S[rd] <- (|Z[k]|, arg Z[k])`, `SLEN[rd] <- B` (R186). -/
def polarEffect (rd : SReg) (p : Csrs) (s : S) : Effect R S :=
  let E := p.envOf H
  let z := M.complexes s zBase E.bins
  let out := E.binData (E.polarFrame (cxsOf z))
  ⟨cxWords z ++ out, M.modify (M.put s (sBase rd) out) fun u => u.setSLen rd E.bins⟩

/-- `Z <-` the conjugate-symmetric spectrum of `S[rs1]`, `ZLEN <- N` (R188). -/
def rectEffect (rs1 : SReg) (p : Csrs) (s : S) : Effect R S :=
  let E := p.envOf H
  let frame := M.frame s rs1 E.bins
  let out := E.cxData (E.rectFrame (binsOf frame))
  ⟨binWords frame ++ out, M.modify (M.put s zBase out) fun u => u.setZLen E.n⟩

/-- The state after `WIN; FFTF; POLAR Sd` (R191). -/
def stftfEffect (rd : SReg) (p : Csrs) (s : S) : Effect R S :=
  ((winEffect M H p s).andThen (fftfEffect M H p)).andThen (polarEffect M H rd p)

/-- The state after `RECT Ss; FFTI; WIN` (R193). -/
def stftiEffect (rs1 : SReg) (p : Csrs) (s : S) : Effect R S :=
  ((rectEffect M H rs1 p s).andThen (fftiEffect M H p)).andThen (winEffect M H p)

end

/-- `WIN` (R161). -/
def execWin (s : State) : Host.Outcome State Fault Refusal := runCommand hwStorage .win s (winEffect hwStorage spcHardware)

/-- `FFTF` (R163). -/
def execFftf (s : State) : Host.Outcome State Fault Refusal := runCommand hwStorage .fftf s (fftfEffect hwStorage spcHardware)

/-- `FFTI` (R166). -/
def execFfti (s : State) : Host.Outcome State Fault Refusal := runCommand hwStorage .ffti s (fftiEffect hwStorage spcHardware)

/-- `POLAR Sd` (R186). -/
def execPolar (rd : SReg) (s : State) : Host.Outcome State Fault Refusal :=
  runCommand hwStorage (.polar rd) s (polarEffect hwStorage spcHardware rd)

/-- `RECT Ss` (R188). -/
def execRect (rs1 : SReg) (s : State) : Host.Outcome State Fault Refusal :=
  runCommand hwStorage (.rect rs1) s (rectEffect hwStorage spcHardware rs1)

/-- `STFTF Sd` (R191): one `BUSY` period and one `DONE` event. -/
def execStftf (rd : SReg) (s : State) : Host.Outcome State Fault Refusal :=
  runCommand hwStorage (.stftf rd) s (stftfEffect hwStorage spcHardware rd)

/-- `STFTI Ss` (R193): one `BUSY` period and one `DONE` event. -/
def execStfti (rs1 : SReg) (s : State) : Host.Outcome State Fault Refusal :=
  runCommand hwStorage (.stfti rs1) s (stftiEffect hwStorage spcHardware rs1)

end Sys2Proof.Machine
end

