-- ==== Sys2Proof/Machine/Vocoder.lean ====
section
/-! DEFINITION. The phase vocoder command PV (spec/43_phase_vocoder.md) and the frequency shifter command FSH
(spec/44_shifter.md). -/

namespace Sys2Proof.Machine

section
variable {R S : Type} (M : Storage R S) (H : Hardware R)

/-- The phase vocoder history a call leaves: `PV_PMAG`, `PV_PPH`, `PV_SPH` (R203, R209). -/
def Storage.putPvHistory (s : S) (mag pph sph : List (Datum R)) : S :=
  M.put (M.put (M.put s pmagBase mag) pphBase pph) sphBase sph

/-- A first call (R203): the frame passes through word for word and seeds the history. -/
def pvFirstEffect (rd rs1 : SReg) (p : Csrs) (s : S) : Effect R S :=
  let frame := M.frame s rs1 p.bins
  let mag := frame.map Bin.mag
  let ph := frame.map Bin.ph
  let s' := M.putPvHistory (M.put s (sBase rd) (binWords frame)) mag ph ph
  ⟨binWords frame, M.modify s' fun u =>
    let v := u.setSLen rd p.bins
    { v with csr := { v.csr with pvFirst := false } }⟩

/-- A call after the first (R201, R204 to R209): magnitudes pass through, phases are tracked and shifted. -/
def pvNextEffect (rd rs1 : SReg) (p : Csrs) (s : S) : Effect R S :=
  let E := p.envOf H
  let frame := M.frame s rs1 E.bins
  let mag := frame.map Bin.mag
  let pph := M.reals s pphBase E.bins
  let sph := M.reals s sphBase E.bins
  let lph := E.lockedPhases p.lockEn (realsOf mag) (realsOf (frame.map Bin.ph))
  let out := E.data (E.synthPhases (E.num.ofBits p.shiftHz) lph (realsOf pph) (realsOf sph))
  let s' := M.putPvHistory (M.put s (sBase rd) (binWords (List.zipWith Bin.mk mag out))) mag (E.data lph) out
  ⟨E.registers [p.shiftHz] ++ binWords frame ++ pph ++ sph ++ out, M.modify s' fun u => u.setSLen rd E.bins⟩

/-- What PV does (R201). -/
def pvEffect (rd rs1 : SReg) (p : Csrs) (s : S) : Effect R S :=
  if p.pvFirst then pvFirstEffect M rd rs1 p s else pvNextEffect M H rd rs1 p s

/-- What FSH does (R228). -/
def fshEffect (rd rs1 : SReg) (p : Csrs) (s : S) : Effect R S :=
  let E := p.envOf H
  let shift := E.num.ofBits p.shiftHz
  let frame := M.frame s rs1 E.bins
  let bins := binsOf frame
  let out := E.binData (E.shiftFrame shift (bins.map Bin.mag) (bins.map Bin.ph))
  ⟨E.registers [p.shiftHz] ++ E.data [E.shiftBins shift] ++ binWords frame ++ out,
   M.modify (M.put s (sBase rd) out) fun u => u.setSLen rd E.bins⟩

end

/-- `PV Sd, Ss` (R201). -/
def execPv (rd rs1 : SReg) (s : State) : Host.Outcome State Fault Refusal :=
  runCommand hwStorage (.pv rd rs1) s (pvEffect hwStorage spcHardware rd rs1)

/-- `FSH Sd, Ss` (R228). -/
def execFsh (rd rs1 : SReg) (s : State) : Host.Outcome State Fault Refusal :=
  runCommand hwStorage (.fsh rd rs1) s (fshEffect hwStorage spcHardware rd rs1)

end Sys2Proof.Machine
end

