-- ==== Sys2Proof/Machine/Dispatch.lean ====
section
/-! DEFINITION. Which meaning each command has (spec/30_encoding.md R105). -/

namespace Sys2Proof.Machine

def exec (i : Instr) (s : State) : Host.Outcome State Fault Refusal :=
  match i with
  | .nop => Sys2Proof.Machine.execNop s
  | .cfg => Sys2Proof.Machine.execCfg s
  | .reset imm3 => Sys2Proof.Machine.execReset imm3 s
  | .win => Sys2Proof.Machine.execWin s
  | .fftf => Sys2Proof.Machine.execFftf s
  | .ffti => Sys2Proof.Machine.execFfti s
  | .polar rd => Sys2Proof.Machine.execPolar rd s
  | .rect rs1 => Sys2Proof.Machine.execRect rs1 s
  | .stftf rd => Sys2Proof.Machine.execStftf rd s
  | .stfti rs1 => Sys2Proof.Machine.execStfti rs1 s
  | .pv rd rs1 => Sys2Proof.Machine.execPv rd rs1 s
  | .fsh rd rs1 => Sys2Proof.Machine.execFsh rd rs1 s
  | .envc rs1 => Sys2Proof.Machine.execEnvc rs1 s
  | .qnt rd rs1 => Sys2Proof.Machine.execQnt rd rs1 s
  | .mskb => Sys2Proof.Machine.execMskb s
  | .msk rd rs1 rs2 => Sys2Proof.Machine.execMsk rd rs1 rs2 s
  | .sdlp => Sys2Proof.Machine.execSdlp s
  | .sdl rd rs1 => Sys2Proof.Machine.execSdl rd rs1 s

end Sys2Proof.Machine
end

