-- ==== Sys2Proof/Machine/RealStorage.lean ====
section
/-! DEFINITION. The state of a machine whose numerics record is not the default one (spec/48_numerics.md R320 to R322): beside
each word of storage that a command wrote, the real that it stands for. A real is rounded to a bus word only where the host reads
it, and a word that the host writes is the real it encodes. -/

namespace Sys2Proof.Machine

/-- A machine over the carrier `R`: the state as the bus shows it, and the reals that commands left in storage, by word address
with rising addresses, in the delay-line RAM (R46), which never crosses the bus, by word index, and in `Q_PREV_E`. Where no
real is listed, the word of `word` is the real. -/
structure RealState (R : Type) where
  word : State
  bus : List (Nat × R)
  delay : List (Nat × R)
  prevE : Option R
deriving DecidableEq, Repr

/-- A state in which every real is what its word encodes. -/
def RealState.ofState {R : Type} (s : State) : RealState R := ⟨s, [], [], none⟩

/-- The machine after hard reset (R380). -/
def RealState.reset {R : Type} : RealState R := RealState.ofState State.reset

/-- The real listed for an address. -/
def lookupReal {R : Type} (a : Nat) : List (Nat × R) → Option R
  | [] => none
  | (x, r) :: rest => if x = a then some r else lookupReal a rest

/-- The listed reals with those at `a` to `a + n - 1` replaced by `new`. -/
def spliceReals {R : Type} (l : List (Nat × R)) (a n : Nat) (new : List (Nat × R)) : List (Nat × R) :=
  l.filter (fun c => c.1 < a) ++ new ++ l.filter (fun c => a + n ≤ c.1)

/-- Reals as pairs for consecutive addresses from `a` on. -/
def realsAt {R : Type} : Nat → List (Datum R) → List (Nat × R)
  | _, [] => []
  | a, d :: ds => (a, d.real) :: realsAt (a + 1) ds

/-- The real that is kept beside a word, if one is, else the real that the word encodes. -/
def keptDatum {R : Type} (num : Num R) (kept : Option R) (w : Word) : Datum R :=
  match kept with
  | some r => ⟨w, r, num.isReal r⟩
  | none => wordDatum num w

/-- The machine that keeps the reals themselves. A word that the host writes replaces the real kept there, and a hard reset
leaves none. -/
def realStorage {R : Type} (H : Hardware R) : Storage R (RealState R) where
  base := RealState.word
  modify := fun s f => { s with word := f s.word }
  get := fun s a => keptDatum H.num (lookupReal a s.bus) (s.word.word a)
  put := fun s a ds =>
    { s with
      word := s.word.putWords a (ds.map Datum.word)
      bus := spliceReals s.bus a ds.length (realsAt a ds) }
  putWords := fun s a ws =>
    { s with word := s.word.putWords a ws, bus := spliceReals s.bus a ws.length [] }
  getDelay := fun s a => keptDatum H.num (lookupReal a s.delay) (s.word.delayWord a)
  putDelay := fun s a ds =>
    { s with
      word := { s.word with delay := s.word.delay.writeWords a (ds.map Datum.word) }
      delay := spliceReals s.delay a ds.length (realsAt a ds) }
  clearDelay := fun s => { s with word := { s.word with delay := Memory.zeroed }, delay := [] }
  prevE := fun s p => keptDatum H.num s.prevE p.qPrevE
  setPrevE := fun s e =>
    { s with word := { s.word with csr := { s.word.csr with qPrevE := e.word } }, prevE := some e.real }
  served := fun s e t =>
    match e with
    | .read _ => { s with word := t }
    | .write a _ =>
      { s with word := t, bus := if hostWritable a.toNat H.par then spliceReals s.bus a.toNat 1 [] else s.bus }
    | .hardReset => RealState.ofState t

end Sys2Proof.Machine
end

