-- ==== Sys2Proof/Machine/Parametric.lean ====
section
/-! DEFINITION. The commands of any hardware: the effect of every command over its numerics record, its parameters and its
storage (spec/00_scope.md R6, spec/48_numerics.md R320). `exec` is this at the default hardware, which keeps bus words
(`Sys2Proof.Machine.exec_eq_execOn`). -/

namespace Sys2Proof.Machine

section
variable {R S : Type} (M : Storage R S) (H : Hardware R)

/-- What a command does once its checks pass. -/
def effectOn : Instr → Csrs → S → Effect R S
  | .nop => nopEffect
  | .cfg => cfgEffect M H
  | .reset imm3 => resetEffect M H imm3
  | .win => winEffect M H
  | .fftf => fftfEffect M H
  | .ffti => fftiEffect M H
  | .polar rd => polarEffect M H rd
  | .rect rs1 => rectEffect M H rs1
  | .stftf rd => stftfEffect M H rd
  | .stfti rs1 => stftiEffect M H rs1
  | .pv rd rs1 => pvEffect M H rd rs1
  | .fsh rd rs1 => fshEffect M H rd rs1
  | .envc rs1 => envcEffect M H rs1
  | .qnt rd rs1 => qntEffect M H rd rs1
  | .mskb => mskbEffect M H
  | .msk rd rs1 rs2 => mskEffect M H rd rs1 rs2
  | .sdlp => sdlpEffect M H
  | .sdl rd rs1 => sdlEffect M H rd rs1

/-- Executing a command with a given storage (R101 steps 3 to 5). -/
def execOn (i : Instr) (s : S) : Host.Outcome S Fault Refusal :=
  runCommand M i s (effectOn M H i) H.par (rateOkOn H.num)

end

/-- Executing a command on a hardware that keeps the reals of its record (R320). -/
def execWith {R : Type} (H : Hardware R) (i : Instr) (s : RealState R) : Host.Outcome (RealState R) Fault Refusal :=
  execOn (realStorage H) H i s

end Sys2Proof.Machine
end

