-- ==== Sys2Proof/Machine/Registers.lean ====
section
/-! DEFINITION. Reading and writing the control registers over the bus (spec/10_state.md R26 to R33). -/

namespace Sys2Proof.Machine

/-- The code of a window on the bus (R28). -/
def Window.code : Window → Word
  | .hann => 0
  | .hamming => 1
  | .blackman => 2

/-- The window of a code, none for an illegal value (R28). -/
def windowOf (v : Word) : Option Window :=
  if v = 0 then some .hann else if v = 1 then some .hamming else if v = 2 then some .blackman else none

/-- The code of a mask mode on the bus (R32). -/
def MaskMode.code : MaskMode → Word
  | .lowPass => 0
  | .highPass => 1
  | .bandPass => 2

/-- The mask mode of a code, none for an illegal value (R32). -/
def maskModeOf (v : Word) : Option MaskMode :=
  if v = 0 then some .lowPass else if v = 1 then some .highPass else if v = 2 then some .bandPass else none

/-- `ID`, the letters "SPC1" (R27). -/
def idWord : Word := 0x53504331

/-- The control register at an offset as the host reads it (R26 to R33). `CMD` reads 0; offsets not listed read 0. -/
def State.readCsr (s : State) (off : Nat) : Word :=
  let c := s.csr
  match off with
  | 0x00 => idWord
  | 0x01 => 0
  | 0x02 => s.status
  | 0x03 => c.errCode
  | 0x04 => c.errInfo
  | 0x05 => c.ieWord
  | 0x06 => c.ipWord
  | 0x08 => c.staged.fftSize
  | 0x09 => c.staged.hop
  | 0x0A => c.staged.window.code
  | 0x0B => c.staged.sampleRate
  | 0x0C => c.active.n
  | 0x0D => c.active.hop
  | 0x0E => c.active.window.code
  | 0x0F => c.active.fs
  | 0x10 => c.tags.t
  | 0x11 => c.tags.z
  | 0x12 => c.tags.s[0]
  | 0x13 => c.tags.s[1]
  | 0x14 => c.tags.s[2]
  | 0x15 => c.tags.s[3]
  | 0x18 => c.shiftHz
  | 0x19 => flagBit c.lockEn 0
  | 0x20 => c.quant.strength
  | 0x21 => BitVec.ofNat 32 c.quant.root.val
  | 0x22 => c.quant.scale
  | 0x23 => flagBit c.quant.driftEn 0 ||| flagBit c.quant.envEn 1
  | 0x24 => c.quant.preserve
  | 0x25 => c.quant.transThr
  | 0x26 => c.quant.transAmt
  | 0x27 => c.qPrevE
  | 0x28 => c.qTrCnt
  | 0x30 => c.mask.mode.code
  | 0x31 => c.mask.lo
  | 0x32 => c.mask.hi
  | 0x33 => c.mask.width
  | 0x38 => c.delay.timeMs
  | 0x39 => c.delay.slope
  | 0x3A => c.delay.feedback
  | 0x3B => c.delay.damping
  | 0x3C => c.delay.mix
  | 0x3D => c.delay.gain
  | 0x3E => c.sdDepth
  | 0x3F => c.sdWr
  | _ => 0

/-- A write to a staged configuration register sets `CFG_DIRTY` (R25). -/
def Csrs.stage (c : Csrs) (x : StagedCfg) : Csrs := { c with staged := x, cfgDirty := true }

/-- A write to a mask parameter sets `MASK_DIRTY` (R25). -/
def Csrs.writeMask (c : Csrs) (x : MaskCtl) : Csrs := { c with mask := x, maskDirty := true }

/-- A write to `SD_TIME_MS`, `SD_SLOPE` or `SD_DAMPING` sets `SD_DIRTY` (R25). -/
def Csrs.writeDelayTable (c : Csrs) (x : DelayCtl) : Csrs := { c with delay := x, sdDirty := true }

/-- A write to a tag (R29). -/
def Csrs.writeTag (c : Csrs) (r : SReg) (v : Word) : Csrs := { c with tags := { c.tags with s := c.tags.s.set r v } }

/-- A host write to the tag of frame register `r`; the tag of an absent register is an offset not listed (R26, log 14). -/
def Csrs.writeSLen (c : Csrs) (r : SReg) (v : Word) (par : Params := Params.spc) : Csrs :=
  if present r par then c.writeTag r v else c

/-- A host write to the control register at an offset (R26 to R33). Read-only registers, offsets not listed and illegal
enum values ignore the write (R26, R349). A write to `CMD` stores nothing here: it issues a command (R100). -/
def Csrs.write (c : Csrs) (off : Nat) (v : Word) (par : Params := Params.spc) : Csrs :=
  match off with
  | 0x05 => c.writeIe v
  | 0x06 => c.writeIp v
  | 0x08 => c.stage { c.staged with fftSize := v }
  | 0x09 => c.stage { c.staged with hop := v }
  | 0x0A => match windowOf v with
    | some w => c.stage { c.staged with window := w }
    | none => c
  | 0x0B => c.stage { c.staged with sampleRate := v }
  | 0x10 => { c with tags := { c.tags with t := v } }
  | 0x11 => { c with tags := { c.tags with z := v } }
  | 0x12 => c.writeSLen 0 v par
  | 0x13 => c.writeSLen 1 v par
  | 0x14 => c.writeSLen 2 v par
  | 0x15 => c.writeSLen 3 v par
  | 0x18 => { c with shiftHz := v }
  | 0x19 => { c with lockEn := v.getLsbD 0 }
  | 0x20 => { c with quant := { c.quant with strength := v } }
  | 0x21 => if h : v.toNat < 12 then { c with quant := { c.quant with root := ⟨v.toNat, h⟩ } } else c
  | 0x22 => if v.toNat < par.nScales then { c with quant := { c.quant with scale := v } } else c
  | 0x23 => { c with quant := { c.quant with driftEn := v.getLsbD 0, envEn := v.getLsbD 1 } }
  | 0x24 => { c with quant := { c.quant with preserve := v } }
  | 0x25 => { c with quant := { c.quant with transThr := v } }
  | 0x26 => { c with quant := { c.quant with transAmt := v } }
  | 0x30 => match maskModeOf v with
    | some m => c.writeMask { c.mask with mode := m }
    | none => c
  | 0x31 => c.writeMask { c.mask with lo := v }
  | 0x32 => c.writeMask { c.mask with hi := v }
  | 0x33 => c.writeMask { c.mask with width := v }
  | 0x38 => c.writeDelayTable { c.delay with timeMs := v }
  | 0x39 => c.writeDelayTable { c.delay with slope := v }
  | 0x3A => { c with delay := { c.delay with feedback := v } }
  | 0x3B => c.writeDelayTable { c.delay with damping := v }
  | 0x3C => { c with delay := { c.delay with mix := v } }
  | 0x3D => { c with delay := { c.delay with gain := v } }
  | _ => c

end Sys2Proof.Machine
end

