-- ==== Sys2Proof/Machine/Issue.lean ====
section
/-! DEFINITION. The bus and the sequencing of commands: host accesses, stalls, issue and completion (spec/20_memory.md
R72, R79 to R82, spec/30_encoding.md R100, R101). What depends on the parameters of R6 takes them as a last argument, by
default the values that this hardware has. `State.plan` says what the next event is; which machine runs the command is left to
`advance`, so that the sequencing of any hardware is said here once. -/

namespace Sys2Proof.Machine

/-- The word address of `CMD` (R100). -/
def cmdAddr : WordAddr := 0x00001

/-- Whether an address lies among the control registers (R73). -/
def isCsrAddr (a : WordAddr) : Bool := decide (a.toNat < 0x100)

/-- `MemRead(a, 1)` (R72): the word at a word address. -/
def State.memRead (s : State) (a : WordAddr) (par : Params := Params.spc) : Word :=
  if isCsrAddr a then s.readCsr a.toNat else s.busRead a.toNat par

/-- `MemWrite(a, 1, v)` (R72) anywhere but at `CMD`. -/
def State.memWrite (s : State) (a : WordAddr) (v : Word) (par : Params := Params.spc) : State :=
  if isCsrAddr a then { s with csr := s.csr.write a.toNat v par } else s.busWrite a.toNat v par

/-- Whether a host access stalls while a command is in flight: any access outside the control registers, and a write to
`CMD` (R79). A hard reset never stalls. -/
def HostEvent.stalls : HostEvent → Bool
  | .read a => !isCsrAddr a
  | .write a _ => !isCsrAddr a || a == cmdAddr
  | .hardReset => false

/-- A read: the word goes to the host, nothing changes in SPC (R77). -/
def State.serveRead (s : State) (a : WordAddr) (par : Params := Params.spc) : State :=
  { s with readLog := s.readLog ++ [s.memRead a par] }

/-- Issue of a command that overlaps `n + 1` host accesses: if its checks fail it raises its fault, else `BUSY <- 1` and
the control registers are latched (R80, R82, R101). -/
def State.issue (s : State) (i : Instr) (n : Nat) (par : Params := Params.spc) (rateOk : Word → Bool := rateOk) : State :=
  match s.params.issueFault i par rateOk with
  | some f => s.raise f.cause f.info
  | none => { s with inFlight := some ⟨i, s.csr, n⟩ }

/-- What the next event of SPC is. -/
inductive Plan where
  /-- Nothing is to come. -/
  | idle
  /-- The host's event is served and leaves this state. -/
  | host (e : HostEvent) (t : State)
  /-- The command is executed from this state, from its checks to its completion. -/
  | run (i : Instr) (t : State)
deriving DecidableEq, Repr

/-- The frame registers that a command names (R102). -/
def namedRegs : Instr → List SReg
  | .nop | .cfg | .reset _ | .win | .fftf | .ffti | .mskb | .sdlp => []
  | .polar rd | .stftf rd => [rd]
  | .rect rs1 | .stfti rs1 | .envc rs1 => [rs1]
  | .pv rd rs1 | .fsh rd rs1 | .qnt rd rs1 | .sdl rd rs1 => [rd, rs1]
  | .msk rd rs1 rs2 => [rd, rs1, rs2]

/-- A word written to `CMD` while no command is in flight (R101). Its overlap is the next entry of `overlap`, 0 where
there is none: with 0, issue and completion are one step (R80). On a hardware with fewer frame registers than the encoding
can name, a word that names an absent one is illegal (DESIGN CHOICE, log 14); on this hardware every one is there (R102). -/
def State.command (s : State) (w : Word) (par : Params := Params.spc) (rateOk : Word → Bool := rateOk) : Plan :=
  let served := Plan.host (.write cmdAddr w)
  if s.csr.err then served s
  else
    match decode w with
    | .error _ => served (s.raise .illegalCmd w)
    | .ok i =>
      if (namedRegs i).all fun r => present r par then
        match s.overlap with
        | [] => .run i s
        | 0 :: rest => .run i { s with overlap := rest }
        | (n + 1) :: rest => served (State.issue { s with overlap := rest } i n par rateOk)
      else served (s.raise .illegalCmd w)

/-- A host event served while no command is in flight. -/
def State.serve (s : State) (e : HostEvent) (par : Params := Params.spc) (rateOk : Word → Bool := rateOk) : Plan :=
  match e with
  | .read a => .host e (s.serveRead a par)
  | .write a v => if a = cmdAddr then s.command v par rateOk else .host e (s.memWrite a v par)
  | .hardReset => .host e s.hardReset

/-- A host access served while a command is in flight: one that does not stall (R79), so a read or a write of a control
register other than a write to `CMD`; or the hard reset. -/
def State.serveBusy (s : State) (c : InFlight) (e : HostEvent) (par : Params := Params.spc) : State :=
  let s := { s with inFlight := some { c with left := c.left - 1 } }
  match e with
  | .read a => s.serveRead a par
  | .write a v => s.memWrite a v par
  | .hardReset => s.hardReset

/-- Whether the command in flight completes before a host event is served: when its overlap is used up, or the event
stalls (R79). A hard reset waits for nothing. -/
def InFlight.completesBefore (c : InFlight) (e : HostEvent) : Bool :=
  match e with
  | .hardReset => false
  | _ => c.left == 0 || e.stalls

/-- The next event of SPC: completion of the command in flight, or the host's next event; with neither, the core is idle and
holds all of its state (R374). -/
def State.plan (s : State) (par : Params := Params.spc) (rateOk : Word → Bool := rateOk) : Plan :=
  match s.inFlight, s.pending with
  | none, [] => .idle
  | none, e :: rest => State.serve { s with pending := rest } e par rateOk
  | some c, [] => .run c.instr s
  | some c, e :: rest =>
    if c.completesBefore e then .run c.instr s else .host e (State.serveBusy { s with pending := rest } c e par)

/-- One event of a machine with the storage `M`, whose commands are `ex`. -/
def advance {R S : Type} (M : Storage R S) (ex : Instr → S → Host.Outcome S Fault Refusal) (par : Params)
    (rateOk : Word → Bool) (s : S) : Host.Outcome S Fault Refusal :=
  match (M.base s).plan par rateOk with
  | .idle => .next s
  | .host e t => .next (M.served s e t)
  | .run i t => ex i (M.modify s fun _ => t)

/-- `s` with a word as the host's next write to `CMD`, no command in flight, no fault recorded, and no overlap for that
command, so that the next event is the issue and completion of exactly that word (log 11). -/
def State.withCommand (s : State) (w : Word) : State :=
  { s.returnFromFault with
    inFlight := none, pending := .write cmdAddr w :: s.pending, overlap := 0 :: s.overlap }

end Sys2Proof.Machine
end

