-- ==== Sys2Proof/Machine/Step.lean ====
section
/-! DEFINITION. One step of SPC, and the state in which the next step runs a given command word. SPC fetches nothing: a
command is a word the host writes to `CMD` (spec/30_encoding.md R100). -/

namespace Sys2Proof.Machine

/-- One step of a machine with a given storage (R6, R320): one event. -/
def stepOn {R S : Type} (M : Storage R S) (H : Hardware R) (s : S) : Host.Outcome S Fault Refusal :=
  advance M (execOn M H) H.par (rateOkOn H.num) s

/-- One step of a hardware that keeps the reals of its record (R320): one event. -/
def stepWith {R : Type} (H : Hardware R) (s : RealState R) : Host.Outcome (RealState R) Fault Refusal :=
  stepOn (realStorage H) H s

/-- One step: one event of SPC, on the default hardware (`Sys2Proof.Machine.step_eq_stepOn`). -/
def step (s : State) : Host.Outcome State Fault Refusal := advance hwStorage exec Params.spc rateOk s

/-- `s` with the word whose low `nbits` bits are those of `w`, every bit above them 0, placed as the host's next write to
`CMD` (log 11). -/
def State.withFetchWord (s : State) (nbits w : Nat) : State := s.withCommand (tableWord nbits w)

end Sys2Proof.Machine
end

