-- ==== Sys2Proof/Machine/Reference.lean ====
section
/-! DEFINITION. The reference instance of `NUM`: the exact real numbers (spec/48_numerics.md R321). The machine never
computes with it; the statements that the spec makes in the exact reals are made of the units over it. -/

namespace Sys2Proof.Machine

open scoped Classical in
/-- `q` rounded to the nearest integer, ties to even. -/
noncomputable def roundEven (q : ℝ) : Nat :=
  let f := ⌊q⌋₊
  if q - f < 1 / 2 then f else if 1 / 2 < q - f then f + 1 else f + f % 2

open scoped Classical in
/-- The binary32 pattern nearest to a real, ties to even (R321). Two points are the model's choice (DESIGN CHOICE, log 23):
a real that rounds beyond the finite range shows as the infinity pattern of its sign, and a negative real that rounds to zero
gives the pattern of -0. -/
noncomputable def exactToBits (x : ℝ) : Word :=
  let u := |x| * 2 ^ 149
  let k := Nat.log2 ⌊u⌋₊ - 23
  let body := (k <<< 23) + roundEven (u / 2 ^ k)
  let inRange := if body < 0x7F800000 then body else 0x7F800000
  BitVec.ofNat 32 (if x < 0 then 0x80000000 + inRange else inRange)

/-- The real number that a finite binary32 pattern stands for (R322). -/
noncomputable def realOf (w : Word) : ℝ := (f32Fix w : ℝ) / 2 ^ 149

open scoped Classical in
/-- The reference instance of `NUM` (R321). -/
noncomputable def exactNum : Num ℝ where
  add := fun a b => a + b
  sub := fun a b => a - b
  mul := fun a b => a * b
  div := fun a b => a / b
  sqrt := Real.sqrt
  sin := Real.sin
  cos := Real.cos
  arg := fun re im => Complex.arg ⟨re, im⟩
  log2 := Real.logb 2
  exp2 := fun x => (2 : ℝ) ^ x
  pi := Real.pi
  lt := fun a b => decide (a < b)
  le := fun a b => decide (a ≤ b)
  eq := fun a b => decide (a = b)
  ofInt := fun i => (i : ℝ)
  floor := fun x => ⌊x⌋
  ceil := fun x => ⌈x⌉
  toBits := exactToBits
  ofBits := realOf
  isReal := fun _ => true

/-- The hardware of the reference instance, with the parameters of this one (R321). -/
noncomputable def exactHardware : Hardware ℝ := ⟨exactNum, Params.spc⟩

/-- The units over the exact reals, for an active N, HOP and FS (R7, R321). -/
noncomputable def exactEnv (n : Nat) (hop : Int) (fs : ℝ) : Env ℝ := ⟨exactNum, Params.spc, n, hop, fs⟩

/-- A pair of reals as a complex number. -/
noncomputable def toComplex (z : Cx ℝ) : ℂ := ⟨z.re, z.im⟩

end Sys2Proof.Machine
end

