-- ==== Sys2Proof/Safety.lean ====
section
/-! DEFINITION. The terms in which claims about SPC are made: which states are well-formed, what a completed command leaves
alone, and which words are real numbers. -/

namespace Sys2Proof.Machine

/-- Every word of a list is a finite binary32 pattern (R327). -/
def allFinite (ws : List Word) : Prop := ∀ w ∈ ws, f32Finite w = true

/-- The active configuration and the delay depth as a successful CFG leaves them (R133, R134, R301), and the write index
inside the lines (R33). -/
structure Csrs.ConfigLegal (c : Csrs) : Prop where
  size : sizeOk c.active.n.toNat = true
  hop : hopOk c.active.n.toNat c.active.hop.toInt = true
  rate : rateOk c.active.fs = true
  depthLow : 2 ≤ c.sdDepth.toNat
  depthHigh : c.sdDepth.toNat ≤ 4096
  writeIndex : c.sdWr.toNat < c.sdDepth.toNat

/-- A CFG has succeeded and none has failed since (R25), so that commands run. -/
structure Csrs.Configured (c : Csrs) : Prop where
  ok : c.cfgOk = true
  legal : c.ConfigLegal

/-- The fault record: with `ERR` 1 a code of the fault table, with `ERR` 0 nothing (R341, R345, R347). -/
def Csrs.RecordLegal (c : Csrs) : Prop :=
  (c.err = true → 1 ≤ c.errCode.toNat ∧ c.errCode.toNat ≤ 6) ∧ (c.err = false → c.errCode = 0 ∧ c.errInfo = 0)

/-- Two copies of the control registers that agree on what only commands change, so that no host write can make them
differ (R82, R80). -/
structure Csrs.SameReadOnly (c d : Csrs) : Prop where
  cfgOk : c.cfgOk = d.cfgOk
  active : c.active = d.active
  pvFirst : c.pvFirst = d.pvFirst
  qFirst : c.qFirst = d.qFirst
  qPrevE : c.qPrevE = d.qPrevE
  qTrCnt : c.qTrCnt = d.qTrCnt
  sdDepth : c.sdDepth = d.sdDepth
  sdWr : c.sdWr = d.sdWr

/-- The well-formed states: what holds after hard reset and every step keeps. -/
structure State.Wf (s : State) : Prop where
  mem : s.mem.wf = true
  memFill : s.mem.fill = none
  delay : s.delay.wf = true
  /-- Once configured the delay lines have been cleared (R46). -/
  delayFill : s.csr.cfgOk = true → s.delay.fill = some 0
  config : s.csr.cfgOk = true → s.csr.ConfigLegal
  record : s.csr.RecordLegal
  /-- `Q_TR_CNT` is in 0..8 (R31). -/
  ramp : s.csr.qTrCnt.toNat ≤ 8
  /-- `Q_SCALE` is in 0..NSCALES-1 (R31, R349). -/
  scale : s.csr.quant.scale.toNat < 4
  /-- A command in flight has passed its checks, and no fault is recorded while it runs (R348). -/
  flight : ∀ c, s.inFlight = some c →
    s.csr.err = false ∧ c.latched.issueFault c.instr = none ∧ c.latched.SameReadOnly s.csr

/-- What CFG builds and only CFG changes, and the ranges of the integer tables, once configured (R85, R41, R44). -/
structure State.TablesLegal (s : State) : Prop where
  twiddles : s.complexes twBase (s.csr.env.n / 2) = s.csr.env.twTable
  permutation : s.words brBase s.csr.env.n = natWords s.csr.env.brTable
  window : s.words winBase s.csr.env.n = s.csr.env.winTable s.csr.active.window
  bands : s.words bandBase s.csr.env.lines = natWords s.csr.env.bandTable
  lengths : ∀ k, k < s.csr.env.lines →
    1 ≤ (s.word (dlenBase + k)).toNat ∧ (s.word (dlenBase + k)).toNat ≤ s.csr.sdDepth.toNat - 1
  silence : ∀ n, n < 128 → (s.word (silBase + n)).toNat ≤ 8

/-- A block of bus words: its word base and its number of words. -/
structure Block where
  base : Nat
  size : Nat

/-- The byte address `a` lies in none of the blocks (R75). -/
def outsideBlocks (bs : List Block) (a : Nat) : Prop := ∀ b ∈ bs, a < 4 * b.base ∨ 4 * (b.base + b.size) ≤ a

/-- Every byte of `m` outside the blocks reads in `m'` as it read in `m`. -/
def SameBytesOutside (bs : List Block) (m m' : Memory) : Prop := ∀ a, outsideBlocks bs a → m'.byte? a = m.byte? a

/-- What the completion of a command leaves of the rest of the state (R80, R351): `BUSY` 0, `DONE` pending, the control
registers `c`, the host's side as it was. -/
structure State.Finished (s t : State) (c : Csrs) : Prop where
  idle : t.inFlight = none
  csr : t.csr = { c with ipDone := true }
  pending : t.pending = s.pending
  overlap : t.overlap = s.overlap
  readLog : t.readLog = s.readLog
  epoch : t.epoch = s.epoch

/-- The block of frame register `r` that a command writes for `B` bins. -/
def frameBlock (r : SReg) (bins : Nat) : Block := ⟨sBase r, 2 * bins⟩

/-- The registers with one frame tag set (R23). -/
def Csrs.withSLen (c : Csrs) (r : SReg) (v : Nat) : Csrs := c.writeTag r (BitVec.ofNat 32 v)

/-- The registers with `TLEN` set (R29). -/
def Csrs.withTLen (c : Csrs) (v : Nat) : Csrs := { c with tags := { c.tags with t := BitVec.ofNat 32 v } }

/-- The registers with `ZLEN` set (R29). -/
def Csrs.withZLen (c : Csrs) (v : Nat) : Csrs := { c with tags := { c.tags with z := BitVec.ofNat 32 v } }

/-- The `mag` word of bin `k` of frame register `r` (R73). -/
def State.mag (s : State) (r : SReg) (k : Nat) : Word := s.word (sBase r + 2 * k)

/-- The `ph` word of bin `k` of frame register `r` (R73). -/
def State.ph (s : State) (r : SReg) (k : Nat) : Word := s.word (sBase r + 2 * k + 1)

/-- The blocks of bus storage that a command whose checks pass may write, for the control registers it has latched
(R14, R85): what its rule lists as "State written". -/
def Csrs.writtenBlocks (p : Csrs) : Instr → List Block
  | .nop => []
  | .cfg =>
    let E := p.stagedEnv
    [⟨twBase, 2 * (E.n / 2)⟩, ⟨brBase, E.n⟩, ⟨winBase, E.n⟩, ⟨bandBase, E.lines⟩, ⟨maskBase, E.lines⟩,
     ⟨dampBase, E.lines⟩, ⟨dlenBase, E.lines⟩, ⟨driftBase, E.lines⟩, ⟨pmagBase, E.bins⟩, ⟨pphBase, E.bins⟩,
     ⟨sphBase, E.bins⟩, ⟨accBase, 128⟩, ⟨silBase, 128⟩, ⟨envBase, 48⟩]
  | .reset imm3 =>
    (if imm3.getLsbD 0 then [⟨pmagBase, p.env.bins⟩, ⟨pphBase, p.env.bins⟩, ⟨sphBase, p.env.bins⟩] else [])
      ++ (if imm3.getLsbD 1 then [⟨accBase, 128⟩, ⟨silBase, 128⟩, ⟨envBase, 48⟩] else [])
  | .win => [⟨tBase, p.env.n⟩]
  | .fftf => [⟨zBase, 2 * p.env.n⟩]
  | .ffti => [⟨zBase, 2 * p.env.n⟩, ⟨tBase, p.env.n⟩]
  | .polar rd => [frameBlock rd p.env.bins]
  | .rect _ => [⟨zBase, 2 * p.env.n⟩]
  | .stftf rd => [⟨tBase, p.env.n⟩, ⟨zBase, 2 * p.env.n⟩, frameBlock rd p.env.bins]
  | .stfti _ => [⟨zBase, 2 * p.env.n⟩, ⟨tBase, p.env.n⟩]
  | .pv rd _ => [frameBlock rd p.env.bins, ⟨pmagBase, p.env.bins⟩, ⟨pphBase, p.env.bins⟩, ⟨sphBase, p.env.bins⟩]
  | .fsh rd _ => [frameBlock rd p.env.bins]
  | .envc _ => [⟨envBase, 48⟩]
  | .qnt rd _ =>
    frameBlock rd p.env.bins :: (if p.strengthZero then [] else [⟨accBase, 128⟩, ⟨silBase, 128⟩])
  | .mskb => [⟨maskBase, p.env.lines⟩]
  | .msk rd _ _ => [frameBlock rd p.env.bins]
  | .sdlp => [⟨dampBase, p.env.lines⟩, ⟨dlenBase, p.env.lines⟩]
  | .sdl rd _ => [frameBlock rd p.env.bins]

/-- The new magnitude of a bin that the frequency shifter moves: unchanged, and its size where the host wrote a negative
one (R221, R226, log 9). -/
def movedMag (m : Word) : Word := if f32Lt m 0 then f32Sqrt (f32Mul m m) else m

/-- Whether QNT with the latched registers `p` detects a transient on a frame of energy `e` (R255). -/
def Csrs.transient (p : Csrs) (e : Word) : Bool :=
  !p.qFirst && p.qTrCnt == 0
    && f32Lt (f32Mul p.quant.transThr (if f32Lt p.qPrevE (p.env.lit Params.spc.qEps) then p.env.lit Params.spc.qEps
        else p.qPrevE)) e

/-- `DEPTH` of R301 in binary32: `clamp(ceil(2000 × FS / (1000 × HOP)), 2, 4096)`. -/
def depthFrames (fs : Word) (hop : Int) : Nat :=
  (min (max (saturate (f32Ceil (f32Div (f32Mul 0x44FA0000 fs) (f32Mul 0x447A0000 (f32OfInt hop))))) 2) 4096).toNat

/-- `DAMP[k]` of R302 in binary32: `max(0, 1 − a × (k / L)²)` with `a = max(SD_DAMPING, 0)`. -/
def dampValue (lines : Nat) (damping : Word) (k : Nat) : Word :=
  let norm := f32Div (f32OfInt k) (f32OfInt lines)
  let a := if f32Lt damping 0 then 0 else damping
  let v := f32Sub 0x3F800000 (f32Mul a (f32Mul norm norm))
  if f32Lt 0 v then v else 0

/-- `base × warp(k)` of R303 in binary32, with `s = clamp(SD_SLOPE, −100, 100) / 100` and
`base = SD_TIME_MS × FS / (1000 × HOP)`: `warp(k)` is `1 + s × k / L`, and `1 + (−s) × (1 − k / L)` for a negative `s`. -/
def delayFrames (lines : Nat) (fs : Word) (hop : Int) (timeMs slope : Word) (k : Nat) : Word :=
  let norm := f32Div (f32OfInt k) (f32OfInt lines)
  let low := if f32Lt slope 0xC2C80000 then 0xC2C80000 else slope
  let s := f32Div (if f32Lt 0x42C80000 low then 0x42C80000 else low) 0x42C80000
  let base := f32Div (f32Mul timeMs fs) (f32Mul 0x447A0000 (f32OfInt hop))
  let warp :=
    if f32Le 0 s then f32Add 0x3F800000 (f32Mul s norm)
    else f32Add 0x3F800000 (f32Mul (f32Sub 0 s) (f32Sub 0x3F800000 norm))
  f32Mul base warp

/-- `DLEN[k]` of R303 in binary32: `clamp(rnd(base × warp(k)), 1, DEPTH − 1)`. -/
def delayLength (lines : Nat) (fs : Word) (hop : Int) (timeMs slope : Word) (depth k : Nat) : Nat :=
  let frames := saturate (f32Floor (f32Add (delayFrames lines fs hop timeMs slope k) 0x3F000000))
  (min (max frames 1) ((depth : Int) - 1)).toNat

/-- The sum of the squares of a list of reals: the energy of magnitudes (R221, R252). -/
noncomputable def energyOf (xs : List ℝ) : ℝ := (xs.map fun x => x * x).sum

/-- The element `x` of a record's carrier is a real: under a rounding record no overflow (R327). -/
def isReal {R : Type} (num : Num R) (x : R) : Prop := num.isReal x = true

/-- `y` is within 1e-5 of the reference value `x`, relative to it or absolute where it is below 1 in size (R326 d). -/
def closeTo (x y : ℝ) : Prop := |y - x| ≤ max 1 |x| / 100000

/-- `y` stands for the phase `x`, up to whole turns, since `wrap` decides by a comparison (R10, R326 d, R328). -/
def phaseCloseTo (x y : ℝ) : Prop := ∃ turns : ℤ, closeTo (x + 2 * Real.pi * turns) y

/-- The bin `y` of a frame whose reference magnitudes are at most `top` stands for the reference bin `x` (R326 d). The phase of a
bin that is not well above a residue of 1e-7 of `top` is arbitrary (R329). R329 does not say how far above it must be: that the
phase counts in full from a hundredth of `top` on, where that residue moves it by 1e-5, and by the product with the magnitude
below, is the model's choice (DESIGN CHOICE, log 27). -/
def binCloseTo (top : ℝ) (x y : Bin ℝ) : Prop :=
  closeTo x.mag y.mag ∧ (top ≤ 100 * x.mag → phaseCloseTo x.ph y.ph) ∧
  ∃ turns : ℤ, |x.mag| * |y.ph - (x.ph + 2 * Real.pi * turns)| ≤ max 1 |x.mag| / 100000

/-- The inputs of QNT in another carrier. -/
def QuantIn.map {R S : Type} (f : R → S) (x : QuantIn R) : QuantIn S where
  mag := x.mag.map f
  ph := x.ph.map f
  strength := f x.strength
  transThr := f x.transThr
  transAmt := f x.transAmt
  preserve := f x.preserve
  inScl := x.inScl
  drift := x.drift.map fun d => d.map f
  envelope := x.envelope.map fun e => e.map f
  band := x.band
  first := x.first
  cnt := x.cnt
  prevE := f x.prevE
  acc := x.acc.map f
  sil := x.sil

/-- The reals among the inputs of QNT. -/
def QuantIn.reals {R : Type} (x : QuantIn R) : List R :=
  x.mag ++ x.ph ++ [x.strength, x.transThr, x.transAmt, x.preserve, x.prevE] ++ x.drift.getD [] ++ x.envelope.getD [] ++ x.acc

/-- Two carriers take the same branch at every threshold of a QNT (R328): the same targets and notes, the same dominant
contributors, and every note sounds in both or in neither, with the same loudest target. -/
def SameBranches {R S : Type} (E : Env R) (X : Env S) (x : QuantIn R) (y : QuantIn S) : Prop :=
  E.quantTargets x = X.quantTargets y ∧
  (E.quantMerged x).map Merged.dom = (X.quantMerged y).map Merged.dom ∧
  ∀ n, n < 128 →
    let a := noteTargets (E.quantNotes x) (E.quantMerged x) n
    let b := noteTargets (X.quantNotes y) (X.quantMerged y) n
    E.sounds a = X.sounds b ∧ (E.loudest a).bind Merged.dom = (X.loudest b).bind Merged.dom

/-- The reals that the rules define by a formula of some inputs `a` to `e`, of the bin or note `k`, of the window `w` and of the
note `n` (R326 d): the tables of CFG (R7, R151, R153, R301 to R303), the converters (R186, R188), the window applier (R161),
the phase vocoder and the shifter before a wrap or a rounding to bins (R202, R227), the quantizer (R241, R255 to R261), the
mask (R288) and the delay lines (R306). -/
def Env.results {R : Type} (E : Env R) (w : Window) (k n : Nat) (a b c d e : R) : List R :=
  let q : QuantMap R := ⟨a, fun _ => true, some (List.replicate (k + 1) b)⟩
  let mix := E.delayMix a b c
  [(E.twiddle k).re, (E.twiddle k).im, E.windowAt w k, E.num.mul a b, E.binfreq k, E.depthRaw, E.damp a k,
   E.delayRaw a b k, (E.polarBin ⟨a, b⟩).mag, (E.rectBin ⟨a, b⟩).re, (E.rectBin ⟨a, b⟩).im, E.expect k, E.shiftBins a,
   E.notefreq n, E.noteIncr n, E.rampFactor k, E.effStrength a b c, E.transientLimit a b, E.targetFreq q k n,
   E.targetPos q k n, E.envGain a b, E.envScale a b c, (E.maskBin a ⟨b, c⟩ ⟨d, e⟩).mag,
   (E.delayWrite mix d ⟨a, b⟩ ⟨c, e⟩).mag, (E.delayOut mix ⟨a, b⟩ ⟨c, d⟩).mag, (E.delayOut mix ⟨a, b⟩ ⟨c, d⟩).ph]

/-- The phases that the rules define by a formula of some inputs (R326 d): of POLAR (R186), of `wrap` (R10) and so of the
accumulator of a note that begins to sound, of the accumulator of note `n` a frame on (R259, R260), and of the phase vocoder with
its deviation and its increment (R207, R208). -/
def Env.phaseResults {R : Type} (E : Env R) (k n : Nat) (a b c d : R) : List R :=
  [(E.polarBin ⟨a, b⟩).ph, E.wrap a, E.accNext n a, E.deviation k a b, E.phaseInc k a b c, E.synthPhase k a b c d]

/-- The time frame that WIN and STFTF leave of a time frame `x` (R161, R191), with the tables of CFG. -/
def Env.windowed {R : Type} (E : Env R) (w : Window) (x : List R) : List R := E.applyWindow x (E.winTable w)

/-- The spectrum that STFTF leaves of a time frame `x` (R191), with the tables of CFG. -/
def Env.stftSpectrum {R : Type} (E : Env R) (w : Window) (x : List R) : List (Cx R) :=
  E.fwd E.twTable E.brTable (E.windowed w x)

/-- The spectrum area that STFTI leaves of a frame (R193), with the tables of CFG. -/
def Env.istftSpectrum {R : Type} (E : Env R) (b : List (Bin R)) : List (Cx R) := E.inv E.twTable E.brTable (E.rectFrame b)

/-- The reals that the rules define over a time frame `x`, a spectrum `z` and the magnitudes `y` of a spectrum (R326 d): the energy
(R252), which QNT leaves in `Q_PREV_E`, the merged magnitude of the bins `ks` (R221), FFTF (R158) and FFTI (R159), whose input need
not be conjugate-symmetric, with the tables of CFG, and both areas that STFTF leaves, the windowed frame and its spectrum (R191). -/
def Env.frameResults {R : Type} (E : Env R) (w : Window) (x : List R) (z : List (Cx R)) (y : List R) (ks : List Nat) : List R :=
  [E.energy y, E.mergeMag y ks] ++ cxWords (E.fwd E.twTable E.brTable x) ++ cxWords (E.inv E.twTable E.brTable z)
    ++ E.windowed w x ++ cxWords (E.stftSpectrum w x)

/-- The reals that STFTI leaves of a frame in the spectrum area and, windowed, in the time frame (R193, R326 d). -/
def Env.istftResults {R : Type} (E : Env R) (w : Window) (b : List (Bin R)) : List R :=
  cxWords (E.istftSpectrum b) ++ E.windowed w ((E.istftSpectrum b).map Cx.re)

/-- The tolerance contract for a numerics record whose reals stand for the real numbers `val` (R326), wherever no overflow
is refused (R327). It is the contract as R326 words it. R322, R323 and R325 fix every bit of a phase of many turns in binary32,
whatever the elementary functions are, so the default hardware meets (d) only where that arithmetic does (log 26). -/
structure MeetsTolerance {R : Type} (num : Num R) (val : R → ℝ) : Prop where
  /-- (a) The round trip, against the largest sample (R160, R167). -/
  roundTrip : ∀ (m : Nat) (hop : Int) (fs : R) (t : List R) (top : ℝ), 2 ≤ m → m ≤ 12 → t.length = 2 ^ m →
    let E : Env R := ⟨num, Params.spc, 2 ^ m, hop, fs⟩
    let z := E.fwd E.twTable E.brTable t
    let back := (E.inv E.twTable E.brTable z).map Cx.re
    (∀ x ∈ t, isReal num x ∧ |val x| ≤ top) → (∀ c ∈ z, isReal num c.re ∧ isReal num c.im) →
    (∀ x ∈ back, isReal num x) → ∀ n, n < 2 ^ m → |val (E.at_ back n) - val (E.at_ t n)| ≤ top / 100000
  /-- (b) The energy of the quantizer (R263). -/
  energy : ∀ (n : Nat) (hop : Int) (fs : R) (x : QuantIn R), x.envelope = none →
    let E : Env R := ⟨num, Params.spc, n, hop, fs⟩
    let total := energyOf ((tabulate E.lines (E.at_ x.mag)).map val)
    (∀ m ∈ x.mag, isReal num m) → (∀ b ∈ E.quantFrame x, isReal num b.mag) →
    |energyOf ((E.quantFrame x).map fun b => val b.mag) - total| ≤ total / 100000
  /-- (c) The mask values, absolute (R282 to R284, R287). -/
  mask : ∀ (n : Nat) (hop : Int) (fs : R) (mode : MaskMode) (lo hi w f : R),
    let E : Env R := ⟨num, Params.spc, n, hop, fs⟩
    isReal num lo → isReal num hi → isReal num w → isReal num f → isReal num (E.maskFn mode lo hi w f) →
    |val (E.maskFn mode lo hi w f) - (exactEnv n hop (val fs)).maskFn mode (val lo) (val hi) (val w) (val f)| ≤ 1 / 100000
  /-- (d) Every real that a rule defines by a formula, for operands of the size that samples of size up to 1 give (R326): bins
  of size up to N. Pitches are those of frequencies above 0 (R241). -/
  results : ∀ (n : Nat) (hop : Int) (fs : R) (w : Window) (k note : Nat) (a b c d e : R),
    let E : Env R := ⟨num, Params.spc, n, hop, fs⟩
    let X := exactEnv n hop (val fs)
    (∀ x ∈ [a, b, c, d, e], isReal num x ∧ |val x| ≤ n) →
    List.Forall₂ (fun y x => isReal num y → closeTo x (val y))
      (E.results w k note a b c d e) (X.results w k note (val a) (val b) (val c) (val d) (val e)) ∧
    (0 < val a → isReal num (E.midi a) → closeTo (X.midi (val a)) (val (E.midi a))) ∧
    List.Forall₂ (fun y x => isReal num y → phaseCloseTo x (val y))
      (E.phaseResults k note a b c d) (X.phaseResults k note (val a) (val b) (val c) (val d))
  /-- (d) Every real that a rule defines over a frame of samples of size up to 1, or over a spectrum of such samples or its
  magnitudes, and the spectral frame that STFTF leaves. -/
  frames : ∀ (m : Nat) (hop : Int) (fs : R) (w : Window) (x : List R) (z : List (Cx R)) (y : List R) (ks : List Nat)
    (top : ℝ), 2 ≤ m → m ≤ 12 → x.length = 2 ^ m → z.length = 2 ^ m →
    let E : Env R := ⟨num, Params.spc, 2 ^ m, hop, fs⟩
    let X := exactEnv (2 ^ m) hop (val fs)
    let spectral := X.polarFrame (X.stftSpectrum w (x.map val))
    (∀ r ∈ x, isReal num r ∧ |val r| ≤ 1) → (∀ r ∈ cxWords z ++ y, isReal num r ∧ |val r| ≤ 2 ^ m) →
    (∃ u ∈ spectral, u.mag = top) → (∀ u ∈ spectral, u.mag ≤ top) →
    List.Forall₂ (fun v u => isReal num v → closeTo u (val v)) (E.frameResults w x z y ks)
      (X.frameResults w (x.map val) (z.map fun c => ⟨val c.re, val c.im⟩) (y.map val) ks) ∧
    List.Forall₂ (fun v u => isReal num v.mag → isReal num v.ph → binCloseTo top u ⟨val v.mag, val v.ph⟩)
      (E.polarFrame (E.stftSpectrum w x)) spectral
  /-- (d) Every real that STFTI leaves of a frame, where the samples are of size up to 1. -/
  synthesis : ∀ (m : Nat) (hop : Int) (fs : R) (w : Window) (b : List (Bin R)), 2 ≤ m → m ≤ 12 →
    b.length = 2 ^ m / 2 + 1 →
    let E : Env R := ⟨num, Params.spc, 2 ^ m, hop, fs⟩
    let X := exactEnv (2 ^ m) hop (val fs)
    let b' := b.map fun y => (⟨val y.mag, val y.ph⟩ : Bin ℝ)
    (∀ y ∈ b, isReal num y.mag ∧ isReal num y.ph) → (∀ c ∈ X.istftSpectrum b', |c.re| ≤ 1 ∧ |c.im| ≤ 1) →
    List.Forall₂ (fun y u => isReal num y → closeTo u (val y)) (E.istftResults w b) (X.istftResults w b')
  /-- (d) Every real that QNT leaves, where it takes the branches of the reference (R328): the frame, the accumulators with the
  silence counters, and the energy in `Q_PREV_E` (R250, R252, R256, R259 to R261). -/
  quantizer : ∀ (n : Nat) (hop : Int) (fs : R) (x : QuantIn R),
    let E : Env R := ⟨num, Params.spc, n, hop, fs⟩
    let X := exactEnv n hop (val fs)
    (∀ r ∈ x.reals, isReal num r ∧ |val r| ≤ n) → SameBranches E X x (x.map val) →
    List.Forall₂ (fun y u => isReal num y.mag → isReal num y.ph → closeTo u.mag (val y.mag) ∧ phaseCloseTo u.ph (val y.ph))
      (E.quantFrame x) (X.quantFrame (x.map val)) ∧
    List.Forall₂ (fun y u => (isReal num y.1 → phaseCloseTo u.1 (val y.1)) ∧ y.2 = u.2)
      (E.quantHistory x) (X.quantHistory (x.map val)) ∧
    (isReal num (E.energy x.mag) → closeTo (X.energy (x.mag.map val)) (val (E.energy x.mag)))
  /-- (d) Every operation on operands of size up to 1. -/
  operations : ∀ a b : R, isReal num a → isReal num b → |val a| ≤ 1 → |val b| ≤ 1 →
    closeTo (val a + val b) (val (num.add a b)) ∧ closeTo (val a - val b) (val (num.sub a b)) ∧
    closeTo (val a * val b) (val (num.mul a b)) ∧
    (val b ≠ 0 → isReal num (num.div a b) → closeTo (val a / val b) (val (num.div a b))) ∧
    (0 ≤ val a → closeTo (Real.sqrt (val a)) (val (num.sqrt a))) ∧
    closeTo (Real.sin (val a)) (val (num.sin a)) ∧ closeTo (Real.cos (val a)) (val (num.cos a)) ∧
    (0 < val a → closeTo (Real.logb 2 (val a)) (val (num.log2 a))) ∧
    closeTo ((2 : ℝ) ^ val a) (val (num.exp2 a)) ∧
    (closeTo (Complex.arg ⟨val a, val b⟩) (val (num.arg a b)) ∨
      (val a < 0 ∧ val b = 0 ∧ closeTo (-Real.pi) (val (num.arg a b))))

/-- `r` is the binary32 pattern to which the exact real `x` is correctly rounded: no finite pattern is nearer, and where
another value is as near the last bit of `r` is 0 (R323: round to nearest, ties to even). -/
def RoundsTo (x : ℝ) (r : Word) : Prop :=
  ∀ c : Word, f32Finite c = true →
    |realOf r - x| ≤ |realOf c - x| ∧ (|realOf r - x| = |realOf c - x| → realOf c ≠ realOf r → r.getLsbD 0 = false)

end Sys2Proof.Machine
end

