-- ==== Sys2Proof/Certificates/Slice0/Obligations.lean ====
section
/-! DEFINITION. The statements about SPC for the provers. -/

open Sys2Proof Sys2Proof.Machine Host

/-! ## Encoding -/

/-- Decoding the word of a command gives the command, that word is well-formed, and a word that decodes to a command is the
word of that command: no bit of an encoding is dropped (R102 to R107). -/
def Obligations.DecodeEncodeAgree : Prop :=
  (∀ i : Instr, decode (encode i) = .ok i ∧ wordWellFormed (encode i) = true) ∧
  ∀ (w : Word) (i : Instr), decode w = .ok i → encode i = w

/-- R106: a word decodes exactly when the row with its opcode exists and `w & mask` is the row's match, and at most one row
matches. -/
def Obligations.DecodeFollowsOpcodeMap : Prop :=
  (∀ w : Word, (∃ i, decode w = .ok i) ↔ ∃ r ∈ opMap, r.op = opField w ∧ (w &&& r.format.mask) = r.matchWord) ∧
  ∀ (w : Word) (r r' : OpRow), r ∈ opMap → r' ∈ opMap → r.accepts w = true → r'.accepts w = true → r = r'

/-- R112: the worked encodings, and the four illegal words. -/
def Obligations.WorkedEncodings : Prop :=
  decode 0x00000000 = .ok .nop ∧ decode 0x01000000 = .ok .cfg ∧ decode 0x02000007 = .ok (.reset 7) ∧
  decode 0x10000000 = .ok .win ∧ decode 0x11000000 = .ok .fftf ∧ decode 0x12000000 = .ok .ffti ∧
  decode 0x13300000 = .ok (.polar 3) ∧ decode 0x14020000 = .ok (.rect 2) ∧ decode 0x15000000 = .ok (.stftf 0) ∧
  decode 0x16010000 = .ok (.stfti 1) ∧ decode 0x20100000 = .ok (.pv 1 0) ∧ decode 0x21210000 = .ok (.fsh 2 1) ∧
  decode 0x22000000 = .ok (.envc 0) ∧ decode 0x23120000 = .ok (.qnt 1 2) ∧ decode 0x24000000 = .ok .mskb ∧
  decode 0x25210000 = .ok (.msk 2 1 0) ∧ decode 0x26000000 = .ok .sdlp ∧ decode 0x27120000 = .ok (.sdl 1 2) ∧
  decode 0x03000000 = .error .unassignedOp ∧ decode 0x10100000 = .error .reservedBits ∧
  decode 0x02000008 = .error .reservedBits ∧ decode 0x20500000 = .error .reservedBits

/-! ## Sequencing of commands and host accesses -/

/-- R342: an illegal word written to `CMD` raises `IllegalCmd` with the whole word, configured or not, and changes nothing
else. -/
def Obligations.IllegalWordFaults : Prop :=
  ∀ (s : State) (w : Word) (why : IllegalWord) (rest : List HostEvent),
    s.inFlight = none → s.csr.err = false → s.pending = .write 0x00001 w :: rest → decode w = .error why →
    step s = .next { s with pending := rest, csr := { s.csr with err := true, errCode := 4, errInfo := w } }

/-- A step runs the decoded command: the host's next access writes a word of a command to `CMD`, nothing is in flight, no
fault is recorded and the command overlaps no access (log 10), then the step is that command on the state from which the
access, and its entry of the overlap list, are taken. -/
def Obligations.StepRunsDecodedInstruction : Prop :=
  ∀ (s : State) (w : Word) (rest : List HostEvent) (i : Instr),
    s.inFlight = none → s.csr.err = false → s.pending = .write 0x00001 w :: rest → decode w = .ok i →
    s.overlap.headD 0 = 0 →
    step s = exec i { s with pending := rest, overlap := s.overlap.tail }

/-- R79: while a command is in flight, an access outside the control registers and a write to `CMD` wait until the command
has completed (the step is the command's completion and the access stays the next one), and every other access to a control
register is served at once, as long as the free overlap of the command lasts (log 10). -/
def Obligations.BusyAccessesStallOrPass : Prop :=
  ∀ (s : State) (c : InFlight) (rest : List HostEvent), s.inFlight = some c →
    (∀ a : WordAddr, 0x100 ≤ a.toNat → s.pending = .read a :: rest → step s = exec c.instr s) ∧
    (∀ (a : WordAddr) (v : Word), 0x100 ≤ a.toNat ∨ a = 0x00001 → s.pending = .write a v :: rest →
      step s = exec c.instr s) ∧
    (∀ a : WordAddr, a.toNat < 0x100 → 0 < c.left → s.pending = .read a :: rest →
      step s = .next { s with
        pending := rest, inFlight := some { c with left := c.left - 1 }
        readLog := s.readLog ++ [s.readCsr a.toNat] }) ∧
    (∀ (a : WordAddr) (v : Word), a.toNat < 0x100 → a ≠ 0x00001 → 0 < c.left → s.pending = .write a v :: rest →
      step s = .next { s with
        pending := rest, inFlight := some { c with left := c.left - 1 }, csr := s.csr.write a.toNat v })

/-- R80: issue and completion as two steps, with no host access served in between, end where the one merged step ends, and
between them the host sees `BUSY` 1 and nothing else changed. A command whose checks fail raises its fault at issue, with or
without an overlap: `BUSY` is never set, and nothing but the fault record changes (R101, R345). -/
def Obligations.SplitCommandRefinesMerged : Prop :=
  ∀ (s : State) (w : Word) (rest : List HostEvent) (i : Instr) (n : Nat) (o : List Nat),
    s.inFlight = none → s.csr.err = false → s.pending = .write 0x00001 w :: rest → decode w = .ok i →
    s.overlap = (n + 1) :: o →
    (s.csr.issueFault i = none → (∀ e ∈ rest.head?, e.stalls = true) →
      ∃ u, step s = .next u ∧ u.busy = true ∧ u.csr = s.csr ∧ u.mem = s.mem ∧ u.delay = s.delay ∧
        step u = step { s with overlap := 0 :: o }) ∧
    ∀ f, s.csr.issueFault i = some f →
      step s = .next { s with
        pending := rest, overlap := o
        csr := { s.csr with
          errCode := f.cause.code, errInfo := f.info, err := true
          cfgOk := s.csr.cfgOk && !f.cause.clearsCfgOk } } ∧
      step s = step { s with overlap := 0 :: o }

/-- R82: a command in flight does not see what happens to the control registers after its issue: whatever they hold, it
does the same to the storage and to the delay lines. -/
def Obligations.LatchedParameters : Prop :=
  ∀ (i : Instr) (s : State) (c : InFlight) (x y : Csrs) (t : State),
    exec i { s with inFlight := some c, csr := x } = .next t →
    ∃ u, exec i { s with inFlight := some c, csr := y } = .next u ∧ u.mem = t.mem ∧ u.delay = t.delay

/-- R346: while `ERR` is 1 a word written to `CMD` is discarded, and every other access is served whatever `ERR` is. -/
def Obligations.DiscardWhileFaulted : Prop :=
  (∀ (s : State) (w : Word) (rest : List HostEvent),
    s.inFlight = none → s.csr.err = true → s.pending = .write 0x00001 w :: rest →
    step s = .next { s with pending := rest }) ∧
  (∀ (s : State) (a : WordAddr) (v : Word) (rest : List HostEvent),
    s.inFlight = none → a ≠ 0x00001 → s.pending = .write a v :: rest →
    step s = .next (State.memWrite { s with pending := rest } a v)) ∧
  (∀ (s : State) (a : WordAddr) (rest : List HostEvent),
    s.inFlight = none → s.pending = .read a :: rest →
    step s = .next { s with pending := rest, readLog := s.readLog ++ [s.memRead a] })

/-! ## Faults -/

/-- R345: a command whose checks fail records the fault's code and information word, sets `ERR`, clears `CFG_OK` for the
three CFG faults, and changes nothing else. -/
def Obligations.FaultEntry : Prop :=
  ∀ (i : Instr) (s : State) (f : RaisedFault), s.inFlight = none → s.csr.issueFault i = some f →
    exec i s = .next { s with
      csr := { s.csr with
        errCode := match f.cause with
          | .cfgBadSize => 1
          | .cfgBadHop => 2
          | .lenMismatch => 3
          | .illegalCmd => 4
          | .notConfigured => 5
          | .cfgBadRate => 6
        errInfo := f.info
        err := true
        cfgOk := match f.cause with
          | .cfgBadSize | .cfgBadHop | .cfgBadRate => false
          | _ => s.csr.cfgOk } }

/-- Before a CFG has succeeded every command but NOP and CFG raises `NotConfigured` with the command word, whatever the
tags hold (R101 step 3, R341, R344). -/
def Obligations.CommandsNeedConfiguration : Prop :=
  ∀ (i : Instr) (s : State), i ≠ .nop → i ≠ .cfg → s.inFlight = none → s.csr.cfgOk = false →
    exec i s = .next { s with csr := { s.csr with errCode := 5, errInfo := encode i, err := true } }

/-- R343: which command checks which tag against which length, MSK `rs1` before `rs2`, and the information word: buffer id
in bits 7:0, the tag's low 24 bits above; with the rule's example. -/
def Obligations.LengthChecks : Prop :=
  ∀ p : Csrs, p.cfgOk = true →
    let fault := fun (id : BitVec 8) (tag : Word) =>
      some (RaisedFault.mk .lenMismatch (tag.setWidth 24 ++ id : BitVec (24 + 8)))
    let timeCheck := if p.tags.t = p.active.n then none else fault 0 p.tags.t
    let spectrumCheck := if p.tags.z = p.active.n then none else fault 1 p.tags.z
    let frameCheck := fun r : SReg =>
      if p.tags.s[r].toNat = p.active.n.toNat / 2 + 1 then none else fault (BitVec.ofNat 8 (4 + r.val)) p.tags.s[r]
    p.issueFault .win = timeCheck ∧ p.issueFault .fftf = timeCheck ∧ (∀ rd, p.issueFault (.stftf rd) = timeCheck) ∧
    p.issueFault .ffti = spectrumCheck ∧ (∀ rd, p.issueFault (.polar rd) = spectrumCheck) ∧
    (∀ rd rs1 rs2, p.issueFault (.rect rs1) = frameCheck rs1 ∧ p.issueFault (.stfti rs1) = frameCheck rs1 ∧
      p.issueFault (.pv rd rs1) = frameCheck rs1 ∧ p.issueFault (.fsh rd rs1) = frameCheck rs1 ∧
      p.issueFault (.envc rs1) = frameCheck rs1 ∧ p.issueFault (.qnt rd rs1) = frameCheck rs1 ∧
      p.issueFault (.sdl rd rs1) = frameCheck rs1 ∧
      p.issueFault (.msk rd rs1 rs2) = if (frameCheck rs1).isSome then frameCheck rs1 else frameCheck rs2) ∧
    (p.active.n = 1024 → p.tags.s[(0 : SReg)] = 512 →
      p.issueFault (.pv 1 0) = some ⟨.lenMismatch, 0x00020004⟩)

/-- R134: the power-of-two test on 32-bit unsigned integers, and the eleven sizes CFG accepts. -/
def Obligations.AcceptedSizes : Prop :=
  (∀ n : Word, (∃ k, n.toNat = 2 ^ k) ↔ n ≠ 0 ∧ n &&& (n - 1) = 0) ∧
  ∀ n : Word, sizeOk n.toNat = true ↔ n.toNat ∈ [4, 8, 16, 32, 64, 128, 256, 512, 1024, 2048, 4096]

/-- The checks of CFG in their order, and that a CFG that fails one of them changes nothing but `CFG_OK` and the fault record
(R133, R135, R344). -/
def Obligations.CfgRejectsBadConfiguration : Prop :=
  ∀ s : State, s.inFlight = none →
    let n := s.csr.staged.fftSize
    let h := s.csr.staged.hop
    let f := s.csr.staged.sampleRate
    let sizeGood := n.toNat ∈ [4, 8, 16, 32, 64, 128, 256, 512, 1024, 2048, 4096]
    let hopGood := 0 < h.toInt ∧ h.toInt ≤ n.toNat
    let rateGood := f32Finite f = true ∧ 0 < f32Fix f
    let failed := fun (code info : Word) =>
      exec .cfg s = .next { s with
        csr := { s.csr with errCode := code, errInfo := info, err := true, cfgOk := false } }
    (¬ sizeGood → failed 1 n) ∧ (sizeGood → ¬ hopGood → failed 2 h) ∧ (sizeGood → hopGood → ¬ rateGood → failed 6 f)

/-- R347, R351: what a word written to `IP` does. Bit 1 is the return from a fault, it clears `ERR`, `ERR_CODE` and
`ERR_INFO`; bit 0 clears `DONE`; a bit that is 0 clears nothing, and nothing else changes. -/
def Obligations.ReturnFromFault : Prop :=
  ∀ (s : State) (v : Word) (rest : List HostEvent), s.inFlight = none → s.pending = .write 0x00006 v :: rest →
    step s = .next { s with
      pending := rest
      csr := { s.csr with
        err := if v.getLsbD 1 then false else s.csr.err
        errCode := if v.getLsbD 1 then 0 else s.csr.errCode
        errInfo := if v.getLsbD 1 then 0 else s.csr.errInfo
        ipDone := if v.getLsbD 0 then false else s.csr.ipDone } }

/-- R350: the interrupt line from the bits the host reads in `IE` and `IP`. -/
def Obligations.InterruptLine : Prop :=
  ∀ s : State, s.irq = ((s.readCsr 0x05).getLsbD 0 && (s.readCsr 0x06).getLsbD 0
    || (s.readCsr 0x05).getLsbD 1 && (s.readCsr 0x06).getLsbD 1)

/-- The bits of `STATUS` as the host reads it; bits 31:8 read 0 (R25). -/
def Obligations.StatusBits : Prop :=
  ∀ s : State, let w := s.readCsr 0x02
    w.getLsbD 0 = s.inFlight.isSome ∧ w.getLsbD 1 = s.csr.cfgOk ∧ w.getLsbD 2 = s.csr.err ∧
    w.getLsbD 3 = s.csr.pvFirst ∧ w.getLsbD 4 = s.csr.qFirst ∧ w.getLsbD 5 = s.csr.cfgDirty ∧
    w.getLsbD 6 = s.csr.maskDirty ∧ w.getLsbD 7 = s.csr.sdDirty ∧ ∀ i, 8 ≤ i → w.getLsbD i = false

/-- Only the completion of a command sets `DONE`: of the command in flight, or of one that a word written to `CMD` names while
no fault is recorded, that decodes and whose checks pass (R351, R101). Only a write to `IP` with the bit set, or a hard reset,
clears `DONE` or `ERR`, and only a word written to `CMD` while no command is in flight sets `ERR` (R351, R347, R348). The premise
rules out states with a command in flight whose checks would fail, which no run reaches. -/
def Obligations.DoneAndErrChangeOnlyByRule : Prop :=
  ∀ s t : State, s.Wf → step s = .next t →
    (s.csr.ipDone = false → t.csr.ipDone = true →
      t.inFlight = none ∧
      ((∃ c, s.inFlight = some c ∧ step s = exec c.instr s) ∨
        (s.inFlight = none ∧ s.csr.err = false ∧ ∃ rest w i, s.pending = .write 0x00001 w :: rest ∧
          decode w = .ok i ∧ s.csr.issueFault i = none))) ∧
    (s.csr.ipDone = true → t.csr.ipDone = false →
      ∃ rest, s.pending = .hardReset :: rest ∨ ∃ v, v.getLsbD 0 = true ∧ s.pending = .write 0x00006 v :: rest) ∧
    (s.csr.err = true → t.csr.err = false →
      ∃ rest, s.pending = .hardReset :: rest ∨ ∃ v, v.getLsbD 1 = true ∧ s.pending = .write 0x00006 v :: rest) ∧
    (s.csr.err = false → t.csr.err = true →
      s.inFlight = none ∧ ∃ rest w, s.pending = .write 0x00001 w :: rest)

/-! ## The bus -/

/-- R380: a hard reset, also while a command is in flight, leaves every control register at its reset value (`ID`, `STATUS`
with the two first-call flags, 0 in every other one), nothing in flight, and storage that reads as arbitrary values: the
free values of the new reset count (log 3). That a reset is served before a command in flight completes, which is then lost,
and that the host's accesses to come are kept, is the model's reading of R380 (log 13). -/
def Obligations.HardReset : Prop :=
  ∀ (s : State) (rest : List HostEvent), s.pending = .hardReset :: rest →
    ∃ t, step s = .next t ∧ t.csr = State.reset.csr ∧ t.inFlight = none ∧
      (∀ off, t.readCsr off = if off = 0x00 then 0x53504331 else if off = 0x02 then 0x00000018 else 0) ∧
      (∀ a, t.mem.byte? a = none ∧ t.delay.byte? a = none) ∧ t.epoch = s.epoch + 1 ∧
      t.pending = rest ∧ t.overlap = s.overlap ∧ t.readLog = s.readLog

/-- A host read while no command is in flight returns the addressed word and changes nothing else (R77). Above the control
registers that is the stored word where the map has one, and 0 at an unmapped address and at the pairs from 2049 on of a frame
register (R73). -/
def Obligations.HostReads : Prop :=
  ∀ (s : State) (a : WordAddr) (rest : List HostEvent), s.inFlight = none → s.pending = .read a :: rest →
    ∃ v, step s = .next { s with pending := rest, readLog := s.readLog ++ [v] } ∧
      (a.toNat < 0x100 → v = s.readCsr a.toNat) ∧
      (0x100 ≤ a.toNat → a.toNat < 0x1000 → v = 0) ∧
      (0x1000 ≤ a.toNat → a.toNat < 0x4000 → v = s.rawWord a.toNat) ∧
      (0x4000 ≤ a.toNat → a.toNat < 0xC000 → v = if a.toNat % 0x2000 < 4098 then s.rawWord a.toNat else 0) ∧
      (0xC000 ≤ a.toNat → a.toNat < 0x12800 → v = if a.toNat / 0x1000 = 0xD then 0 else s.rawWord a.toNat) ∧
      (0x12800 ≤ a.toNat → a.toNat < 0x13000 → v = 0) ∧
      (0x13000 ≤ a.toNat → a.toNat < 0x16130 → v = s.rawWord a.toNat) ∧
      (0x16130 ≤ a.toNat → v = 0)

/-- A host write above the control registers while no command is in flight: in `T`, `Z`, the 2049 pairs of a frame register
and `DRIFT` the word is stored and every other byte stays, everywhere else the write is ignored (R73, R371). No control
register changes. -/
def Obligations.HostStorageWrites : Prop :=
  ∀ (s : State) (a : WordAddr) (v : Word) (rest : List HostEvent),
    s.inFlight = none → 0x100 ≤ a.toNat → s.pending = .write a v :: rest →
    let writable := (0x1000 ≤ a.toNat ∧ a.toNat < 0x4000) ∨
      (0x4000 ≤ a.toNat ∧ a.toNat < 0xC000 ∧ a.toNat % 0x2000 < 4098) ∨ (0x12000 ≤ a.toNat ∧ a.toNat < 0x12800)
    ∃ t, step s = .next t ∧ t.rawWord a.toNat = (if writable then v else s.rawWord a.toNat) ∧
      SameBytesOutside (if writable then [⟨a.toNat, 1⟩] else []) s.mem t.mem ∧
      t = { s with pending := rest, mem := t.mem }

/-- Host writes to the control registers (R26, R25, R349): a read-write register without an enum type reads back what was
written and no other register changes but the dirty bit the register sets; an enum register takes a legal value and ignores
an illegal one, dirty bit included; a register of flag bits reads back its assigned bits; every offset that is not writable
ignores the write (`CMD` is no such offset: a word written there issues a command, R100). `STATUS`, which the first clauses
leave out, is the subject of the last: no such write changes another bit of it than a dirty bit and `ERR`, and `ERR` is
written at `IP` only. -/
def Obligations.RegisterWrites : Prop :=
  ∀ (s : State) (v : Word),
    let after := fun off => ({ s with csr := s.csr.write off v } : State)
    (∀ off ∈ [0x08, 0x09, 0x0B, 0x10, 0x11, 0x12, 0x13, 0x14, 0x15, 0x18, 0x20, 0x24, 0x25, 0x26, 0x31, 0x32, 0x33,
        0x38, 0x39, 0x3A, 0x3B, 0x3C, 0x3D],
      (after off).readCsr off = v ∧ ∀ other, other ≠ off → other ≠ 0x02 → (after off).readCsr other = s.readCsr other) ∧
    (∀ off ∈ [(0x0A, 3), (0x21, 12), (0x22, 4), (0x30, 3)],
      if v.toNat < off.2 then
        (after off.1).readCsr off.1 = v ∧
          ∀ other, other ≠ off.1 → other ≠ 0x02 → (after off.1).readCsr other = s.readCsr other
      else after off.1 = s) ∧
    (∀ off ∈ [(0x05, 3), (0x19, 1), (0x23, 3)],
      (after off.1).readCsr off.1 = v &&& off.2 ∧
        ∀ other, other ≠ off.1 → other ≠ 0x02 → (after off.1).readCsr other = s.readCsr other) ∧
    (∀ off, off ∉ [0x01, 0x05, 0x06, 0x08, 0x09, 0x0A, 0x0B, 0x10, 0x11, 0x12, 0x13, 0x14, 0x15, 0x18, 0x19, 0x20, 0x21, 0x22,
        0x23, 0x24, 0x25, 0x26, 0x30, 0x31, 0x32, 0x33, 0x38, 0x39, 0x3A, 0x3B, 0x3C, 0x3D] → after off = s) ∧
    (∀ off, let c := s.csr.write off v
      c.cfgDirty = (s.csr.cfgDirty || decide (off = 0x08 ∨ off = 0x09 ∨ (off = 0x0A ∧ v.toNat < 3) ∨ off = 0x0B)) ∧
      c.maskDirty = (s.csr.maskDirty || decide ((off = 0x30 ∧ v.toNat < 3) ∨ off = 0x31 ∨ off = 0x32 ∨ off = 0x33)) ∧
      c.sdDirty = (s.csr.sdDirty || decide (off = 0x38 ∨ off = 0x39 ∨ off = 0x3B)) ∧
      c.cfgOk = s.csr.cfgOk ∧ c.pvFirst = s.csr.pvFirst ∧ c.qFirst = s.csr.qFirst ∧
      (off ≠ 0x06 → c.err = s.csr.err))

/-! ## The whole machine -/

/-- Only CFG changes the active configuration, the depth and `CFG_OK` (R136), no command changes a parameter the host writes or an
enable bit (R139, R382), and only SDL, RESET and CFG touch the delay lines (R71). -/
def Obligations.CommandsKeepConfiguration : Prop :=
  ∀ (i : Instr) (s t : State), exec i s = .next t →
    (i ≠ .cfg → t.csr.active = s.csr.active ∧ t.csr.sdDepth = s.csr.sdDepth ∧ t.csr.cfgOk = s.csr.cfgOk) ∧
    t.csr.staged = s.csr.staged ∧ t.csr.shiftHz = s.csr.shiftHz ∧ t.csr.lockEn = s.csr.lockEn ∧
    t.csr.quant = s.csr.quant ∧ t.csr.mask = s.csr.mask ∧ t.csr.delay = s.csr.delay ∧
    t.csr.ieDone = s.csr.ieDone ∧ t.csr.ieErr = s.csr.ieErr ∧
    ((∀ imm3, i ≠ .reset imm3) → (∀ rd rs1, i ≠ .sdl rd rs1) → i ≠ .cfg → t.delay = s.delay)

/-- The frame of every command at once: the bytes of storage outside the blocks that the command's rule names as written stay
as they are (R14, R85). -/
def Obligations.CommandsWriteOnlyTheirBlocks : Prop :=
  ∀ (i : Instr) (s t : State), exec i s = .next t → SameBytesOutside (s.params.writtenBlocks i) s.mem t.mem

/-- The state after hard reset is well-formed, and not configured. -/
def Obligations.ResetIsWellFormed : Prop := State.reset.Wf ∧ State.reset.csr.cfgOk = false

/-- Every step keeps the well-formed states: canonical storage, cleared delay lines and a legal configuration while `CFG_OK` is 1,
a legal fault record, the ramp counter in 0..8, a command in flight that has passed its checks (R31, R46, R133, R345,
R348). -/
def Obligations.StepKeepsWellFormed : Prop :=
  ∀ s t : State, s.Wf → step s = .next t → t.Wf

/-- Every step keeps the tables of the configuration: while `CFG_OK` is 1, `TW`, `BR`, `WIN` and `BAND` hold what CFG builds for
the active configuration, the delay lengths are in 1..DEPTH-1 and the silence counters in 0..8 (R85, R150, R41, R44). -/
def Obligations.StepKeepsTables : Prop :=
  ∀ s t : State, s.Wf → (s.csr.cfgOk = true → s.TablesLegal) → step s = .next t → t.csr.cfgOk = true → t.TablesLegal

/-! ## What each command does -/

/-- R131: NOP runs whether or not SPC is configured; only `IP.DONE` (and `BUSY`) change. -/
def Obligations.NopCompletes : Prop :=
  ∀ s : State, ∃ t, exec .nop s = .next t ∧ t.mem = s.mem ∧ t.delay = s.delay ∧ s.Finished t s.csr

/-- R139: RESET clears exactly the history of the units it names. That it clears the whole delay-line RAM, beyond the L lines
of DEPTH slots that R139 names, is the model's choice (log 4), which no access can tell. -/
def Obligations.ResetClearsNamedUnits : Prop :=
  ∀ (imm3 : BitVec 3) (s : State), s.params.Configured →
    let pv := imm3.getLsbD 0
    let q := imm3.getLsbD 1
    let sd := imm3.getLsbD 2
    let bins := s.params.env.bins
    ∃ t, exec (.reset imm3) s = .next t ∧
      (pv = true → ∀ k, k < bins → t.word (pmagBase + k) = 0 ∧ t.word (pphBase + k) = 0 ∧ t.word (sphBase + k) = 0) ∧
      (q = true → (∀ n, n < 128 → t.word (accBase + n) = 0 ∧ t.word (silBase + n) = 8) ∧
        ∀ b, b < 48 → t.word (envBase + b) = 0) ∧
      (sd = true → ∀ k i, t.delayBin k i = ⟨0, 0⟩) ∧ (sd = false → t.delay = s.delay) ∧
      SameBytesOutside ((if pv then [⟨pmagBase, bins⟩, ⟨pphBase, bins⟩, ⟨sphBase, bins⟩] else [])
        ++ (if q then [⟨accBase, 128⟩, ⟨silBase, 128⟩, ⟨envBase, 48⟩] else [])) s.mem t.mem ∧
      s.Finished t { s.csr with
        pvFirst := s.csr.pvFirst || pv
        qFirst := s.csr.qFirst || q
        qPrevE := if q then 0 else s.csr.qPrevE
        qTrCnt := if q then 0 else s.csr.qTrCnt
        sdWr := if sd then 0 else s.csr.sdWr }

/-- R133: a CFG whose checks pass makes the staged configuration active, builds every table from it and from the latched
mask and delay parameters, clears `DRIFT`, the history, the delay lines, the tags and the dirty bits, and sets `CFG_OK`. The
depth, the damping and the delay lengths are those of R301 to R303 (`depthFrames`, `dampValue`, `delayLength`). That it clears
the whole delay-line RAM, beyond the L lines of DEPTH slots, is the model's choice (log 4), which no access can tell. -/
def Obligations.CfgBuildsConfiguration : Prop :=
  ∀ s : State,
    let p := s.params
    let E := p.stagedEnv
    sizeOk p.staged.fftSize.toNat = true → hopOk p.staged.fftSize.toNat p.staged.hop.toInt = true →
    let depth := depthFrames p.staged.sampleRate p.staged.hop.toInt
    rateOk p.staged.sampleRate = true → allFinite (p.maskParams ++ p.delayParams) → allFinite (p.cfgReals E) →
    ∃ t, exec .cfg s = .next t ∧
      t.complexes twBase (E.n / 2) = E.twTable ∧ t.words brBase E.n = natWords E.brTable ∧
      t.words winBase E.n = E.winTable p.staged.window ∧ t.words bandBase E.lines = natWords E.bandTable ∧
      (∀ k, k < E.lines →
        t.word (maskBase + k) = E.maskFn p.mask.mode p.mask.lo p.mask.hi p.mask.width (E.binfreq k) ∧
        t.word (dampBase + k) = dampValue E.lines p.delay.damping k ∧
        t.word (dlenBase + k) = BitVec.ofNat 32 (delayLength E.lines p.staged.sampleRate p.staged.hop.toInt
          p.delay.timeMs p.delay.slope depth k) ∧
        t.word (driftBase + k) = 0) ∧
      (∀ k, k < E.bins → t.word (pmagBase + k) = 0 ∧ t.word (pphBase + k) = 0 ∧ t.word (sphBase + k) = 0) ∧
      (∀ n, n < 128 → t.word (accBase + n) = 0 ∧ t.word (silBase + n) = 8) ∧
      (∀ b, b < 48 → t.word (envBase + b) = 0) ∧ (∀ k i, t.delayBin k i = ⟨0, 0⟩) ∧
      SameBytesOutside (p.writtenBlocks .cfg) s.mem t.mem ∧
      s.Finished t { s.csr with
        active := ⟨p.staged.fftSize, p.staged.hop, p.staged.window, p.staged.sampleRate⟩
        sdDepth := BitVec.ofNat 32 depth
        sdWr := 0
        tags := ⟨0, 0, #v[0, 0, 0, 0]⟩
        pvFirst := true, qFirst := true, qPrevE := 0, qTrCnt := 0
        cfgOk := true, cfgDirty := false, maskDirty := false, sdDirty := false }

/-- R161: WIN multiplies the time frame by the window table. -/
def Obligations.WinAppliesWindow : Prop :=
  ∀ s : State, s.params.Configured → s.params.tags.t = s.params.active.n →
    let n := s.params.env.n
    (∀ k, k < n → f32Finite (s.word (tBase + k)) = true ∧ f32Finite (s.word (winBase + k)) = true ∧
      f32Finite (f32Mul (s.word (tBase + k)) (s.word (winBase + k))) = true) →
    ∃ t, exec .win s = .next t ∧
      (∀ k, k < n → t.word (tBase + k) = f32Mul (s.word (tBase + k)) (s.word (winBase + k))) ∧
      SameBytesOutside [⟨tBase, n⟩] s.mem t.mem ∧ t.delay = s.delay ∧ s.Finished t s.csr

/-- R163: FFTF leaves in `Z` the butterfly network's transform of the time frame, with the tables as they stand, and sets
`ZLEN`. -/
def Obligations.FftfTransforms : Prop :=
  ∀ s : State, s.params.Configured → s.params.tags.t = s.params.active.n →
    let E := s.params.env
    let tw := s.complexes twBase (E.n / 2)
    let z := E.net tw (s.nats brBase E.n) false ((s.words tBase E.n).map fun x => ⟨x, 0⟩)
    allFinite (s.words tBase E.n) → allFinite (cxWords tw) → allFinite (cxWords z) →
    ∃ t, exec .fftf s = .next t ∧ t.complexes zBase E.n = z ∧ SameBytesOutside [⟨zBase, 2 * E.n⟩] s.mem t.mem ∧
      t.delay = s.delay ∧ s.Finished t (s.csr.withZLen E.n)

/-- R166: FFTI leaves in `Z` the scaled conjugate transform of `Z` and its real parts in `T`, and sets both tags. -/
def Obligations.FftiTransforms : Prop :=
  ∀ s : State, s.params.Configured → s.params.tags.z = s.params.active.n →
    let E := s.params.env
    let tw := s.complexes twBase (E.n / 2)
    let scale := f32Div 0x3F800000 (f32OfInt E.n)
    let y := (E.net tw (s.nats brBase E.n) true (s.complexes zBase E.n)).map
      fun z => (⟨f32Mul scale z.re, f32Mul scale z.im⟩ : Cx Word)
    allFinite (cxWords (s.complexes zBase E.n)) → allFinite (cxWords tw) → allFinite (cxWords y) →
    ∃ t, exec .ffti s = .next t ∧ t.complexes zBase E.n = y ∧ t.words tBase E.n = y.map Cx.re ∧
      SameBytesOutside [⟨zBase, 2 * E.n⟩, ⟨tBase, E.n⟩] s.mem t.mem ∧ t.delay = s.delay ∧
      s.Finished t ((s.csr.withZLen E.n).withTLen E.n)

/-- R186: POLAR writes modulus and argument of the first B bins and sets the destination's tag. -/
def Obligations.PolarConverts : Prop :=
  ∀ (rd : SReg) (s : State), s.params.Configured → s.params.tags.z = s.params.active.n →
    let bins := s.params.env.bins
    let re := fun k => s.word (zBase + 2 * k)
    let im := fun k => s.word (zBase + 2 * k + 1)
    let modulus := fun k => f32Sqrt (f32Add (f32Mul (re k) (re k)) (f32Mul (im k) (im k)))
    (∀ k, k < bins → f32Finite (re k) = true ∧ f32Finite (im k) = true ∧ f32Finite (modulus k) = true ∧
      f32Finite (f32Arg (re k) (im k)) = true) →
    ∃ t, exec (.polar rd) s = .next t ∧
      (∀ k, k < bins → t.mag rd k = modulus k ∧ t.ph rd k = f32Arg (re k) (im k)) ∧
      SameBytesOutside [frameBlock rd bins] s.mem t.mem ∧ t.delay = s.delay ∧ s.Finished t (s.csr.withSLen rd bins)

/-- R188: RECT writes the conjugate-symmetric spectrum of a frame and sets `ZLEN`. That the imaginary part of a mirrored bin
is computed as the difference 0 - x, so that +0 stays +0, is the model's reading of the conjugate (log 8). -/
def Obligations.RectConverts : Prop :=
  ∀ (rs1 : SReg) (s : State), s.params.Configured →
    let n := s.params.env.n
    let bins := s.params.env.bins
    let re := fun k => f32Mul (s.mag rs1 k) (f32Cos (s.ph rs1 k))
    let im := fun k => f32Mul (s.mag rs1 k) (f32Sin (s.ph rs1 k))
    s.params.tags.s[rs1].toNat = bins →
    (∀ k, k < bins → f32Finite (s.mag rs1 k) = true ∧ f32Finite (s.ph rs1 k) = true ∧ f32Finite (re k) = true ∧
      f32Finite (im k) = true) →
    ∃ t, exec (.rect rs1) s = .next t ∧
      (∀ k, k < bins → t.word (zBase + 2 * k) = re k ∧ t.word (zBase + 2 * k + 1) = im k) ∧
      (∀ k, 1 ≤ k → k + 2 ≤ bins →
        t.word (zBase + 2 * (n - k)) = re k ∧ t.word (zBase + 2 * (n - k) + 1) = f32Sub 0 (im k)) ∧
      SameBytesOutside [⟨zBase, 2 * n⟩] s.mem t.mem ∧ t.delay = s.delay ∧ s.Finished t (s.csr.withZLen n)

/-- R191: the state after STFTF is the state after WIN, FFTF, POLAR, each of which completes. -/
def Obligations.StftfIsSequence : Prop :=
  ∀ (rd : SReg) (s : State), s.inFlight = none → s.csr.Configured → s.csr.tags.t = s.csr.active.n →
    let E := s.csr.env
    let tw := s.complexes twBase (E.n / 2)
    let x := List.zipWith f32Mul (s.words tBase E.n) (s.words winBase E.n)
    let z := E.net tw (s.nats brBase E.n) false (x.map fun y => ⟨y, 0⟩)
    allFinite (s.words tBase E.n) → allFinite (s.words winBase E.n) → allFinite x → allFinite (cxWords tw) →
    allFinite (cxWords z) → allFinite (binWords (E.polarFrame z)) →
    ∃ a b t, exec .win s = .next a ∧ exec .fftf a = .next b ∧ exec (.polar rd) b = .next t ∧
      exec (.stftf rd) s = .next t ∧ t.words tBase E.n = x ∧ t.complexes zBase E.n = z ∧
      t.frame rd E.bins = E.polarFrame z ∧
      SameBytesOutside [⟨tBase, E.n⟩, ⟨zBase, 2 * E.n⟩, frameBlock rd E.bins] s.mem t.mem ∧ t.delay = s.delay ∧
      s.Finished t ((s.csr.withZLen E.n).withSLen rd E.bins)

/-- R193: the state after STFTI is the state after RECT, FFTI, WIN, each of which completes. -/
def Obligations.StftiIsSequence : Prop :=
  ∀ (rs1 : SReg) (s : State), s.inFlight = none → s.csr.Configured →
    let E := s.csr.env
    s.csr.tags.s[rs1].toNat = E.bins →
    let tw := s.complexes twBase (E.n / 2)
    let z := E.rectFrame (s.frame rs1 E.bins)
    let y := E.inv tw (s.nats brBase E.n) z
    let x := List.zipWith f32Mul (y.map Cx.re) (s.words winBase E.n)
    allFinite (binWords (s.frame rs1 E.bins)) → allFinite (cxWords z) → allFinite (cxWords tw) →
    allFinite (cxWords y) → allFinite (s.words winBase E.n) → allFinite x →
    ∃ a b t, exec (.rect rs1) s = .next a ∧ exec .ffti a = .next b ∧ exec .win b = .next t ∧
      exec (.stfti rs1) s = .next t ∧ t.complexes zBase E.n = y ∧ t.words tBase E.n = x ∧
      SameBytesOutside [⟨zBase, 2 * E.n⟩, ⟨tBase, E.n⟩] s.mem t.mem ∧ t.delay = s.delay ∧
      s.Finished t ((s.csr.withZLen E.n).withTLen E.n)

/-- R203: the first PV call passes the frame through and seeds the history, whatever `LOCK_EN` and `SHIFT_HZ` hold. -/
def Obligations.PvFirstCallSeeds : Prop :=
  ∀ (rd rs1 : SReg) (s : State), s.params.Configured → s.params.pvFirst = true →
    let bins := s.params.env.bins
    s.params.tags.s[rs1].toNat = bins →
    (∀ k, k < bins → f32Finite (s.mag rs1 k) = true ∧ f32Finite (s.ph rs1 k) = true) →
    ∃ t, exec (.pv rd rs1) s = .next t ∧
      (∀ k, k < bins → t.mag rd k = s.mag rs1 k ∧ t.ph rd k = s.ph rs1 k ∧ t.word (pmagBase + k) = s.mag rs1 k ∧
        t.word (pphBase + k) = s.ph rs1 k ∧ t.word (sphBase + k) = s.ph rs1 k) ∧
      SameBytesOutside [frameBlock rd bins, ⟨pmagBase, bins⟩, ⟨pphBase, bins⟩, ⟨sphBase, bins⟩] s.mem t.mem ∧
      t.delay = s.delay ∧ s.Finished t ({ s.csr with pvFirst := false }.withSLen rd bins)

/-- A PV call after the first (R201, R204, R207 to R209): magnitudes pass through, the new synthesis phase of every bin is the
output phase, and the history takes the magnitudes and the phases actually used. -/
def Obligations.PvTracksPhases : Prop :=
  ∀ (rd rs1 : SReg) (s : State), s.params.Configured → s.params.pvFirst = false →
    let E := s.params.env
    let bins := E.bins
    let mags := tabulate bins (s.mag rs1)
    let phs := tabulate bins (s.ph rs1)
    let lph := fun k => if s.params.lockEn then phs.getD ((E.lockPeak mags k).getD k) 0 else s.ph rs1 k
    let new := fun k =>
      E.synthPhase k s.params.shiftHz (lph k) (s.word (pphBase + k)) (s.word (sphBase + k))
    s.params.tags.s[rs1].toNat = bins → f32Finite s.params.shiftHz = true →
    (∀ k, k < bins → f32Finite (s.mag rs1 k) = true ∧ f32Finite (s.ph rs1 k) = true ∧
      f32Finite (s.word (pphBase + k)) = true ∧ f32Finite (s.word (sphBase + k)) = true ∧ f32Finite (new k) = true) →
    ∃ t, exec (.pv rd rs1) s = .next t ∧
      (∀ k, k < bins → t.mag rd k = s.mag rs1 k ∧ t.ph rd k = new k ∧ t.word (pmagBase + k) = s.mag rs1 k ∧
        t.word (pphBase + k) = lph k ∧ t.word (sphBase + k) = new k) ∧
      SameBytesOutside [frameBlock rd bins, ⟨pmagBase, bins⟩, ⟨pphBase, bins⟩, ⟨sphBase, bins⟩] s.mem t.mem ∧
      t.delay = s.delay ∧ s.Finished t (s.csr.withSLen rd bins)

/-- R228: FSH moves every bin by the same number `d` of bins, `d` the rounded shift; a bin moved out of the frame is dropped
and a target nothing moves to gets (0, 0). That a moved magnitude at or above 0 is copied bit for bit, and a negative one,
which only a host can write, made positive by the formula of R221 (`movedMag`), is the model's choice (log 9). -/
def Obligations.FshMovesBins : Prop :=
  ∀ (rd rs1 : SReg) (s : State), s.params.Configured →
    let E := s.params.env
    let bins := E.bins
    let shift := s.params.shiftHz
    let inBins := f32Div (f32Mul shift (f32OfInt E.n)) s.params.active.fs
    let d := saturate (f32Floor (f32Add inBins 0x3F000000))
    s.params.tags.s[rs1].toNat = bins → f32Finite shift = true → f32Finite inBins = true →
    (∀ k, k < bins → f32Finite (s.mag rs1 k) = true ∧ f32Finite (s.ph rs1 k) = true ∧
      f32Finite (movedMag (s.mag rs1 k)) = true) →
    ∃ t, exec (.fsh rd rs1) s = .next t ∧
      (∀ j, j < bins →
        (∀ k, k < bins → (k : Int) + d = j → t.mag rd j = movedMag (s.mag rs1 k) ∧ t.ph rd j = s.ph rs1 k) ∧
        ((∀ k, k < bins → (k : Int) + d ≠ j) → t.mag rd j = 0 ∧ t.ph rd j = 0)) ∧
      SameBytesOutside [frameBlock rd bins] s.mem t.mem ∧ t.delay = s.delay ∧ s.Finished t (s.csr.withSLen rd bins)

/-- R248, R247: ENVC leaves in each entry of `Q_ENV` the largest magnitude of the bins of that band, 0 for a band without
bins. -/
def Obligations.EnvcCapturesPeaks : Prop :=
  ∀ (rs1 : SReg) (s : State), s.params.Configured →
    let lines := s.params.env.lines
    s.params.tags.s[rs1].toNat = s.params.env.bins → (∀ k, k < lines → f32Finite (s.mag rs1 k) = true) →
    ∃ t, exec (.envc rs1) s = .next t ∧
      (∀ b, b < 48 →
        ((∀ k, k < lines → (s.word (bandBase + k)).toNat ≠ b) → t.word (envBase + b) = 0) ∧
        ∀ k, k < lines → (s.word (bandBase + k)).toNat = b →
          f32Le (s.mag rs1 k) (t.word (envBase + b)) = true ∧
          ∃ j, j < lines ∧ (s.word (bandBase + j)).toNat = b ∧ t.word (envBase + b) = s.mag rs1 j) ∧
      SameBytesOutside [⟨envBase, 48⟩] s.mem t.mem ∧ t.delay = s.delay ∧ s.Finished t s.csr

/-- R251: QNT with a strength at or below 0 copies the L processed bins, zeroes the Nyquist bin and reads and writes no
history. -/
def Obligations.QntStrengthZeroCopies : Prop :=
  ∀ (rd rs1 : SReg) (s : State), s.params.Configured →
    let lines := s.params.env.lines
    s.params.tags.s[rs1].toNat = s.params.env.bins → f32Finite s.params.quant.strength = true →
    f32Fix s.params.quant.strength ≤ 0 →
    (∀ k, k < lines → f32Finite (s.mag rs1 k) = true ∧ f32Finite (s.ph rs1 k) = true) →
    ∃ t, exec (.qnt rd rs1) s = .next t ∧
      (∀ k, k < lines → t.mag rd k = s.mag rs1 k ∧ t.ph rd k = s.ph rs1 k) ∧
      t.mag rd lines = 0 ∧ t.ph rd lines = 0 ∧
      SameBytesOutside [frameBlock rd (lines + 1)] s.mem t.mem ∧ t.delay = s.delay ∧
      s.Finished t (s.csr.withSLen rd (lines + 1))

/-- QNT with a strength above 0 (R250), spelled in the order of the rules: the energy (R252), the effective strength in the
transient ramp (R255 to R257), the target and the note of every bin (R258, R241, with the drift where it is enabled), the
redistribution (R220), the note step (R259), the output phase (R260), the envelope gain (R261), the zeroed Nyquist bin (R232) and the
history registers (R256). That the pitch of a quotient which rounds to 0 is a difference of logarithms is the model's
reading (log 21). -/
def Obligations.QntQuantizes : Prop :=
  ∀ (rd rs1 : SReg) (s : State), s.params.Configured →
    let p := s.params
    let E := p.env
    let fs := p.active.fs
    let mags := tabulate E.lines (s.mag rs1)
    let phs := tabulate E.lines (s.ph rs1)
    let band := fun k => (s.word (bandBase + k)).toNat
    let sil := fun n => (s.word (silBase + n)).toNat
    -- R252, R255 to R257
    let e := E.energy mags
    let cnt := if p.transient e then 8 else p.qTrCnt.toNat
    let strength := f32Mul (E.clamp01 p.quant.strength)
      (f32Sub 0x3F800000 (f32Mul (E.clamp01 p.quant.transAmt) (E.rampFactor cnt)))
    -- R241, R258
    let freq := fun k : Nat => f32Div (f32Mul (f32OfInt k) fs) (f32OfInt E.n)
    let ratio := fun k => f32Div (freq k) 0x43DC0000
    let octaves := fun k =>
      if f32Le (ratio k) 0 then f32Sub (f32Log2 (freq k)) (f32Log2 0x43DC0000) else f32Log2 (ratio k)
    let midi := fun k => f32Add (f32OfInt 69) (f32Mul (f32OfInt 12) (octaves k))
    let notefreq := fun n : Nat => f32Mul 0x43DC0000 (f32Exp2 (f32Div (f32OfInt ((n : Int) - 69)) (f32OfInt 12)))
    let drifted := fun (k : Nat) (v : Word) =>
      if p.quant.driftEn then f32Mul v (f32Exp2 (f32Div (s.word (driftBase + k)) (f32OfInt 1200))) else v
    let target : Nat → Option (Nat × Nat) := fun k =>
      if f32Eq strength 0 || f32Le (freq k) 0 || f32Lt (midi k) 0 || f32Lt (f32OfInt 127) (midi k) then none
      else (E.near (fun n => p.inScl n) (midi k)).bind fun note =>
        let ft := drifted k (f32Add (freq k) (f32Mul strength (f32Sub (notefreq note) (freq k))))
        let t := saturate (f32Floor (f32Add (f32Div (f32Mul ft (f32OfInt E.n)) fs) 0x3F000000))
        if t < 0 ∨ (E.lines : Int) - 1 < t then none else some (t.toNat, note)
    let notes := tabulate E.lines fun k => (target k).map Prod.snd
    let merged := E.redist mags phs E.lines fun k => some (((target k).map Prod.fst).getD k)
    -- R259
    let mine := fun n => merged.filter fun o => (o.dom.bind fun k => notes.getD k none) == some n
    let sounds := fun n => f32Le 0x3A83126F (E.level (mine n))
    let silent := fun n => if sounds n then 0 else min (sil n + 1) 8
    let run := fun n : Nat => E.wrap (f32Add (s.word (accBase + n))
      (f32Div (f32Mul (f32Mul 0x40C90FDB (notefreq n)) (f32OfInt E.hop)) fs))
    let attack := fun n => E.wrap ((((E.loudest (mine n)).bind Merged.dom).map fun k => phs.getD k 0).getD 0)
    let acc := fun n =>
      if sounds n then (if sil n = 8 then attack n else run n) else if silent n = 8 then 0 else run n
    -- R260
    let phase := fun o : Merged Word =>
      match o.dom.bind fun k => notes.getD k none with
      | none => o.ph
      | some n => if sounds n then acc n else o.ph
    -- R261
    let preserve := E.clamp01 p.quant.preserve
    let post := E.envOf (tabulate E.lines band) (merged.map Merged.mag)
    let gain := fun b => E.min2
      (f32Div ((tabulate 48 fun b => s.word (envBase + b)).getD b 0) (E.max2 (post.getD b 0) 0x2EDBE6FF)) 0x41800000
    let magnitude := fun (k : Nat) (m : Word) =>
      if p.quant.envEn && f32Lt 0 preserve then
        f32Mul m (f32Add (f32Sub 0x3F800000 preserve) (f32Mul preserve (gain (band k))))
      else m
    p.tags.s[rs1].toNat = E.bins → 0 < f32Fix p.quant.strength →
    (∀ d ∈ s.quantReads rs1 p, f32Finite d.word = true) → allFinite (quantReals E (s.quantIn rs1 p)) →
    ∃ t, exec (.qnt rd rs1) s = .next t ∧
      (∀ k, k < E.lines → ∃ o, merged[k]? = some o ∧ t.mag rd k = magnitude k o.mag ∧ t.ph rd k = phase o) ∧
      t.mag rd E.lines = 0 ∧ t.ph rd E.lines = 0 ∧
      (∀ n, n < 128 → t.word (accBase + n) = acc n ∧ t.word (silBase + n) = BitVec.ofNat 32 (silent n)) ∧
      SameBytesOutside [frameBlock rd (E.lines + 1), ⟨accBase, 128⟩, ⟨silBase, 128⟩] s.mem t.mem ∧
      t.delay = s.delay ∧
      s.Finished t ({ s.csr with
        qPrevE := e
        qTrCnt := BitVec.ofNat 32 (cnt - 1)
        qFirst := false }.withSLen rd (E.lines + 1))

/-- R286: MSKB rebuilds the mask table from the latched mask parameters and clears `MASK_DIRTY`. -/
def Obligations.MskbBuildsMask : Prop :=
  ∀ s : State, s.params.Configured →
    let p := s.params
    let E := p.env
    let value := fun k => E.maskFn p.mask.mode p.mask.lo p.mask.hi p.mask.width (E.binfreq k)
    f32Finite p.mask.lo = true → f32Finite p.mask.hi = true → f32Finite p.mask.width = true →
    (∀ k, k < E.lines → f32Finite (value k) = true) →
    ∃ t, exec .mskb s = .next t ∧ (∀ k, k < E.lines → t.word (maskBase + k) = value k) ∧
      SameBytesOutside [⟨maskBase, E.lines⟩] s.mem t.mem ∧ t.delay = s.delay ∧
      s.Finished t { s.csr with maskDirty := false }

/-- R288: MSK blends the wet and the dry magnitude by the mask as it stands, takes the dry phase where the mask is below
0.5 and the wet phase elsewhere, and zeroes the Nyquist bin. -/
def Obligations.MskBlends : Prop :=
  ∀ (rd rs1 rs2 : SReg) (s : State), s.params.Configured →
    let lines := s.params.env.lines
    let m := fun k => s.word (maskBase + k)
    let blend := fun k =>
      f32Add (f32Mul (s.mag rs1 k) (m k)) (f32Mul (s.mag rs2 k) (f32Sub 0x3F800000 (m k)))
    s.params.tags.s[rs1].toNat = s.params.env.bins → s.params.tags.s[rs2].toNat = s.params.env.bins →
    (∀ k, k < lines → f32Finite (s.mag rs1 k) = true ∧ f32Finite (s.ph rs1 k) = true ∧
      f32Finite (s.mag rs2 k) = true ∧ f32Finite (s.ph rs2 k) = true ∧ f32Finite (m k) = true ∧
      f32Finite (blend k) = true) →
    ∃ t, exec (.msk rd rs1 rs2) s = .next t ∧
      (∀ k, k < lines → t.mag rd k = blend k ∧
        t.ph rd k = if f32Lt (m k) 0x3F000000 then s.ph rs2 k else s.ph rs1 k) ∧
      t.mag rd lines = 0 ∧ t.ph rd lines = 0 ∧
      SameBytesOutside [frameBlock rd (lines + 1)] s.mem t.mem ∧ t.delay = s.delay ∧
      s.Finished t (s.csr.withSLen rd (lines + 1))

/-- R304: SDLP rebuilds the damping table of R302 and the delay-length table of R303 (`dampValue`, `delayLength`) from the
latched delay parameters and clears `SD_DIRTY`; the lengths are in 1..DEPTH-1. -/
def Obligations.SdlpBuildsTables : Prop :=
  ∀ s : State, s.params.Configured →
    let p := s.params
    let E := p.env
    let fs := p.active.fs
    let hop := p.active.hop.toInt
    f32Finite p.delay.timeMs = true → f32Finite p.delay.slope = true → f32Finite p.delay.damping = true →
    (∀ k, k < E.lines → f32Finite (delayFrames E.lines fs hop p.delay.timeMs p.delay.slope k) = true ∧
      f32Finite (dampValue E.lines p.delay.damping k) = true) →
    ∃ t, exec .sdlp s = .next t ∧
      (∀ k, k < E.lines → t.word (dampBase + k) = dampValue E.lines p.delay.damping k ∧
        t.word (dlenBase + k) =
          BitVec.ofNat 32 (delayLength E.lines fs hop p.delay.timeMs p.delay.slope p.sdDepth.toNat k) ∧
        1 ≤ (t.word (dlenBase + k)).toNat ∧ (t.word (dlenBase + k)).toNat ≤ p.sdDepth.toNat - 1) ∧
      SameBytesOutside [⟨dampBase, E.lines⟩, ⟨dlenBase, E.lines⟩] s.mem t.mem ∧ t.delay = s.delay ∧
      s.Finished t { s.csr with sdDirty := false }

/-- R306: one SDL call reads the delayed pair of every line, writes the dry pair with feedback at the write index, writes
the blend to the destination, zeroes the Nyquist bin and advances the write index. -/
def Obligations.SdlRunsDelayLines : Prop :=
  ∀ (rd rs1 : SReg) (s : State), s.params.Configured →
    let p := s.params
    let E := p.env
    let w := p.sdWr.toNat
    let depth := p.sdDepth.toNat
    let fb := E.clamp01 p.delay.feedback
    let mix := E.clamp01 p.delay.mix
    let gain := E.max2 p.delay.gain 0
    let dry := f32Sub 0x3F800000 mix
    let d := fun k => s.delayBin k (delayReadIndex w (s.word (dlenBase + k)).toNat depth)
    let line := fun k => f32Add (s.mag rs1 k) (f32Mul (f32Mul (d k).mag fb) (s.word (dampBase + k)))
    let mag := fun k => f32Add (f32Mul dry (s.mag rs1 k)) (f32Mul (f32Mul mix (d k).mag) gain)
    let ph := fun k => f32Add (f32Mul dry (s.ph rs1 k)) (f32Mul mix (d k).ph)
    p.tags.s[rs1].toNat = E.bins →
    f32Finite p.delay.feedback = true → f32Finite p.delay.mix = true → f32Finite p.delay.gain = true →
    (∀ k, k < E.lines → f32Finite (s.mag rs1 k) = true ∧ f32Finite (s.ph rs1 k) = true ∧
      f32Finite (s.word (dampBase + k)) = true ∧ f32Finite (d k).mag = true ∧ f32Finite (d k).ph = true ∧
      f32Finite (line k) = true ∧ f32Finite (mag k) = true ∧ f32Finite (ph k) = true) →
    ∃ t, exec (.sdl rd rs1) s = .next t ∧
      (∀ k, k < E.lines → t.mag rd k = mag k ∧ t.ph rd k = ph k ∧ t.delayBin k w = ⟨line k, s.ph rs1 k⟩) ∧
      t.mag rd E.lines = 0 ∧ t.ph rd E.lines = 0 ∧
      (∀ a, (∀ k, k < E.lines → a < 4 * delayIndex k w ∨ 4 * (delayIndex k w + 2) ≤ a) →
        t.delay.byte? a = s.delay.byte? a) ∧
      SameBytesOutside [frameBlock rd (E.lines + 1)] s.mem t.mem ∧
      s.Finished t ({ s.csr with sdWr := BitVec.ofNat 32 ((w + 1) % depth) }.withSLen rd (E.lines + 1))

/-! ## The units in the reference numerics, and the arithmetic of the hardware instance -/

/-- R157: in the exact reals the butterfly network computes the discrete Fourier transform, with the negative exponent
forward and the positive one inverse. -/
def Obligations.NetworkIsFourierTransform : Prop :=
  ∀ (m : Nat) (hop : Int) (fs : ℝ) (x : List (Cx ℝ)) (inv : Bool) (k : Nat), x.length = 2 ^ m → k < 2 ^ m →
    let E := exactEnv (2 ^ m) hop fs
    toComplex (E.cat_ (E.net E.twTable E.brTable inv x) k) =
      ∑ n ∈ Finset.range (2 ^ m), toComplex (E.cat_ x n) *
        Complex.exp ((if inv then 1 else -1) * (2 * Real.pi * k * n / (2 ^ m : ℕ)) * Complex.I)

/-- R160: in the exact reals the inverse transform undoes the forward transform. The exact reals meet the whole tolerance
contract of R326. On the machine over the exact reals, for every size, FFTF and then FFTI with the tables of CFG complete and leave
every sample of the time frame as it was (R167, R321). On this hardware an impulse at sample 0 comes back exactly for every
size, and with N = 4 every time frame comes back within 1e-5 of its largest sample (R326 a, R167), whatever the free values of
sine and cosine; and entry 0 of the twiddle table is 1 and entry N/4 is -j for every size (R151), so that the program P1 is exact.
That sine and cosine are pinned to the exact values at the angles of the twiddle table is the model's choice (log 2). -/
def Obligations.InverseUndoesForward : Prop :=
  (∀ (m : Nat) (hop : Int) (fs : ℝ) (x : List (Cx ℝ)), x.length = 2 ^ m →
    let E := exactEnv (2 ^ m) hop fs
    E.inv E.twTable E.brTable (E.net E.twTable E.brTable false x) = x) ∧
  MeetsTolerance exactNum (fun x => x) ∧
  (∀ x : RealState ℝ, x.word.inFlight = none → x.word.csr.Configured → x.word.csr.tags.t = x.word.csr.active.n →
    let M := realStorage exactHardware
    let E := x.word.csr.envOf exactHardware
    cxsOf (M.complexes x twBase (E.n / 2)) = E.twTable → M.nats x brBase E.n = E.brTable →
    (∀ d ∈ M.reals x tBase E.n ++ cxWords (M.complexes x twBase (E.n / 2)), d.ok = true) →
    ∃ a b, execWith exactHardware .fftf x = .next a ∧ execWith exactHardware .ffti a = .next b ∧
      realsOf (M.reals b tBase E.n) = realsOf (M.reals x tBase E.n)) ∧
  (∀ p : Csrs, sizeOk p.active.n.toNat = true →
    p.env.twiddle 0 = ⟨0x3F800000, 0⟩ ∧ p.env.twiddle (p.env.n / 4) = ⟨0, 0xBF800000⟩) ∧
  ∀ s : State, s.inFlight = none → s.csr.Configured → s.csr.tags.t = s.csr.active.n →
    let n := s.csr.env.n
    s.complexes twBase (n / 2) = s.csr.env.twTable → s.words brBase n = natWords s.csr.env.brTable →
    (∀ c : Word, f32Finite (f32Mul c (f32OfInt n)) = true → s.words tBase n = c :: List.replicate (n - 1) 0 →
      ∃ a b, exec .fftf s = .next a ∧ exec .ffti a = .next b ∧
        ∀ k, k < n → realOf (b.word (tBase + k)) = realOf (s.word (tBase + k))) ∧
    ∀ top : ℝ, n = 4 → (2 : ℝ)⁻¹ ^ 100 ≤ top → top ≤ 2 ^ 100 →
      (∀ k, k < 4 → f32Finite (s.word (tBase + k)) = true ∧ |realOf (s.word (tBase + k))| ≤ top) →
      ∃ a b, exec .fftf s = .next a ∧ exec .ffti a = .next b ∧
        ∀ k, k < 4 → |realOf (b.word (tBase + k)) - realOf (s.word (tBase + k))| ≤ top / 100000

/-- R10: in the exact reals `wrap` moves its argument by a multiple of 2π into (−π, π], and its four values. -/
def Obligations.WrapLaw : Prop :=
  ∀ (n : Nat) (hop : Int) (fs x : ℝ),
    let E := exactEnv n hop fs
    (-Real.pi < E.wrap x ∧ E.wrap x ≤ Real.pi) ∧
    E.wrap x = x - 2 * Real.pi * ⌈(x - Real.pi) / (2 * Real.pi)⌉ ∧
    E.wrap Real.pi = Real.pi ∧ E.wrap (-Real.pi) = Real.pi ∧ E.wrap (3 * Real.pi) = Real.pi ∧ E.wrap 0 = 0

/-- R210: in the exact reals the synthesis phase advances by the measured phase advance and the phase of the shift. -/
def Obligations.VocoderLaw : Prop :=
  ∀ (n k : Nat) (hop : Int) (fs shift lph pph sph : ℝ), 0 < n → 0 < hop → 0 < fs →
    let E := exactEnv n hop fs
    E.synthPhase k shift lph pph sph = E.wrap (sph + lph - pph + 2 * Real.pi * shift * hop / fs)

/-- R206, with the peaks of R205: phase locking follows the nearest peak within 4 bins, of two at equal distance the lower,
and no bin where there is none. It holds for every numerics record. In the exact reals a bin is a peak exactly when it is an
interior bin strictly above both neighbours and above 0.01 times the magnitude of every bin, and so of the largest. -/
def Obligations.LockFollowsNearestPeak : Prop :=
  (∀ (n : Nat) (hop : Int) (fs : ℝ) (mag : List ℝ) (k : Nat),
    let E := exactEnv n hop fs
    let m := fun j => mag.getD j 0
    mag.length = E.bins →
    (E.isPeak mag k = true ↔ 1 ≤ k ∧ k + 2 ≤ E.bins ∧ m (k - 1) < m k ∧ m (k + 1) < m k ∧
      ∀ j, j < E.bins → 0.01 * m j < m k)) ∧
  ∀ (R : Type) (num : Num R) (n : Nat) (hop : Int) (fs : R) (mag : List R) (k : Nat),
    let E : Env R := ⟨num, Params.spc, n, hop, fs⟩
    let near := fun p => E.isPeak mag p = true ∧ p ≤ k + 4 ∧ k ≤ p + 4
    match E.lockPeak mag k with
    | none => ∀ p, ¬ near p
    | some p => near p ∧ ∀ q, near q →
        ((p : Int) - k).natAbs < ((q : Int) - k).natAbs ∨ (((p : Int) - k).natAbs = ((q : Int) - k).natAbs ∧ p ≤ q)

/-- R221, R222: in the exact reals the redistributor gives each target the root of the sum of its contributors' energies and
the phase of its dominant contributor (the largest magnitude, of several the lowest index), so that the energy over the bins
that have a target is conserved. -/
def Obligations.RedistributionConservesEnergy : Prop :=
  ∀ (n : Nat) (hop : Int) (fs : ℝ) (mag ph : List ℝ) (m : Nat) (tgt : Nat → Option Nat),
    (∀ k t, k < m → tgt k = some t → t < m) →
    let E := exactEnv n hop fs
    let out := E.redist mag ph m tgt
    energyOf (out.map Merged.mag) =
      energyOf (((List.range m).filter fun k => (tgt k).isSome).map (E.at_ mag)) ∧
    ∀ t, t < m → ∃ o, out[t]? = some o ∧
      o.mag = Real.sqrt (energyOf ((contributors m tgt t).map (E.at_ mag))) ∧
      (∀ d, o.dom = some d → d ∈ contributors m tgt t ∧ o.ph = E.at_ ph d ∧
        ∀ j ∈ contributors m tgt t, E.at_ mag j < E.at_ mag d ∨ (E.at_ mag j = E.at_ mag d ∧ d ≤ j)) ∧
      (o.dom = none → contributors m tgt t = [] ∧ o.mag = 0 ∧ o.ph = 0)

/-- R263: in the exact reals the quantizer conserves the energy of the L processed bins for every strength, where no
envelope is reimposed: `ENV_EN` is 0 or the clamped preserve strength is. -/
def Obligations.QuantizerConservesEnergy : Prop :=
  ∀ (n : Nat) (hop : Int) (fs : ℝ) (x : QuantIn ℝ), x.envelope = none ∨ x.preserve ≤ 0 →
    let E := exactEnv n hop fs
    energyOf ((E.quantFrame x).map Bin.mag) = energyOf (tabulate E.lines (E.at_ x.mag))

/-- R244: in the exact reals `NEAR` is the in-scale note nearest to the pitch, of two at equal distance the lower, and none
where no note is in scale. R241: on this hardware the frequency of every note is within 1e-5, relative to it, of
440 × 2^((n − 69) / 12), as R326 (d) asks. R265: on this hardware the accumulator of note 95, seeded with the phase 0.5 and advanced
up to eight frames with N = 256, HOP = 64 and FS = 8000, is within the contract of its value in the exact reals. Both hold
whatever the free value of `exp2`; that `exp2` is pinned at the intervals of the notes for this is the model's choice (log 2). -/
def Obligations.NearestNote : Prop :=
  (∀ (n : Nat) (hop : Int) (fs m : ℝ) (inScl : Nat → Bool),
    let E := exactEnv n hop fs
    match E.near inScl m with
    | none => ∀ i, i < 128 → inScl i = false
    | some i => i < 128 ∧ inScl i = true ∧ ∀ j, j < 128 → inScl j = true →
        abs ((i : ℝ) - m) < abs ((j : ℝ) - m) ∨ (abs ((i : ℝ) - m) = abs ((j : ℝ) - m) ∧ i ≤ j)) ∧
  (∀ (p : Csrs) (n : Nat), n < 128 →
    let exact := 440 * (2 : ℝ) ^ (((n : ℝ) - 69) / 12)
    f32Finite (p.env.notefreq n) = true ∧ |realOf (p.env.notefreq n) - exact| ≤ exact / 100000) ∧
  ∀ i, i ≤ 8 →
    closeTo (((exactEnv 256 64 8000).accNext 95)^[i] (1 / 2))
      (realOf (((⟨hwNum, Params.spc, 256, 64, 0x45FA0000⟩ : Env Word).accNext 95)^[i] 0x3F000000))

/-- R281 to R284: in the exact reals the two mask curves add to 1 for valid parameters; the low-pass curve is 1 at and below
the start of the transition, half an octave width below the cutoff, 1/2 at the cutoff, 0 at and above the end of the
transition, and never rises; both are 1 where the cutoff or the width is at or below 0; the three modes; and the mask is in
[0, 1] for every input. On this hardware both curves are exactly 1/2 at the cutoff, for every width that is not near the smallest
numbers. That this clause holds exactly is the model's choice (DESIGN CHOICE, log 2), whose bound on the free value of `log2` is
relative, so that `log2(1)` is 0: R326 (c) asks for a mask value within 1e-5 only, and R328 lets it rest on `log2(1) = 0`. -/
def Obligations.MaskCurves : Prop :=
  (∀ (n : Nat) (hop : Int) (fs : ℝ),
    let E := exactEnv n hop fs
    (∀ f fc w : ℝ, 0 < fc → 0 < w →
      E.lowPass f fc w + E.highPass f fc w = 1 ∧
      (f = fc → E.lowPass f fc w = 1 / 2) ∧
      (f ≤ fc * (2 : ℝ) ^ (-(w / 2)) → E.lowPass f fc w = 1) ∧
      (fc * (2 : ℝ) ^ (w / 2) ≤ f → E.lowPass f fc w = 0) ∧
      ∀ g, f ≤ g → E.lowPass g fc w ≤ E.lowPass f fc w) ∧
    (∀ f fc w : ℝ, fc ≤ 0 ∨ w ≤ 0 → E.lowPass f fc w = 1 ∧ E.highPass f fc w = 1) ∧
    ∀ lo hi w f : ℝ,
      E.maskFn .lowPass lo hi w f = E.lowPass f hi w ∧ E.maskFn .highPass lo hi w f = E.highPass f lo w ∧
      E.maskFn .bandPass lo hi w f = E.highPass f lo w * E.lowPass f hi w ∧
      ∀ mode : MaskMode, 0 ≤ E.maskFn mode lo hi w f ∧ E.maskFn mode lo hi w f ≤ 1) ∧
  ∀ (p : Csrs) (fc w : Word), f32Finite fc = true → 0 < f32Fix fc → f32Finite w = true → 2 ^ 24 ≤ f32Fix w →
    p.env.lowPass fc fc w = 0x3F000000 ∧ p.env.highPass fc fc w = 0x3F000000

/-- R154: in the exact reals the squares of the Hann table over four shifts by a quarter of the frame add to 3/2. -/
def Obligations.HannSquaresAddUp : Prop :=
  ∀ (q : Nat) (hop : Int) (fs : ℝ) (j : Nat), 0 < q → j < 4 * q →
    let E := exactEnv (4 * q) hop fs
    let win := fun i => E.at_ (E.winTable .hann) i
    win j ^ 2 + win ((j + q) % (4 * q)) ^ 2 + win ((j + 2 * q) % (4 * q)) ^ 2 + win ((j + 3 * q) % (4 * q)) ^ 2 = 3 / 2

/-- R152: the bit-reversal table holds the index read backwards; it is a permutation and its own inverse; the tables for
4, 8 and 16. It holds for every numerics record. -/
def Obligations.BitReversalTable : Prop :=
  ∀ (R : Type) (num : Num R) (hop : Int) (fs : R),
    let table := fun m => (⟨num, Params.spc, 2 ^ m, hop, fs⟩ : Env R).brTable
    (∀ m, (table m).length = 2 ^ m ∧ ∀ n, n < 2 ^ m → ∃ r, (table m)[n]? = some r ∧ r < 2 ^ m ∧ (table m)[r]? = some n ∧
      ∀ b, b < m → r.testBit b = n.testBit (m - 1 - b)) ∧
    table 2 = [0, 2, 1, 3] ∧ table 3 = [0, 4, 2, 6, 1, 5, 3, 7] ∧
    table 4 = [0, 8, 4, 12, 2, 10, 6, 14, 1, 9, 5, 13, 3, 11, 7, 15]

/-- R323: the hardware's addition, subtraction, multiplication, division and square root are correctly rounded, to nearest
with ties to even, wherever their result is finite. -/
def Obligations.ArithmeticIsCorrectlyRounded : Prop :=
  ∀ a b : Word, f32Finite a = true → f32Finite b = true →
    (f32Finite (f32Add a b) = true → RoundsTo (realOf a + realOf b) (f32Add a b)) ∧
    (f32Finite (f32Sub a b) = true → RoundsTo (realOf a - realOf b) (f32Sub a b)) ∧
    (f32Finite (f32Mul a b) = true → RoundsTo (realOf a * realOf b) (f32Mul a b)) ∧
    (f32Finite (f32Div a b) = true → RoundsTo (realOf a / realOf b) (f32Div a b)) ∧
    (0 ≤ realOf a → RoundsTo (Real.sqrt (realOf a)) (f32Sqrt a) ∧ f32Finite (f32Sqrt a) = true)

/-- R396: with the delay lengths the clamp allows, the slot of a line that SDL reads is in the line and is not the slot it
writes. -/
def Obligations.DelayReadsAnotherSlot : Prop :=
  ∀ w dlen depth : Nat, w < depth → 1 ≤ dlen → dlen ≤ depth - 1 →
    delayReadIndex w dlen depth < depth ∧ delayReadIndex w dlen depth ≠ w ∧
    (delayReadIndex w dlen depth + dlen) % depth = w
end

