-- ==== Sys2Proof/Laws/Memory.lean ====
section
/-! SUPPORT. The laws of storage: what a read gives after a write, and that every operation keeps the canonical form. -/

namespace Sys2Proof.Machine

theorem lookupByte_append (a : Nat) (l k : List Host.Cell) :
    lookupByte a (l ++ k) = (lookupByte a l).or (lookupByte a k) := by
  induction l with
  | nil => rfl
  | cons c l ih =>
    obtain ⟨x, b⟩ := c
    by_cases h : x = a <;> simp [lookupByte, h, ih]

theorem lookupByte_filter_keep (a : Nat) (p : Host.Cell → Bool) (hp : ∀ b, p (a, b) = true) (l : List Host.Cell) :
    lookupByte a (l.filter p) = lookupByte a l := by
  induction l with
  | nil => rfl
  | cons c l ih =>
    obtain ⟨x, b⟩ := c
    by_cases h : x = a
    · subst h; simp [lookupByte, hp]
    · by_cases hq : p (x, b) = true <;> simp [hq, lookupByte, h, ih]

theorem lookupByte_filter_drop (a : Nat) (p : Host.Cell → Bool) (hp : ∀ b, p (a, b) = false) (l : List Host.Cell) :
    lookupByte a (l.filter p) = none := by
  induction l with
  | nil => rfl
  | cons c l ih =>
    obtain ⟨x, b⟩ := c
    by_cases hq : p (x, b) = true
    · have h : x ≠ a := by rintro rfl; simp [hp] at hq
      simp [hq, lookupByte, h, ih]
    · simp [hq, ih]

theorem lookupByte_cellsFrom_below (fill : Option Byte) (bs : List Byte) :
    ∀ a x, x < a → lookupByte x (cellsFrom fill a bs) = none := by
  induction bs with
  | nil => intros; rfl
  | cons b bs ih =>
    intro a x h
    have h1 : a ≠ x := by omega
    by_cases hb : fill = some b <;> simp [cellsFrom, hb, lookupByte, h1, ih (a + 1) x (by omega)]
    · simpa [hb] using ih (a + 1) x (by omega)

/-- Looked up among the cells listed for `bs`, then among what unlisted addresses read as, an address of the block gives
its byte. -/
theorem lookupByte_cellsFrom_or_fill (fill : Option Byte) (bs : List Byte) :
    ∀ a i, (h : i < bs.length) → (lookupByte (a + i) (cellsFrom fill a bs)).or fill = some bs[i] := by
  induction bs with
  | nil => intro a i h; simp at h
  | cons b bs ih =>
    intro a i h
    cases i with
    | zero =>
      by_cases hb : fill = some b
      · simp [cellsFrom, hb, lookupByte_cellsFrom_below]
      · simp [cellsFrom, hb, lookupByte]
    | succ i =>
      have e : a + (i + 1) = a + 1 + i := by omega
      have h1 : a ≠ a + 1 + i := by omega
      by_cases hb : fill = some b
      · simpa [cellsFrom, hb, e] using ih (a + 1) i (by simpa using h)
      · simpa [cellsFrom, hb, lookupByte, h1, e] using ih (a + 1) i (by simpa using h)

theorem lookupByte_cellsFrom_above (fill : Option Byte) (bs : List Byte) :
    ∀ a x, a + bs.length ≤ x → lookupByte x (cellsFrom fill a bs) = none := by
  induction bs with
  | nil => intros; rfl
  | cons b bs ih =>
    intro a x h
    have hl : a + 1 + bs.length ≤ x := by simp at h; omega
    have h1 : a ≠ x := by omega
    by_cases hb : fill = some b
    · simpa [cellsFrom, hb] using ih (a + 1) x hl
    · simpa [cellsFrom, hb, lookupByte, h1] using ih (a + 1) x hl

/-- Reading a byte inside the block just stored gives the stored byte. -/
theorem byte_writeBytes_inside (m : Memory) (a : Nat) (bs : List Byte) (i : Nat) (h : i < bs.length) :
    (m.writeBytes a bs).byte? (a + i) = some bs[i] := by
  simp only [Memory.byte?, Memory.writeBytes, lookupByte_append]
  rw [lookupByte_filter_drop _ _ (by intro b; simp), lookupByte_filter_drop _ _ (by intro b; simp; omega)]
  simpa using lookupByte_cellsFrom_or_fill m.fill bs a i h

/-- Reading a byte outside the block just stored gives what it gave before. -/
theorem byte_writeBytes_outside (m : Memory) (a : Nat) (bs : List Byte) (x : Nat) (h : x < a ∨ a + bs.length ≤ x) :
    (m.writeBytes a bs).byte? x = m.byte? x := by
  simp only [Memory.byte?, Memory.writeBytes, lookupByte_append]
  rcases h with h | h
  · rw [lookupByte_filter_keep x _ (by intro b; simpa using h), lookupByte_cellsFrom_below _ _ _ _ h,
      lookupByte_filter_drop x (fun c => decide (a + bs.length ≤ c.1)) (by intro b; simp; omega)]
    simp
  · rw [lookupByte_filter_drop x (fun c => decide (c.1 < a)) (by intro b; simp; omega),
      lookupByte_cellsFrom_above _ _ _ _ h, lookupByte_filter_keep x _ (by intro b; simpa using h)]
    simp

@[simp] theorem length_wordBytes (w : Word) : (wordBytes w).length = 4 := rfl

@[simp] theorem length_flatMap_wordBytes (ws : List Word) : (ws.flatMap wordBytes).length = 4 * ws.length := by
  induction ws with
  | nil => rfl
  | cons w ws ih => simp [List.flatMap_cons, ih]; omega

/-- The bytes of a word put together again give the word (R75). -/
theorem wordOfBytes_wordBytes (w : Word) :
    wordOfBytes (w.extractLsb' 0 8) (w.extractLsb' 8 8) (w.extractLsb' 16 8) (w.extractLsb' 24 8) = w := by
  apply BitVec.eq_of_getLsbD_eq
  intro i hi
  simp only [wordOfBytes, BitVec.getLsbD_append, BitVec.getLsbD_extractLsb']
  rcases (by omega : i < 8 ∨ (8 ≤ i ∧ i < 16) ∨ (16 ≤ i ∧ i < 24) ∨ (24 ≤ i ∧ i < 32)) with h | h | h | h
  · simp [h]
  · have : ¬ i < 8 := by omega
    have h2 : i - 8 < 8 := by omega
    have e : 8 + (i - 8) = i := by omega
    simp [this, h2, e]
  · have h0 : ¬ i < 8 := by omega
    have h1 : ¬ i - 8 < 8 := by omega
    have h2 : i - 8 - 8 < 8 := by omega
    have e : 16 + (i - 8 - 8) = i := by omega
    simp [h0, h1, h2, e]
  · have h0 : ¬ i < 8 := by omega
    have h1 : ¬ i - 8 < 8 := by omega
    have h2 : ¬ i - 8 - 8 < 8 := by omega
    have h3 : i - 8 - 8 - 8 < 8 := by omega
    have e : 24 + (i - 8 - 8 - 8) = i := by omega
    simp [h0, h1, h2, h3, e]

theorem getElem_flatMap_wordBytes (ws : List Word) :
    ∀ i (h : i < ws.length) (j : Nat) (_ : j < 4) (h2 : 4 * i + j < (ws.flatMap wordBytes).length),
      (ws.flatMap wordBytes)[4 * i + j] = ws[i].extractLsb' (8 * j) 8 := by
  induction ws with
  | nil => intro i h; simp at h
  | cons w ws ih =>
    intro i h j hj h2
    cases i with
    | zero =>
      have hl : 4 * 0 + j < (wordBytes w).length := by simp; omega
      simp only [List.flatMap_cons]
      rw [List.getElem_append_left hl]
      match j, hj with
      | 0, _ => rfl
      | 1, _ => rfl
      | 2, _ => rfl
      | 3, _ => rfl
    | succ i =>
      have hl : (wordBytes w).length ≤ 4 * (i + 1) + j := by simp; omega
      simp only [List.flatMap_cons]
      rw [List.getElem_append_right hl]
      have e : 4 * (i + 1) + j - (wordBytes w).length = 4 * i + j := by simp; omega
      simp only [e, List.getElem_cons_succ]
      exact ih i (by simpa using h) j hj _

/-- Reading a word inside the block of words just stored gives the stored word. -/
theorem word_writeWords_inside (m : Memory) (fresh : Nat → Byte) (a : Nat) (ws : List Word) (i : Nat)
    (h : i < ws.length) : (m.writeWords a ws).word fresh (a + i) = ws[i] := by
  have key : ∀ j, j < 4 → (m.writeWords a ws).byte? (4 * (a + i) + j) = some (ws[i].extractLsb' (8 * j) 8) := by
    intro j hj
    have hl : 4 * i + j < (ws.flatMap wordBytes).length := by simp; omega
    have e : 4 * (a + i) + j = 4 * a + (4 * i + j) := by omega
    rw [Memory.writeWords, e, byte_writeBytes_inside _ _ _ _ hl, getElem_flatMap_wordBytes ws i h j hj hl]
  simp only [Memory.word, key 0 (by omega), key 1 (by omega), key 2 (by omega), key 3 (by omega), Option.getD_some]
  exact wordOfBytes_wordBytes _

/-- The bytes of a stored word are listed. -/
theorem isSome_writeWords_inside (m : Memory) (a : Nat) (ws : List Word) (i : Nat) (h : i < ws.length) :
    (m.writeWords a ws).byte? (4 * (a + i)) ≠ none := by
  have hl : 4 * i + 0 < (ws.flatMap wordBytes).length := by simp; omega
  have e : 4 * (a + i) = 4 * a + (4 * i + 0) := by omega
  rw [Memory.writeWords, e, byte_writeBytes_inside _ _ _ _ hl]
  simp

/-- Reading a word outside the block of words just stored gives what it gave before. -/
theorem word_writeWords_outside (m : Memory) (fresh : Nat → Byte) (a : Nat) (ws : List Word) (x : Nat)
    (h : x < a ∨ a + ws.length ≤ x) : (m.writeWords a ws).word fresh x = m.word fresh x := by
  have key : ∀ j, j < 4 → (m.writeWords a ws).byte? (4 * x + j) = m.byte? (4 * x + j) := by
    intro j hj
    exact byte_writeBytes_outside _ _ _ _ (by simp; omega)
  simp only [Memory.word, key 0 (by omega), key 1 (by omega), key 2 (by omega), key 3 (by omega)]

theorem risingFrom_iff (l : List Host.Cell) : ∀ lo, risingFrom lo l = true ↔
    (∀ c ∈ l, lo ≤ c.1) ∧ l.Pairwise (fun c d => c.1 < d.1) := by
  induction l with
  | nil => intro lo; simp [risingFrom]
  | cons c l ih =>
    obtain ⟨x, b⟩ := c
    intro lo
    simp only [risingFrom, Bool.and_eq_true, decide_eq_true_eq, ih, List.mem_cons, forall_eq_or_imp,
      List.pairwise_cons]
    constructor
    · rintro ⟨h1, h2, h3⟩
      exact ⟨⟨h1, fun c hc => by have := h2 c hc; omega⟩, fun c hc => by have := h2 c hc; omega, h3⟩
    · rintro ⟨⟨h1, _⟩, h2, h3⟩
      exact ⟨h1, fun c hc => by have := h2 c hc; omega, h3⟩

theorem mem_cellsFrom (fill : Option Byte) (bs : List Byte) :
    ∀ a c, c ∈ cellsFrom fill a bs → a ≤ c.1 ∧ c.1 < a + bs.length ∧ fill ≠ some c.2 := by
  induction bs with
  | nil => intro a c h; simp [cellsFrom] at h
  | cons b bs ih =>
    intro a c h
    by_cases hb : fill = some b
    · rw [cellsFrom, if_pos hb] at h
      obtain ⟨h1, h2, h3⟩ := ih _ _ h
      exact ⟨by omega, by simp; omega, h3⟩
    · rw [cellsFrom, if_neg hb, List.mem_cons] at h
      rcases h with rfl | h
      · exact ⟨le_refl _, by simp, hb⟩
      · obtain ⟨h1, h2, h3⟩ := ih _ _ h
        exact ⟨by omega, by simp; omega, h3⟩

theorem pairwise_cellsFrom (fill : Option Byte) (bs : List Byte) :
    ∀ a, (cellsFrom fill a bs).Pairwise (fun c d => c.1 < d.1) := by
  induction bs with
  | nil => intro a; simp [cellsFrom]
  | cons b bs ih =>
    intro a
    by_cases hb : fill = some b
    · rw [cellsFrom, if_pos hb]; exact ih _
    · rw [cellsFrom, if_neg hb, List.pairwise_cons]
      exact ⟨fun c hc => by have := (mem_cellsFrom _ _ _ _ hc).1; simp only; omega, ih _⟩

/-- Storing bytes keeps the canonical form. -/
theorem wf_writeBytes (m : Memory) (a : Nat) (bs : List Byte) (h : m.wf = true) : (m.writeBytes a bs).wf = true := by
  simp only [Memory.wf, Bool.and_eq_true, risingFrom_iff, List.all_eq_true, bne_iff_ne, ne_eq] at h ⊢
  obtain ⟨⟨-, hp⟩, hf⟩ := h
  refine ⟨⟨fun _ _ => Nat.zero_le _, ?_⟩, ?_⟩
  · simp only [Memory.writeBytes, List.pairwise_append, List.mem_append, List.mem_filter, decide_eq_true_eq]
    refine ⟨⟨hp.filter _, pairwise_cellsFrom _ _ _, ?_⟩, hp.filter _, ?_⟩
    · rintro c ⟨-, hc⟩ d hd
      have := (mem_cellsFrom _ _ _ _ hd).1
      omega
    · rintro c (⟨-, hc⟩ | hc) d ⟨-, hd⟩
      · omega
      · have := (mem_cellsFrom _ _ _ _ hc).2.1
        omega
  · intro c hc
    simp only [Memory.writeBytes, List.mem_append, List.mem_filter] at hc ⊢
    rcases hc with (⟨hc, -⟩ | hc) | ⟨hc, -⟩
    · exact hf c hc
    · exact (mem_cellsFrom _ _ _ _ hc).2.2
    · exact hf c hc

/-- Storing words keeps the canonical form. -/
theorem wf_writeWords (m : Memory) (a : Nat) (ws : List Word) (h : m.wf = true) : (m.writeWords a ws).wf = true :=
  wf_writeBytes _ _ _ h

@[simp] theorem fill_writeBytes (m : Memory) (a : Nat) (bs : List Byte) : (m.writeBytes a bs).fill = m.fill := rfl
@[simp] theorem fill_writeWords (m : Memory) (a : Nat) (ws : List Word) : (m.writeWords a ws).fill = m.fill := rfl
@[simp] theorem wf_powerOn : Memory.powerOn.wf = true := rfl
@[simp] theorem wf_zeroed : Memory.zeroed.wf = true := rfl

end Sys2Proof.Machine
end

