-- ==== Sys2Proof/Laws/State.lean ====
section
/-! SUPPORT. One lemma per field per update of `State`, and what the stored words of a state read as after a store. -/

namespace Sys2Proof.Machine

section putWords
variable (s : State) (a : Nat) (ws : List Word)

@[simp] theorem putWords_csr : (s.putWords a ws).csr = s.csr := rfl
@[simp] theorem putWords_delay : (s.putWords a ws).delay = s.delay := rfl
@[simp] theorem putWords_inFlight : (s.putWords a ws).inFlight = s.inFlight := rfl
@[simp] theorem putWords_pending : (s.putWords a ws).pending = s.pending := rfl
@[simp] theorem putWords_overlap : (s.putWords a ws).overlap = s.overlap := rfl
@[simp] theorem putWords_readLog : (s.putWords a ws).readLog = s.readLog := rfl
@[simp] theorem putWords_epoch : (s.putWords a ws).epoch = s.epoch := rfl
@[simp] theorem putWords_params : (s.putWords a ws).params = s.params := rfl
@[simp] theorem putWords_mem_fill : (s.putWords a ws).mem.fill = s.mem.fill := rfl
theorem putWords_mem : (s.putWords a ws).mem = s.mem.writeWords a ws := rfl

end putWords

section tags
variable (s : State) (r : SReg) (v : Nat)

@[simp] theorem setTLen_mem : (s.setTLen v).mem = s.mem := rfl
@[simp] theorem setTLen_delay : (s.setTLen v).delay = s.delay := rfl
@[simp] theorem setTLen_inFlight : (s.setTLen v).inFlight = s.inFlight := rfl
@[simp] theorem setTLen_pending : (s.setTLen v).pending = s.pending := rfl
@[simp] theorem setTLen_overlap : (s.setTLen v).overlap = s.overlap := rfl
@[simp] theorem setTLen_readLog : (s.setTLen v).readLog = s.readLog := rfl
@[simp] theorem setTLen_epoch : (s.setTLen v).epoch = s.epoch := rfl
@[simp] theorem setTLen_csr :
    (s.setTLen v).csr = { s.csr with tags := { s.csr.tags with t := BitVec.ofNat 32 v } } := rfl
@[simp] theorem setTLen_word (a : Nat) : (s.setTLen v).word a = s.word a := rfl

@[simp] theorem setZLen_mem : (s.setZLen v).mem = s.mem := rfl
@[simp] theorem setZLen_delay : (s.setZLen v).delay = s.delay := rfl
@[simp] theorem setZLen_inFlight : (s.setZLen v).inFlight = s.inFlight := rfl
@[simp] theorem setZLen_pending : (s.setZLen v).pending = s.pending := rfl
@[simp] theorem setZLen_overlap : (s.setZLen v).overlap = s.overlap := rfl
@[simp] theorem setZLen_readLog : (s.setZLen v).readLog = s.readLog := rfl
@[simp] theorem setZLen_epoch : (s.setZLen v).epoch = s.epoch := rfl
@[simp] theorem setZLen_csr :
    (s.setZLen v).csr = { s.csr with tags := { s.csr.tags with z := BitVec.ofNat 32 v } } := rfl
@[simp] theorem setZLen_word (a : Nat) : (s.setZLen v).word a = s.word a := rfl

@[simp] theorem setSLen_mem : (s.setSLen r v).mem = s.mem := rfl
@[simp] theorem setSLen_delay : (s.setSLen r v).delay = s.delay := rfl
@[simp] theorem setSLen_inFlight : (s.setSLen r v).inFlight = s.inFlight := rfl
@[simp] theorem setSLen_pending : (s.setSLen r v).pending = s.pending := rfl
@[simp] theorem setSLen_overlap : (s.setSLen r v).overlap = s.overlap := rfl
@[simp] theorem setSLen_readLog : (s.setSLen r v).readLog = s.readLog := rfl
@[simp] theorem setSLen_epoch : (s.setSLen r v).epoch = s.epoch := rfl
@[simp] theorem setSLen_csr : (s.setSLen r v).csr = s.csr.writeTag r (BitVec.ofNat 32 v) := rfl
@[simp] theorem setSLen_word (a : Nat) : (s.setSLen r v).word a = s.word a := rfl

end tags

section complete
variable (s : State)

@[simp] theorem complete_mem : s.complete.mem = s.mem := rfl
@[simp] theorem complete_delay : s.complete.delay = s.delay := rfl
@[simp] theorem complete_inFlight : s.complete.inFlight = none := rfl
@[simp] theorem complete_pending : s.complete.pending = s.pending := rfl
@[simp] theorem complete_overlap : s.complete.overlap = s.overlap := rfl
@[simp] theorem complete_readLog : s.complete.readLog = s.readLog := rfl
@[simp] theorem complete_epoch : s.complete.epoch = s.epoch := rfl
@[simp] theorem complete_csr : s.complete.csr = { s.csr with ipDone := true } := rfl
@[simp] theorem complete_word (a : Nat) : s.complete.word a = s.word a := rfl
@[simp] theorem complete_delayWord (a : Nat) : s.complete.delayWord a = s.delayWord a := rfl

end complete

section raise
variable (s : State) (c : Cause) (info : Word)

@[simp] theorem raise_mem : (s.raise c info).mem = s.mem := rfl
@[simp] theorem raise_delay : (s.raise c info).delay = s.delay := rfl
@[simp] theorem raise_inFlight : (s.raise c info).inFlight = s.inFlight := rfl
@[simp] theorem raise_pending : (s.raise c info).pending = s.pending := rfl
@[simp] theorem raise_overlap : (s.raise c info).overlap = s.overlap := rfl
@[simp] theorem raise_readLog : (s.raise c info).readLog = s.readLog := rfl
@[simp] theorem raise_epoch : (s.raise c info).epoch = s.epoch := rfl
@[simp] theorem raise_err : (s.raise c info).csr.err = true := rfl
@[simp] theorem raise_errCode : (s.raise c info).csr.errCode = c.code := rfl
@[simp] theorem raise_errInfo : (s.raise c info).csr.errInfo = info := rfl
@[simp] theorem raise_ipDone : (s.raise c info).csr.ipDone = s.csr.ipDone := rfl
@[simp] theorem raise_active : (s.raise c info).csr.active = s.csr.active := rfl

end raise

/-! The storage of the default hardware: a datum is its word, and every operation is one on `State`. -/

@[simp] theorem hwStorage_base (s : State) : hwStorage.base s = s := rfl
@[simp] theorem hwStorage_modify (s : State) (f : State → State) : hwStorage.modify s f = f s := rfl
@[simp] theorem hwStorage_get (s : State) (a : Nat) : hwStorage.get s a = wordDatum hwNum (s.word a) := rfl
@[simp] theorem hwStorage_put (s : State) (a : Nat) (ds : List (Datum Word)) :
    hwStorage.put s a ds = s.putWords a (ds.map Datum.word) := rfl
@[simp] theorem hwStorage_putWords (s : State) (a : Nat) (ws : List Word) :
    hwStorage.putWords s a ws = s.putWords a ws := rfl
@[simp] theorem hwStorage_getDelay (s : State) (a : Nat) :
    hwStorage.getDelay s a = wordDatum hwNum (s.delayWord a) := rfl
@[simp] theorem hwStorage_putDelay (s : State) (a : Nat) (ds : List (Datum Word)) :
    hwStorage.putDelay s a ds = { s with delay := s.delay.writeWords a (ds.map Datum.word) } := rfl
@[simp] theorem hwStorage_clearDelay (s : State) : hwStorage.clearDelay s = { s with delay := Memory.zeroed } := rfl
@[simp] theorem hwStorage_prevE (s : State) (p : Csrs) : hwStorage.prevE s p = wordDatum hwNum p.qPrevE := rfl
@[simp] theorem hwStorage_setPrevE (s : State) (e : Datum Word) :
    hwStorage.setPrevE s e = { s with csr := { s.csr with qPrevE := e.word } } := rfl
@[simp] theorem hwStorage_served (s : State) (e : HostEvent) (t : State) : hwStorage.served s e t = t := rfl

/-- Filling a slot of the delay lines changes the delay-line RAM only. -/
theorem putDelaySlot_keeps (par : Params) (i : Nat) (bs : List (Bin (Datum Word))) : ∀ k s,
    hwStorage.putDelaySlot par i k bs s = { s with delay := (hwStorage.putDelaySlot par i k bs s).delay } := by
  induction bs with
  | nil => intro k s; rfl
  | cons b bs ih => intro k s; exact ih (k + 1) _

/-- A word inside the block just stored reads as stored. -/
theorem putWords_word_inside (s : State) (a : Nat) (ws : List Word) (i : Nat) (h : i < ws.length) :
    (s.putWords a ws).word (a + i) = ws[i] := by
  have hb := isSome_writeWords_inside s.mem a ws i h
  have hr : (s.putWords a ws).rawWord (a + i) = ws[i] := word_writeWords_inside _ _ _ _ _ h
  unfold State.word
  rw [if_neg (by simp [putWords_mem, Option.isNone_iff_eq_none, hb]), hr]

/-- The host reads a word inside the block just stored as stored. -/
theorem putWords_rawWord_inside (s : State) (a : Nat) (ws : List Word) (i : Nat) (h : i < ws.length) :
    (s.putWords a ws).rawWord (a + i) = ws[i] := word_writeWords_inside _ _ _ _ _ h

/-- The host reads a word outside the block just stored as before. -/
theorem putWords_rawWord_outside (s : State) (a : Nat) (ws : List Word) (x : Nat) (h : x < a ∨ a + ws.length ≤ x) :
    (s.putWords a ws).rawWord x = s.rawWord x := word_writeWords_outside _ _ _ _ _ h

/-- A word outside the block just stored reads as before. -/
theorem putWords_word_outside (s : State) (a : Nat) (ws : List Word) (x : Nat) (h : x < a ∨ a + ws.length ≤ x) :
    (s.putWords a ws).word x = s.word x := by
  have hb : (s.putWords a ws).mem.byte? (4 * x) = s.mem.byte? (4 * x) :=
    byte_writeBytes_outside _ _ _ _ (by simp only [length_flatMap_wordBytes]; omega)
  unfold State.word
  rw [putWords_rawWord_outside s a ws x h, hb]
  rfl

/-- A byte outside the block just stored reads as before. -/
theorem putWords_byte_outside (s : State) (a : Nat) (ws : List Word) (x : Nat)
    (h : x < 4 * a ∨ 4 * (a + ws.length) ≤ x) : (s.putWords a ws).mem.byte? x = s.mem.byte? x := by
  apply byte_writeBytes_outside
  simp only [length_flatMap_wordBytes]
  omega

@[simp] theorem length_tabulate {A : Type} (n : Nat) (f : Nat → A) : (tabulate n f).length = n := by simp [tabulate]

@[simp] theorem getElem_tabulate {A : Type} (n : Nat) (f : Nat → A) (i : Nat) (h : i < (tabulate n f).length) :
    (tabulate n f)[i] = f i := by simp [tabulate]

@[simp] theorem mem_tabulate {A : Type} (n : Nat) (f : Nat → A) (x : A) :
    x ∈ tabulate n f ↔ ∃ i, i < n ∧ f i = x := by simp [tabulate]

theorem getD_tabulate {A : Type} (n : Nat) (f : Nat → A) (d : A) (i : Nat) (h : i < n) :
    (tabulate n f).getD i d = f i := by simp [tabulate, h]

@[simp] theorem length_words (s : State) (a n : Nat) : (s.words a n).length = n := by simp [State.words]

theorem getD_words (s : State) (a n : Nat) (d : Word) (i : Nat) (h : i < n) : (s.words a n).getD i d = s.word (a + i) := by
  simp [State.words, h]

/-- Interleaved pairs: the first of pair `k` lies at `2 k`, the second after it. -/
theorem length_flatMap_pair {A B : Type} (f g : A → B) (l : List A) :
    (l.flatMap fun x => [f x, g x]).length = 2 * l.length := by
  induction l with
  | nil => rfl
  | cons x l ih => simp [ih]; omega

theorem getElem_flatMap_pair {A B : Type} (f g : A → B) (l : List A) : ∀ (k : Nat) (h : k < l.length),
    (l.flatMap fun x => [f x, g x])[2 * k]? = some (f l[k]) ∧
      (l.flatMap fun x => [f x, g x])[2 * k + 1]? = some (g l[k]) := by
  induction l with
  | nil => intro k h; simp at h
  | cons x l ih =>
    intro k h
    cases k with
    | zero => simp
    | succ k =>
      have h' : k < l.length := by simpa using h
      have e1 : 2 * (k + 1) = 2 * k + 1 + 1 := by omega
      have e2 : 2 * (k + 1) + 1 = 2 * k + 1 + 1 + 1 := by omega
      simpa [e1, e2] using ih k h'

@[simp] theorem length_binWords (bs : List (Bin Word)) : (binWords bs).length = 2 * bs.length :=
  length_flatMap_pair _ _ bs

@[simp] theorem length_cxWords (zs : List (Cx Word)) : (cxWords zs).length = 2 * zs.length :=
  length_flatMap_pair _ _ zs

/-- After a frame is stored, bin `k` of the register reads as bin `k` of the frame. -/
theorem putFrame_word (s : State) (r : SReg) (bs : List (Bin Word)) (k : Nat) (h : k < bs.length) :
    (s.putFrame r bs).word (sBase r + 2 * k) = bs[k].mag ∧ (s.putFrame r bs).word (sBase r + 2 * k + 1) = bs[k].ph := by
  obtain ⟨h1, h2⟩ := getElem_flatMap_pair Bin.mag Bin.ph bs k h
  have l1 : 2 * k < (binWords bs).length := by simp; omega
  have l2 : 2 * k + 1 < (binWords bs).length := by simp; omega
  refine ⟨?_, ?_⟩
  · rw [State.putFrame, putWords_word_inside _ _ _ _ l1]
    exact Option.some.inj ((List.getElem?_eq_getElem l1).symm.trans h1)
  · rw [State.putFrame, Nat.add_assoc, putWords_word_inside _ _ _ _ l2]
    exact Option.some.inj ((List.getElem?_eq_getElem l2).symm.trans h2)

/-- After complex numbers are stored, number `k` reads as stored. -/
theorem putComplexes_word (s : State) (a : Nat) (zs : List (Cx Word)) (k : Nat) (h : k < zs.length) :
    (s.putComplexes a zs).word (a + 2 * k) = zs[k].re ∧ (s.putComplexes a zs).word (a + 2 * k + 1) = zs[k].im := by
  obtain ⟨h1, h2⟩ := getElem_flatMap_pair Cx.re Cx.im zs k h
  have l1 : 2 * k < (cxWords zs).length := by simp; omega
  have l2 : 2 * k + 1 < (cxWords zs).length := by simp; omega
  refine ⟨?_, ?_⟩
  · rw [State.putComplexes, putWords_word_inside _ _ _ _ l1]
    exact Option.some.inj ((List.getElem?_eq_getElem l1).symm.trans h1)
  · rw [State.putComplexes, Nat.add_assoc, putWords_word_inside _ _ _ _ l2]
    exact Option.some.inj ((List.getElem?_eq_getElem l2).symm.trans h2)

end Sys2Proof.Machine
end

