-- ==== Sys2Proof/Laws/Commands.lean ====
section
/-! SUPPORT. What the shared operations of commands can do, once: a command raises its fault, or completes with its effect, or
is refused; a step serves an access, issues a command or completes one. -/

namespace Sys2Proof.Machine

section
variable {R S : Type} {M : Storage R S} {i : Instr} {s t : S} {effect : Csrs → S → Effect R S} {par : Params}
  {rate : Word → Bool}

/-- A command whose checks pass and whose reals are reals completes with its effect. -/
theorem runCommand_completes (hc : (M.base s).params.issueFault i par rate = none)
    (hr : ∀ d ∈ (effect (M.base s).params s).data, d.ok = true) :
    runCommand M i s effect par rate = .next (M.modify (effect (M.base s).params s).after State.complete) := by
  have h : (effect (M.base s).params s).data.all Datum.ok = true := List.all_eq_true.2 hr
  simp [runCommand, hc, h]

/-- A command whose checks fail raises its fault and does nothing else. -/
theorem runCommand_faults {f : RaisedFault} (hc : (M.base s).params.issueFault i par rate = some f) :
    runCommand M i s effect par rate = .next (M.modify s fun u => u.raise f.cause f.info) := by
  simp [runCommand, hc]

/-- All that a command can do when it answers a next state. -/
theorem runCommand_cases (h : runCommand M i s effect par rate = .next t) :
    (∃ f, (M.base s).params.issueFault i par rate = some f ∧ t = M.modify s fun u => u.raise f.cause f.info) ∨
    ((M.base s).params.issueFault i par rate = none ∧ (∀ d ∈ (effect (M.base s).params s).data, d.ok = true) ∧
      t = M.modify (effect (M.base s).params s).after State.complete) := by
  unfold runCommand at h
  dsimp only at h
  split at h
  · next f hf => exact .inl ⟨f, hf, (Host.Outcome.next.inj h).symm⟩
  · next hf =>
    split at h
    · next hr => exact .inr ⟨hf, List.all_eq_true.1 hr, (Host.Outcome.next.inj h).symm⟩
    · cases h

end

/-- A command with no command in flight reads the control registers themselves. -/
theorem params_of_idle {s : State} (h : s.inFlight = none) : s.params = s.csr := by simp [State.params, h]

/-- A command in flight reads the control registers latched at its issue. -/
theorem params_of_busy {s : State} {c : InFlight} (h : s.inFlight = some c) : s.params = c.latched := by
  simp [State.params, h]

/-- The effect a command has once its checks pass, on the default hardware. -/
def effectOf : Instr → Csrs → State → Effect Word State := effectOn hwStorage spcHardware

/-- Every command runs through `runCommand` with its effect. -/
theorem exec_eq_runCommand (i : Instr) (s : State) : exec i s = runCommand hwStorage i s (effectOf i) := by
  cases i <;> rfl

/-- The machine's commands are those of the default hardware. -/
theorem exec_eq_execOn : exec = execOn hwStorage spcHardware := funext fun i => funext fun s => exec_eq_runCommand i s

/-- The machine's step is that of the default hardware. -/
theorem step_eq_stepOn : step = stepOn hwStorage spcHardware := by
  funext s
  unfold step stepOn
  rw [← exec_eq_execOn]
  rfl

/-- All that executing a command can do when it answers a next state. -/
theorem exec_cases {i : Instr} {s t : State} (h : exec i s = .next t) :
    (∃ f, s.params.issueFault i = some f ∧ t = s.raise f.cause f.info) ∨
    (s.params.issueFault i = none ∧ (∀ d ∈ (effectOf i s.params s).data, d.ok = true) ∧
      t = (effectOf i s.params s).after.complete) := by
  rw [exec_eq_runCommand] at h
  simpa only [hwStorage_base, hwStorage_modify] using runCommand_cases h

/-- Executing a command whose checks pass and whose reals are finite. -/
theorem exec_completes {i : Instr} {s : State} (hc : s.params.issueFault i = none)
    (hr : ∀ d ∈ (effectOf i s.params s).data, d.ok = true) : exec i s = .next (effectOf i s.params s).after.complete := by
  rw [exec_eq_runCommand, runCommand_completes (M := hwStorage) (s := s) hc hr]
  rfl

/-- Executing a command whose checks fail. -/
theorem exec_faults {i : Instr} {s : State} {f : RaisedFault} (hc : s.params.issueFault i = some f) :
    exec i s = .next (s.raise f.cause f.info) := by
  rw [exec_eq_runCommand, runCommand_faults (M := hwStorage) (s := s) hc]
  rfl

/-- Every frame register that a command can name is there (R102). -/
@[simp] theorem present_spc (r : SReg) : present r = true := by revert r; decide

/-- Every frame register that a command names is there. -/
@[simp] theorem namedRegs_present (i : Instr) : ((namedRegs i).all fun r => present r) = true := by simp

/-- A host write to the tag of a frame register is a write to that tag: every register is there. -/
@[simp] theorem writeSLen_spc (c : Csrs) (r : SReg) (v : Word) : c.writeSLen r v = c.writeTag r v := by
  simp [Csrs.writeSLen]

/-- The map of this hardware (R73). -/
theorem regions_spc : regions =
    [⟨tBase, 0x1000, .rw, 0x1000⟩, ⟨zBase, 0x2000, .rw, 0x2000⟩,
     ⟨sBase 0, 0x2000, .rw, 4098⟩, ⟨sBase 1, 0x2000, .rw, 4098⟩, ⟨sBase 2, 0x2000, .rw, 4098⟩,
     ⟨sBase 3, 0x2000, .rw, 4098⟩, ⟨twBase, 0x1000, .ro, 0x1000⟩, ⟨brBase, 0x1000, .ro, 0x1000⟩,
     ⟨winBase, 0x1000, .ro, 0x1000⟩, ⟨maskBase, 0x800, .ro, 0x800⟩, ⟨dampBase, 0x800, .ro, 0x800⟩,
     ⟨dlenBase, 0x800, .ro, 0x800⟩, ⟨bandBase, 0x800, .ro, 0x800⟩, ⟨driftBase, 0x800, .rw, 0x800⟩,
     ⟨pmagBase, 0x1000, .ro, 0x1000⟩, ⟨pphBase, 0x1000, .ro, 0x1000⟩, ⟨sphBase, 0x1000, .ro, 0x1000⟩,
     ⟨accBase, 0x80, .ro, 0x80⟩, ⟨silBase, 0x80, .ro, 0x80⟩, ⟨envBase, 0x30, .ro, 0x30⟩] := by decide

/-- The cases of one step when it answers a next state: SPC is idle and nothing is to come, a read is served, a write is served,
a hard reset happens, a word written to `CMD` is discarded, is illegal, runs as a command or is issued, or the command in
flight completes or goes on while an access is served. -/
theorem step_cases {s t : State} (h : step s = .next t) :
    (s.inFlight = none ∧ s.pending = [] ∧ t = s) ∨
    (s.inFlight = none ∧ ∃ e rest, s.pending = e :: rest ∧
      ((∃ a, e = .read a ∧ t = State.serveRead { s with pending := rest } a) ∨
       (∃ a v, e = .write a v ∧ a ≠ cmdAddr ∧ t = State.memWrite { s with pending := rest } a v) ∨
       (e = .hardReset ∧ t = State.hardReset { s with pending := rest }) ∨
       (∃ w, e = .write cmdAddr w ∧
        ((s.csr.err = true ∧ t = { s with pending := rest }) ∨
         (s.csr.err = false ∧ (∃ why, decode w = .error why) ∧
          t = State.raise { s with pending := rest } .illegalCmd w) ∨
         (s.csr.err = false ∧ ∃ i, decode w = .ok i ∧
          ((s.overlap.headD 0 = 0 ∧ exec i { s with pending := rest, overlap := s.overlap.tail } = .next t) ∨
           (∃ n o, s.overlap = (n + 1) :: o ∧
            t = State.issue { s with pending := rest, overlap := o } i n))))))) ∨
    (∃ c, s.inFlight = some c ∧
      (exec c.instr s = .next t ∨
       ∃ e rest, s.pending = e :: rest ∧ c.completesBefore e = false ∧
         t = State.serveBusy { s with pending := rest } c e)) := by
  obtain ⟨csr, mem, delay, inFlight, pending, overlap, readLog, epoch⟩ := s
  unfold step advance State.plan at h
  simp only [hwStorage_base, hwStorage_served, hwStorage_modify] at h
  cases inFlight with
  | none =>
    cases pending with
    | nil => exact .inl ⟨rfl, rfl, (Host.Outcome.next.inj h).symm⟩
    | cons e rest =>
      refine .inr (.inl ⟨rfl, e, rest, rfl, ?_⟩)
      cases e with
      | read a => exact .inl ⟨a, rfl, (Host.Outcome.next.inj h).symm⟩
      | hardReset => exact .inr (.inr (.inl ⟨rfl, (Host.Outcome.next.inj h).symm⟩))
      | write a v =>
        simp only [State.serve] at h
        by_cases ha : a = cmdAddr
        · subst ha
          refine .inr (.inr (.inr ⟨v, rfl, ?_⟩))
          simp only [if_true, State.command] at h
          cases he : csr.err with
          | true => exact .inl ⟨rfl, by simpa [he] using h.symm⟩
          | false =>
            cases hw : decode v with
            | error why => exact .inr (.inl ⟨rfl, ⟨why, rfl⟩, by simpa [he, hw] using h.symm⟩)
            | ok i =>
              refine .inr (.inr ⟨rfl, i, rfl, ?_⟩)
              cases overlap with
              | nil => exact .inl ⟨rfl, by simpa [he, hw] using h⟩
              | cons n o =>
                cases n with
                | zero => exact .inl ⟨rfl, by simpa [he, hw] using h⟩
                | succ n => exact .inr ⟨n, o, rfl, by simpa [he, hw] using h.symm⟩
        · exact .inr (.inl ⟨a, v, rfl, ha, by simpa [ha] using h.symm⟩)
  | some c =>
    refine .inr (.inr ⟨c, rfl, ?_⟩)
    cases pending with
    | nil => exact .inl h
    | cons e rest =>
      cases hc : c.completesBefore e with
      | true => exact .inl (by simpa [hc] using h)
      | false => exact .inr ⟨e, rest, rfl, hc, by simpa [hc] using h.symm⟩

end Sys2Proof.Machine
end

