-- ==== Sys2Proof/Laws/Checks.lean ====
section
/-! SUPPORT. The checks of issue on a configured machine, which lists of words are finite, and the bytes outside what was
stored. -/

namespace Sys2Proof.Machine

@[simp] theorem env_n (p : Csrs) : p.env.n = p.active.n.toNat := rfl
@[simp] theorem env_bins (p : Csrs) : p.env.bins = p.active.n.toNat / 2 + 1 := rfl
@[simp] theorem env_lines (p : Csrs) : p.env.lines = p.active.n.toNat / 2 := rfl
@[simp] theorem env_num (p : Csrs) : p.env.num = hwNum := rfl
@[simp] theorem env_par (p : Csrs) : p.env.par = Params.spc := rfl
@[simp] theorem env_fs (p : Csrs) : p.env.fs = p.active.fs := rfl
@[simp] theorem hwNum_add : hwNum.add = f32Add := rfl
@[simp] theorem hwNum_sub : hwNum.sub = f32Sub := rfl
@[simp] theorem hwNum_mul : hwNum.mul = f32Mul := rfl
@[simp] theorem hwNum_div : hwNum.div = f32Div := rfl
@[simp] theorem hwNum_sqrt : hwNum.sqrt = f32Sqrt := rfl
@[simp] theorem hwNum_sin : hwNum.sin = f32Sin := rfl
@[simp] theorem hwNum_cos : hwNum.cos = f32Cos := rfl
@[simp] theorem hwNum_arg : hwNum.arg = f32Arg := rfl
@[simp] theorem hwNum_lt : hwNum.lt = f32Lt := rfl
@[simp] theorem hwNum_le : hwNum.le = f32Le := rfl
@[simp] theorem hwNum_eq : hwNum.eq = f32Eq := rfl
@[simp] theorem hwNum_ofInt : hwNum.ofInt = f32OfInt := rfl
@[simp] theorem hwNum_floor (x : Word) : hwNum.floor x = saturate (f32Floor x) := rfl
@[simp] theorem hwNum_ceil (x : Word) : hwNum.ceil x = saturate (f32Ceil x) := rfl
@[simp] theorem hwNum_toBits (x : Word) : hwNum.toBits x = x := rfl
@[simp] theorem hwNum_ofBits (x : Word) : hwNum.ofBits x = x := rfl

/-- A saturated number is in the 32-bit range, so that saturating again changes nothing. -/
@[simp] theorem saturate_saturate (x : Int) : saturate (saturate x) = saturate x := by
  unfold saturate
  split_ifs <;> omega

@[simp] theorem stagedEnv_num (p : Csrs) : p.stagedEnv.num = hwNum := rfl
@[simp] theorem stagedEnv_par (p : Csrs) : p.stagedEnv.par = Params.spc := rfl
@[simp] theorem stagedEnv_n (p : Csrs) : p.stagedEnv.n = p.staged.fftSize.toNat := rfl
@[simp] theorem f32OfInt_zero : f32OfInt 0 = 0 := by decide
@[simp] theorem f32OfInt_one : f32OfInt 1 = 0x3F800000 := by decide
theorem f32Half : f32Div (f32OfInt 1) (f32OfInt 2) = 0x3F000000 := by decide +kernel
@[simp] theorem env_zero (p : Csrs) : p.env.zero = 0 := f32OfInt_zero
@[simp] theorem env_one (p : Csrs) : p.env.one = 0x3F800000 := f32OfInt_one
@[simp] theorem env_half (p : Csrs) : p.env.half = 0x3F000000 := by
  simpa [Env.half, Env.lit, Env.nat] using f32Half

/-- A size that CFG accepts is at most 4096 (R133). -/
theorem le_of_sizeOk {n : Nat} (h : sizeOk n = true) : n ≤ 4096 := by
  simp only [sizeOk, Bool.and_eq_true, decide_eq_true_eq] at h
  exact h.2.2

/-- The active size of a configured machine is at most 4096. -/
theorem Csrs.Configured.size_le {p : Csrs} (h : p.Configured) : p.active.n.toNat ≤ 4096 := le_of_sizeOk h.legal.size

theorem checkT_none {p : Csrs} (h : p.tags.t = p.active.n) : p.checkT = none := by simp [Csrs.checkT, lenCheck, h]

theorem checkZ_none {p : Csrs} (h : p.tags.z = p.active.n) : p.checkZ = none := by simp [Csrs.checkZ, lenCheck, h]

theorem checkS_none {p : Csrs} {r : SReg} (h : p.tags.s[r].toNat = p.env.bins) : p.checkS r = none := by
  exact if_pos h

theorem configured_none {p : Csrs} (h : p.cfgOk = true) (i : Instr) (own : Option RaisedFault) :
    p.configured i own = own := by simp [Csrs.configured, h]

theorem allFinite_nil : allFinite [] := by simp [allFinite]

theorem allFinite_cons {w : Word} {ws : List Word} : allFinite (w :: ws) ↔ f32Finite w = true ∧ allFinite ws := by
  simp [allFinite]

theorem allFinite_append {a b : List Word} : allFinite (a ++ b) ↔ allFinite a ∧ allFinite b := by
  simp [allFinite, or_imp, forall_and]

theorem allFinite_tabulate {n : Nat} {f : Nat → Word} :
    allFinite (tabulate n f) ↔ ∀ k, k < n → f32Finite (f k) = true := by simp [allFinite]

theorem allFinite_words {s : State} {a n : Nat} :
    allFinite (s.words a n) ↔ ∀ k, k < n → f32Finite (s.word (a + k)) = true := by simp [allFinite, State.words]

theorem allFinite_flatMap_pair {A : Type} {f g : A → Word} {l : List A} :
    allFinite (l.flatMap fun x => [f x, g x]) ↔ ∀ x ∈ l, f32Finite (f x) = true ∧ f32Finite (g x) = true := by
  simp only [allFinite, List.mem_flatMap]
  constructor
  · intro h x hx
    exact ⟨h _ ⟨x, hx, by simp⟩, h _ ⟨x, hx, by simp⟩⟩
  · rintro h w ⟨x, hx, hw⟩
    simp only [List.mem_cons, List.not_mem_nil, or_false] at hw
    rcases hw with rfl | rfl
    · exact (h x hx).1
    · exact (h x hx).2

theorem allFinite_binWords {l : List (Bin Word)} :
    allFinite (binWords l) ↔ ∀ b ∈ l, f32Finite b.mag = true ∧ f32Finite b.ph = true := allFinite_flatMap_pair

theorem allFinite_cxWords {l : List (Cx Word)} :
    allFinite (cxWords l) ↔ ∀ z ∈ l, f32Finite z.re = true ∧ f32Finite z.im = true := allFinite_flatMap_pair

theorem sameBytesOutside_refl (bs : List Block) (m : Memory) : SameBytesOutside bs m m := fun _ _ => rfl

/-- Storing words keeps every byte outside their block, and so outside any blocks that include it. -/
theorem SameBytesOutside.putWords {bs : List Block} {m : Memory} {s : State} (h : SameBytesOutside bs m s.mem)
    (a : Nat) (ws : List Word) (hb : ⟨a, ws.length⟩ ∈ bs) : SameBytesOutside bs m (s.putWords a ws).mem := by
  intro x hx
  rw [putWords_byte_outside s a ws x (hx _ hb)]
  exact h x hx

@[simp] theorem length_frame (s : State) (r : SReg) (n : Nat) : (s.frame r n).length = n := length_tabulate _ _
@[simp] theorem length_complexes (s : State) (a n : Nat) : (s.complexes a n).length = n := length_tabulate _ _
@[simp] theorem length_natWords (ns : List Nat) : (natWords ns).length = ns.length := by simp [natWords]
@[simp] theorem length_nats (s : State) (a n : Nat) : (s.nats a n).length = n := by simp [State.nats]

theorem frame_map_mag (s : State) (r : SReg) (n : Nat) : (s.frame r n).map Bin.mag = tabulate n (s.mag r) := by
  simp [State.frame, tabulate, State.mag]

theorem frame_map_ph (s : State) (r : SReg) (n : Nat) : (s.frame r n).map Bin.ph = tabulate n (s.ph r) := by
  simp [State.frame, tabulate, State.ph]

theorem allFinite_frame {s : State} {r : SReg} {n : Nat} : allFinite (binWords (s.frame r n)) ↔
    ∀ k, k < n → f32Finite (s.mag r k) = true ∧ f32Finite (s.ph r k) = true := by
  simp [allFinite_binWords, State.frame, State.mag, State.ph]

end Sys2Proof.Machine
end

