-- ==== Sys2Proof/Laws/Effects.lean ====
section
/-! SUPPORT. The effect of each command on the default hardware, in bus words: there a real is its pattern, so that reading and
storing reals is reading and storing words. One lemma per effect; proofs about commands cite it and unfold nothing. -/

namespace Sys2Proof.Machine

@[simp] theorem envOf_spc (p : Csrs) : p.envOf spcHardware = p.env := rfl
@[simp] theorem stagedEnvOf_spc (p : Csrs) : p.stagedEnvOf spcHardware = p.stagedEnv := rfl
@[simp] theorem spcHardware_num : spcHardware.num = hwNum := rfl
@[simp] theorem spcHardware_par : spcHardware.par = Params.spc := rfl
@[simp] theorem csrs_bins (p : Csrs) : p.bins = p.active.n.toNat / 2 + 1 := rfl

/-- A word as a datum of the default hardware. -/
def hwDatum (w : Word) : Datum Word := ⟨w, w, f32Finite w⟩

@[simp] theorem wordDatum_hw (w : Word) : wordDatum hwNum w = hwDatum w := rfl
@[simp] theorem realDatum_hw (w : Word) : realDatum hwNum w = hwDatum w := rfl
@[simp] theorem hwDatum_word (w : Word) : (hwDatum w).word = w := rfl
@[simp] theorem hwDatum_real (w : Word) : (hwDatum w).real = w := rfl
@[simp] theorem hwDatum_ok (w : Word) : (hwDatum w).ok = f32Finite w := rfl
@[simp] theorem word_comp_hwDatum : Datum.word ∘ hwDatum = id := rfl
@[simp] theorem real_comp_hwDatum : Datum.real ∘ hwDatum = id := rfl
@[simp] theorem realsOf_hw (ws : List Word) : realsOf (ws.map hwDatum) = ws := by simp [realsOf]
@[simp] theorem words_hw (ws : List Word) : (ws.map hwDatum).map Datum.word = ws := by simp

/-- An effect in bus words: every word it handles must be a real. -/
def hwEffect (ws : List Word) (t : State) : Effect Word State := ⟨ws.map hwDatum, t⟩

@[simp] theorem hwEffect_after (ws : List Word) (t : State) : (hwEffect ws t).after = t := rfl

theorem hwEffect_ok (ws : List Word) (t : State) : (∀ d ∈ (hwEffect ws t).data, d.ok = true) ↔ allFinite ws := by
  simp [hwEffect, allFinite]

theorem andThen_hw (ws : List Word) (t : State) (f : State → Effect Word State) (vs : List Word) (u : State)
    (h : f t = hwEffect vs u) : (hwEffect ws t).andThen f = hwEffect (ws ++ vs) u := by
  simp [Effect.andThen, h, hwEffect]

/-- A command whose checks pass and whose words are finite completes with its effect. -/
theorem exec_completes_hw {i : Instr} {s : State} {ws : List Word} {t : State} (hc : s.params.issueFault i = none)
    (he : effectOf i s.params s = hwEffect ws t) (hr : allFinite ws) : exec i s = .next t.complete := by
  have := exec_completes hc (by rw [he]; exact (hwEffect_ok ws t).2 hr)
  rwa [he] at this

section
variable (s : State)

@[simp] theorem reals_hw (a n : Nat) : hwStorage.reals s a n = (s.words a n).map hwDatum := by
  simp [Storage.reals, State.words, tabulate]
@[simp] theorem frame_mag_hw (r : SReg) (n : Nat) :
    (hwStorage.frame s r n).map Bin.mag = ((s.frame r n).map Bin.mag).map hwDatum := by
  simp [Storage.frame, State.frame, tabulate]
@[simp] theorem frame_ph_hw (r : SReg) (n : Nat) :
    (hwStorage.frame s r n).map Bin.ph = ((s.frame r n).map Bin.ph).map hwDatum := by
  simp [Storage.frame, State.frame, tabulate]
@[simp] theorem binsOf_hw (r : SReg) (n : Nat) : binsOf (hwStorage.frame s r n) = s.frame r n := by
  simp [binsOf, Storage.frame, State.frame, tabulate]
@[simp] theorem binWords_frame_hw (r : SReg) (n : Nat) :
    binWords (hwStorage.frame s r n) = (binWords (s.frame r n)).map hwDatum := by
  simp [binWords, Storage.frame, State.frame, tabulate, List.map_flatMap, List.flatMap_map]
@[simp] theorem cxsOf_hw (a n : Nat) : cxsOf (hwStorage.complexes s a n) = s.complexes a n := by
  simp [cxsOf, Storage.complexes, State.complexes, tabulate]
@[simp] theorem cxWords_complexes_hw (a n : Nat) :
    cxWords (hwStorage.complexes s a n) = (cxWords (s.complexes a n)).map hwDatum := by
  simp [cxWords, Storage.complexes, State.complexes, tabulate, List.map_flatMap, List.flatMap_map]
@[simp] theorem nats_hw (a n : Nat) : hwStorage.nats s a n = s.nats a n := rfl

end

section
variable {E : Env Word} (h : E.num = hwNum)
include h

theorem data_hw (xs : List Word) : E.data xs = xs.map hwDatum := by simp [Env.data, h]
theorem registers_hw (xs : List Word) : E.registers xs = xs.map hwDatum := by simp [Env.registers, h]
theorem binDatum_hw (b : Bin Word) : E.binDatum b = ⟨hwDatum b.mag, hwDatum b.ph⟩ := by simp [Env.binDatum, h]
theorem binData_hw (bs : List (Bin Word)) : E.binData bs = (binWords bs).map hwDatum := by
  simp [Env.binData, binWords, binDatum_hw h, List.map_flatMap, List.flatMap_map]
theorem cxData_hw (zs : List (Cx Word)) : E.cxData zs = (cxWords zs).map hwDatum := by
  simp [Env.cxData, cxWords, h, List.map_flatMap, List.flatMap_map]

end

section
variable (p : Csrs)

@[simp] theorem data_env (xs : List Word) : p.env.data xs = xs.map hwDatum := data_hw rfl xs
@[simp] theorem registers_env (xs : List Word) : p.env.registers xs = xs.map hwDatum := registers_hw rfl xs
@[simp] theorem binDatum_env (b : Bin Word) : p.env.binDatum b = ⟨hwDatum b.mag, hwDatum b.ph⟩ := rfl
@[simp] theorem binData_env (bs : List (Bin Word)) : p.env.binData bs = (binWords bs).map hwDatum := binData_hw rfl bs
@[simp] theorem cxData_env (zs : List (Cx Word)) : p.env.cxData zs = (cxWords zs).map hwDatum := cxData_hw rfl zs

end

variable (p : Csrs) (s : State)

theorem winEffect_spc : winEffect hwStorage spcHardware p s =
    let out := p.env.applyWindow (s.words tBase p.env.n) (s.words winBase p.env.n)
    hwEffect (s.words tBase p.env.n ++ s.words winBase p.env.n ++ out) (s.putWords tBase out) := by
  simp [winEffect, hwEffect]

theorem fftfEffect_spc : fftfEffect hwStorage spcHardware p s =
    let tw := s.complexes twBase (p.env.n / 2)
    let out := p.env.fwd tw (s.nats brBase p.env.n) (s.words tBase p.env.n)
    hwEffect (s.words tBase p.env.n ++ cxWords tw ++ cxWords out) ((s.putComplexes zBase out).setZLen p.env.n) := by
  simp [fftfEffect, hwEffect, State.putComplexes]

theorem fftiEffect_spc : fftiEffect hwStorage spcHardware p s =
    let tw := s.complexes twBase (p.env.n / 2)
    let out := p.env.inv tw (s.nats brBase p.env.n) (s.complexes zBase p.env.n)
    hwEffect (cxWords (s.complexes zBase p.env.n) ++ cxWords tw ++ cxWords out)
      ((((s.putComplexes zBase out).putWords tBase (out.map Cx.re)).setZLen p.env.n).setTLen p.env.n) := by
  simp [fftiEffect, hwEffect, State.putComplexes, -List.map_map]

theorem polarEffect_spc (rd : SReg) : polarEffect hwStorage spcHardware rd p s =
    let out := p.env.polarFrame (s.complexes zBase p.env.bins)
    hwEffect (cxWords (s.complexes zBase p.env.bins) ++ binWords out) ((s.putFrame rd out).setSLen rd p.env.bins) := by
  simp [polarEffect, hwEffect, State.putFrame]

theorem rectEffect_spc (rs1 : SReg) : rectEffect hwStorage spcHardware rs1 p s =
    let out := p.env.rectFrame (s.frame rs1 p.env.bins)
    hwEffect (binWords (s.frame rs1 p.env.bins) ++ cxWords out) ((s.putComplexes zBase out).setZLen p.env.n) := by
  simp [rectEffect, hwEffect, State.putComplexes]

theorem pvFirstEffect_spc (rd rs1 : SReg) : pvFirstEffect hwStorage rd rs1 p s =
    let frame := s.frame rs1 p.bins
    let mag := frame.map Bin.mag
    let ph := frame.map Bin.ph
    let s' := ((((s.putFrame rd frame).putWords pmagBase mag).putWords pphBase ph).putWords sphBase ph).setSLen rd p.bins
    hwEffect (binWords frame) { s' with csr := { s'.csr with pvFirst := false } } := by
  simp [pvFirstEffect, Storage.putPvHistory, hwEffect, State.putFrame, -List.map_map]

theorem pvNextEffect_spc (rd rs1 : SReg) : pvNextEffect hwStorage spcHardware rd rs1 p s =
    let E := p.env
    let frame := s.frame rs1 E.bins
    let mag := frame.map Bin.mag
    let lph := E.lockedPhases p.lockEn mag (frame.map Bin.ph)
    let out := E.synthPhases p.shiftHz lph (s.words pphBase E.bins) (s.words sphBase E.bins)
    hwEffect (p.shiftHz :: binWords frame ++ s.words pphBase E.bins ++ s.words sphBase E.bins ++ out)
      (((((s.putFrame rd (List.zipWith Bin.mk mag out)).putWords pmagBase mag).putWords pphBase lph).putWords sphBase
        out).setSLen rd E.bins) := by
  have h : ∀ a b : List Word, (binWords (List.zipWith Bin.mk (a.map hwDatum) (b.map hwDatum))).map Datum.word =
      binWords (List.zipWith Bin.mk a b) := by
    intro a
    induction a with
    | nil => intro b; rfl
    | cons x a ih => intro b; cases b with
      | nil => rfl
      | cons y b => simpa [binWords] using ih b
  simp only [pvNextEffect, Storage.putPvHistory, hwEffect, State.putFrame, envOf_spc, frame_mag_hw, frame_ph_hw, reals_hw,
    realsOf_hw, data_env, registers_env, hwStorage_put, hwStorage_modify, words_hw, h, binWords_frame_hw, env_num,
    hwNum_ofBits, List.map_append, List.map_cons, List.map_nil, List.cons_append, List.nil_append]

theorem fshEffect_spc (rd rs1 : SReg) : fshEffect hwStorage spcHardware rd rs1 p s =
    let E := p.env
    let frame := s.frame rs1 E.bins
    let out := E.shiftFrame p.shiftHz (frame.map Bin.mag) (frame.map Bin.ph)
    hwEffect (p.shiftHz :: E.shiftBins p.shiftHz :: binWords frame ++ binWords out)
      ((s.putFrame rd out).setSLen rd E.bins) := by
  simp [fshEffect, hwEffect, State.putFrame]

theorem envcEffect_spc (rs1 : SReg) : envcEffect hwStorage spcHardware rs1 p s =
    let mag := (s.frame rs1 p.env.lines).map Bin.mag
    hwEffect mag (s.putWords envBase (p.env.envOf (s.nats bandBase p.env.lines) mag)) := by
  simp [envcEffect, hwEffect, -List.map_map]

theorem quantIn_spc (rs1 : SReg) : s.quantIn rs1 p =
    let frame := s.frame rs1 p.env.lines
    { mag := frame.map Bin.mag
      ph := frame.map Bin.ph
      strength := p.env.clamp01 p.quant.strength
      transThr := p.quant.transThr
      transAmt := p.quant.transAmt
      preserve := p.quant.preserve
      inScl := p.inScl
      drift := if p.quant.driftEn then some (s.words driftBase p.env.lines) else none
      envelope := if p.quant.envEn then some (s.words envBase 48) else none
      band := s.nats bandBase p.env.lines
      first := p.qFirst
      cnt := p.qTrCnt.toNat
      prevE := p.qPrevE
      acc := s.words accBase 128
      sil := s.nats silBase 128 } := by
  simp only [State.quantIn, Storage.quantIn, envOf_spc, reals_hw, realsOf_hw, binsOf_hw, nats_hw, env_num, hwNum_ofBits,
    hwStorage_prevE, wordDatum_hw, hwDatum_real]
  rfl

/-- What QNT reads is a real exactly where its word is finite. -/
theorem quantReads_ok {rs1 : SReg} {d : Datum Word} (h : d ∈ s.quantReads rs1 p) : d.ok = f32Finite d.word := by
  simp only [State.quantReads, Storage.quantReads, envOf_spc, registers_env, binWords_frame_hw, hwStorage_prevE,
    hwStorage_get, wordDatum_hw, List.mem_append, List.mem_map] at h
  rcases h with ((((((⟨w, -, rfl⟩ | ⟨w, -, rfl⟩) | h) | ⟨k, -, rfl⟩) | h) | ⟨k, -, rfl⟩) | ⟨k, -, rfl⟩)
  · rfl
  · rfl
  · split at h
    · rw [List.mem_singleton.1 h]; rfl
    · cases h
  · rfl
  · split at h
    · obtain ⟨w, -, rfl⟩ := List.mem_map.1 h; rfl
    · cases h
  · rfl
  · rfl

theorem quantCopyEffect_spc (rd rs1 : SReg) : quantCopyEffect hwStorage spcHardware rd rs1 p s =
    let frame := s.frame rs1 p.env.lines
    hwEffect (p.quant.strength :: binWords frame) ((s.putFrame rd (frame ++ [⟨0, 0⟩])).setSLen rd p.env.bins) := by
  have h : binWords (hwStorage.frame s rs1 p.env.lines ++ [p.env.binDatum ⟨p.env.zero, p.env.zero⟩]) =
      (binWords (s.frame rs1 p.env.lines ++ [⟨0, 0⟩])).map hwDatum := by
    rw [binWords, List.flatMap_append, ← binWords, binWords_frame_hw]
    simp [binWords]
  simp only [quantCopyEffect, hwEffect, State.putFrame, envOf_spc, h, registers_env, binWords_frame_hw, hwStorage_put,
    hwStorage_modify, words_hw, List.map_cons, List.map_nil, List.cons_append, List.nil_append]

theorem quantRunEffect_spc (rd rs1 : SReg) : quantRunEffect hwStorage spcHardware rd rs1 p s =
    let E := p.env
    let x := s.quantIn rs1 p
    let hist := E.quantHistory x
    let t := ((s.putFrame rd (E.quantFrame x)).putWords accBase (hist.map Prod.fst)).putWords silBase
      (natWords (hist.map Prod.snd))
    let c := { t.csr with qPrevE := E.energy x.mag, qTrCnt := BitVec.ofNat 32 (E.quantCnt x - 1), qFirst := false }
    ⟨s.quantReads rs1 p ++ (quantReals E x).map hwDatum, ({ t with csr := c } : State).setSLen rd E.bins⟩ := by
  simp only [quantRunEffect, State.quantIn, State.quantReads, State.putFrame, Storage.setQuantHistory, envOf_spc, data_env,
    binData_env, hwStorage_put, hwStorage_putWords, hwStorage_modify, hwStorage_setPrevE, words_hw, env_num, realDatum_hw,
    hwDatum_word]

theorem maskTable_spc {E : Env Word} (h : E.num = hwNum) :
    p.maskTable E = E.maskTable p.mask.mode p.mask.lo p.mask.hi p.mask.width := by simp [Csrs.maskTable, h]

theorem mskbEffect_spc : mskbEffect hwStorage spcHardware p s =
    let table := p.env.maskTable p.mask.mode p.mask.lo p.mask.hi p.mask.width
    let t := s.putWords maskBase table
    hwEffect (p.maskParams ++ table) { t with csr := { t.csr with maskDirty := false } } := by
  simp [mskbEffect, hwEffect, maskTable_spc p (E := p.env) rfl]

theorem mskEffect_spc (rd rs1 rs2 : SReg) : mskEffect hwStorage spcHardware rd rs1 rs2 p s =
    let E := p.env
    let wet := s.frame rs1 E.lines
    let dry := s.frame rs2 E.lines
    let mask := s.words maskBase E.lines
    let out := maskFrame E mask wet dry
    hwEffect (binWords wet ++ binWords dry ++ mask ++ binWords out) ((s.putFrame rd out).setSLen rd E.bins) := by
  simp [mskEffect, hwEffect, State.putFrame]

theorem buildDelay_spc {E : Env Word} (h : E.num = hwNum) (depth : Nat) : hwStorage.buildDelay s p E depth =
    (s.putWords dampBase (E.dampTable p.delay.damping)).putWords dlenBase
      (natWords (E.dlenTable depth p.delay.timeMs p.delay.slope)) := by
  simp [Storage.buildDelay, Csrs.dampTable, Csrs.dlenTable, data_hw h, h]

theorem delayReals_spc {E : Env Word} (h : E.num = hwNum) : p.delayReals E =
    tabulate E.lines (E.delayRaw p.delay.timeMs p.delay.slope) ++ E.dampTable p.delay.damping := by
  simp [Csrs.delayReals, Csrs.dampTable, h]

theorem sdlpEffect_spc : sdlpEffect hwStorage spcHardware p s =
    let E := p.env
    let t := hwStorage.buildDelay s p E p.sdDepth.toNat
    hwEffect (p.delayParams ++ p.delayReals E) { t with csr := { t.csr with sdDirty := false } } := by
  simp [sdlpEffect, hwEffect]

theorem sdlEffect_spc (rd rs1 : SReg) : sdlEffect hwStorage spcHardware rd rs1 p s =
    let E := p.env
    let dry := s.frame rs1 E.lines
    let damp := s.words dampBase E.lines
    let q := E.delayMix p.delay.feedback p.delay.mix p.delay.gain
    let w := p.sdWr.toNat
    let depth := p.sdDepth.toNat
    let delayed := tabulate E.lines fun k =>
      s.delayBin k (delayReadIndex w ((s.nats dlenBase E.lines).getD k 0) depth)
    let written := tabulate E.lines fun k => E.delayWrite q (E.at_ damp k) (E.binAt dry k) (E.binAt delayed k)
    let out := tabulate E.lines (fun k => E.delayOut q (E.binAt dry k) (E.binAt delayed k)) ++ [⟨0, 0⟩]
    let t := ((hwStorage.putDelaySlot Params.spc w 0 (written.map fun b => ⟨hwDatum b.mag, hwDatum b.ph⟩) s).putFrame
      rd out).setSLen rd E.bins
    hwEffect ([p.delay.feedback, p.delay.mix, p.delay.gain] ++ binWords dry ++ damp ++ binWords delayed
        ++ binWords written ++ binWords out)
      { t with csr := { t.csr with sdWr := BitVec.ofNat 32 ((w + 1) % depth) } } := by
  have hd : ∀ (w depth : Nat) (dlen : List Nat) (n : Nat),
      hwStorage.delayedBins s w depth dlen n Params.spc =
        (tabulate n fun k => s.delayBin k (delayReadIndex w (dlen.getD k 0) depth)).map
          fun b => ⟨hwDatum b.mag, hwDatum b.ph⟩ := by
    intro w depth dlen n
    simp [Storage.delayedBins, Storage.delayBin, State.delayBin, tabulate]
  have hb : ∀ bs : List (Bin Word), binsOf (bs.map fun b => (⟨hwDatum b.mag, hwDatum b.ph⟩ : Bin (Datum Word))) = bs := by
    intro bs
    rw [binsOf, List.map_map]
    exact List.map_id bs
  have hw : ∀ bs : List (Bin Word), binWords (bs.map fun b => (⟨hwDatum b.mag, hwDatum b.ph⟩ : Bin (Datum Word))) =
      (binWords bs).map hwDatum := by
    intro bs
    simp [binWords, List.map_flatMap, List.flatMap_map]
  have ht : ∀ (n : Nat) (f : Nat → Bin Word), (tabulate n fun k => p.env.binDatum (f k)) =
      (tabulate n f).map fun b => ⟨hwDatum b.mag, hwDatum b.ph⟩ := by
    intro n f
    simp [tabulate]
  simp only [sdlEffect, hwEffect, State.putFrame, envOf_spc, spcHardware_par, reals_hw, realsOf_hw, binsOf_hw, nats_hw, hd,
    hb, hw, ht, binWords_frame_hw, binData_env, registers_env, hwStorage_put, hwStorage_modify, words_hw, env_num,
    hwNum_ofBits, env_zero, List.map_append, List.map_cons, List.map_nil]

theorem buildTables_spc {E : Env Word} (h : E.num = hwNum) : hwStorage.buildTables s p E =
    (hwStorage.buildDelay
      (((((s.putComplexes twBase E.twTable).putWords brBase (natWords E.brTable)).putWords winBase
        (E.winTable p.staged.window)).putWords bandBase (natWords E.bandTable)).putWords maskBase
          (E.maskTable p.mask.mode p.mask.lo p.mask.hi p.mask.width)) p E E.depth).putWords driftBase
            (List.replicate E.lines 0) := by
  simp [Storage.buildTables, maskTable_spc p h, State.putComplexes, data_hw h, cxData_hw h]

theorem cfgReals_spc {E : Env Word} (h : E.num = hwNum) : p.cfgReals E =
    p.delayReals E ++ cxWords E.twTable ++ E.winTable p.staged.window ++ tabulate E.lines E.binfreq ++ [E.depthRaw]
      ++ E.maskTable p.mask.mode p.mask.lo p.mask.hi p.mask.width := by
  simp [Csrs.cfgReals, maskTable_spc p h]

theorem resetPv_spc (bins : Nat) : hwStorage.resetPv s bins =
    let t := ((s.putWords pmagBase (List.replicate bins 0)).putWords pphBase (List.replicate bins 0)).putWords sphBase
      (List.replicate bins 0)
    { t with csr := { t.csr with pvFirst := true } } := rfl

theorem resetQ_spc : hwStorage.resetQ hwNum s Params.spc =
    let t := ((s.putWords accBase (List.replicate 128 0)).putWords silBase (List.replicate 128 8)).putWords envBase
      (List.replicate 48 0)
    { t with csr := { t.csr with qPrevE := 0, qTrCnt := 0, qFirst := true } } := by
  simp [Storage.resetQ, Params.spc]

theorem resetSd_spc : hwStorage.resetSd s = { s with delay := Memory.zeroed, csr := { s.csr with sdWr := 0 } } := rfl

theorem cfgEffect_spc : cfgEffect hwStorage spcHardware p s =
    hwEffect (p.maskParams ++ p.delayParams ++ p.cfgReals p.stagedEnv)
      ((hwStorage.resetUnits spcHardware (hwStorage.buildTables s p p.stagedEnv) 7 p.stagedEnv.bins).activate p
        p.stagedEnv.depth) := by
  simp [cfgEffect, hwEffect, data_hw (E := p.stagedEnv) rfl, registers_hw (E := p.stagedEnv) rfl]

end Sys2Proof.Machine
end

