-- ==== Sys2Proof/Laws/Float.lean ====
section
/-! SUPPORT. When the operations of the hardware instance have finite results: bounds on the size of a result from bounds on
the operands. Sizes are in units of 2^-149, as `f32Mag` counts them. -/

namespace Sys2Proof.Machine

/-- A finite pattern of size below `2 ^ b` units. -/
def Small (b : Nat) (w : Word) : Prop := f32Finite w = true ∧ f32Mag w < 2 ^ b

theorem Small.mono {b c : Nat} {w : Word} (h : Small b w) (hbc : b ≤ c) : Small c w :=
  ⟨h.1, h.2.trans_le (Nat.pow_le_pow_right (by omega) hbc)⟩

theorem f32Exp_ofNat (n : Nat) : f32Exp (BitVec.ofNat 32 n) = n % 2 ^ 32 / 2 ^ 23 % 256 := by
  simp [f32Exp, BitVec.extractLsb'_toNat, Nat.shiftRight_eq_div_pow]

theorem f32Frac_lt (w : Word) : f32Frac w < 2 ^ 23 := (w.extractLsb' 0 23).isLt

theorem f32Mag_lt (w : Word) : f32Mag w < 2 ^ (f32Exp w + 23) := by
  have hf := f32Frac_lt w
  unfold f32Mag
  split
  · next h => rw [h]; exact hf
  · next h =>
    rw [Nat.shiftLeft_eq]
    obtain ⟨e, he⟩ : ∃ e, f32Exp w = e + 1 := ⟨f32Exp w - 1, by omega⟩
    rw [he, Nat.add_sub_cancel, show e + 1 + 23 = 24 + e by omega, Nat.pow_add]
    exact Nat.mul_lt_mul_of_pos_right (by omega) (Nat.two_pow_pos e)

theorem roundQuot_le (n d : Nat) : roundQuot n d ≤ n / d + 1 := by
  unfold roundQuot
  dsimp only
  split
  · omega
  · split
    · omega
    · have := Nat.mod_lt (n / d) (show 0 < 2 by omega); omega

/-- A quotient below `2 ^ e` units rounds to a finite pattern below `2 ^ (e + 1)`. -/
theorem small_pack (neg : Bool) (n d e : Nat) (h : n / d < 2 ^ e) (h24 : 24 ≤ e) (h276 : e ≤ 276) :
    Small (e + 1) (f32Pack neg n d) := by
  obtain ⟨k, hk⟩ : ∃ k, k = Nat.log2 (n / d) - 23 := ⟨_, rfl⟩
  have hlog : Nat.log2 (n / d) < e := by
    by_cases h0 : n / d = 0
    · rw [h0]; simp; omega
    · exact (Nat.log2_lt h0).2 h
  have hq : n / (d <<< k) < 2 ^ 24 := by
    rw [Nat.shiftLeft_eq, ← Nat.div_div_eq_div_mul, Nat.div_lt_iff_lt_mul (Nat.two_pow_pos k), ← Nat.pow_add]
    have : n / d < 2 ^ (Nat.log2 (n / d) + 1) := Nat.lt_log2_self
    exact this.trans_le (Nat.pow_le_pow_right (by omega) (by omega))
  have hr := roundQuot_le n (d <<< k)
  have hbody : k <<< 23 + roundQuot n (d <<< k) ≤ (k + 2) * 2 ^ 23 := by rw [Nat.shiftLeft_eq]; omega
  have hk252 : k ≤ 252 := by omega
  have hpack : f32Pack neg n d =
      BitVec.ofNat 32 (if neg then 0x80000000 + (k <<< 23 + roundQuot n (d <<< k))
        else k <<< 23 + roundQuot n (d <<< k)) := by
    unfold f32Pack
    simp only [← hk]
    have hlt : k <<< 23 + roundQuot n (d <<< k) < 0x7F800000 := by omega
    simp only [hlt, if_true]
  have hexp : f32Exp (f32Pack neg n d) ≤ k + 2 := by
    rw [hpack, f32Exp_ofNat]
    split <;> omega
  refine ⟨?_, (f32Mag_lt _).trans_le (Nat.pow_le_pow_right (by omega) (by omega))⟩
  simp only [f32Finite, bne_iff_ne, ne_eq]
  omega

theorem natAbs_f32Fix (w : Word) : (f32Fix w).natAbs = f32Mag w := by unfold f32Fix; split <;> simp

theorem small_add {a : Nat} {x y : Word} (hx : Small a x) (hy : Small a y) (h : 23 ≤ a) (h' : a ≤ 275) :
    Small (a + 2) (f32Add x y) := by
  simp only [f32Add, hx.1, hy.1, Bool.and_self, if_true]
  refine small_pack _ _ _ (a + 1) ?_ (by omega) (by omega)
  have := Int.natAbs_add_le (f32Fix x) (f32Fix y)
  rw [natAbs_f32Fix, natAbs_f32Fix] at this
  have h1 := hx.2
  have h2 := hy.2
  rw [Nat.div_one, Nat.pow_succ]
  omega

theorem f32Exp_flip (w : Word) : f32Exp (f32Flip w) = f32Exp w := by
  simp [f32Exp, f32Flip, BitVec.extractLsb'_xor]

theorem f32Frac_flip (w : Word) : f32Frac (f32Flip w) = f32Frac w := by
  simp [f32Frac, f32Flip, BitVec.extractLsb'_xor]

theorem small_flip {a : Nat} {x : Word} (hx : Small a x) : Small a (f32Flip x) := by
  simpa [Small, f32Finite, f32Mag, f32Exp_flip, f32Frac_flip] using hx

theorem small_sub {a : Nat} {x y : Word} (hx : Small a x) (hy : Small a y) (h : 23 ≤ a) (h' : a ≤ 275) :
    Small (a + 2) (f32Sub x y) := small_add hx (small_flip hy) h h'

theorem small_mul {a b : Nat} {x y : Word} (hx : Small a x) (hy : Small b y) (e : Nat) (he : a + b ≤ e + 149)
    (h : 24 ≤ e) (h' : e ≤ 276) : Small (e + 1) (f32Mul x y) := by
  simp only [f32Mul, hx.1, hy.1, Bool.and_self, if_true]
  refine small_pack _ _ _ e ?_ h h'
  have hone : f32One = 2 ^ 149 := by unfold f32One; rw [Nat.shiftLeft_eq, Nat.one_mul]
  rw [hone, Nat.div_lt_iff_lt_mul (Nat.two_pow_pos 149), ← Nat.pow_add]
  calc f32Mag x * f32Mag y < 2 ^ a * 2 ^ b := Nat.mul_lt_mul'' hx.2 hy.2
    _ = 2 ^ (a + b) := (Nat.pow_add 2 a b).symm
    _ ≤ 2 ^ (e + 149) := Nat.pow_le_pow_right (by omega) he

/-- All that a held free value can be: the raw value inside the bound, or the pattern nearest to the reference. -/
theorem heldBy_cases (ref : Int) (raw : Word) :
    (heldBy ref raw = raw ∧ f32Finite raw = true ∧ (f32Fix raw - ref).natAbs * 2 ^ 23 ≤ ref.natAbs) ∨
      heldBy ref raw = f32OfFix ref := by
  unfold heldBy
  split
  · next h =>
    simp only [Bool.and_eq_true, withinContract, decide_eq_true_eq, Nat.shiftLeft_eq] at h
    exact .inl ⟨rfl, h.1, h.2⟩
  · exact .inr rfl

/-- A free value held within the bound around a reference value of size at most 2 is itself small. -/
theorem small_heldBy (ref : Int) (raw : Word) (h : ref.natAbs < 2 ^ 150) : Small 152 (heldBy ref raw) := by
  rcases heldBy_cases ref raw with ⟨h0, hf, hc⟩ | h0
  · rw [h0]
    refine ⟨hf, ?_⟩
    rw [← natAbs_f32Fix]
    omega
  · rw [h0]
    exact (small_pack _ _ _ 150 (by simpa using h) (by omega) (by omega)).mono (by omega)

theorem quarterSin_lt : ∀ j ≤ 1024, (quarterSin j).natAbs < 2 ^ 150 := by decide +kernel

theorem turnSin_lt {i : Nat} (hi : i < 2048) : (turnSin i).natAbs < 2 ^ 150 := by
  unfold turnSin
  split <;> exact quarterSin_lt _ (by omega)

theorem turnCos_lt {i : Nat} (hi : i < 2048) : (turnCos i).natAbs < 2 ^ 150 := by
  unfold turnCos
  split
  · exact quarterSin_lt _ (by omega)
  · rw [Int.natAbs_neg]; exact quarterSin_lt _ (by omega)

/-- All that a sine or cosine can be: a held free value, or at a twiddle angle the pattern nearest to the exact value. -/
theorem small_heldAngle (w : Word) {exact : Nat → Int} (ref : Int) (raw : Word)
    (he : ∀ {i}, i < 2048 → (exact i).natAbs < 2 ^ 150) (h : ref.natAbs < 2 ^ 150) :
    Small 152 (heldAngle w exact ref raw) := by
  unfold heldAngle
  split
  · next ht =>
    simp only [isTwiddleAngle, Bool.and_eq_true, decide_eq_true_eq] at ht
    exact (small_pack _ _ _ 150 (by simpa using he (by omega)) (by omega) (by omega)).mono (by omega)
  · exact small_heldBy ref raw h

theorem small_cos {w : Word} (hf : f32Finite w = true) (h : (cosRef w).natAbs < 2 ^ 150) : Small 152 (f32Cos w) := by
  rw [f32Cos, if_pos hf]; exact small_heldAngle _ _ _ turnCos_lt h

theorem small_sin {w : Word} (hf : f32Finite w = true) (h : (sinRef w).natAbs < 2 ^ 150) : Small 152 (f32Sin w) := by
  rw [f32Sin, if_pos hf]; exact small_heldAngle _ _ _ turnSin_lt h

/-- Both parts of a complex number are small. -/
def SmallCx (b : Nat) (z : Cx Word) : Prop := Small b z.re ∧ Small b z.im

theorem SmallCx.mono {b c : Nat} {z : Cx Word} (h : SmallCx b z) (hbc : b ≤ c) : SmallCx c z :=
  ⟨h.1.mono hbc, h.2.mono hbc⟩

/-! The FFT engine on small values: each stage of the network adds at most eight bits. -/

section
variable {E : Env Word} (hE : E.num = hwNum)

theorem small_zero (b : Nat) : Small b 0 := ⟨by decide, by rw [show f32Mag 0 = 0 by decide]; exact Nat.two_pow_pos b⟩

include hE

theorem smallCx_cat {b : Nat} {zs : List (Cx Word)} (h : ∀ z ∈ zs, SmallCx b z) (i : Nat) : SmallCx b (E.cat_ zs i) := by
  have h0 : SmallCx b E.czero := by
    have : E.zero = 0 := by simp [Env.zero, hE, hwNum, show f32OfInt 0 = 0 by decide]
    exact ⟨by simpa [Env.czero, this] using small_zero b, by simpa [Env.czero, this] using small_zero b⟩
  unfold Env.cat_
  rw [List.getD_eq_getElem?_getD]
  rcases hi : zs[i]? with _ | z
  · exact h0
  · exact h z (List.mem_of_getElem? hi)

theorem smallCx_conj {b : Nat} {z : Cx Word} (h : SmallCx b z) (h1 : 23 ≤ b) (h2 : b ≤ 275) :
    SmallCx (b + 2) (E.conj z) := by
  refine ⟨h.1.mono (by omega), ?_⟩
  simpa [Env.conj, Env.neg, Env.zero, hE, hwNum, show f32OfInt 0 = 0 by decide] using small_sub (small_zero b) h.2 h1 h2

theorem smallCx_cmul {a : Nat} {w z : Cx Word} (hw : SmallCx 152 w) (hz : SmallCx a z) (h1 : 24 ≤ a) (h2 : a ≤ 260) :
    SmallCx (a + 6) (E.cmul w z) := by
  have m : ∀ {x y : Word}, Small 152 x → Small a y → Small (a + 4) (f32Mul x y) := fun hx hy =>
    small_mul hx hy (a + 3) (by omega) (by omega) (by omega)
  exact ⟨by simpa [Env.cmul, hE, hwNum] using small_sub (m hw.1 hz.1) (m hw.2 hz.2) (by omega) (by omega),
    by simpa [Env.cmul, hE, hwNum] using small_add (m hw.1 hz.2) (m hw.2 hz.1) (by omega) (by omega)⟩

theorem smallCx_butterfly {a : Nat} {x y w : Cx Word} (hx : SmallCx a x) (hy : SmallCx a y) (hw : SmallCx 152 w)
    (h1 : 24 ≤ a) (h2 : a ≤ 260) :
    SmallCx (a + 8) (E.butterfly x y w).1 ∧ SmallCx (a + 8) (E.butterfly x y w).2 := by
  have hp := smallCx_cmul hE hw hy h1 h2
  have hx' := hx.mono (show a ≤ a + 6 by omega)
  refine ⟨⟨?_, ?_⟩, ⟨?_, ?_⟩⟩ <;> simp only [Env.butterfly, Env.cadd, Env.csub, hE, hwNum]
  · exact small_add hx'.1 (by simpa [Env.cmul, hE, hwNum] using hp.1) (by omega) (by omega)
  · exact small_add hx'.2 (by simpa [Env.cmul, hE, hwNum] using hp.2) (by omega) (by omega)
  · exact small_sub hx'.1 (by simpa [Env.cmul, hE, hwNum] using hp.1) (by omega) (by omega)
  · exact small_sub hx'.2 (by simpa [Env.cmul, hE, hwNum] using hp.2) (by omega) (by omega)

theorem smallCx_stage {a : Nat} {tw y : List (Cx Word)} {inv : Bool} {half : Nat} (htw : ∀ z ∈ tw, SmallCx 150 z)
    (hy : ∀ z ∈ y, SmallCx a z) (h1 : 24 ≤ a) (h2 : a ≤ 260) : ∀ z ∈ E.stage tw inv half y, SmallCx (a + 8) z := by
  have hw : ∀ i, SmallCx 152 (E.stageTwiddle tw inv half i) := fun i => by
    unfold Env.stageTwiddle
    have := smallCx_cat hE htw (i * (E.n / (2 * half)))
    dsimp only
    split
    · exact smallCx_conj hE this (by omega) (by omega)
    · exact this.mono (by omega)
  intro z hz
  simp only [Env.stage, tabulate, List.mem_map, List.mem_range] at hz
  obtain ⟨p, -, rfl⟩ := hz
  split
  · exact (smallCx_butterfly hE (smallCx_cat hE hy _) (smallCx_cat hE hy _) (hw _) h1 h2).1
  · exact (smallCx_butterfly hE (smallCx_cat hE hy _) (smallCx_cat hE hy _) (hw _) h1 h2).2

theorem smallCx_permute {a : Nat} {br : List Nat} {x : List (Cx Word)} (hx : ∀ z ∈ x, SmallCx a z) :
    ∀ z ∈ E.permute br x, SmallCx a z := by
  have h0 : ∀ z ∈ tabulate E.n fun _ => E.czero, SmallCx a z := by
    intro z hz
    simp only [tabulate, List.mem_map] at hz
    obtain ⟨_, -, rfl⟩ := hz
    simpa [Env.cat_] using smallCx_cat hE (b := a) (zs := []) (by simp) 0
  unfold Env.permute
  generalize tabulate E.n (fun _ => E.czero) = y at h0
  generalize List.range E.n = l
  induction l generalizing y with
  | nil => exact h0
  | cons k l ih =>
    refine ih _ fun z hz => ?_
    rcases List.mem_or_eq_of_mem_set hz with hz | rfl
    · exact h0 z hz
    · exact smallCx_cat hE hx k

theorem smallCx_net {a : Nat} {tw x : List (Cx Word)} {br : List Nat} {inv : Bool} (htw : ∀ z ∈ tw, SmallCx 150 z)
    (hx : ∀ z ∈ x, SmallCx a z) (h1 : 24 ≤ a) (h2 : a + 8 * E.log2n ≤ 260) :
    ∀ z ∈ E.net tw br inv x, SmallCx (a + 8 * E.log2n) z := by
  unfold Env.net Env.stages
  generalize E.permute br x = y, smallCx_permute hE (br := br) hx = hy
  generalize E.log2n = m at h2
  induction m with
  | zero => simpa using hy
  | succ m ih =>
    rw [List.range_succ, List.foldl_append]
    exact smallCx_stage hE htw (a := a + 8 * m) (ih (by omega)) (by omega) (by omega)

end

end Sys2Proof.Machine
end

