-- ==== Sys2Proof/Laws/PerInstr.lean ====
section
/-! SUPPORT. A statement about every command, one lemma per constructor: the bits that no format uses are 0 in its word
(spec/30_encoding.md R102). -/

namespace Sys2Proof.Laws.ReservedBitsZero

/-- Bits 23:22, 19:18, 15:14 and 11:3 of the command's word are 0 (R102). -/
def Statement (i : Instr) : Prop := encode i &&& 0x00CCCFF8 = 0

theorem nop : Statement .nop := by unfold Statement; decide
theorem cfg : Statement .cfg := by unfold Statement; decide
theorem reset (imm3 : BitVec 3) : Statement (.reset imm3) := by revert imm3; unfold Statement; decide
theorem win : Statement .win := by unfold Statement; decide
theorem fftf : Statement .fftf := by unfold Statement; decide
theorem ffti : Statement .ffti := by unfold Statement; decide
theorem polar (rd : SReg) : Statement (.polar rd) := by revert rd; unfold Statement; decide
theorem rect (rs1 : SReg) : Statement (.rect rs1) := by revert rs1; unfold Statement; decide
theorem stftf (rd : SReg) : Statement (.stftf rd) := by revert rd; unfold Statement; decide
theorem stfti (rs1 : SReg) : Statement (.stfti rs1) := by revert rs1; unfold Statement; decide
theorem pv (rd rs1 : SReg) : Statement (.pv rd rs1) := by revert rd rs1; unfold Statement; decide
theorem fsh (rd rs1 : SReg) : Statement (.fsh rd rs1) := by revert rd rs1; unfold Statement; decide
theorem envc (rs1 : SReg) : Statement (.envc rs1) := by revert rs1; unfold Statement; decide
theorem qnt (rd rs1 : SReg) : Statement (.qnt rd rs1) := by revert rd rs1; unfold Statement; decide
theorem mskb : Statement .mskb := by unfold Statement; decide
theorem msk (rd rs1 rs2 : SReg) : Statement (.msk rd rs1 rs2) := by revert rd rs1 rs2; unfold Statement; decide
theorem sdlp : Statement .sdlp := by unfold Statement; decide
theorem sdl (rd rs1 : SReg) : Statement (.sdl rd rs1) := by revert rd rs1; unfold Statement; decide

end Sys2Proof.Laws.ReservedBitsZero
end

