-- ==== Sys2Proof/Laws/RealStorage.lean ====
section
/-! SUPPORT. The laws of a machine that keeps the reals of its record: what is read after a store is the real that was stored,
every other real stays, and the words that the bus shows are those of `State`. -/

namespace Sys2Proof.Machine

section
variable {R : Type}

theorem lookupReal_append (a : Nat) (l k : List (Nat × R)) :
    lookupReal a (l ++ k) = (lookupReal a l).or (lookupReal a k) := by
  induction l with
  | nil => rfl
  | cons c l ih =>
    obtain ⟨x, r⟩ := c
    by_cases h : x = a <;> simp [lookupReal, h, ih]

theorem lookupReal_filter (a : Nat) (p : Nat × R → Bool) (q : Nat → Bool) (hp : ∀ x r, p (x, r) = q x)
    (l : List (Nat × R)) : lookupReal a (l.filter p) = if q a then lookupReal a l else none := by
  induction l with
  | nil => simp [lookupReal]
  | cons c l ih =>
    obtain ⟨x, r⟩ := c
    by_cases h : x = a
    · subst h
      by_cases hq : q x <;> simp [hp, hq, lookupReal, ih]
    · by_cases hq : q x <;> simp [hp, hq, lookupReal, h, ih]

theorem lookupReal_realsAt (ds : List (Datum R)) : ∀ a x, lookupReal x (realsAt a ds) =
    if a ≤ x then (ds[x - a]?).map Datum.real else none := by
  induction ds with
  | nil => intro a x; simp [realsAt, lookupReal]
  | cons d ds ih =>
    intro a x
    by_cases h : a = x
    · simp [realsAt, lookupReal, h]
    · rw [realsAt, lookupReal, if_neg h, ih]
      by_cases hx : a ≤ x
      · have : x - a = x - (a + 1) + 1 := by omega
        simp [hx, show a + 1 ≤ x by omega, this]
      · simp [hx, show ¬ a + 1 ≤ x by omega]

/-- A real outside the replaced addresses stays. -/
theorem lookupReal_splice_outside (l : List (Nat × R)) (a : Nat) (ds : List (Datum R)) (n x : Nat)
    (hn : ds.length = n ∨ ds = []) (h : x < a ∨ a + n ≤ x) :
    lookupReal x (spliceReals l a n (realsAt a ds)) = lookupReal x l := by
  have h0 : lookupReal x (realsAt a ds) = none := by
    rw [lookupReal_realsAt]
    split
    · rcases hn with hn | hn
      · rw [List.getElem?_eq_none (by omega)]; rfl
      · simp [hn]
    · rfl
  rw [spliceReals, lookupReal_append, lookupReal_append, h0,
    lookupReal_filter x _ (fun y => decide (y < a)) (fun _ _ => rfl),
    lookupReal_filter x _ (fun y => decide (a + n ≤ y)) (fun _ _ => rfl)]
  rcases h with h | h
  · cases lookupReal x l <;> simp [h]
  · simp [h, show ¬ x < a by omega]

/-- A real at a replaced address is the new one, if there is one. -/
theorem lookupReal_splice_inside (l : List (Nat × R)) (a : Nat) (ds : List (Datum R)) (n i : Nat) (h : i < n) :
    lookupReal (a + i) (spliceReals l a n (realsAt a ds)) = (ds[i]?).map Datum.real := by
  rw [spliceReals, lookupReal_append, lookupReal_append, lookupReal_realsAt,
    lookupReal_filter (a + i) _ (fun y => decide (y < a)) (fun _ _ => rfl),
    lookupReal_filter (a + i) _ (fun y => decide (a + n ≤ y)) (fun _ _ => rfl)]
  simp [show ¬ n ≤ i by omega]

variable (H : Hardware R) (s : RealState R) (a : Nat)

@[simp] theorem realStorage_base : (realStorage H).base s = s.word := rfl
@[simp] theorem realStorage_modify (f : State → State) :
    (realStorage H).modify s f = { s with word := f s.word } := rfl
theorem realStorage_get : (realStorage H).get s a = keptDatum H.num (lookupReal a s.bus) (s.word.word a) := rfl
@[simp] theorem realStorage_put_word (ds : List (Datum R)) :
    ((realStorage H).put s a ds).word = s.word.putWords a (ds.map Datum.word) := rfl
@[simp] theorem realStorage_put_delay (ds : List (Datum R)) : ((realStorage H).put s a ds).delay = s.delay := rfl
@[simp] theorem realStorage_put_prevE (ds : List (Datum R)) : ((realStorage H).put s a ds).prevE = s.prevE := rfl
@[simp] theorem realStorage_putWords_word (ws : List Word) :
    ((realStorage H).putWords s a ws).word = s.word.putWords a ws := rfl
@[simp] theorem realStorage_putWords_delay (ws : List Word) : ((realStorage H).putWords s a ws).delay = s.delay := rfl
@[simp] theorem realStorage_putWords_prevE (ws : List Word) : ((realStorage H).putWords s a ws).prevE = s.prevE := rfl

/-- A change of the control registers keeps the reals of storage. -/
@[simp] theorem realStorage_get_modify (f : State → State) (hf : (f s.word).word a = s.word.word a) :
    (realStorage H).get ((realStorage H).modify s f) a = (realStorage H).get s a := by
  simp [realStorage_get, hf]

/-- A real inside the block just stored is the one stored. -/
theorem realStorage_get_put_inside (ds : List (Datum R)) (i : Nat) (h : i < ds.length) :
    (realStorage H).get ((realStorage H).put s a ds) (a + i) = ⟨ds[i].word, ds[i].real, H.num.isReal ds[i].real⟩ := by
  have hw := putWords_word_inside s.word a (ds.map Datum.word) i (by simpa using h)
  rw [realStorage_get, realStorage_put_word, hw]
  show keptDatum H.num (lookupReal (a + i) (spliceReals s.bus a ds.length (realsAt a ds))) _ = _
  rw [lookupReal_splice_inside _ _ _ _ _ h, List.getElem?_eq_getElem h]
  simp [keptDatum]

/-- A real outside the block just stored stays. -/
theorem realStorage_get_put_outside (ds : List (Datum R)) (x : Nat) (h : x < a ∨ a + ds.length ≤ x) :
    (realStorage H).get ((realStorage H).put s a ds) x = (realStorage H).get s x := by
  rw [realStorage_get, realStorage_get, realStorage_put_word, putWords_word_outside _ _ _ _ (by simpa using h)]
  show keptDatum H.num (lookupReal x (spliceReals s.bus a ds.length (realsAt a ds))) _ = _
  rw [lookupReal_splice_outside _ _ _ _ _ (.inl rfl) h]

/-- A word inside the block of integers or zeros just stored is read as the real it encodes. -/
theorem realStorage_get_putWords_inside (ws : List Word) (i : Nat) (h : i < ws.length) :
    (realStorage H).get ((realStorage H).putWords s a ws) (a + i) = wordDatum H.num ws[i] := by
  rw [realStorage_get, realStorage_putWords_word, putWords_word_inside _ _ _ _ h]
  show keptDatum H.num (lookupReal (a + i) (spliceReals s.bus a ws.length (realsAt a []))) _ = _
  rw [lookupReal_splice_inside _ _ _ _ _ h]
  rfl

/-- A real outside the block of integers or zeros just stored stays. -/
theorem realStorage_get_putWords_outside (ws : List Word) (x : Nat) (h : x < a ∨ a + ws.length ≤ x) :
    (realStorage H).get ((realStorage H).putWords s a ws) x = (realStorage H).get s x := by
  rw [realStorage_get, realStorage_get, realStorage_putWords_word, putWords_word_outside _ _ _ _ h]
  show keptDatum H.num (lookupReal x (spliceReals s.bus a ws.length (realsAt a []))) _ = _
  rw [lookupReal_splice_outside _ _ _ _ _ (.inr rfl) h]

/-- Computed reals just stored are read back as they are, whatever their bus words. -/
theorem reals_put (num : Num R) (xs : List R) :
    realsOf ((realStorage H).reals ((realStorage H).put s a (xs.map (realDatum num))) a xs.length) = xs := by
  refine List.ext_getElem (by simp [realsOf, Storage.reals]) fun i h _ => ?_
  have hi : i < (xs.map (realDatum num)).length := by simpa [realsOf, Storage.reals] using h
  simp only [realsOf, Storage.reals, List.getElem_map, getElem_tabulate, realStorage_get_put_inside H s a _ i hi]
  rfl

/-- Computed complex numbers just stored are read back as they are, whatever their bus words. -/
theorem complexes_put (E : Env R) (zs : List (Cx R)) :
    cxsOf ((realStorage H).complexes ((realStorage H).put s a (E.cxData zs)) a zs.length) = zs := by
  have hl : (E.cxData zs).length = 2 * zs.length := by
    rw [Env.cxData, cxWords, length_flatMap_pair, List.length_map]
  have hd : ∀ k (h : k < zs.length), (E.cxData zs)[2 * k]? = some (realDatum E.num zs[k].re) ∧
      (E.cxData zs)[2 * k + 1]? = some (realDatum E.num zs[k].im) := by
    intro k h
    have := getElem_flatMap_pair (fun z : Cx R => realDatum E.num z.re) (fun z => realDatum E.num z.im) zs k h
    simpa [Env.cxData, cxWords, List.flatMap_map] using this
  refine List.ext_getElem (by simp [cxsOf, Storage.complexes]) fun k h hk => ?_
  obtain ⟨h1, h2⟩ := hd k hk
  have l1 : 2 * k < (E.cxData zs).length := by omega
  have l2 : 2 * k + 1 < (E.cxData zs).length := by omega
  have e1 := Option.some.inj ((List.getElem?_eq_getElem l1).symm.trans h1)
  have e2 := Option.some.inj ((List.getElem?_eq_getElem l2).symm.trans h2)
  simp only [cxsOf, Storage.complexes, List.getElem_map, getElem_tabulate, Nat.add_assoc,
    realStorage_get_put_inside H s a _ _ l1, realStorage_get_put_inside H s a _ _ l2, e1, e2]
  rfl

end

end Sys2Proof.Machine
end

