-- ==== Sys2Proof/Tests/Slice0.lean ====
section
/-! SUPPORT. Tests of the model against the spec's own numbers (spec/95_test_vectors.md, spec/30_encoding.md R112), and
for every statement with hypotheses a state and operands that meet all of them. -/

set_option Elab.async false

namespace Sys2Proof.Tests

open Sys2Proof.Machine

/-! ## Encoding: words written out bit by bit from R102 to R105 -/

theorem test_decode_nop : decode 0b00000000000000000000000000000000 = .ok .nop := by decide
theorem test_decode_cfg : decode 0b00000001000000000000000000000000 = .ok .cfg := by decide
theorem test_decode_reset : decode 0b00000010000000000000000000000101 = .ok (.reset 5) := by decide
theorem test_decode_win : decode 0b00010000000000000000000000000000 = .ok .win := by decide
theorem test_decode_fftf : decode 0b00010001000000000000000000000000 = .ok .fftf := by decide
theorem test_decode_ffti : decode 0b00010010000000000000000000000000 = .ok .ffti := by decide
theorem test_decode_polar : decode 0b00010011001000000000000000000000 = .ok (.polar 2) := by decide
theorem test_decode_rect : decode 0b00010100000000110000000000000000 = .ok (.rect 3) := by decide
theorem test_decode_stftf : decode 0b00010101001100000000000000000000 = .ok (.stftf 3) := by decide
theorem test_decode_stfti : decode 0b00010110000000110000000000000000 = .ok (.stfti 3) := by decide
theorem test_decode_pv : decode 0b00100000001000010000000000000000 = .ok (.pv 2 1) := by decide
theorem test_decode_fsh : decode 0b00100001000100100000000000000000 = .ok (.fsh 1 2) := by decide
theorem test_decode_envc : decode 0b00100010000000010000000000000000 = .ok (.envc 1) := by decide
theorem test_decode_qnt : decode 0b00100011001000110000000000000000 = .ok (.qnt 2 3) := by decide
theorem test_decode_mskb : decode 0b00100100000000000000000000000000 = .ok .mskb := by decide
theorem test_decode_msk : decode 0b00100101000100100011000000000000 = .ok (.msk 1 2 3) := by decide
theorem test_decode_sdlp : decode 0b00100110000000000000000000000000 = .ok .sdlp := by decide
theorem test_decode_sdl : decode 0b00100111001100100000000000000000 = .ok (.sdl 3 2) := by decide

/-- Every word of a list is ill-formed and refused with the reason given. -/
def refusedWith (why : IllegalWord) (ws : List Word) : Bool :=
  ws.all fun w => !wordWellFormed w && decide (decode w = .error why)

/-- The first and the last unassigned value of each gap (R107, V-ENC-6). -/
theorem test_unassigned_op_refused :
    refusedWith .unassignedOp
    [0x03000000, 0x0F000000, 0x17000000, 0x1F000000, 0x28000000, 0xFF000000, 0xFFFFFFFF] = true := by decide +kernel

/-- Format Z with an operand field or a low bit set (V-ENC-7). -/
theorem test_format_z_refused : refusedWith .reservedBits
    [0x00000001, 0x01000100, 0x24100000, 0x26000008, 0x10100000] = true := by decide +kernel

/-- Format I with bit 3 set (R112). -/
theorem test_format_i_refused : wordWellFormed 0x02000008 = false ∧ decode 0x02000008 = .error .reservedBits := by
  decide

/-- Format D with the rs1 field set (V-ENC-5). -/
theorem test_format_d_refused : wordWellFormed 0x13010000 = false ∧ decode 0x13010000 = .error .reservedBits := by
  decide

/-- Format S with the rd field set (V-ENC-10). -/
theorem test_format_s_refused : wordWellFormed 0x16130000 = false ∧ decode 0x16130000 = .error .reservedBits := by
  decide

/-- Format DS with bit 22, bit 18, the rs2 field or bit 0 set (V-ENC-8). -/
theorem test_format_ds_refused : refusedWith .reservedBits
    [0x20400000, 0x20040000, 0x20001000, 0x20000001] = true := by decide +kernel

/-- Format DSS with bit 14 or bit 11 set. -/
theorem test_format_dss_refused : refusedWith .reservedBits
    [0x25004000, 0x25000800] = true := by decide +kernel

theorem test_assembler_text : (Instr.msk 2 1 0).toAsm = "MSK S2, S1, S0" ∧ Instr.rstall.toAsm = "RESET #7" := by decide

/-! ## States -/

/-- Bus patterns of small reals (R322). -/
def f1 : Word := 0x3F800000
def f2 : Word := 0x40000000
def f3 : Word := 0x40400000
def f4 : Word := 0x40800000
def fHalf : Word := 0x3F000000
def fQuarter : Word := 0x3E800000

/-- Control registers configured for N = 4, HOP = 1, FS = 4, every tag set, depth 8. -/
def csr4 : Csrs :=
  { Csrs.reset with
    cfgOk := true, pvFirst := false, staged := ⟨4, 1, .hann, f4⟩, active := ⟨4, 1, .hann, f4⟩
    tags := ⟨4, 4, #v[3, 3, 3, 3]⟩, sdDepth := 8, quant := ⟨0, 0, 0, false, false, 0, 0, 0⟩ }

/-- Storage for N = 4: `T` = 1, 2, 3, 4, the tables of the spec's examples, `S0` with magnitudes 1, 1/2, 1/4 and phases
3, 2, 1, the other frames 4 times as large with phase 0, a phase vocoder history of zeros.
The blocks are stored from the highest address down, which the kernel evaluates fastest. -/
def demo : State :=
  let s := { State.reset with csr := csr4, delay := Memory.zeroed }
  let s := s.putWords sphBase [0, 0, 0]
  let s := s.putWords pphBase [0, 0, 0]
  let s := s.putWords pmagBase [0, 0, 0]
  let s := s.putWords driftBase [0, 0]
  let s := s.putWords bandBase [0, 3]
  let s := s.putWords dlenBase [1, 7]
  let s := s.putWords dampBase [f1, fHalf]
  let s := s.putWords maskBase [fHalf, fQuarter]
  let s := s.putWords winBase [0, fHalf, f1, fHalf]
  let s := s.putWords brBase [0, 2, 1, 3]
  let s := s.putWords twBase [f1, 0, 0, 0xBF800000]
  let s := s.putWords (sBase 3) [f4, 0, f2, 0, f1, 0]
  let s := s.putWords (sBase 2) [f4, 0, f2, 0, f1, 0]
  let s := s.putWords (sBase 1) [f4, 0, f2, 0, f1, 0]
  let s := s.putWords (sBase 0) [f1, f3, fHalf, f2, fQuarter, f1]
  let s := s.putWords zBase [f1, 0, f1, f1, 0, 0, f1, f1]
  s.putWords tBase [f1, f2, f3, f4]

/-- `demo` with other control registers. -/
def demoWith (c : Csrs) : State := { demo with csr := c }

/-- The state an outcome holds, the given one if it holds none. -/
def stateOf (s : State) (o : Host.Outcome State Fault Refusal) : State :=
  match o with
  | .next t => t
  | _ => s

/-- Whether an outcome is a next state. -/
def isNext (o : Host.Outcome State Fault Refusal) : Bool :=
  match o with
  | .next _ => true
  | _ => false

theorem next_of_isNext {o : Host.Outcome State Fault Refusal} (s : State) (h : isNext o = true) :
    o = .next (stateOf s o) := by
  cases o <;> simp_all [isNext, stateOf]

/-- The state after a command. -/
def after (i : Instr) (s : State) : State := stateOf s (exec i s)

/-- The state after the host's next access. -/
def afterEvent (e : HostEvent) (s : State) : State := stateOf s (step { s with pending := [e] })

/-! ## Control, faults and the bus -/

/-- V-CTL-1. -/
theorem test_reset_id_and_status :
    State.reset.memRead 0x00000 = 0x53504331 ∧ State.reset.memRead 0x00002 = 0x00000018 := by decide

/-- V-CTL-2. -/
theorem test_nop_after_reset :
    (afterEvent (.write 1 0) State.reset).memRead 2 = 0x18 ∧ (afterEvent (.write 1 0) State.reset).memRead 6 = 1 := by
  decide

/-- V-CTL-3. -/
theorem test_fftf_after_reset :
    let t := afterEvent (.write 1 0x11000000) State.reset
    t.memRead 3 = 5 ∧ t.memRead 4 = 0x11000000 ∧ t.memRead 2 = 0x1C ∧ t.memRead 6 = 2 := by decide

/-- V-FLT-5. -/
theorem test_illegal_after_reset :
    let t := afterEvent (.write 1 0x03000000) State.reset
    t.memRead 3 = 4 ∧ t.memRead 4 = 0x03000000 := by decide

/-- V-CTL-5, V-CTL-10: the fault of a CFG with a bad size, whatever the rest. -/
theorem test_cfg_bad_size : 
    (([0, 2, 3, 12, 1000, 8192, 0x80000000] : List Word).all fun n =>
      decide ({ Csrs.reset with staged := ⟨n, 0, .hann, 0⟩ }.checkCfg = some ⟨.cfgBadSize, n⟩)) = true := by decide +kernel

/-- V-CTL-7. -/
theorem test_cfg_bad_hop : 
    (([0, 0xFFFFFFFF, 257] : List Word).all fun h =>
      decide ({ Csrs.reset with staged := ⟨256, h, .hann, f1⟩ }.checkCfg = some ⟨.cfgBadHop, h⟩)) = true := by decide +kernel

/-- V-CTL-9. -/
theorem test_cfg_bad_rate : 
    (([0x00000000, 0x80000000, 0xBF800000, 0x7F800000, 0x7FC00000] : List Word).all fun f =>
      decide ({ Csrs.reset with staged := ⟨256, 64, .hann, f⟩ }.checkCfg = some ⟨.cfgBadRate, f⟩)) = true := by decide +kernel

/-- V-FLT-1, V-FLT-3: the record of a length mismatch, and the return from it. -/
theorem test_length_mismatch :
    let s := demoWith { csr4 with active := ⟨1024, 256, .hann, f1⟩, tags := ⟨0, 0, #v[512, 0, 0, 0]⟩ }
    let t := after (.pv 1 0) s
    t.csr.errCode = 3 ∧ t.csr.errInfo = 0x00020004 ∧ t.csr.ipWord = 2 ∧
      (afterEvent (.write 6 2) t).csr.errCode = 0 ∧ (afterEvent (.write 6 2) t).csr.err = false := by decide +kernel

/-- V-FLT-4: MSK checks `rs1` first. -/
theorem test_msk_checks_in_order :
    let c := fun a b => demoWith { csr4 with tags := ⟨0, 0, #v[a, b, 0, 0]⟩ }
    (after (.msk 2 0 1) (c 3 0)).csr.errInfo = 5 ∧ (after (.msk 2 0 1) (c 0 0)).csr.errInfo = 4 := by decide +kernel

/-- V-CTL-14: illegal enum values are ignored, no dirty bit is set. -/
theorem test_enum_writes_ignored : ∀ e ∈ ([(0x0A, 3), (0x30, 3), (0x21, 12), (0x22, 4)] : List (Nat × Word)),
    csr4.write e.1 e.2 = csr4 := by decide

/-- R73: the last pair of a frame register exists, the next one reads 0 and ignores writes. -/
theorem test_frame_register_end :
    (afterEvent (.write 0x05001 f3) demo).memRead 0x05001 = f3 ∧ afterEvent (.write 0x05002 f3) demo = demo ∧
      demo.memRead 0x05002 = 0 := by decide +kernel

/-- R73: a table is read-only to the host. -/
theorem test_table_read_only :
    afterEvent (.write 0x0F001 f3) demo = demo ∧ demo.memRead 0x0F001 = fHalf := by decide +kernel

/-- R380: a hard reset while a command runs. -/
theorem test_hard_reset : (afterEvent .hardReset { demo with inFlight := some ⟨.win, csr4, 3⟩ }).status = 0x18 := by
  decide

/-! ## Commands -/

/-- R139: RESET #2 clears the quantizer's registers and leaves the write index. -/
theorem test_reset_quantizer :
    let t := after (.reset 2) (demoWith { csr4 with qPrevE := f1, qTrCnt := 3, sdWr := 5 })
    t.csr.qPrevE = 0 ∧ t.csr.qTrCnt = 0 ∧ t.csr.qFirst = true ∧ t.csr.sdWr = 5 ∧ t.csr.pvFirst = false ∧
      t.word (silBase + 127) = 8 := by decide +kernel

/-- V-FFT-11. -/
theorem test_win : (after .win demo).words tBase 4 = [0, f1, f3, f2] := by decide +kernel

/-- P1: the twiddle table of CFG for N = 4 is 1, -j, exactly. -/
theorem test_twiddles : csr4.env.twTable = [⟨f1, 0⟩, ⟨0, 0xBF800000⟩] := by decide +kernel

/-- V-FFT-1: the transform of 1, 2, 3, 4 is 10, -2 + 2j, -2, -2 - 2j. -/
theorem test_fftf : (after .fftf demo).complexes zBase 4 =
    [⟨0x41200000, 0⟩, ⟨0xC0000000, f2⟩, ⟨0xC0000000, 0⟩, ⟨0xC0000000, 0xC0000000⟩] := by decide +kernel

/-- V-FFT-1: the inverse transform gives the frame back. -/
theorem test_ffti : (after .ffti (after .fftf demo)).words tBase 4 = [f1, f2, f3, f4] := by decide +kernel

/-- V-STFT-4: a zero bin has magnitude and phase 0, and the destination's tag is set. -/
theorem test_polar_zero :
    let t := after (.polar 1) (demo.putWords zBase (List.replicate 8 0))
    t.frame 1 3 = [⟨0, 0⟩, ⟨0, 0⟩, ⟨0, 0⟩] ∧ t.csr.tags.s[1] = 3 := by decide +kernel

/-- R191: STFTF windows the frame in `T` and sets `ZLEN` and the destination's tag (a silent frame). -/
theorem test_stftf_silence :
    let t := after (.stftf 2)
      { demo.putWords tBase (List.replicate 4 0) with csr := { csr4 with tags := ⟨4, 0, #v[0, 0, 0, 0]⟩ } }
    t.csr.tags = ⟨4, 4, #v[0, 0, 3, 0]⟩ ∧ t.frame 2 3 = [⟨0, 0⟩, ⟨0, 0⟩, ⟨0, 0⟩] := by decide +kernel

/-- R203: the first call passes the frame through and seeds the history. -/
theorem test_pv_first_call :
    let t := after (.pv 1 0) (demoWith { csr4 with pvFirst := true, shiftHz := f4, lockEn := true })
    t.frame 1 3 = demo.frame 0 3 ∧ t.words sphBase 3 = [f3, f2, f1] ∧ t.csr.pvFirst = false := by decide +kernel

/-- R204, R209: a later call passes the magnitudes through and stores the phases it used. -/
theorem test_pv_later_call :
    let t := after (.pv 1 0) demo
    (t.frame 1 3).map Bin.mag = [f1, fHalf, fQuarter] ∧ t.words pphBase 3 = [f3, f2, f1] := by decide +kernel

/-- R227, R229: a shift by one bin width moves every bin up by one and drops the last. -/
theorem test_fsh : (after (.fsh 1 0) (demoWith { csr4 with shiftHz := f1 })).frame 1 3 =
    [⟨0, 0⟩, ⟨f1, f3⟩, ⟨fHalf, f2⟩] := by decide +kernel

/-- V-FSH-3: a shift by half a bin rounds up, by minus half a bin to none. -/
theorem test_fsh_half :
    (after (.fsh 1 0) (demoWith { csr4 with shiftHz := fHalf })).mag 1 1 = f1 ∧
      (after (.fsh 1 0) (demoWith { csr4 with shiftHz := 0xBF000000 })).mag 1 1 = fHalf := by decide +kernel

/-- R247, R248: the Nyquist bin is not read. -/
theorem test_envc :
    let t := after (.envc 0) demo
    t.word envBase = f1 ∧ t.word (envBase + 3) = fHalf ∧ t.word (envBase + 1) = 0 := by decide +kernel

/-- V-QNT-5: strength 0 copies and touches no history. -/
theorem test_qnt_strength_zero :
    let t := after (.qnt 1 0) demo
    t.frame 1 3 = [⟨f1, f3⟩, ⟨fHalf, f2⟩, ⟨0, 0⟩] ∧ t.csr.qFirst = true ∧ t.csr.qPrevE = 0 := by decide +kernel

/-- V-QNT-6: the effective strength over the eight frames of a ramp, strength 1 and amount 1. -/
theorem test_qnt_ramp :
    [8, 7, 6, 5, 4, 3, 2, 1].map (fun c => csr4.env.effStrength f1 f1 (csr4.env.rampFactor c)) =
      [0x3F400000, fHalf, fQuarter, 0, fQuarter, fHalf, 0x3F400000, f1] := by decide +kernel

/-- V-QNT-10: the major scale on C, notes 60 to 71. -/
theorem test_scale : ((List.range 12).filter fun n => { csr4 with quant := ⟨0, 0, 1, false, false, 0, 0, 0⟩ }.inScl (60 + n)) =
    [0, 2, 4, 5, 7, 9, 11] := by decide +kernel

/-- V-QNT-2, V-QNT-3: the accumulator of note 95 on this hardware, in millionths, over eight frames from the phase 0.5. -/
theorem test_quantizer_accumulator :
    let E : Env Word := ⟨hwNum, Params.spc, 256, 64, 0x45FA0000⟩
    let acc := fun i => f32Fix ((E.accNext 95)^[i] fHalf)
    [(1, -729835), (2, -1959671), (3, 3093680), (4, 1863844), (5, 634009), (6, -595826), (7, -1825661),
      (8, -3055497)].all (fun (v : Nat × Int) => (acc v.1 * 1000000 - v.2 * 2 ^ 149).natAbs ≤ 10 * 2 ^ 149) = true := by
  decide +kernel

/-- Whatever `sin`, `cos`, `arg`, `log2` and `exp2` are, the correctly rounded operations of R323 in the order of R325 leave the
phase of bin 2000 (N 4096, HOP 1024, FS 44100, input phase 0.1, history 0, no shift) more than 9e-5 from the reference value,
which by R210 is the input phase: the contract of R326 (d) is not met there by any binary32 record of R323 (log 26). -/
theorem test_phase_of_many_turns (sin cos log2 exp2 : Word → Word) (arg : Word → Word → Word) :
    let num := { hwNum with sin := sin, cos := cos, arg := arg, log2 := log2, exp2 := exp2 }
    let E : Env Word := ⟨num, Params.spc, 4096, 1024, 0x472C4400⟩
    9 * 2 ^ 149 < (f32Fix (E.synthPhase 2000 0 0x3DCCCCCD 0 0) - f32Fix 0x3DCCCCCD) * 100000 := by
  intro num E
  have h : E.synthPhase 2000 0 0x3DCCCCCD 0 0 =
      (⟨hwNum, Params.spc, 4096, 1024, 0x472C4400⟩ : Env Word).synthPhase 2000 0 0x3DCCCCCD 0 0 := by
    simp only [E, num, Env.synthPhase, Env.phaseInc, Env.instFreq, Env.deviation, Env.expect, Env.binfreq, Env.wrap, Env.twoPi,
      Env.two, Env.nat]
  rw [h]
  clear h E num
  decide +kernel

/-- V-MSK-4: width 0 gives mask 1 everywhere, and the dirty bit is cleared. -/
theorem test_mskb_pass_through :
    let t := after .mskb (demoWith { csr4 with mask := ⟨.bandPass, f1, f2, 0⟩, maskDirty := true })
    t.words maskBase 2 = [f1, f1] ∧ t.csr.maskDirty = false := by decide +kernel

/-- R282: where the quotient of a frequency by the cutoff is too small for binary32 its logarithm is that of the two. -/
theorem test_mask_tiny_quotient :
    csr4.env.logRatio 0x33D6BF95 0x7F61B1E6 = f32Sub (f32Log2 0x33D6BF95) (f32Log2 0x7F61B1E6) := by
  have h : f32Le (f32Div 0x33D6BF95 0x7F61B1E6) 0 = true := by decide +kernel
  simp only [Env.logRatio, env_num, hwNum_le, hwNum_div, env_zero, h, if_true]
  rfl

/-- R324: a conversion outside the 32-bit range gives the nearer end of the range, also inside `wrap`. -/
theorem test_conversion_saturates :
    hwNum.ceil 0x53800000 = 2147483647 ∧ hwNum.floor 0xD3800000 = -2147483648 := by decide

/-- V-MSK-5: a mask of exactly one half takes the wet phase, below it the dry phase. -/
theorem test_msk :
    (after (.msk 3 0 1) demo).frame 3 3 = [⟨0x40200000, f3⟩, ⟨0x3FD00000, 0⟩, ⟨0, 0⟩] := by decide +kernel

/-- V-SDL-7: delay time 0 gives length 1 for every bin. -/
theorem test_sdlp_lower_clamp :
    let t := after .sdlp (demoWith { csr4 with sdDirty := true })
    t.words dlenBase 2 = [1, 1] ∧ t.words dampBase 2 = [f1, f1] ∧ t.csr.sdDirty = false := by decide +kernel

/-- V-SDL-3, first call, then a second one that meets the delayed frame in bin 0 (delay 1). -/
theorem test_sdl :
    let c := { csr4 with delay := ⟨0, 0, fHalf, 0, fHalf, f2⟩ }
    let t := after (.sdl 1 0) (demoWith c)
    let u := after (.sdl 1 0) t
    t.frame 1 3 = [⟨fHalf, 0x3FC00000⟩, ⟨fQuarter, f1⟩, ⟨0, 0⟩] ∧ t.csr.sdWr = 1 ∧
      u.frame 1 1 = [⟨0x3FC00000, f3⟩] ∧ u.delayBin 0 1 = ⟨0x3FC00000, f3⟩ := by decide +kernel

/-! ## Witnesses: for every statement with hypotheses, a state and operands that meet them -/

/-- A state in which the host's next access is `e`. -/
def facing (e : HostEvent) (s : State) : State := { s with pending := [e] }

/-- A state in which a WIN is in flight for two more accesses. -/
def busy : State := { demo with inFlight := some ⟨.win, csr4, 2⟩ }

theorem demo_configured : csr4.Configured :=
  ⟨rfl, by decide, by decide, by decide +kernel, by decide, by decide, by decide⟩

/-- `demo` with other control registers that keep the configuration is configured. -/
theorem configured_of_same {c : Csrs} (hok : c.cfgOk = true) (ha : c.active = csr4.active)
    (hd : c.sdDepth = csr4.sdDepth) (hw : c.sdWr = csr4.sdWr) : c.Configured := by
  obtain ⟨-, h1, h2, h3, h4, h5, h6⟩ := demo_configured
  exact ⟨hok, ha ▸ h1, ha ▸ h2, ha ▸ h3, hd ▸ h4, hd ▸ h5, by rw [hd, hw]; exact h6⟩

theorem demo_wf : demo.Wf where
  mem := by decide +kernel
  memFill := rfl
  delay := rfl
  delayFill := fun _ => rfl
  config := fun _ => demo_configured.legal
  record := ⟨fun h => (by cases h), fun _ => ⟨rfl, rfl⟩⟩
  ramp := by decide
  scale := by decide
  flight := fun _ h => (by cases h)

theorem facing_wf {e : HostEvent} {s : State} (h : s.Wf) : (facing e s).Wf :=
  ⟨h.mem, h.memFill, h.delay, h.delayFill, h.config, h.record, h.ramp, h.scale, h.flight⟩

/-- A command that has passed its checks may be in flight in a well-formed state. -/
theorem flight_wf {c : InFlight} {s : State} (h : s.Wf) (he : s.csr.err = false)
    (hi : c.latched.issueFault c.instr = none) (hs : c.latched.SameReadOnly s.csr) :
    ({ s with inFlight := some c } : State).Wf :=
  ⟨h.mem, h.memFill, h.delay, h.delayFill, h.config, h.record, h.ramp, h.scale,
    fun d hd => by obtain rfl := Option.some.inj hd; exact ⟨he, hi, hs⟩⟩

/-- Other control registers keep a state without a command in flight well-formed if they keep the configuration. -/
theorem wf_of_same {c : Csrs} {s : State} (h : s.Wf) (hs : s.csr.cfgOk = true) (hf : s.inFlight = none)
    (hc : c.Configured) (hr : c.RecordLegal) (ht : c.qTrCnt.toNat ≤ 8) (hq : c.quant.scale.toNat < 4) :
    ({ s with csr := c } : State).Wf :=
  ⟨h.mem, h.memFill, h.delay, fun _ => h.delayFill hs, fun _ => hc.legal, hr, ht, hq,
    fun k hk => by simp [hf] at hk⟩

theorem witness_DecodeEncodeAgree : decode 0x25333000 = .ok (.msk 3 3 3) := by decide

theorem witness_DecodeFollowsOpcodeMap :
    (⟨0x27, .ds⟩ : OpRow) ∈ opMap ∧ (⟨0x27, .ds⟩ : OpRow).accepts 0x27330000 = true := by decide

theorem witness_IllegalWordFaults :
    let s := facing (.write 0x00001 0x03000000) State.reset
    s.inFlight = none ∧ s.csr.err = false ∧ s.pending = [.write 0x00001 0x03000000] ∧
      decode 0x03000000 = .error .unassignedOp := by decide

theorem witness_StepRunsDecodedInstruction :
    let s := { facing (.write 0x00001 0x10000000) demo with overlap := [0, 5] }
    s.inFlight = none ∧ s.csr.err = false ∧ s.pending = [.write 0x00001 0x10000000] ∧
      decode 0x10000000 = .ok .win ∧ s.overlap.headD 0 = 0 := by decide +kernel

/-- Each clause at the boundary of the control registers. -/
theorem witness_BusyAccessesStallOrPass :
    busy.inFlight = some ⟨.win, csr4, 2⟩ ∧ 0x100 ≤ (0x00100 : WordAddr).toNat ∧
      (facing (.read 0x00100) busy).pending = [.read 0x00100] ∧
      (facing (.write 0x00001 7) busy).pending = [.write 0x00001 7] ∧ (0x000FF : WordAddr).toNat < 0x100 ∧
      (0x000FF : WordAddr) ≠ 0x00001 ∧ (0x00000 : WordAddr).toNat < 0x100 ∧ 0 < (2 : Nat) := by decide +kernel

/-- A command that is issued, and one whose check fails at issue. -/
theorem witness_SplitCommandRefinesMerged :
    let s := { facing (.write 0x00001 0x10000000) demo with
      pending := [.write 0x00001 0x10000000, .read 0x01000], overlap := [3] }
    let u := { facing (.write 0x00001 0x10000000) (demoWith { csr4 with tags := ⟨0, 0, #v[0, 0, 0, 0]⟩ }) with overlap := [3] }
    s.inFlight = none ∧ s.csr.err = false ∧ decode 0x10000000 = .ok .win ∧ s.overlap = 3 :: [] ∧
      s.csr.issueFault .win = none ∧ (HostEvent.read 0x01000).stalls = true ∧
      u.inFlight = none ∧ u.csr.err = false ∧ u.overlap = 3 :: [] ∧
      u.csr.issueFault .win = some ⟨.lenMismatch, 0⟩ := by decide +kernel

theorem witness_LatchedParameters :
    ∃ t, exec .win { demo with inFlight := some ⟨.win, csr4, 0⟩, csr := Csrs.reset } = .next t :=
  ⟨_, next_of_isNext demo (by decide +kernel)⟩

theorem witness_DiscardWhileFaulted :
    let s := facing (.write 0x00001 0x01000000) { State.reset with csr := { Csrs.reset with err := true, errCode := 4 } }
    (s.inFlight = none ∧ s.csr.err = true ∧ s.pending = [.write 0x00001 0x01000000]) ∧
      (0x00006 : WordAddr) ≠ 0x00001 ∧ (facing (.write 0x00006 2) s).pending = [.write 0x00006 2] ∧
      (facing (.read 0x00003) s).pending = [.read 0x00003] := by decide

/-- One command for each fault that a command raises. -/
theorem witness_FaultEntry :
    demo.inFlight = none ∧ (demoWith { csr4 with staged := ⟨2, 1, .hann, f1⟩ }).csr.issueFault .cfg = some ⟨.cfgBadSize, 2⟩ ∧
      (demoWith { csr4 with staged := ⟨4, 5, .hann, f1⟩ }).csr.issueFault .cfg = some ⟨.cfgBadHop, 5⟩ ∧
      (demoWith { csr4 with staged := ⟨4, 4, .hann, 0⟩ }).csr.issueFault .cfg = some ⟨.cfgBadRate, 0⟩ ∧
      (demoWith { csr4 with tags := ⟨0, 0, #v[0, 0, 0, 0]⟩ }).csr.issueFault .ffti = some ⟨.lenMismatch, 1⟩ ∧
      State.reset.csr.issueFault .mskb = some ⟨.notConfigured, 0x24000000⟩ := by decide +kernel

theorem witness_CommandsNeedConfiguration :
    Instr.reset 0 ≠ .nop ∧ Instr.reset 0 ≠ .cfg ∧ State.reset.inFlight = none ∧ State.reset.csr.cfgOk = false := by
  decide

theorem witness_LengthChecks :
    let p := { csr4 with active := ⟨1024, 256, .hann, f1⟩, tags := ⟨0, 0, #v[512, 0, 0, 0]⟩ }
    p.cfgOk = true ∧ p.active.n = 1024 ∧ p.tags.s[(0 : SReg)] = 512 := ⟨rfl, rfl, rfl⟩

/-- Each clause at a boundary: the size above the largest, the hop above the size, the rate 0. -/
theorem witness_CfgRejectsBadConfiguration :
    demo.inFlight = none ∧ (8192 : Word).toNat ∉ [4, 8, 16, 32, 64, 128, 256, 512, 1024, 2048, 4096] ∧
      (4096 : Word).toNat ∈ [4, 8, 16, 32, 64, 128, 256, 512, 1024, 2048, 4096] ∧
      ¬ (0 < (4097 : Word).toInt ∧ (4097 : Word).toInt ≤ (4096 : Word).toNat) ∧
      (0 < (4096 : Word).toInt ∧ (4096 : Word).toInt ≤ (4096 : Word).toNat) ∧
      ¬ (f32Finite 0 = true ∧ 0 < f32Fix 0) := by decide +kernel

/-- The word that clears `DONE` alone and the one that is the return from the fault. -/
theorem witness_ReturnFromFault :
    let s := fun v => facing (.write 0x00006 v) { State.reset with csr := { Csrs.reset with err := true, errCode := 4 } }
    (s 1).inFlight = none ∧ (s 1).pending = [.write 0x00006 1] ∧ (s 2).pending = [.write 0x00006 2] ∧
      (1 : Word).getLsbD 1 = false ∧ (2 : Word).getLsbD 1 = true := by decide

/-- V-FLT-6: a write to `IP` with bit 0 alone leaves the fault recorded. -/
theorem test_done_cleared_alone :
    let t := afterEvent (.write 6 1) (demoWith { csr4 with ipDone := true, err := true, errCode := 3, errInfo := 4 })
    t.csr.ipWord = 2 ∧ t.csr.errCode = 3 ∧ t.csr.errInfo = 4 := by decide

/-- `DONE` set, by the completion of a command in flight and by a command that runs at once, both from well-formed states. -/
theorem witness_DoneAndErrChangeOnlyByRule_sets :
    let s := { demo with inFlight := some ⟨.nop, csr4, 0⟩ }
    let u := facing (.write 0x00001 0x00000000) demo
    (s.Wf ∧ s.csr.ipDone = false ∧ ∃ t, step s = .next t ∧ t.csr.ipDone = true) ∧
      u.Wf ∧ u.csr.ipDone = false ∧ ∃ t, step u = .next t ∧ t.csr.ipDone = true :=
  ⟨⟨flight_wf demo_wf rfl rfl ⟨rfl, rfl, rfl, rfl, rfl, rfl, rfl, rfl⟩, rfl, _, next_of_isNext demo (by decide +kernel), by decide +kernel⟩,
    facing_wf demo_wf, rfl, _, next_of_isNext demo (by decide +kernel), by decide +kernel⟩

/-- One step for each clause: `DONE` cleared, `ERR` cleared, `ERR` set, all from well-formed states. -/
theorem witness_DoneAndErrChangeOnlyByRule :
    let s := facing (.write 0x00006 3) (demoWith { csr4 with ipDone := true, err := true, errCode := 3 })
    let u := facing (.write 0x00001 0x03000000) demo
    (s.csr.ipDone = true ∧ s.csr.err = true ∧ ∃ t, step s = .next t ∧ t.csr.ipDone = false ∧ t.csr.err = false) ∧
      u.csr.err = false ∧ ∃ t, step u = .next t ∧ t.csr.err = true :=
  ⟨⟨rfl, rfl, _, rfl, rfl, rfl⟩, rfl, _, rfl, rfl⟩

theorem witness_DoneAndErrChangeOnlyByRule_wf :
    (facing (.write 0x00006 3) (demoWith { csr4 with ipDone := true, err := true, errCode := 3 })).Wf ∧
      (facing (.write 0x00001 0x03000000) demo).Wf :=
  ⟨facing_wf (wf_of_same demo_wf rfl rfl (configured_of_same rfl rfl rfl rfl)
      ⟨fun _ => ⟨by decide, by decide⟩, fun h => (by cases h)⟩ (by decide) (by decide)), facing_wf demo_wf⟩

theorem witness_HardReset : (facing .hardReset busy).pending = [.hardReset] := rfl

/-- The first and the last address of every range of the map. -/
theorem witness_HostReads :
    demo.inFlight = none ∧ (∀ a, (facing (.read a) demo).pending = [.read a]) ∧
      ([0x00000, 0x000FF, 0x00100, 0x00FFF, 0x01000, 0x03FFF, 0x04000, 0x05001, 0x05002, 0x0BFFF, 0x0C000, 0x0CFFF,
        0x0D000, 0x0DFFF, 0x0E000, 0x127FF, 0x12800, 0x12FFF, 0x13000, 0x1612F, 0x16130, 0x1FFFF] : List Nat).all
          (fun a => (BitVec.ofNat 17 a).toNat == a) = true := ⟨rfl, fun _ => rfl, by decide +kernel⟩

/-- The first and the last writable address of each range, and one that ignores the write. -/
theorem witness_HostStorageWrites :
    demo.inFlight = none ∧ (∀ a v, (facing (.write a v) demo).pending = [.write a v]) ∧
      ([0x00100, 0x01000, 0x03FFF, 0x04000, 0x05001, 0x05002, 0x12000, 0x127FF, 0x12800] : List Nat).all
          (fun a => decide (0x100 ≤ (BitVec.ofNat 17 a).toNat)) = true := ⟨rfl, fun _ _ => rfl, by decide +kernel⟩

/-- Offsets of each clause from the statement's own lists, and enum values on both sides of the bound. -/
theorem witness_RegisterWrites :
    0x3D ∈ [0x08, 0x09, 0x0B, 0x10, 0x11, 0x12, 0x13, 0x14, 0x15, 0x18, 0x20, 0x24, 0x25, 0x26, 0x31, 0x32, 0x33, 0x38,
        0x39, 0x3A, 0x3B, 0x3C, 0x3D] ∧ 0x18 ≠ 0x3D ∧ 0x18 ≠ 0x02 ∧
      (0x30, 3) ∈ [(0x0A, 3), (0x21, 12), (0x22, 4), (0x30, 3)] ∧ (2 : Word).toNat < 3 ∧ ¬ (3 : Word).toNat < 3 ∧
      (0x23, 3) ∈ [(0x05, 3), (0x19, 1), (0x23, 3)] ∧
      0x02 ∉ [0x01, 0x05, 0x06, 0x08, 0x09, 0x0A, 0x0B, 0x10, 0x11, 0x12, 0x13, 0x14, 0x15, 0x18, 0x19, 0x20, 0x21, 0x22,
        0x23, 0x24, 0x25, 0x26, 0x30, 0x31, 0x32, 0x33, 0x38, 0x39, 0x3A, 0x3B, 0x3C, 0x3D] ∧ 0x05 ≠ 0x06 := by decide

theorem witness_CommandsKeepConfiguration :
    ∃ t, exec .win demo = .next t ∧ Instr.win ≠ .cfg ∧ (∀ imm3, Instr.win ≠ .reset imm3) ∧
      ∀ rd rs1, Instr.win ≠ .sdl rd rs1 :=
  ⟨_, next_of_isNext demo (by decide +kernel), by decide, fun _ h => (by cases h), fun _ _ h => (by cases h)⟩

theorem witness_CommandsWriteOnlyTheirBlocks : ∃ t, exec (.msk 3 0 1) demo = .next t :=
  ⟨_, next_of_isNext demo (by decide +kernel)⟩

theorem witness_StepKeepsWellFormed :
    (facing (.write 0x00001 0x10000000) demo).Wf ∧
      ∃ t, step (facing (.write 0x00001 0x10000000) demo) = .next t :=
  ⟨facing_wf demo_wf, _, next_of_isNext demo (by decide +kernel)⟩

/-! ### Commands -/

theorem witness_ResetClearsNamedUnits : demo.params.Configured := demo_configured

/-- Hard reset's state with N = 4, HOP = 1, FS = 4 staged. -/
def stagedCsr : Csrs := { Csrs.reset with staged := ⟨4, 1, .hann, f4⟩ }

/-- The free values of sine and cosine, small as R326 (d) bounds them, leave every twiddle and window entry finite. -/
theorem staged_finite : allFinite (stagedCsr.cfgReals stagedCsr.stagedEnv) := by
  have hc : ∀ k, k < 4 → f32Finite (stagedCsr.stagedEnv.windowAngle k) = true ∧
      (cosRef (stagedCsr.stagedEnv.windowAngle k)).natAbs < 2 ^ 150 := by decide +kernel
  have hs : ∀ k, k < 2 → f32Finite (stagedCsr.stagedEnv.angle k) = true ∧
      (cosRef (stagedCsr.stagedEnv.angle k)).natAbs < 2 ^ 150 ∧
      (sinRef (stagedCsr.stagedEnv.angle k)).natAbs < 2 ^ 150 := by decide +kernel
  have hhalf : stagedCsr.stagedEnv.half = 0x3F000000 := by decide +kernel
  have hh : Machine.Small 152 0x3F000000 := by unfold Machine.Small; decide +kernel
  rw [cfgReals_spc _ rfl]
  simp only [allFinite_append, and_assoc]
  refine ⟨List.all_eq_true.1 (by decide +kernel), ?_, ?_, List.all_eq_true.1 (by decide +kernel),
    List.all_eq_true.1 (by decide +kernel), List.all_eq_true.1 (by decide +kernel)⟩
  · refine allFinite_cxWords.2 fun z hz => ?_
    simp only [Env.twTable, tabulate, List.mem_map, List.mem_range] at hz
    obtain ⟨k, hk, rfl⟩ := hz
    obtain ⟨h1, h2, h3⟩ := hs k hk
    exact ⟨(small_cos h1 h2).1, (small_sub (small_zero 152) (small_sin h1 h3) (by omega) (by omega)).1⟩
  · refine allFinite_tabulate.2 fun k hk => ?_
    obtain ⟨h1, h2⟩ := hc k hk
    have hm := small_mul hh (small_cos h1 h2) 160 (by omega) (by omega) (by omega)
    show f32Finite (f32Sub stagedCsr.stagedEnv.half
      (f32Mul stagedCsr.stagedEnv.half (f32Cos (stagedCsr.stagedEnv.windowAngle k)))) = true
    rw [hhalf]
    exact (small_sub (hh.mono (by omega)) hm (by omega) (by omega)).1

theorem staged_params_finite : allFinite (stagedCsr.maskParams ++ stagedCsr.delayParams) :=
  List.all_eq_true.1 (by decide +kernel)

theorem witness_CfgBuildsConfiguration :
    let s := { State.reset with csr := stagedCsr }
    let p := s.params
    sizeOk p.staged.fftSize.toNat = true ∧ hopOk p.staged.fftSize.toNat p.staged.hop.toInt = true ∧
      rateOk p.staged.sampleRate = true ∧ allFinite (p.maskParams ++ p.delayParams) ∧
      allFinite (p.cfgReals p.stagedEnv) :=
  ⟨by decide, by decide, by decide +kernel, staged_params_finite, staged_finite⟩

theorem step_facing {s : State} {w : Word} {i : Instr} (h : s.inFlight = none) (he : s.csr.err = false)
    (ho : s.overlap = []) (hw : decode w = .ok i) :
    step (facing (.write 0x00001 w) s) = exec i { s with pending := [] } := by
  simp [step, advance, State.plan, facing, State.serve, State.command, cmdAddr, h, he, ho, hw]

theorem cfg_sets_cfgOk (s : State) (p : Csrs) (depth : Nat) : (s.activate p depth).complete.csr.cfgOk = true := rfl

/-- The step that runs CFG, from a well-formed state that is not configured. -/
theorem witness_StepKeepsTables :
    let s := facing (.write 0x00001 0x01000000) { State.reset with csr := stagedCsr }
    s.Wf ∧ s.csr.cfgOk = false ∧ ∃ t, step s = .next t ∧ t.csr.cfgOk = true := by
  refine ⟨facing_wf ⟨rfl, rfl, rfl, fun h => (by cases h), fun h => (by cases h),
    ⟨fun h => (by cases h), fun _ => ⟨rfl, rfl⟩⟩, by decide, by decide, fun _ h => (by cases h)⟩, rfl, ?_⟩
  have hx := exec_completes_hw (i := .cfg) (s := { State.reset with csr := stagedCsr, pending := [] })
    (by decide +kernel) (cfgEffect_spc _ _) (allFinite_append.2 ⟨staged_params_finite, staged_finite⟩)
  exact ⟨_, (step_facing rfl rfl rfl (by decide)).trans hx, cfg_sets_cfgOk _ _ _⟩

theorem witness_WinAppliesWindow :
    demo.params.Configured ∧ demo.params.tags.t = demo.params.active.n ∧
      ∀ k, k < demo.params.env.n → f32Finite (demo.word (tBase + k)) = true ∧
        f32Finite (demo.word (winBase + k)) = true ∧
        f32Finite (f32Mul (demo.word (tBase + k)) (demo.word (winBase + k))) = true :=
  ⟨demo_configured, rfl, by decide +kernel⟩

theorem witness_FftfTransforms :
    let E := demo.params.env
    let tw := demo.complexes twBase (E.n / 2)
    demo.params.Configured ∧ demo.params.tags.t = demo.params.active.n ∧ allFinite (demo.words tBase E.n) ∧
      allFinite (cxWords tw) ∧
      allFinite (cxWords (E.net tw (demo.nats brBase E.n) false ((demo.words tBase E.n).map fun x => ⟨x, 0⟩))) :=
  ⟨demo_configured, rfl, List.all_eq_true.1 (by decide +kernel), List.all_eq_true.1 (by decide +kernel),
    List.all_eq_true.1 (by decide +kernel)⟩

theorem witness_FftiTransforms :
    let E := demo.params.env
    let tw := demo.complexes twBase (E.n / 2)
    let scale := f32Div 0x3F800000 (f32OfInt E.n)
    demo.params.Configured ∧ demo.params.tags.z = demo.params.active.n ∧
      allFinite (cxWords (demo.complexes zBase E.n)) ∧ allFinite (cxWords tw) ∧
      allFinite (cxWords ((E.net tw (demo.nats brBase E.n) true (demo.complexes zBase E.n)).map
        fun z => (⟨f32Mul scale z.re, f32Mul scale z.im⟩ : Cx Word))) :=
  ⟨demo_configured, rfl, List.all_eq_true.1 (by decide +kernel), List.all_eq_true.1 (by decide +kernel),
    List.all_eq_true.1 (by decide +kernel)⟩

/-- `demo` with a zero spectrum. -/
def silent : State := demo.putWords zBase (List.replicate 8 0)

theorem witness_PolarConverts :
    let re := fun k => silent.word (zBase + 2 * k)
    let im := fun k => silent.word (zBase + 2 * k + 1)
    silent.params.Configured ∧ silent.params.tags.z = silent.params.active.n ∧
      ∀ k, k < silent.params.env.bins → f32Finite (re k) = true ∧ f32Finite (im k) = true ∧
        f32Finite (f32Sqrt (f32Add (f32Mul (re k) (re k)) (f32Mul (im k) (im k)))) = true ∧
        f32Finite (f32Arg (re k) (im k)) = true := ⟨demo_configured, rfl, by decide +kernel⟩

/-- The reals of `demo`'s frames are small, so that the free values of sine and cosine cannot make a product overflow. -/
theorem witness_RectConverts :
    demo.params.Configured ∧ demo.params.tags.s[(1 : SReg)].toNat = demo.params.env.bins ∧
      ∀ k, k < demo.params.env.bins → f32Finite (demo.mag 1 k) = true ∧ f32Finite (demo.ph 1 k) = true ∧
        f32Finite (f32Mul (demo.mag 1 k) (f32Cos (demo.ph 1 k))) = true ∧
        f32Finite (f32Mul (demo.mag 1 k) (f32Sin (demo.ph 1 k))) = true := by
  refine ⟨demo_configured, by decide, fun k hk => ?_⟩
  have hb : ∀ k, k < 3 → f32Finite (demo.mag 1 k) = true ∧ f32Mag (demo.mag 1 k) < 2 ^ 160 ∧
      f32Finite (demo.ph 1 k) = true ∧ (cosRef (demo.ph 1 k)).natAbs < 2 ^ 150 ∧
      (sinRef (demo.ph 1 k)).natAbs < 2 ^ 150 := by decide +kernel
  obtain ⟨h1, h2, h3, h4, h5⟩ := hb k hk
  exact ⟨h1, h3, (small_mul ⟨h1, h2⟩ (small_cos h3 h4) 200 (by omega) (by omega) (by omega)).1,
    (small_mul ⟨h1, h2⟩ (small_sin h3 h5) 200 (by omega) (by omega) (by omega)).1⟩

/-- `demo` with a silent time frame. -/
def quiet : State := demo.putWords tBase (List.replicate 4 0)

theorem witness_StftfIsSequence :
    let E := quiet.csr.env
    let tw := quiet.complexes twBase (E.n / 2)
    let x := List.zipWith f32Mul (quiet.words tBase E.n) (quiet.words winBase E.n)
    let z := E.net tw (quiet.nats brBase E.n) false (x.map fun y => ⟨y, 0⟩)
    quiet.inFlight = none ∧ quiet.csr.Configured ∧ quiet.csr.tags.t = quiet.csr.active.n ∧
      allFinite (quiet.words tBase E.n) ∧ allFinite (quiet.words winBase E.n) ∧ allFinite x ∧ allFinite (cxWords tw) ∧
      allFinite (cxWords z) ∧ allFinite (binWords (E.polarFrame z)) :=
  ⟨rfl, demo_configured, rfl, List.all_eq_true.1 (by decide +kernel), List.all_eq_true.1 (by decide +kernel),
    List.all_eq_true.1 (by decide +kernel), List.all_eq_true.1 (by decide +kernel),
    List.all_eq_true.1 (by decide +kernel), List.all_eq_true.1 (by decide +kernel)⟩

theorem allFinite_of_smallCx {b : Nat} {zs : List (Cx Word)} (h : ∀ z ∈ zs, SmallCx b z) : allFinite (cxWords zs) :=
  allFinite_cxWords.2 fun z hz => ⟨(h z hz).1.1, (h z hz).2.1⟩

/-- The converted frame is small whatever the free values of sine and cosine, and so is what the network makes of it. -/
theorem witness_StftiIsSequence :
    let E := demo.csr.env
    let tw := demo.complexes twBase (E.n / 2)
    let z := E.rectFrame (demo.frame 1 E.bins)
    let y := E.inv tw (demo.nats brBase E.n) z
    let x := List.zipWith f32Mul (y.map Cx.re) (demo.words winBase E.n)
    demo.inFlight = none ∧ demo.csr.Configured ∧ demo.csr.tags.s[(1 : SReg)].toNat = E.bins ∧
      allFinite (binWords (demo.frame 1 E.bins)) ∧ allFinite (cxWords z) ∧ allFinite (cxWords tw) ∧
      allFinite (cxWords y) ∧ allFinite (demo.words winBase E.n) ∧ allFinite x := by
  intro E tw z y x
  have hE : E.num = hwNum := rfl
  have hf : ∀ b ∈ demo.frame 1 E.bins, f32Finite b.mag = true ∧ f32Mag b.mag < 2 ^ 152 ∧ f32Finite b.ph = true ∧
      (cosRef b.ph).natAbs < 2 ^ 150 ∧ (sinRef b.ph).natAbs < 2 ^ 150 := by decide +kernel
  have htw : ∀ z ∈ tw, f32Finite z.re = true ∧ f32Mag z.re < 2 ^ 150 ∧ f32Finite z.im = true ∧
      f32Mag z.im < 2 ^ 150 := by decide +kernel
  have hw : (demo.words winBase E.n).all (fun w => f32Finite w && decide (f32Mag w < 2 ^ 150)) = true := by
    decide +kernel
  have hs : Machine.Small 149 (E.num.div E.one (E.nat E.n)) := by unfold Machine.Small; decide +kernel
  have htw' : ∀ z ∈ tw, SmallCx 150 z := fun z hz =>
    ⟨⟨(htw z hz).1, (htw z hz).2.1⟩, ⟨(htw z hz).2.2.1, (htw z hz).2.2.2⟩⟩
  have hb : ∀ k, SmallCx 156 (E.rectBin (E.binAt (demo.frame 1 E.bins) k)) := by
    intro k
    have : f32Finite (E.binAt (demo.frame 1 E.bins) k).mag = true ∧
        f32Mag (E.binAt (demo.frame 1 E.bins) k).mag < 2 ^ 152 ∧
        f32Finite (E.binAt (demo.frame 1 E.bins) k).ph = true ∧
        (cosRef (E.binAt (demo.frame 1 E.bins) k).ph).natAbs < 2 ^ 150 ∧
        (sinRef (E.binAt (demo.frame 1 E.bins) k).ph).natAbs < 2 ^ 150 := by
      unfold Env.binAt
      rw [List.getD_eq_getElem?_getD]
      rcases hk : (demo.frame 1 E.bins)[k]? with _ | b
      · decide +kernel
      · exact hf b (List.mem_of_getElem? hk)
    exact ⟨small_mul ⟨this.1, this.2.1⟩ (small_cos this.2.2.1 this.2.2.2.1) 155 (by omega) (by omega) (by omega),
      small_mul ⟨this.1, this.2.1⟩ (small_sin this.2.2.1 this.2.2.2.2) 155 (by omega) (by omega) (by omega)⟩
  have hz : ∀ z' ∈ z, SmallCx 158 z' := by
    intro z' hz'
    simp only [z, Env.rectFrame, tabulate, List.mem_map] at hz'
    obtain ⟨p, -, rfl⟩ := hz'
    split
    · exact (hb p).mono (by omega)
    · exact smallCx_conj hE (hb _) (by omega) (by omega)
  have hl : E.log2n = 2 := by decide
  have hy : ∀ y' ∈ y, SmallCx 176 y' := by
    intro y' hy'
    simp only [y, Env.inv, List.mem_map] at hy'
    obtain ⟨v, hv, rfl⟩ := hy'
    have := smallCx_net hE htw' hz (by omega) (by rw [hl]; omega) v hv
    rw [hl] at this
    exact ⟨small_mul hs this.1 175 (by omega) (by omega) (by omega),
      small_mul hs this.2 175 (by omega) (by omega) (by omega)⟩
  refine ⟨rfl, demo_configured, by decide, allFinite_binWords.2 fun b hb => ⟨(hf b hb).1, (hf b hb).2.2.1⟩,
    allFinite_of_smallCx hz, allFinite_of_smallCx htw', allFinite_of_smallCx hy, ?_, ?_⟩
  · intro w h
    have := List.all_eq_true.1 hw w h
    simp only [Bool.and_eq_true] at this
    exact this.1
  · intro v hv
    obtain ⟨i, hi, rfl⟩ := List.mem_iff_getElem.1 hv
    simp only [x, List.getElem_zipWith, List.getElem_map]
    have hwi := List.all_eq_true.1 hw ((demo.words winBase E.n)[i]'(by simp [x] at hi ⊢; omega)) (List.getElem_mem _)
    simp only [Bool.and_eq_true, decide_eq_true_eq] at hwi
    exact (small_mul (hy _ (List.getElem_mem _)).1 ⟨hwi.1, hwi.2⟩ 180 (by omega) (by omega) (by omega)).1

theorem witness_PvFirstCallSeeds :
    let s := demoWith { csr4 with pvFirst := true }
    s.params.Configured ∧ s.params.pvFirst = true ∧ s.params.tags.s[(0 : SReg)].toNat = s.params.env.bins ∧
      ∀ k, k < s.params.env.bins → f32Finite (s.mag 0 k) = true ∧ f32Finite (s.ph 0 k) = true :=
  ⟨configured_of_same rfl rfl rfl rfl, rfl, by decide, by decide +kernel⟩

theorem witness_PvTracksPhases :
    let s := demoWith { csr4 with lockEn := true, shiftHz := f1 }
    let E := s.params.env
    let mags := tabulate E.bins (s.mag 0)
    let phs := tabulate E.bins (s.ph 0)
    let lph := fun k => if s.params.lockEn then phs.getD ((E.lockPeak mags k).getD k) 0 else s.ph 0 k
    let new := fun k => E.synthPhase k s.params.shiftHz (lph k) (s.word (pphBase + k)) (s.word (sphBase + k))
    s.params.Configured ∧ s.params.pvFirst = false ∧ s.params.tags.s[(0 : SReg)].toNat = E.bins ∧
      f32Finite s.params.shiftHz = true ∧
      ∀ k, k < E.bins → f32Finite (s.mag 0 k) = true ∧ f32Finite (s.ph 0 k) = true ∧
        f32Finite (s.word (pphBase + k)) = true ∧ f32Finite (s.word (sphBase + k)) = true ∧
        f32Finite (new k) = true :=
  ⟨configured_of_same rfl rfl rfl rfl, rfl, by decide, by decide, by decide +kernel⟩

theorem witness_FshMovesBins :
    let s := demoWith { csr4 with shiftHz := f1 }
    s.params.Configured ∧ s.params.tags.s[(0 : SReg)].toNat = s.params.env.bins ∧
      f32Finite s.params.shiftHz = true ∧
      f32Finite (f32Div (f32Mul s.params.shiftHz (f32OfInt s.params.env.n)) s.params.active.fs) = true ∧
      ∀ k, k < s.params.env.bins → f32Finite (s.mag 0 k) = true ∧ f32Finite (s.ph 0 k) = true ∧
        f32Finite (movedMag (s.mag 0 k)) = true :=
  ⟨configured_of_same rfl rfl rfl rfl, by decide, by decide, by decide +kernel, by decide +kernel⟩

theorem witness_EnvcCapturesPeaks :
    demo.params.Configured ∧ demo.params.tags.s[(0 : SReg)].toNat = demo.params.env.bins ∧
      ∀ k, k < demo.params.env.lines → f32Finite (demo.mag 0 k) = true :=
  ⟨demo_configured, by decide, by decide +kernel⟩

theorem witness_QntStrengthZeroCopies :
    demo.params.Configured ∧ demo.params.tags.s[(0 : SReg)].toNat = demo.params.env.bins ∧
      f32Finite demo.params.quant.strength = true ∧ f32Fix demo.params.quant.strength ≤ 0 ∧
      ∀ k, k < demo.params.env.lines → f32Finite (demo.mag 0 k) = true ∧ f32Finite (demo.ph 0 k) = true :=
  ⟨demo_configured, by decide, by decide, by decide, by decide +kernel⟩

/-- `demo` in the middle of a transient's ramp with the strength reduced to 0, so that no bin has a note. -/
def ramp : State :=
  State.putWords ((demoWith { csr4 with
    quant := ⟨f1, 0, 0, false, false, 0, 0, f1⟩, qFirst := false, qTrCnt := 5 }).putWords accBase
      (List.replicate 128 0)) silBase (List.replicate 128 8)

theorem ramp_sil {n : Nat} (h : n < 128) : (ramp.nats silBase 128).getD n 0 = 8 := by
  have hw : ramp.word (silBase + n) = 8 := by
    unfold ramp
    rw [putWords_word_inside _ _ _ _ (by rw [List.length_replicate]; exact h)]
    exact List.getElem_replicate _
  have : (ramp.nats silBase 128).getD n 0 = (ramp.word (silBase + n)).toNat := by simp [State.nats, State.words, h]
  rw [this, hw]
  rfl

/-- R258: with the strength reduced to 0 every bin is skipped and no drift value is read, whatever it holds. -/
theorem test_drift_unread :
    let s := State.putWords { ramp with csr := { ramp.csr with quant := { ramp.csr.quant with driftEn := true } } }
      driftBase [0x7FC00000, 0x7FC00000]
    driftBins s.csr.env (s.quantIn 0 s.csr) = [] := by decide +kernel

theorem targetNote_nil {notes : List (Option Nat)} (h : ∀ o ∈ notes, o = none) (o : Merged Word) :
    targetNote notes o = none := by
  unfold targetNote
  rcases o.dom with _ | k
  · rfl
  · simp only [Option.bind_some, List.getD_eq_getElem?_getD]
    rcases hk : notes[k]? with _ | v
    · rfl
    · simpa using h v (List.mem_of_getElem? hk)

theorem ramp_targets : ramp.params.env.quantTargets (ramp.quantIn 0 ramp.params) = [none, none] := by decide +kernel

theorem ramp_notes : ∀ o ∈ ramp.params.env.quantNotes (ramp.quantIn 0 ramp.params), o = none := by
  simp [Env.quantNotes, ramp_targets]

theorem ramp_noteTargets (n : Nat) : noteTargets (ramp.params.env.quantNotes (ramp.quantIn 0 ramp.params))
    (ramp.params.env.quantMerged (ramp.quantIn 0 ramp.params)) n = [] := by
  simp [noteTargets, targetNote_nil ramp_notes]

theorem ramp_silent : ramp.params.env.sounds [] = false := by decide +kernel

/-- In the silent ramp no accumulator advances. -/
theorem ramp_accNotes : accNotes ramp.params.env (ramp.quantIn 0 ramp.params) = [] := by
  refine List.filter_eq_nil_iff.2 fun n hn => ?_
  have h8 : (ramp.quantIn 0 ramp.params).sil.getD n 0 = 8 := ramp_sil (List.mem_range.1 hn)
  simp only [ramp_noteTargets, Env.advances, ramp_silent, h8]
  decide

theorem ramp_reads : ∀ d ∈ ramp.quantReads 0 ramp.params, f32Finite d.word = true := by
  intro d hd
  rcases List.mem_append.1 hd with hd | hd
  · exact (List.all_eq_true (p := fun d : Datum Word => f32Finite d.word)).1 (by decide +kernel) d hd
  · obtain ⟨n, hn, -⟩ := List.mem_map.1 hd
    exact absurd (ramp_accNotes ▸ (hn : n ∈ accNotes ramp.params.env (ramp.quantIn 0 ramp.params))) (List.not_mem_nil)

theorem witness_QntQuantizes :
    let p := ramp.params
    let E := p.env
    p.Configured ∧ p.tags.s[(0 : SReg)].toNat = E.bins ∧ 0 < f32Fix p.quant.strength ∧
      (∀ d ∈ ramp.quantReads 0 p, f32Finite d.word = true) ∧ allFinite (quantReals E (ramp.quantIn 0 p)) := by
  intro p E
  refine ⟨configured_of_same rfl rfl rfl rfl, by decide, by decide, ?_, ?_⟩
  · exact ramp_reads
  have hT : E.quantTargets (ramp.quantIn 0 p) = [none, none] := ramp_targets
  have hn : ∀ o ∈ E.quantNotes (ramp.quantIn 0 p), o = none := ramp_notes
  have ha : ∀ n, noteTargets (E.quantNotes (ramp.quantIn 0 p)) (E.quantMerged (ramp.quantIn 0 p)) n = [] := ramp_noteTargets
  have hz : E.sounds [] = false := ramp_silent
  have hh : ∀ v ∈ E.quantHistory (ramp.quantIn 0 p), v.1 = 0 := by
    intro v hv
    simp only [Env.quantHistory, tabulate, List.mem_map, List.mem_range] at hv
    obtain ⟨n, hn', rfl⟩ := hv
    have hn' : n < 128 := hn'
    have h8 : (ramp.quantIn 0 p).sil.getD n 0 = 8 := ramp_sil hn'
    simp only [Env.noteStep, ha, hz, h8]
    rfl
  have hm : ((E.quantMerged (ramp.quantIn 0 p)).all fun o => f32Finite o.mag && f32Finite o.ph) = true := by
    unfold Env.quantMerged
    rw [hT]
    decide +kernel
  have hph : E.quantPhases (ramp.quantIn 0 p) = (E.quantMerged (ramp.quantIn 0 p)).map Merged.ph := by
    simp [Env.quantPhases, Env.quantPhase, targetNote_nil hn]
  have hmag : E.quantMags (ramp.quantIn 0 p) = (E.quantMerged (ramp.quantIn 0 p)).map Merged.mag := rfl
  have hf : allFinite (binWords (E.quantFrame (ramp.quantIn 0 p))) := by
    refine allFinite_binWords.2 fun b hb => ?_
    simp only [Env.quantFrame, hph, hmag, List.mem_append, List.mem_singleton] at hb
    rcases hb with hb | rfl
    · obtain ⟨i, hi, rfl⟩ := List.mem_iff_getElem.1 hb
      simp only [List.getElem_zipWith, List.getElem_map]
      have := List.all_eq_true.1 hm ((E.quantMerged (ramp.quantIn 0 p))[i]'(by simpa using hi)) (List.getElem_mem _)
      simpa using this
    · decide
  have hhist : allFinite ((E.quantHistory (ramp.quantIn 0 p)).map Prod.fst) := by
    intro w hw
    obtain ⟨v, hv, rfl⟩ := List.mem_map.1 hw
    rw [hh v hv]
    decide
  unfold quantReals
  simp only [allFinite_append, and_assoc]
  exact ⟨List.all_eq_true.1 (by decide +kernel), List.all_eq_true.1 (by decide +kernel), hhist, hf⟩

theorem witness_MskbBuildsMask :
    let s := demoWith { csr4 with mask := ⟨.bandPass, f1, f2, 0⟩ }
    let p := s.params
    let E := p.env
    p.Configured ∧ f32Finite p.mask.lo = true ∧ f32Finite p.mask.hi = true ∧ f32Finite p.mask.width = true ∧
      ∀ k, k < E.lines → f32Finite (E.maskFn p.mask.mode p.mask.lo p.mask.hi p.mask.width (E.binfreq k)) = true :=
  ⟨configured_of_same rfl rfl rfl rfl, by decide, by decide, by decide, by decide +kernel⟩

theorem witness_MskBlends :
    let m := fun k => demo.word (maskBase + k)
    demo.params.Configured ∧ demo.params.tags.s[(0 : SReg)].toNat = demo.params.env.bins ∧
      demo.params.tags.s[(1 : SReg)].toNat = demo.params.env.bins ∧
      ∀ k, k < demo.params.env.lines → f32Finite (demo.mag 0 k) = true ∧ f32Finite (demo.ph 0 k) = true ∧
        f32Finite (demo.mag 1 k) = true ∧ f32Finite (demo.ph 1 k) = true ∧ f32Finite (m k) = true ∧
        f32Finite (f32Add (f32Mul (demo.mag 0 k) (m k)) (f32Mul (demo.mag 1 k) (f32Sub 0x3F800000 (m k)))) = true :=
  ⟨demo_configured, by decide, by decide, by decide +kernel⟩

theorem witness_SdlpBuildsTables :
    let p := demo.params
    let E := p.env
    p.Configured ∧ f32Finite p.delay.timeMs = true ∧ f32Finite p.delay.slope = true ∧
      f32Finite p.delay.damping = true ∧
      ∀ k, k < E.lines →
        f32Finite (delayFrames E.lines p.active.fs p.active.hop.toInt p.delay.timeMs p.delay.slope k) = true ∧
        f32Finite (dampValue E.lines p.delay.damping k) = true :=
  ⟨demo_configured, by decide, by decide, by decide, by decide +kernel⟩

theorem witness_SdlRunsDelayLines :
    let s := demoWith { csr4 with delay := ⟨0, 0, fHalf, 0, fHalf, f2⟩ }
    let p := s.params
    let E := p.env
    let w := p.sdWr.toNat
    let depth := p.sdDepth.toNat
    let fb := E.clamp01 p.delay.feedback
    let mix := E.clamp01 p.delay.mix
    let gain := E.max2 p.delay.gain 0
    let dry := f32Sub 0x3F800000 mix
    let d := fun k => s.delayBin k (delayReadIndex w (s.word (dlenBase + k)).toNat depth)
    p.Configured ∧ p.tags.s[(0 : SReg)].toNat = E.bins ∧ f32Finite p.delay.feedback = true ∧
      f32Finite p.delay.mix = true ∧ f32Finite p.delay.gain = true ∧
      ∀ k, k < E.lines → f32Finite (s.mag 0 k) = true ∧ f32Finite (s.ph 0 k) = true ∧
        f32Finite (s.word (dampBase + k)) = true ∧ f32Finite (d k).mag = true ∧ f32Finite (d k).ph = true ∧
        f32Finite (f32Add (s.mag 0 k) (f32Mul (f32Mul (d k).mag fb) (s.word (dampBase + k)))) = true ∧
        f32Finite (f32Add (f32Mul dry (s.mag 0 k)) (f32Mul (f32Mul mix (d k).mag) gain)) = true ∧
        f32Finite (f32Add (f32Mul dry (s.ph 0 k)) (f32Mul mix (d k).ph)) = true :=
  ⟨configured_of_same rfl rfl rfl rfl, by decide, by decide, by decide, by decide, by decide +kernel⟩

/-! ### The units -/

theorem witness_NetworkIsFourierTransform : ([⟨1, 2⟩, ⟨3, 4⟩] : List (Cx ℝ)).length = 2 ^ 1 ∧ 1 < 2 ^ 1 := by
  constructor
  · rfl
  · norm_num

/-- `demo` with the twiddle table that CFG builds. -/
def tabled : State := demo.putComplexes twBase csr4.env.twTable

theorem complexes_putComplexes (s : State) (a : Nat) (zs : List (Cx Word)) :
    (s.putComplexes a zs).complexes a zs.length = zs := by
  refine List.ext_getElem (by simp) fun k h _ => ?_
  obtain ⟨h1, h2⟩ := putComplexes_word s a zs k (by simpa using h)
  simp [State.complexes, h1, h2]

theorem realOf_le {w : Word} {b : Nat} (h : f32Mag w ≤ b * 2 ^ 149) : |realOf w| ≤ b := by
  have hfix : |(f32Fix w : ℝ)| = (f32Mag w : ℝ) := by
    rw [← natAbs_f32Fix, Nat.cast_natAbs, Int.cast_abs]
  rw [realOf, abs_div, hfix, abs_of_pos (by positivity : (0 : ℝ) < 2 ^ 149), div_le_iff₀ (by positivity)]
  exact_mod_cast h

/-- `demo` as a machine over the exact reals, with the twiddle table that CFG builds there. -/
noncomputable def exactDemo : RealState ℝ :=
  (realStorage exactHardware).put (RealState.ofState demo) twBase
    ((csr4.envOf exactHardware).cxData (csr4.envOf exactHardware).twTable)

theorem tabled_word {x : Nat} (hx : x < twBase ∨ twBase + 4 ≤ x) : tabled.word x = demo.word x :=
  putWords_word_outside demo twBase _ x (by simpa [Env.twTable, csr4] using hx)

/-- `tabled` with an impulse in its time frame. -/
def impulse : State := tabled.putWords tBase [f3, 0, 0, 0]

/-- Four samples for the transforms, a machine over the exact reals, and on this hardware the time frames 3, 0, 0, 0 and 1, 2, 3, 4
in a machine with the tables of its configuration. -/
theorem witness_InverseUndoesForward :
    ([⟨1, 2⟩, ⟨3, 4⟩, ⟨5, 6⟩, ⟨7, 8⟩] : List (Cx ℝ)).length = 2 ^ 2 ∧ tabled.inFlight = none ∧ tabled.csr.Configured ∧
      tabled.csr.active.n = 4 ∧ tabled.csr.tags.t = 4 ∧ tabled.complexes twBase 2 = tabled.csr.env.twTable ∧
      tabled.words brBase 4 = natWords tabled.csr.env.brTable ∧ (2 : ℝ)⁻¹ ^ 100 ≤ 4 ∧ (4 : ℝ) ≤ 2 ^ 100 ∧
      ∀ k, k < 4 → f32Finite (tabled.word (tBase + k)) = true ∧ |realOf (tabled.word (tBase + k))| ≤ 4 := by
  refine ⟨rfl, rfl, demo_configured, rfl, rfl, complexes_putComplexes demo twBase csr4.env.twTable, ?_, by norm_num,
    by norm_num, fun k hk => ?_⟩
  · have : tabled.words brBase 4 = demo.words brBase 4 := by
      refine List.map_congr_left fun i hi => tabled_word (.inr ?_)
      simp only [twBase, brBase]
      omega
    rw [this]
    show demo.words brBase 4 = natWords csr4.env.brTable
    decide +kernel
  · rw [tabled_word (.inl (by simp only [tBase, twBase]; omega))]
    have h : ∀ k, k < 4 → f32Finite (demo.word (tBase + k)) = true ∧
        f32Mag (demo.word (tBase + k)) ≤ 4 * 2 ^ 149 := by decide +kernel
    exact ⟨(h k hk).1, by exact_mod_cast realOf_le (h k hk).2⟩

theorem words_eq {s u : State} {a n : Nat} (h : ∀ i, i < n → s.word (a + i) = u.word (a + i)) :
    s.words a n = u.words a n := List.map_congr_left fun i hi => h i (List.mem_range.1 hi)

theorem witness_InverseUndoesForward_impulse :
    impulse.inFlight = none ∧ impulse.csr.Configured ∧ impulse.csr.tags.t = impulse.csr.active.n ∧
      impulse.complexes twBase 2 = csr4.env.twTable ∧ impulse.words brBase 4 = natWords csr4.env.brTable ∧
      f32Finite (f32Mul f3 (f32OfInt 4)) = true ∧ impulse.words tBase 4 = [f3, 0, 0, 0] := by
  have ho : ∀ x, tBase + 4 ≤ x → impulse.word x = tabled.word x := fun x hx =>
    putWords_word_outside tabled tBase _ x (.inr hx)
  obtain ⟨-, -, -, -, -, h3, h4, -⟩ := witness_InverseUndoesForward
  refine ⟨rfl, demo_configured, rfl, Eq.trans ?_ h3, Eq.trans (words_eq fun i hi => ho _ ?_) h4, by decide +kernel, ?_⟩
  · unfold State.complexes tabulate
    refine List.map_congr_left fun k _ => ?_
    rw [ho _ (by simp only [tBase, twBase]; omega), ho _ (by simp only [tBase, twBase]; omega)]
  · simp only [tBase, brBase]; omega
  · refine List.ext_getElem (length_words _ _ _) fun i hi hi' => ?_
    have := putWords_word_inside tabled tBase [f3, 0, 0, 0] i hi'
    simpa [State.words, impulse] using this

theorem exactDemo_csr : exactDemo.word.csr = csr4 := rfl

theorem witness_InverseUndoesForward_reference :
    let M := realStorage exactHardware
    let E := exactDemo.word.csr.envOf exactHardware
    exactDemo.word.inFlight = none ∧ exactDemo.word.csr.Configured ∧
      exactDemo.word.csr.tags.t = exactDemo.word.csr.active.n ∧
      cxsOf (M.complexes exactDemo twBase (E.n / 2)) = E.twTable ∧ M.nats exactDemo brBase E.n = E.brTable ∧
      ∀ d ∈ M.reals exactDemo tBase E.n ++ cxWords (M.complexes exactDemo twBase (E.n / 2)), d.ok = true := by
  rw [exactDemo_csr]
  generalize hE : csr4.envOf exactHardware = E
  have hn : E.n = 4 := by rw [← hE]; rfl
  have hl : E.twTable.length = 2 := by rw [Env.twTable, length_tabulate, hn]
  have hd : (E.cxData E.twTable).length = 4 := by
    rw [Env.cxData, cxWords, length_flatMap_pair, List.length_map, hl]
  have hs : exactDemo = (realStorage exactHardware).put (RealState.ofState demo) twBase (E.cxData E.twTable) := by
    rw [← hE]; rfl
  have hw : exactDemo.word = demo.putWords twBase ((E.cxData E.twTable).map Datum.word) := by rw [hs]; rfl
  have hg : ∀ i, i < 4 → ((realStorage exactHardware).get exactDemo (twBase + i)).ok = true := fun i hi => by
    rw [hs, realStorage_get_put_inside _ _ _ _ _ (by rw [hd]; exact hi)]
    rfl
  have ht : ∀ i, i < 4 → ((realStorage exactHardware).get exactDemo (tBase + i)).ok = true := fun i hi => by
    have hf : ∀ i, i < 4 → f32Finite (demo.word (tBase + i)) = true := by decide +kernel
    rw [hs, realStorage_get_put_outside _ _ _ _ _ (.inl (by simp only [tBase, twBase]; omega))]
    exact hf i hi
  have hb : E.brTable = csr4.env.brTable := by rw [← hE]; rfl
  dsimp only
  rw [hn]
  refine ⟨by rw [hw]; rfl, demo_configured, rfl, ?_, ?_, ?_⟩
  · have := complexes_put exactHardware (RealState.ofState demo) twBase E E.twTable
    rw [hl, ← hs] at this
    exact this
  · have hn : demo.nats brBase 4 = csr4.env.brTable := by decide +kernel
    rw [hb, ← hn]
    show exactDemo.word.nats brBase 4 = _
    rw [hw, State.nats, State.nats, words_eq fun i hi => putWords_word_outside demo twBase _ _
      (.inr (by rw [List.length_map, hd]; simp only [twBase, brBase]; omega))]
  · intro d hd'
    rcases List.mem_append.1 hd' with h | h
    · obtain ⟨i, hi, rfl⟩ := (mem_tabulate _ _ _).1 h
      exact ht i hi
    · obtain ⟨z, hz, hz'⟩ := List.mem_flatMap.1 h
      obtain ⟨k, hk, rfl⟩ := (mem_tabulate _ _ _).1 hz
      simp only [List.mem_cons, List.not_mem_nil, or_false] at hz'
      rcases hz' with rfl | rfl
      · exact hg (2 * k) (by omega)
      · exact hg (2 * k + 1) (by omega)

/-- A frame of the right length. -/
theorem witness_LockFollowsNearestPeak : ([0, 1, 0] : List ℝ).length = (exactEnv 4 1 4).bins := rfl

theorem witness_VocoderLaw : 0 < 8 ∧ (0 : Int) < 2 ∧ (0 : ℝ) < 8 := by norm_num

/-- Two contributors on one target, as in V-FSH-5. -/
theorem witness_RedistributionConservesEnergy :
    ∀ k t, k < 4 → ([some 2, some 2, none, some 0] : List (Option Nat)).getD k none = some t → t < 4 := by
  intro k t hk h
  interval_cases k <;> simp at h <;> omega

/-- Without an envelope, and with one whose preserve strength is 0. -/
theorem witness_QuantizerConservesEnergy :
    let x := fun e => (⟨[3, 4], [0, 1], 1, 4, 0, 0, fun _ => true, none, e, [0, 3], true, 0, 0, [], []⟩ : QuantIn ℝ)
    (x none).envelope = none ∧ (x (some [1, 2])).envelope ≠ none ∧ (x (some [1, 2])).preserve ≤ 0 :=
  ⟨rfl, by simp, le_refl 0⟩

/-- The lowest and the highest note, and the first and the last frame. -/
theorem witness_NearestNote : (0 < 128 ∧ 127 < 128) ∧ 0 ≤ 8 ∧ 8 ≤ 8 := by decide

/-- A value for every clause, the ends of the transition and a switched-off curve among them. -/
theorem witness_MaskCurves :
    (0 : ℝ) < 1000 ∧ (0 : ℝ) < 2 ∧ (500 : ℝ) ≤ 1000 * (2 : ℝ) ^ (-((2 : ℝ) / 2)) ∧
      1000 * (2 : ℝ) ^ ((2 : ℝ) / 2) ≤ (2000 : ℝ) ∧ (500 : ℝ) ≤ 2000 ∧ ((0 : ℝ) ≤ 0 ∨ (2 : ℝ) ≤ 0) ∧
      f32Finite f1 = true ∧ 0 < f32Fix f1 ∧ 2 ^ 24 ≤ f32Fix f1 := by
  refine ⟨by norm_num, by norm_num, ?_, by norm_num, by norm_num, .inl le_rfl, by decide, by decide, by decide⟩
  rw [show -((2 : ℝ) / 2) = -1 by norm_num, Real.rpow_neg_one]
  norm_num

theorem witness_HannSquaresAddUp : 0 < 1 ∧ 3 < 4 * 1 := by decide

/-- For every clause operands with a finite result, and a number that is not negative. -/
theorem witness_ArithmeticIsCorrectlyRounded :
    f32Finite f1 = true ∧ f32Finite f3 = true ∧ f32Finite (f32Add f1 f3) = true ∧ f32Finite (f32Sub f1 f3) = true ∧
      f32Finite (f32Mul f1 f3) = true ∧ f32Finite (f32Div f1 f3) = true ∧ (0 : ℝ) ≤ realOf 0 :=
  ⟨by decide, by decide, by decide +kernel, by decide +kernel, by decide +kernel, by decide +kernel,
    by unfold realOf; rw [show f32Fix 0 = 0 by decide]; simp⟩

/-- The shortest and the longest delay of a line of 8. -/
theorem witness_DelayReadsAnotherSlot : (0 < 8 ∧ 1 ≤ 1 ∧ 1 ≤ 8 - 1) ∧ (7 < 8 ∧ 1 ≤ 7 ∧ 7 ≤ 8 - 1) := by decide

end Sys2Proof.Tests
end

/-! SUPPORT. The statements of the scope chapter: `wrap` in the exact reals (spec/00_scope.md R10), and which blocks of
storage a command may write (R14, spec/20_memory.md R85). -/

namespace Sys2Proof.Machine

/-! ### `wrap` in the exact reals

`wrap` over the exact reals is reduction modulo `2π` into (−π, π], Mathlib's `toIocMod`.
So its range and its values are facts about that reduction. -/

section
variable (n : Nat) (hop : Int) (fs : ℝ)

/-- R10, with the operations of the record `exactNum` written as those of the real numbers. -/
theorem exactWrap_eq_sub_ceil (x : ℝ) :
    (exactEnv n hop fs).wrap x = x - 2 * Real.pi * ⌈(x - Real.pi) / (2 * Real.pi)⌉ := by
  simp [Env.wrap, Env.twoPi, Env.two, exactEnv, exactNum]

theorem toIocDiv_neg_pi_eq_ceil (x : ℝ) :
    toIocDiv Real.two_pi_pos (-Real.pi) x = ⌈(x - Real.pi) / (2 * Real.pi)⌉ := by
  rw [toIocDiv_eq_neg_floor, ← Int.ceil_neg, ← neg_div]
  ring_nf

theorem exactWrap_eq_toIocMod (x : ℝ) :
    (exactEnv n hop fs).wrap x = toIocMod Real.two_pi_pos (-Real.pi) x := by
  rw [exactWrap_eq_sub_ceil, toIocMod, toIocDiv_neg_pi_eq_ceil, zsmul_eq_mul, mul_comm (_ : ℝ) (2 * Real.pi)]

theorem exactWrap_mem_Ioc (x : ℝ) : (exactEnv n hop fs).wrap x ∈ Set.Ioc (-Real.pi) Real.pi := by
  have hend : -Real.pi + 2 * Real.pi = Real.pi := by ring
  simpa only [exactWrap_eq_toIocMod, hend] using toIocMod_mem_Ioc Real.two_pi_pos (-Real.pi) x

/-- The result of `wrap` is the one number of (−π, π] that lies a whole number of turns from the argument. -/
theorem exactWrap_eq_of_turns {x y : ℝ} (hlow : -Real.pi < y) (hhigh : y ≤ Real.pi) (turns : ℤ)
    (hx : x = y + turns * (2 * Real.pi)) : (exactEnv n hop fs).wrap x = y := by
  have hend : y ≤ -Real.pi + 2 * Real.pi := by linarith
  rw [exactWrap_eq_toIocMod, toIocMod_eq_iff]
  exact ⟨⟨hlow, hend⟩, turns, by rw [hx, zsmul_eq_mul]⟩

end

/-- Settles O50: the interval and the formula are those of reduction modulo `2π`, and each listed value is the
representative in (−π, π] of its argument, 0, -1, 1 and 0 turns away. -/
theorem wrapLaw : Obligations.WrapLaw := by
  unfold Obligations.WrapLaw
  intro n hop fs x
  have hpi := Real.pi_pos
  have hlow : -Real.pi < Real.pi := by linarith
  exact ⟨exactWrap_mem_Ioc n hop fs x, exactWrap_eq_sub_ceil n hop fs x,
    exactWrap_eq_of_turns n hop fs hlow le_rfl 0 (by push_cast; ring),
    exactWrap_eq_of_turns n hop fs hlow le_rfl (-1) (by push_cast; ring),
    exactWrap_eq_of_turns n hop fs hlow le_rfl 1 (by push_cast; ring),
    exactWrap_eq_of_turns n hop fs (by linarith) hpi.le 0 (by push_cast; ring)⟩

/-! ### How many elements a unit returns

Every table and frame of the units has the length that its rule gives it, whatever the numerics record and the inputs. -/

section
variable {R : Type} (E : Env R)

@[simp] theorem length_twTable : E.twTable.length = E.n / 2 := length_tabulate _ _
@[simp] theorem length_brTable : E.brTable.length = E.n := length_tabulate _ _
@[simp] theorem length_winTable (w : Window) : (E.winTable w).length = E.n := length_tabulate _ _
@[simp] theorem length_bandTable : E.bandTable.length = E.lines := length_tabulate _ _
@[simp] theorem length_maskTable (mode : MaskMode) (lo hi w : R) : (E.maskTable mode lo hi w).length = E.lines :=
  length_tabulate _ _
@[simp] theorem length_dampTable (damping : R) : (E.dampTable damping).length = E.lines := length_tabulate _ _
@[simp] theorem length_dlenTable (depth : Nat) (timeMs slope : R) : (E.dlenTable depth timeMs slope).length = E.lines :=
  length_tabulate _ _
@[simp] theorem length_applyWindow (t win : List R) : (E.applyWindow t win).length = E.n := length_tabulate _ _
@[simp] theorem length_polarFrame (z : List (Cx R)) : (E.polarFrame z).length = E.bins := length_tabulate _ _
@[simp] theorem length_rectFrame (frame : List (Bin R)) : (E.rectFrame frame).length = E.n := length_tabulate _ _
@[simp] theorem length_synthPhases (shift : R) (lph pph sph : List R) : (E.synthPhases shift lph pph sph).length = E.bins :=
  length_tabulate _ _
@[simp] theorem length_envOf (band : List Nat) (mag : List R) : (E.envOf band mag).length = E.par.bands :=
  length_tabulate _ _
@[simp] theorem length_redist (mag ph : List R) (m : Nat) (tgt : Nat → Option Nat) : (E.redist mag ph m tgt).length = m :=
  length_tabulate _ _
@[simp] theorem length_quantHistory (x : QuantIn R) : (E.quantHistory x).length = E.par.notes := length_tabulate _ _
@[simp] theorem length_quantMerged (x : QuantIn R) : (E.quantMerged x).length = E.lines := length_redist E _ _ _ _

/-- The permutation of the network writes entries and adds none (R156). -/
@[simp] theorem length_permute (br : List Nat) (x : List (Cx R)) : (E.permute br x).length = E.n :=
  List.foldlRecOn _ _ (motive := fun y : List (Cx R) => y.length = E.n) (length_tabulate _ _)
    fun _ hy _ _ => List.length_set.trans hy

/-- A stage of the network returns N numbers, and with no stage at all they are those it was given (R156). -/
theorem length_stages (tw : List (Cx R)) (inv : Bool) (y : List (Cx R)) (hy : y.length = E.n) :
    (E.stages tw inv y).length = E.n :=
  List.foldlRecOn _ _ (motive := fun z : List (Cx R) => z.length = E.n) hy fun _ _ _ _ => length_tabulate _ _

@[simp] theorem length_net (tw : List (Cx R)) (br : List Nat) (inv : Bool) (x : List (Cx R)) :
    (E.net tw br inv x).length = E.n := length_stages E tw inv _ (length_permute E br x)

@[simp] theorem length_fwd (tw : List (Cx R)) (br : List Nat) (t : List R) : (E.fwd tw br t).length = E.n :=
  length_net E tw br false _

@[simp] theorem length_inv (tw : List (Cx R)) (br : List Nat) (z : List (Cx R)) : (E.inv tw br z).length = E.n :=
  List.length_map _ |>.trans (length_net E tw br true z)

@[simp] theorem length_shiftFrame (shift : R) (mag ph : List R) : (E.shiftFrame shift mag ph).length = E.bins :=
  List.length_map _ |>.trans (length_redist E _ _ _ _)

/-- Locked phases are B new ones, unlocked ones are those of the frame (R201). -/
theorem length_lockedPhases (lockEn : Bool) (mag ph : List R) (hph : ph.length = E.bins) :
    (E.lockedPhases lockEn mag ph).length = E.bins := by
  cases lockEn with
  | false => exact hph
  | true => exact length_tabulate _ _

/-- The envelope step keeps the number of magnitudes (R261). -/
@[simp] theorem length_quantMags (x : QuantIn R) : (E.quantMags x).length = E.lines := by
  have hmerged : ((E.quantMerged x).map Merged.mag).length = E.lines := by simp
  unfold Env.quantMags
  cases x.envelope with
  | none => exact hmerged
  | some env =>
    dsimp only
    split
    · exact length_tabulate _ _
    · exact hmerged

@[simp] theorem length_quantPhases (x : QuantIn R) : (E.quantPhases x).length = E.lines :=
  List.length_map _ |>.trans (length_quantMerged E x)

/-- L bins and the Nyquist bin are B bins (R7, R250). -/
@[simp] theorem length_quantFrame (x : QuantIn R) : (E.quantFrame x).length = E.bins := by
  simp [Env.quantFrame, Env.bins, Env.lines]

@[simp] theorem length_maskFrame (mask : List R) (wet dry : List (Bin R)) : (maskFrame E mask wet dry).length = E.bins := by
  simp [maskFrame, Env.bins, Env.lines]

end

/-! ### The bytes outside given blocks -/

section
variable {bs cs : List Block} {m m' m'' : Memory} {s : State}

theorem SameBytesOutside.mono (h : SameBytesOutside bs m m') (hsub : bs ⊆ cs) : SameBytesOutside cs m m' :=
  fun a ha => h a fun b hb => ha b (hsub hb)

/-- What two commands one after the other write lies in the blocks of the one or of the other. -/
theorem SameBytesOutside.append (h : SameBytesOutside bs m m') (h' : SameBytesOutside cs m' m'') :
    SameBytesOutside (bs ++ cs) m m'' :=
  fun a ha => (h' a fun b hb => ha b (List.mem_append_right bs hb)).trans
    (h a fun b hb => ha b (List.mem_append_left cs hb))

/-- Storing the words of one of the blocks. -/
theorem SameBytesOutside.store (h : SameBytesOutside bs m s.mem) {a n : Nat} {ws : List Word} (hb : ⟨a, n⟩ ∈ bs)
    (hl : ws.length = n) : SameBytesOutside bs m (s.putWords a ws).mem := h.putWords a ws (hl ▸ hb)

/-- Storing a frame of as many bins as its block has pairs. -/
theorem SameBytesOutside.putFrame (h : SameBytesOutside bs m s.mem) {r : SReg} {bins : Nat} {frame : List (Bin Word)}
    (hb : frameBlock r bins ∈ bs) (hl : frame.length = bins) : SameBytesOutside bs m (s.putFrame r frame).mem :=
  h.store hb (by rw [length_binWords, hl])

/-- Storing as many complex numbers as their block has pairs. -/
theorem SameBytesOutside.putComplexes (h : SameBytesOutside bs m s.mem) {a n : Nat} {zs : List (Cx Word)}
    (hb : ⟨a, 2 * n⟩ ∈ bs) (hl : zs.length = n) : SameBytesOutside bs m (s.putComplexes a zs).mem :=
  h.store hb (by rw [length_cxWords, hl])

theorem SameBytesOutside.resetPv (h : SameBytesOutside bs m s.mem) {bins : Nat}
    (hb : [⟨pmagBase, bins⟩, ⟨pphBase, bins⟩, ⟨sphBase, bins⟩] ⊆ bs) :
    SameBytesOutside bs m (hwStorage.resetPv s bins).mem := by
  obtain ⟨hmag, hpph, hsph, -⟩ := by simpa only [List.cons_subset] using hb
  rw [resetPv_spc]
  exact ((h.store hmag List.length_replicate).store hpph List.length_replicate).store hsph List.length_replicate

theorem SameBytesOutside.resetQ (h : SameBytesOutside bs m s.mem)
    (hb : [⟨accBase, 128⟩, ⟨silBase, 128⟩, ⟨envBase, 48⟩] ⊆ bs) :
    SameBytesOutside bs m (hwStorage.resetQ hwNum s Params.spc).mem := by
  obtain ⟨hacc, hsil, henv, -⟩ := by simpa only [List.cons_subset] using hb
  rw [resetQ_spc]
  exact ((h.store hacc List.length_replicate).store hsil List.length_replicate).store henv List.length_replicate

/-- A reset writes the history of the units it names, of which the delay lines are not on the bus (R139, R71). -/
theorem SameBytesOutside.resetUnits (h : SameBytesOutside bs m s.mem) {imm3 : BitVec 3} {bins : Nat}
    (hpv : imm3.getLsbD 0 = true → [⟨pmagBase, bins⟩, ⟨pphBase, bins⟩, ⟨sphBase, bins⟩] ⊆ bs)
    (hq : imm3.getLsbD 1 = true → [⟨accBase, 128⟩, ⟨silBase, 128⟩, ⟨envBase, 48⟩] ⊆ bs) :
    SameBytesOutside bs m (hwStorage.resetUnits spcHardware s imm3 bins).mem := by
  have afterPv : SameBytesOutside bs m (if imm3.getLsbD 0 then hwStorage.resetPv s bins else s).mem := by
    split
    · next hset => exact h.resetPv (hpv hset)
    · exact h
  have afterQ {u : State} (hu : SameBytesOutside bs m u.mem) :
      SameBytesOutside bs m (if imm3.getLsbD 1 then hwStorage.resetQ hwNum u Params.spc else u).mem := by
    split
    · next hset => exact hu.resetQ (hq hset)
    · exact hu
  have afterSd {u : State} (hu : SameBytesOutside bs m u.mem) :
      SameBytesOutside bs m (if imm3.getLsbD 2 then hwStorage.resetSd u else u).mem := by
    split <;> exact hu
  exact afterSd (afterQ afterPv)

theorem SameBytesOutside.buildDelay (h : SameBytesOutside bs m s.mem) (p : Csrs) {E : Env Word} (hE : E.num = hwNum)
    (depth : Nat) (hb : [⟨dampBase, E.lines⟩, ⟨dlenBase, E.lines⟩] ⊆ bs) :
    SameBytesOutside bs m (hwStorage.buildDelay s p E depth).mem := by
  obtain ⟨hdamp, hdlen, -⟩ := by simpa only [List.cons_subset] using hb
  rw [buildDelay_spc p s hE]
  exact (h.store hdamp (length_dampTable E _)).store hdlen (by simp)

theorem SameBytesOutside.buildTables (h : SameBytesOutside bs m s.mem) (p : Csrs) {E : Env Word} (hE : E.num = hwNum)
    (hb : [⟨twBase, 2 * (E.n / 2)⟩, ⟨brBase, E.n⟩, ⟨winBase, E.n⟩, ⟨bandBase, E.lines⟩, ⟨maskBase, E.lines⟩,
      ⟨dampBase, E.lines⟩, ⟨dlenBase, E.lines⟩, ⟨driftBase, E.lines⟩] ⊆ bs) :
    SameBytesOutside bs m (hwStorage.buildTables s p E).mem := by
  obtain ⟨htw, hbr, hwin, hband, hmask, hdamp, hdlen, hdrift, -⟩ := by simpa only [List.cons_subset] using hb
  have hdelay : [⟨dampBase, E.lines⟩, ⟨dlenBase, E.lines⟩] ⊆ bs := by simp [hdamp, hdlen]
  rw [buildTables_spc p s hE]
  exact (((((h.putComplexes htw (length_twTable E)).store hbr (by simp)).store hwin (length_winTable E _)).store hband
    (by simp)).store hmask (length_maskTable E _ _ _ _)).buildDelay p hE E.depth hdelay |>.store hdrift List.length_replicate

end

/-! ### The frame of each command

What the effect of a command stores lies in the blocks that its rule lists as written. -/

/-- The effect of a command writes no byte outside the blocks of its rule. -/
def EffectInBlocks (i : Instr) (p : Csrs) (s : State) : Prop :=
  SameBytesOutside (p.writtenBlocks i) s.mem (effectOf i p s).after.mem

section
variable (p : Csrs) (s : State)

theorem nopEffect_inBlocks : EffectInBlocks .nop p s := sameBytesOutside_refl _ _

theorem cfgEffect_inBlocks : EffectInBlocks .cfg p s := by
  have htables := (sameBytesOutside_refl (p.writtenBlocks .cfg) s.mem).buildTables p (E := p.stagedEnv) rfl
    (by simp [Csrs.writtenBlocks])
  have hunits := htables.resetUnits (imm3 := 7) (bins := p.stagedEnv.bins)
    (fun _ => by simp [Csrs.writtenBlocks]) (fun _ => by simp [Csrs.writtenBlocks])
  show SameBytesOutside _ s.mem (cfgEffect hwStorage spcHardware p s).after.mem
  rw [cfgEffect_spc]
  exact hunits

theorem resetEffect_inBlocks (imm3 : BitVec 3) : EffectInBlocks (.reset imm3) p s :=
  (sameBytesOutside_refl _ _).resetUnits
    (fun hpv => by
      rw [Csrs.writtenBlocks, if_pos hpv]
      exact List.subset_append_left _ _)
    (fun hq => by
      rw [Csrs.writtenBlocks, if_pos hq]
      exact List.subset_append_right _ _)

theorem winEffect_inBlocks : EffectInBlocks .win p s := by
  show SameBytesOutside _ s.mem (winEffect hwStorage spcHardware p s).after.mem
  rw [winEffect_spc]
  exact (sameBytesOutside_refl _ _).store (by simp [Csrs.writtenBlocks]) (length_applyWindow p.env _ _)

theorem fftfEffect_inBlocks : EffectInBlocks .fftf p s := by
  show SameBytesOutside _ s.mem (fftfEffect hwStorage spcHardware p s).after.mem
  rw [fftfEffect_spc]
  exact (sameBytesOutside_refl _ _).putComplexes (by simp [Csrs.writtenBlocks]) (length_fwd p.env _ _ _)

theorem fftiEffect_inBlocks : EffectInBlocks .ffti p s := by
  show SameBytesOutside _ s.mem (fftiEffect hwStorage spcHardware p s).after.mem
  rw [fftiEffect_spc]
  exact ((sameBytesOutside_refl _ _).putComplexes (by simp [Csrs.writtenBlocks]) (length_inv p.env _ _ _)).store
    (n := p.env.n) (by simp [Csrs.writtenBlocks]) (by simp)

theorem polarEffect_inBlocks (rd : SReg) : EffectInBlocks (.polar rd) p s := by
  show SameBytesOutside _ s.mem (polarEffect hwStorage spcHardware rd p s).after.mem
  rw [polarEffect_spc]
  exact (sameBytesOutside_refl _ _).putFrame (by simp [Csrs.writtenBlocks]) (length_polarFrame p.env _)

theorem rectEffect_inBlocks (rs1 : SReg) : EffectInBlocks (.rect rs1) p s := by
  show SameBytesOutside _ s.mem (rectEffect hwStorage spcHardware rs1 p s).after.mem
  rw [rectEffect_spc]
  exact (sameBytesOutside_refl _ _).putComplexes (by simp [Csrs.writtenBlocks]) (length_rectFrame p.env _)

/-- STFTF writes what WIN, FFTF and POLAR write (R191). -/
theorem stftfEffect_inBlocks (rd : SReg) : EffectInBlocks (.stftf rd) p s :=
  have hwin := winEffect_inBlocks p s
  have hfftf := fftfEffect_inBlocks p (effectOf .win p s).after
  have hpolar := polarEffect_inBlocks p (effectOf .fftf p (effectOf .win p s).after).after rd
  (hwin.append hfftf).append hpolar

/-- STFTI writes what RECT, FFTI and WIN write (R193). -/
theorem stftiEffect_inBlocks (rs1 : SReg) : EffectInBlocks (.stfti rs1) p s :=
  have hrect := rectEffect_inBlocks p s rs1
  have hffti := fftiEffect_inBlocks p (effectOf (.rect rs1) p s).after
  have hwin := winEffect_inBlocks p (effectOf .ffti p (effectOf (.rect rs1) p s).after).after
  ((hrect.append hffti).append hwin).mono (by simp [Csrs.writtenBlocks])

theorem pvFirstEffect_inBlocks (rd rs1 : SReg) :
    SameBytesOutside (p.writtenBlocks (.pv rd rs1)) s.mem (pvFirstEffect hwStorage rd rs1 p s).after.mem := by
  have hframe := length_frame s rs1 p.env.bins
  rw [pvFirstEffect_spc]
  exact ((((sameBytesOutside_refl _ _).putFrame (by simp [Csrs.writtenBlocks]) hframe).store
    (by simp [Csrs.writtenBlocks]) (List.length_map _ |>.trans hframe)).store
    (by simp [Csrs.writtenBlocks]) (List.length_map _ |>.trans hframe)).store
    (by simp [Csrs.writtenBlocks]) (List.length_map _ |>.trans hframe)

theorem pvNextEffect_inBlocks (rd rs1 : SReg) :
    SameBytesOutside (p.writtenBlocks (.pv rd rs1)) s.mem (pvNextEffect hwStorage spcHardware rd rs1 p s).after.mem := by
  have hmag : ((s.frame rs1 p.env.bins).map Bin.mag).length = p.env.bins := List.length_map _ |>.trans (length_frame _ _ _)
  have hph : ((s.frame rs1 p.env.bins).map Bin.ph).length = p.env.bins := List.length_map _ |>.trans (length_frame _ _ _)
  have hlph := length_lockedPhases p.env p.lockEn ((s.frame rs1 p.env.bins).map Bin.mag) _ hph
  have hout := length_synthPhases p.env p.shiftHz
  rw [pvNextEffect_spc]
  exact ((((sameBytesOutside_refl _ _).putFrame (bins := p.env.bins) (by simp [Csrs.writtenBlocks])
    (by rw [List.length_zipWith, hmag, hout, min_self])).store
    (by simp [Csrs.writtenBlocks]) hmag).store
    (by simp [Csrs.writtenBlocks]) hlph).store
    (by simp [Csrs.writtenBlocks]) (hout _ _ _)

theorem pvEffect_inBlocks (rd rs1 : SReg) : EffectInBlocks (.pv rd rs1) p s := by
  show SameBytesOutside _ s.mem (pvEffect hwStorage spcHardware rd rs1 p s).after.mem
  unfold pvEffect
  split
  · exact pvFirstEffect_inBlocks p s rd rs1
  · exact pvNextEffect_inBlocks p s rd rs1

theorem fshEffect_inBlocks (rd rs1 : SReg) : EffectInBlocks (.fsh rd rs1) p s := by
  show SameBytesOutside _ s.mem (fshEffect hwStorage spcHardware rd rs1 p s).after.mem
  rw [fshEffect_spc]
  exact (sameBytesOutside_refl _ _).putFrame (by simp [Csrs.writtenBlocks]) (length_shiftFrame p.env _ _ _)

theorem envcEffect_inBlocks (rs1 : SReg) : EffectInBlocks (.envc rs1) p s := by
  show SameBytesOutside _ s.mem (envcEffect hwStorage spcHardware rs1 p s).after.mem
  rw [envcEffect_spc]
  exact (sameBytesOutside_refl _ _).store (n := 48) (by simp [Csrs.writtenBlocks]) (length_envOf p.env _ _)

/-- With strength 0 no history is written (R251). -/
theorem quantCopyEffect_inBlocks (rd rs1 : SReg) :
    SameBytesOutside (p.writtenBlocks (.qnt rd rs1)) s.mem (quantCopyEffect hwStorage spcHardware rd rs1 p s).after.mem := by
  rw [quantCopyEffect_spc]
  exact (sameBytesOutside_refl _ _).putFrame (bins := p.env.bins) (by simp [Csrs.writtenBlocks]) (by simp)

/-- With a positive strength the accumulators and the silence counters are written too (R250). -/
theorem quantRunEffect_inBlocks (rd rs1 : SReg) (hzero : p.strengthZero = false) :
    SameBytesOutside (p.writtenBlocks (.qnt rd rs1)) s.mem (quantRunEffect hwStorage spcHardware rd rs1 p s).after.mem := by
  have hist : (p.env.quantHistory (s.quantIn rs1 p)).length = 128 := length_quantHistory p.env _
  rw [quantRunEffect_spc]
  exact (((sameBytesOutside_refl _ _).putFrame (by simp [Csrs.writtenBlocks]) (length_quantFrame p.env _)).store
    (by simp [Csrs.writtenBlocks, hzero]) (List.length_map _ |>.trans hist)).store
    (n := 128) (by simp [Csrs.writtenBlocks, hzero]) (by rw [length_natWords, List.length_map, hist])

theorem qntEffect_inBlocks (rd rs1 : SReg) : EffectInBlocks (.qnt rd rs1) p s := by
  show SameBytesOutside _ s.mem (qntEffect hwStorage spcHardware rd rs1 p s).after.mem
  unfold qntEffect
  split
  · exact quantCopyEffect_inBlocks p s rd rs1
  · next hzero => exact quantRunEffect_inBlocks p s rd rs1 (Bool.eq_false_iff.2 hzero)

theorem mskbEffect_inBlocks : EffectInBlocks .mskb p s := by
  show SameBytesOutside _ s.mem (mskbEffect hwStorage spcHardware p s).after.mem
  rw [mskbEffect_spc]
  exact (sameBytesOutside_refl _ _).store (by simp [Csrs.writtenBlocks]) (length_maskTable p.env _ _ _ _)

theorem mskEffect_inBlocks (rd rs1 rs2 : SReg) : EffectInBlocks (.msk rd rs1 rs2) p s := by
  show SameBytesOutside _ s.mem (mskEffect hwStorage spcHardware rd rs1 rs2 p s).after.mem
  rw [mskEffect_spc]
  exact (sameBytesOutside_refl _ _).putFrame (by simp [Csrs.writtenBlocks]) (length_maskFrame p.env _ _ _)

theorem sdlpEffect_inBlocks : EffectInBlocks .sdlp p s := by
  show SameBytesOutside _ s.mem (sdlpEffect hwStorage spcHardware p s).after.mem
  rw [sdlpEffect_spc]
  exact (sameBytesOutside_refl _ _).buildDelay p (E := p.env) rfl p.sdDepth.toNat (by simp [Csrs.writtenBlocks])

/-- SDL fills a slot of the delay lines, which are not on the bus (R71), and writes a frame (R306). -/
theorem sdlEffect_inBlocks (rd rs1 : SReg) : EffectInBlocks (.sdl rd rs1) p s := by
  have hslot (w : Nat) (bins : List (Bin (Datum Word))) :
      SameBytesOutside (p.writtenBlocks (.sdl rd rs1)) s.mem (hwStorage.putDelaySlot Params.spc w 0 bins s).mem := by
    rw [putDelaySlot_keeps]
    exact sameBytesOutside_refl _ _
  show SameBytesOutside _ s.mem (sdlEffect hwStorage spcHardware rd rs1 p s).after.mem
  rw [sdlEffect_spc]
  exact (hslot _ _).putFrame (bins := p.env.bins) (by simp [Csrs.writtenBlocks]) (by simp)

theorem effect_inBlocks (i : Instr) : EffectInBlocks i p s := by
  cases i with
  | nop => exact nopEffect_inBlocks p s
  | cfg => exact cfgEffect_inBlocks p s
  | reset imm3 => exact resetEffect_inBlocks p s imm3
  | win => exact winEffect_inBlocks p s
  | fftf => exact fftfEffect_inBlocks p s
  | ffti => exact fftiEffect_inBlocks p s
  | polar rd => exact polarEffect_inBlocks p s rd
  | rect rs1 => exact rectEffect_inBlocks p s rs1
  | stftf rd => exact stftfEffect_inBlocks p s rd
  | stfti rs1 => exact stftiEffect_inBlocks p s rs1
  | pv rd rs1 => exact pvEffect_inBlocks p s rd rs1
  | fsh rd rs1 => exact fshEffect_inBlocks p s rd rs1
  | envc rs1 => exact envcEffect_inBlocks p s rs1
  | qnt rd rs1 => exact qntEffect_inBlocks p s rd rs1
  | mskb => exact mskbEffect_inBlocks p s
  | msk rd rs1 rs2 => exact mskEffect_inBlocks p s rd rs1 rs2
  | sdlp => exact sdlpEffect_inBlocks p s
  | sdl rd rs1 => exact sdlEffect_inBlocks p s rd rs1

end

/-- Settles O24: a command that answers a next state raised a fault, which writes no storage (R345), or completed with its
effect, which stores in its blocks only. -/
theorem commandsWriteOnlyTheirBlocks : Obligations.CommandsWriteOnlyTheirBlocks := by
  unfold Obligations.CommandsWriteOnlyTheirBlocks
  intro i s t h
  obtain ⟨f, -, rfl⟩ | ⟨-, -, rfl⟩ := exec_cases h
  · exact sameBytesOutside_refl _ _
  · exact effect_inBlocks s.params s i

end Sys2Proof.Machine

/-! SUPPORT. The statements of the state chapter (spec/10_state.md): the bits of `STATUS` (R25), host writes to the control
registers (R26 to R33, R349), and that every step keeps the well-formed states. -/

namespace Sys2Proof.Machine

/-! ### Flag words -/

/-- Bit `j` of a flag word with the one flag `b` at bit `i`. -/
@[simp] theorem getLsbD_flagBit (b : Bool) {i : Nat} (hi : i < 32) (j : Nat) :
    (flagBit b i).getLsbD j = (b && decide (i = j)) := by
  cases b with
  | false => simp [flagBit]
  | true =>
    have hbit : (flagBit true i).getLsbD j = (decide (j < 32) && decide (i = j)) := by
      rw [flagBit, if_pos rfl, BitVec.getLsbD_ofNat, Nat.testBit_two_pow]
    rw [hbit]
    by_cases hij : i = j
    · subst hij; simp [hi]
    · simp [hij]

/-- Masking a word with one bit gives that bit as a flag. -/
theorem and_flagBit (v : Word) {i : Nat} (hi : i < 32) : v &&& flagBit true i = flagBit (v.getLsbD i) i := by
  apply BitVec.eq_of_getLsbD_eq
  intro j hj
  rw [BitVec.getLsbD_and, getLsbD_flagBit _ hi, getLsbD_flagBit _ hi]
  by_cases hij : i = j
  · subst hij; simp
  · simp [hij]

/-- Masking a word with its two lowest bits gives two flags. -/
theorem and_three (v : Word) : v &&& 3 = flagBit (v.getLsbD 0) 0 ||| flagBit (v.getLsbD 1) 1 := by
  have hmask : (3 : Word) = flagBit true 0 ||| flagBit true 1 := by decide
  rw [hmask, BitVec.and_or_distrib_left, and_flagBit v (by omega), and_flagBit v (by omega)]

/-- Settles O17: `STATUS` is eight flags, at bits 0 to 7. -/
theorem statusBits : Obligations.StatusBits := by
  unfold Obligations.StatusBits
  intro s
  have hbit (j : Nat) : (s.readCsr 0x02).getLsbD j =
      (s.inFlight.isSome && decide (0 = j) || s.csr.cfgOk && decide (1 = j) || s.csr.err && decide (2 = j)
        || s.csr.pvFirst && decide (3 = j) || s.csr.qFirst && decide (4 = j) || s.csr.cfgDirty && decide (5 = j)
        || s.csr.maskDirty && decide (6 = j) || s.csr.sdDirty && decide (7 = j)) := by
    simp [State.readCsr, State.status, State.busy]
  have hhigh (i : Nat) (hi : 8 ≤ i) : (s.readCsr 0x02).getLsbD i = false := by
    have hne (j : Nat) (hj : j < 8) : decide (j = i) = false := by simp; omega
    simp [hbit, hne]
  refine ⟨?_, ?_, ?_, ?_, ?_, ?_, ?_, ?_, hhigh⟩ <;> rw [hbit] <;> simp

/-! ### Host writes to the control registers -/

/-- The legal values of a window register are the codes below 3 (R28). -/
theorem windowOf_cases (v : Word) :
    (v.toNat < 3 ∧ ∃ w, windowOf v = some w ∧ w.code = v) ∨ (¬ v.toNat < 3 ∧ windowOf v = none) := by
  unfold windowOf
  split_ifs with h0 h1 h2
  · exact .inl ⟨by simp [h0], .hann, rfl, h0.symm⟩
  · exact .inl ⟨by simp [h1], .hamming, rfl, h1.symm⟩
  · exact .inl ⟨by simp [h2], .blackman, rfl, h2.symm⟩
  · exact .inr ⟨by bv_omega, rfl⟩

/-- The legal values of the mask mode register are the codes below 3 (R32). -/
theorem maskModeOf_cases (v : Word) :
    (v.toNat < 3 ∧ ∃ m, maskModeOf v = some m ∧ m.code = v) ∨ (¬ v.toNat < 3 ∧ maskModeOf v = none) := by
  unfold maskModeOf
  split_ifs with h0 h1 h2
  · exact .inl ⟨by simp [h0], .lowPass, rfl, h0.symm⟩
  · exact .inl ⟨by simp [h1], .highPass, rfl, h1.symm⟩
  · exact .inl ⟨by simp [h2], .bandPass, rfl, h2.symm⟩
  · exact .inr ⟨by bv_omega, rfl⟩

/-- The writes that set `CFG_DIRTY`: to a staged register, the window only with a legal value (R25, R349). -/
abbrev SetsCfgDirty (off : Nat) (v : Word) : Prop :=
  off = 0x08 ∨ off = 0x09 ∨ (off = 0x0A ∧ v.toNat < 3) ∨ off = 0x0B

/-- The writes that set `MASK_DIRTY`: to a mask parameter, the mode only with a legal value (R25, R349). -/
abbrev SetsMaskDirty (off : Nat) (v : Word) : Prop :=
  (off = 0x30 ∧ v.toNat < 3) ∨ off = 0x31 ∨ off = 0x32 ∨ off = 0x33

/-- The writes that set `SD_DIRTY`: to `SD_TIME_MS`, `SD_SLOPE` or `SD_DAMPING` (R25). -/
abbrev SetsSdDirty (off : Nat) : Prop := off = 0x38 ∨ off = 0x39 ∨ off = 0x3B

/-- All that a host write of `v` at offset `off` can do: it leaves the registers, or it changes one group of them (R26 to R33). -/
inductive Csrs.HostWrite (c : Csrs) (off : Nat) (v : Word) : Csrs → Prop
  | ignored (hcfg : ¬ SetsCfgDirty off v) (hmask : ¬ SetsMaskDirty off v) (hsd : ¬ SetsSdDirty off) : c.HostWrite off v c
  | ie (hoff : off = 0x05) : c.HostWrite off v (c.writeIe v)
  | ip (hoff : off = 0x06) : c.HostWrite off v (c.writeIp v)
  | staged (x : StagedCfg) (hoff : SetsCfgDirty off v) : c.HostWrite off v (c.stage x)
  | tags (x : Tags) (hoff : 0x10 ≤ off ∧ off ≤ 0x15) : c.HostWrite off v { c with tags := x }
  | shiftHz (hoff : off = 0x18) : c.HostWrite off v { c with shiftHz := v }
  | lockEn (b : Bool) (hoff : off = 0x19) : c.HostWrite off v { c with lockEn := b }
  | quant (x : QuantCtl) (hoff : 0x20 ≤ off ∧ off ≤ 0x26) (hscale : x.scale = c.quant.scale ∨ x.scale.toNat < 4) :
      c.HostWrite off v { c with quant := x }
  | mask (x : MaskCtl) (hoff : SetsMaskDirty off v) : c.HostWrite off v (c.writeMask x)
  | delayTable (x : DelayCtl) (hoff : SetsSdDirty off) : c.HostWrite off v (c.writeDelayTable x)
  | delay (x : DelayCtl) (hoff : off = 0x3A ∨ off = 0x3C ∨ off = 0x3D) : c.HostWrite off v { c with delay := x }

/-- A host write does no more than `Csrs.HostWrite` says; the cases are the writable offsets in ascending order. -/
theorem Csrs.write_hostWrite (c : Csrs) (off : Nat) (v : Word) : c.HostWrite off v (c.write off v) := by
  have tag (r : SReg) (h : 0x10 ≤ off ∧ off ≤ 0x15) : c.HostWrite off v (c.writeSLen r v) := writeSLen_spc c r v ▸ .tags _ h
  unfold Csrs.write
  split
  · exact .ie rfl
  · exact .ip rfl
  · exact .staged _ (by omega)
  · exact .staged _ (by omega)
  · obtain ⟨hlt, w, hw, -⟩ | ⟨hge, hw⟩ := windowOf_cases v <;> rw [hw]
    · exact .staged _ (by omega)
    · exact .ignored (by omega) (by omega) (by omega)
  · exact .staged _ (by omega)
  · exact .tags _ (by omega)
  · exact .tags _ (by omega)
  · exact tag 0 (by omega)
  · exact tag 1 (by omega)
  · exact tag 2 (by omega)
  · exact tag 3 (by omega)
  · exact .shiftHz rfl
  · exact .lockEn _ rfl
  · exact .quant _ (by omega) (.inl rfl)
  · split
    · exact .quant _ (by omega) (.inl rfl)
    · exact .ignored (by omega) (by omega) (by omega)
  · split
    · next hlt => exact .quant _ (by omega) (.inr hlt)
    · exact .ignored (by omega) (by omega) (by omega)
  · exact .quant _ (by omega) (.inl rfl)
  · exact .quant _ (by omega) (.inl rfl)
  · exact .quant _ (by omega) (.inl rfl)
  · exact .quant _ (by omega) (.inl rfl)
  · obtain ⟨hlt, m, hm, -⟩ | ⟨hge, hm⟩ := maskModeOf_cases v <;> rw [hm]
    · exact .mask _ (by omega)
    · exact .ignored (by omega) (by omega) (by omega)
  · exact .mask _ (by omega)
  · exact .mask _ (by omega)
  · exact .mask _ (by omega)
  · exact .delayTable _ (by omega)
  · exact .delayTable _ (by omega)
  · exact .delay _ (by omega)
  · exact .delayTable _ (by omega)
  · exact .delay _ (by omega)
  · exact .delay _ (by omega)
  · exact .ignored (by simp_all) (by simp_all) (by simp_all)

section
variable {c d : Csrs} {off : Nat} {v : Word}

/-- A write to `IP` changes `DONE` and the fault record, each to cleared (R347, R351). -/
theorem Csrs.writeIp_eq (c : Csrs) (v : Word) : c.writeIp v =
    { c with
      ipDone := if v.getLsbD 0 then false else c.ipDone
      err := if v.getLsbD 1 then false else c.err
      errCode := if v.getLsbD 1 then 0 else c.errCode
      errInfo := if v.getLsbD 1 then 0 else c.errInfo } := by
  unfold Csrs.writeIp
  cases v.getLsbD 0 <;> cases v.getLsbD 1 <;> rfl

/-- What only commands change, a host write leaves (R82). -/
theorem Csrs.HostWrite.sameReadOnly (h : c.HostWrite off v d) : c.SameReadOnly d := by
  cases h
  case ip =>
    rw [writeIp_eq]
    exact ⟨rfl, rfl, rfl, rfl, rfl, rfl, rfl, rfl⟩
  all_goals exact ⟨rfl, rfl, rfl, rfl, rfl, rfl, rfl, rfl⟩

/-- No host write records a fault (R348). -/
theorem Csrs.HostWrite.err (h : c.HostWrite off v d) (herr : c.err = false) : d.err = false := by
  cases h
  case ip => rw [writeIp_eq]; simp [herr]
  all_goals exact herr

@[refl] theorem Csrs.SameReadOnly.refl (c : Csrs) : c.SameReadOnly c := ⟨rfl, rfl, rfl, rfl, rfl, rfl, rfl, rfl⟩

theorem Csrs.SameReadOnly.trans {e : Csrs} (h : c.SameReadOnly d) (h' : d.SameReadOnly e) : c.SameReadOnly e :=
  ⟨h.cfgOk.trans h'.cfgOk, h.active.trans h'.active, h.pvFirst.trans h'.pvFirst, h.qFirst.trans h'.qFirst,
    h.qPrevE.trans h'.qPrevE, h.qTrCnt.trans h'.qTrCnt, h.sdDepth.trans h'.sdDepth, h.sdWr.trans h'.sdWr⟩

theorem eq_or_decide_of_not {P : Prop} [Decidable P] {a b : Bool} (hP : ¬ P) (hab : a = b) : a = (b || decide P) := by
  simp [hP, hab]

theorem Csrs.HostWrite.cfgDirty (h : c.HostWrite off v d) : d.cfgDirty = (c.cfgDirty || decide (SetsCfgDirty off v)) := by
  cases h
  case staged x hoff => simp only [Csrs.stage, hoff, decide_true, Bool.or_true]
  case ip => exact eq_or_decide_of_not (by omega) (by rw [writeIp_eq])
  all_goals exact eq_or_decide_of_not (by omega) rfl

theorem Csrs.HostWrite.maskDirty (h : c.HostWrite off v d) : d.maskDirty = (c.maskDirty || decide (SetsMaskDirty off v)) := by
  cases h
  case mask x hoff => simp only [Csrs.writeMask, hoff, decide_true, Bool.or_true]
  case ip => exact eq_or_decide_of_not (by omega) (by rw [writeIp_eq])
  all_goals exact eq_or_decide_of_not (by omega) rfl

theorem Csrs.HostWrite.sdDirty (h : c.HostWrite off v d) : d.sdDirty = (c.sdDirty || decide (SetsSdDirty off)) := by
  cases h
  case delayTable x hoff => simp only [Csrs.writeDelayTable, hoff, decide_true, Bool.or_true]
  case ip => exact eq_or_decide_of_not (by omega) (by rw [writeIp_eq])
  all_goals exact eq_or_decide_of_not (by omega) rfl

/-- `ERR` is written at `IP` only (R347). -/
theorem Csrs.HostWrite.err_of_ne (h : c.HostWrite off v d) (hne : off ≠ 0x06) : d.err = c.err := by
  cases h
  case ip hoff => exact absurd hoff hne
  all_goals rfl

end

/-! ### The control registers as one table -/

/-- The control registers by their offset, 0 at offsets not listed. `STATUS`, at 0x02, is left out: it also shows the command in
flight. -/
def Csrs.words (c : Csrs) : List Word :=
  [idWord, 0, 0, c.errCode, c.errInfo, c.ieWord, c.ipWord, 0,
   c.staged.fftSize, c.staged.hop, c.staged.window.code, c.staged.sampleRate,
   c.active.n, c.active.hop, c.active.window.code, c.active.fs,
   c.tags.t, c.tags.z, c.tags.s[0], c.tags.s[1], c.tags.s[2], c.tags.s[3], 0, 0,
   c.shiftHz, flagBit c.lockEn 0, 0, 0, 0, 0, 0, 0,
   c.quant.strength, BitVec.ofNat 32 c.quant.root.val, c.quant.scale, flagBit c.quant.driftEn 0 ||| flagBit c.quant.envEn 1,
   c.quant.preserve, c.quant.transThr, c.quant.transAmt, c.qPrevE, c.qTrCnt, 0, 0, 0, 0, 0, 0, 0,
   c.mask.mode.code, c.mask.lo, c.mask.hi, c.mask.width, 0, 0, 0, 0,
   c.delay.timeMs, c.delay.slope, c.delay.feedback, c.delay.damping, c.delay.mix, c.delay.gain, c.sdDepth, c.sdWr]

theorem readCsr_eq_getD (s : State) (off : Nat) : s.readCsr off = (s.csr.words.set 0x02 s.status).getD off 0 := by
  by_cases hoff : off < 64
  · interval_cases off <;> rfl
  · obtain ⟨k, rfl⟩ : ∃ k, off = k + 64 := ⟨off - 64, by omega⟩
    rfl

/-- The offsets of the read-write registers without an enum type (R28 to R33). -/
def wordOffsets : List Nat :=
  [0x08, 0x09, 0x0B, 0x10, 0x11, 0x12, 0x13, 0x14, 0x15, 0x18, 0x20, 0x24, 0x25, 0x26, 0x31, 0x32, 0x33, 0x38, 0x39, 0x3A,
   0x3B, 0x3C, 0x3D]

/-- Those of `wordOffsets` that are not the tag of a frame register (R29). -/
def plainOffsets : List Nat :=
  [0x08, 0x09, 0x0B, 0x10, 0x11, 0x18, 0x20, 0x24, 0x25, 0x26, 0x31, 0x32, 0x33, 0x38, 0x39, 0x3A, 0x3B, 0x3C, 0x3D]

section
variable (c : Csrs) (v : Word)

theorem words_write_tag (r : SReg) : (c.write (0x12 + r.val) v).words = c.words.set (0x12 + r.val) v := by
  fin_cases r <;> simp [Csrs.write, Csrs.writeTag, Csrs.words, Csrs.ieWord, Csrs.ipWord]

theorem words_write_plain {off : Nat} (hoff : off ∈ plainOffsets) : (c.write off v).words = c.words.set off v := by
  unfold plainOffsets at hoff
  fin_cases hoff <;> rfl

theorem words_write_word {off : Nat} (hoff : off ∈ wordOffsets) : (c.write off v).words = c.words.set off v := by
  have hsplit : ∀ k ∈ wordOffsets, k ∈ plainOffsets ∨ ∃ r : SReg, k = 0x12 + r.val := by decide
  obtain hplain | ⟨r, rfl⟩ := hsplit off hoff
  · exact words_write_plain c v hplain
  · exact words_write_tag c v r

/-- What a host write does to a register with `n` legal values: it stores a legal one and ignores an illegal one (R349). -/
def WritesEnum (off n : Nat) : Prop :=
  if v.toNat < n then (c.write off v).words = c.words.set off v else c.write off v = c

theorem writesEnum_window : WritesEnum c v 0x0A 3 := by
  unfold WritesEnum
  obtain ⟨hlt, w, hw, rfl⟩ | ⟨hge, hw⟩ := windowOf_cases v
  · rw [if_pos hlt, show c.write 0x0A w.code = c.stage { c.staged with window := w } by simp [Csrs.write, hw]]
    rfl
  · rw [if_neg hge]
    simp [Csrs.write, hw]

theorem writesEnum_maskMode : WritesEnum c v 0x30 3 := by
  unfold WritesEnum
  obtain ⟨hlt, m, hm, rfl⟩ | ⟨hge, hm⟩ := maskModeOf_cases v
  · rw [if_pos hlt, show c.write 0x30 m.code = c.writeMask { c.mask with mode := m } by simp [Csrs.write, hm]]
    rfl
  · rw [if_neg hge]
    simp [Csrs.write, hm]

theorem writesEnum_root : WritesEnum c v 0x21 12 := by
  unfold WritesEnum
  split
  · next hlt => simp [Csrs.write, hlt, Csrs.words, Csrs.ieWord, Csrs.ipWord]
  · next hge => simp [Csrs.write, hge]

theorem writesEnum_scale : WritesEnum c v 0x22 4 := by
  unfold WritesEnum
  split
  · next hlt => rw [show c.write 0x22 v = { c with quant := { c.quant with scale := v } } from if_pos hlt]; rfl
  · next hge => exact if_neg hge

theorem words_write_ie : (c.write 0x05 v).words = c.words.set 0x05 (v &&& 3) := by rw [and_three]; rfl

theorem words_write_lockEn : (c.write 0x19 v).words = c.words.set 0x19 (v &&& 1) := by
  have hmask : (1 : Word) = flagBit true 0 := rfl
  rw [hmask, and_flagBit v (by omega)]
  rfl

theorem words_write_quantCtrl : (c.write 0x23 v).words = c.words.set 0x23 (v &&& 3) := by rw [and_three]; rfl

/-- A write to a read-only register or at an offset not listed is ignored (R26). -/
theorem write_ignored {off : Nat} (hoff : off ∉ [0x01, 0x05, 0x06, 0x08, 0x09, 0x0A, 0x0B, 0x10, 0x11, 0x12, 0x13, 0x14,
    0x15, 0x18, 0x19, 0x20, 0x21, 0x22, 0x23, 0x24, 0x25, 0x26, 0x30, 0x31, 0x32, 0x33, 0x38, 0x39, 0x3A, 0x3B, 0x3C,
    0x3D]) : c.write off v = c := by
  unfold Csrs.write
  split <;> simp at hoff ⊢

end

section
variable (s : State) (v : Word)

/-- After a write at `off` the host reads `w` there, and every other register but `STATUS` as before. -/
def Stores (off : Nat) (w : Word) : Prop :=
  let after : State := { s with csr := s.csr.write off v }
  after.readCsr off = w ∧ ∀ other, other ≠ off → other ≠ 0x02 → after.readCsr other = s.readCsr other

/-- The host reads the registers from their table, so a write that sets one entry of it stores in that register alone. -/
theorem stores_of_words_set {off : Nat} {w : Word} (hoff : off < 64 ∧ off ≠ 0x02)
    (hwords : (s.csr.write off v).words = s.csr.words.set off w) : Stores s v off w := by
  have hlen : s.csr.words.length = 64 := rfl
  constructor
  · simp [readCsr_eq_getD, hwords, hlen, hoff.1, hoff.2.symm]
  · intro other hother hstatus
    simp [readCsr_eq_getD, hwords, hother.symm, hstatus.symm]

/-- A register with `n` legal values stores a legal one; with an illegal one nothing changes at all (R349). -/
theorem stores_of_writesEnum {off n : Nat} (hoff : off < 64 ∧ off ≠ 0x02) (h : WritesEnum s.csr v off n) :
    if v.toNat < n then Stores s v off v else ({ s with csr := s.csr.write off v } : State) = s := by
  unfold WritesEnum at h
  split at h
  · next hlt => rw [if_pos hlt]; exact stores_of_words_set s v hoff h
  · next hge => rw [if_neg hge, h]

end

/-- Settles O22: the table of registers gives the clauses about what the host reads, the cases of a host write those about
`STATUS`. -/
theorem registerWrites : Obligations.RegisterWrites := by
  unfold Obligations.RegisterWrites
  intro s v after
  refine ⟨fun off hoff => ?_, fun x hx => ?_, fun x hx => ?_, fun off hoff => ?_, fun off => ?_⟩
  · have hlisted : ∀ off ∈ wordOffsets, off < 64 ∧ off ≠ 0x02 := by decide
    exact stores_of_words_set s v (hlisted off hoff) (words_write_word s.csr v hoff)
  · simp only [List.mem_cons, List.not_mem_nil, or_false] at hx
    obtain rfl | rfl | rfl | rfl := hx
    · exact stores_of_writesEnum s v (by decide) (writesEnum_window s.csr v)
    · exact stores_of_writesEnum s v (by decide) (writesEnum_root s.csr v)
    · exact stores_of_writesEnum s v (by decide) (writesEnum_scale s.csr v)
    · exact stores_of_writesEnum s v (by decide) (writesEnum_maskMode s.csr v)
  · simp only [List.mem_cons, List.not_mem_nil, or_false] at hx
    obtain rfl | rfl | rfl := hx
    · exact stores_of_words_set s v (by decide) (words_write_ie s.csr v)
    · exact stores_of_words_set s v (by decide) (words_write_lockEn s.csr v)
    · exact stores_of_words_set s v (by decide) (words_write_quantCtrl s.csr v)
  · simp only [after, write_ignored s.csr v hoff]
  · have hw := s.csr.write_hostWrite off v
    have hsame := hw.sameReadOnly
    exact ⟨hw.cfgDirty, hw.maskDirty, hw.sdDirty, hsame.cfgOk.symm, hsame.pvFirst.symm, hsame.qFirst.symm, hw.err_of_ne⟩

/-! ### What the control registers of a well-formed state satisfy -/

/-- The clauses of `State.Wf` that speak of the control registers alone. -/
structure Csrs.Legal (c : Csrs) : Prop where
  config : c.cfgOk = true → c.ConfigLegal
  record : c.RecordLegal
  ramp : c.qTrCnt.toNat ≤ 8
  scale : c.quant.scale.toNat < 4

/-- The registers that `Csrs.Legal` judges. -/
def Csrs.judged (c : Csrs) : (Bool × ActiveCfg × Word × Word) × (Bool × Word × Word) × Word × Word :=
  ((c.cfgOk, c.active, c.sdDepth, c.sdWr), (c.err, c.errCode, c.errInfo), c.qTrCnt, c.quant.scale)

section
variable {c d : Csrs}

theorem Csrs.ConfigLegal.of_eq (h : c.ConfigLegal) (hactive : d.active = c.active) (hdepth : d.sdDepth = c.sdDepth)
    (hwr : d.sdWr = c.sdWr) : d.ConfigLegal :=
  ⟨hactive ▸ h.size, hactive ▸ h.hop, hactive ▸ h.rate, hdepth ▸ h.depthLow, hdepth ▸ h.depthHigh,
    hdepth ▸ hwr ▸ h.writeIndex⟩

/-- Registers that are not judged do not matter. -/
theorem Csrs.Legal.of_judged_eq (h : c.Legal) (hsame : d.judged = c.judged) : d.Legal := by
  simp only [Csrs.judged, Prod.mk.injEq] at hsame
  obtain ⟨⟨hok, hactive, hdepth, hwr⟩, ⟨herr, hcode, hinfo⟩, hcnt, hscale⟩ := hsame
  exact ⟨fun hset => (h.config (hok ▸ hset)).of_eq hactive hdepth hwr,
    by unfold Csrs.RecordLegal; rw [herr, hcode, hinfo]; exact h.record, hcnt ▸ h.ramp, hscale ▸ h.scale⟩

/-- The write index may move inside the lines. -/
theorem Csrs.Legal.setWriteIndex (h : c.Legal) {w : Word} (hw : c.cfgOk = true → w.toNat < c.sdDepth.toNat) :
    ({ c with sdWr := w } : Csrs).Legal where
  config hok :=
    have hc := h.config hok
    ⟨hc.size, hc.hop, hc.rate, hc.depthLow, hc.depthHigh, hw hok⟩
  record := h.record
  ramp := h.ramp
  scale := h.scale

/-- The ramp counter may take any value in 0..8 (R31); the other registers of the quantizer history are not judged. -/
theorem Csrs.Legal.setQuantHistory (h : c.Legal) (e : Word) {n : Word} (first : Bool) (hn : n.toNat ≤ 8) :
    ({ c with qPrevE := e, qTrCnt := n, qFirst := first } : Csrs).Legal where
  config hok := (h.config hok).of_eq rfl rfl rfl
  record := h.record
  ramp := hn
  scale := h.scale

/-- Every cause has a code of the fault table (R341). -/
theorem Cause.code_range (f : Cause) : 1 ≤ f.code.toNat ∧ f.code.toNat ≤ 6 := by cases f <;> decide

/-- Taking a fault records a code and may clear `CFG_OK` (R345). -/
theorem Csrs.Legal.raise {s : State} (h : s.csr.Legal) (f : Cause) (info : Word) : (s.raise f info).csr.Legal where
  config hok := (h.config (Bool.and_eq_true_iff.1 hok).1).of_eq rfl rfl rfl
  record := ⟨fun _ => f.code_range, fun herr => by cases herr⟩
  ramp := h.ramp
  scale := h.scale

theorem Csrs.legal_reset : Csrs.reset.Legal where
  config hok := by cases hok
  record := ⟨fun herr => (by cases herr), fun _ => ⟨rfl, rfl⟩⟩
  ramp := by decide
  scale := by decide

end

section
variable {c d : Csrs} {off : Nat} {v : Word}

theorem Csrs.Legal.writeIp (h : c.Legal) (v : Word) : (c.writeIp v).Legal := by
  rw [writeIp_eq]
  cases v.getLsbD 1 with
  | false => exact h.of_judged_eq rfl
  | true =>
    exact ⟨fun hok => (h.config hok).of_eq rfl rfl rfl, ⟨fun herr => (by cases herr), fun _ => ⟨rfl, rfl⟩⟩, h.ramp, h.scale⟩

theorem Csrs.Legal.setQuant (h : c.Legal) {x : QuantCtl} (hscale : x.scale.toNat < 4) :
    ({ c with quant := x } : Csrs).Legal :=
  ⟨fun hok => (h.config hok).of_eq rfl rfl rfl, h.record, h.ramp, hscale⟩

theorem Csrs.Legal.hostWrite (h : c.Legal) (hw : c.HostWrite off v d) : d.Legal := by
  cases hw
  case ip => exact h.writeIp v
  case quant x hscale => exact h.setQuant (hscale.elim (fun heq => heq ▸ h.scale) id)
  all_goals exact h.of_judged_eq rfl

end

/-! ### Sound states: well-formed but for the command in flight -/

/-- The clauses of `State.Wf` that do not speak of a command in flight. -/
structure State.Sound (s : State) : Prop where
  mem : s.mem.wf = true
  memFill : s.mem.fill = none
  delay : s.delay.wf = true
  delayFill : s.csr.cfgOk = true → s.delay.fill = some 0
  legal : s.csr.Legal

/-- The clause of `State.Wf` about the command in flight: it has passed its checks, no fault is recorded, and it has latched
what only commands change as it stands (R82, R348). -/
def State.FlightOk (s : State) : Prop :=
  ∀ c, s.inFlight = some c → s.csr.err = false ∧ c.latched.issueFault c.instr = none ∧ c.latched.SameReadOnly s.csr

section
variable {s : State}

theorem State.wf_iff : s.Wf ↔ s.Sound ∧ s.FlightOk :=
  ⟨fun h => ⟨⟨h.mem, h.memFill, h.delay, h.delayFill, h.config, h.record, h.ramp, h.scale⟩, h.flight⟩,
    fun ⟨h, hf⟩ => ⟨h.mem, h.memFill, h.delay, h.delayFill, h.legal.config, h.legal.record, h.legal.ramp, h.legal.scale, hf⟩⟩

theorem State.Wf.sound (h : s.Wf) : s.Sound := (State.wf_iff.1 h).1

theorem State.Sound.wf_of_idle (h : s.Sound) (hidle : s.inFlight = none) : s.Wf :=
  State.wf_iff.2 ⟨h, fun c hc => by simp [hidle] at hc⟩

/-- Neither the command in flight nor the host's side is judged by `Sound`. -/
theorem State.Sound.withHost (h : s.Sound) (f : Option InFlight) (pending : List HostEvent) (overlap : List Nat)
    (readLog : List Word) :
    ({ s with inFlight := f, pending := pending, overlap := overlap, readLog := readLog } : State).Sound :=
  ⟨h.mem, h.memFill, h.delay, h.delayFill, h.legal⟩

theorem State.Sound.putWords (h : s.Sound) (a : Nat) (ws : List Word) : (s.putWords a ws).Sound :=
  ⟨wf_writeWords s.mem a ws h.mem, h.memFill, h.delay, h.delayFill, h.legal⟩

theorem State.Sound.putFrame (h : s.Sound) (r : SReg) (bs : List (Bin Word)) : (s.putFrame r bs).Sound := h.putWords _ _

theorem State.Sound.putComplexes (h : s.Sound) (a : Nat) (zs : List (Cx Word)) : (s.putComplexes a zs).Sound :=
  h.putWords _ _

/-- Other control registers that keep `CFG_OK` and are legal. -/
theorem State.Sound.withCsr (h : s.Sound) {c : Csrs} (hc : c.Legal) (hok : c.cfgOk = s.csr.cfgOk) :
    ({ s with csr := c } : State).Sound :=
  ⟨h.mem, h.memFill, h.delay, fun hset => h.delayFill (hok ▸ hset), hc⟩

/-- Control registers that differ only where `Csrs.Legal` does not look. -/
theorem State.Sound.unjudged (h : s.Sound) (c : Csrs) (hsame : c.judged = s.csr.judged) :
    ({ s with csr := c } : State).Sound :=
  h.withCsr (h.legal.of_judged_eq hsame) (congrArg (fun j => j.1.1) hsame)

theorem State.Sound.setQuantHistory (h : s.Sound) (e : Word) {n : Word} (first : Bool) (hn : n.toNat ≤ 8) :
    ({ s with csr := { s.csr with qPrevE := e, qTrCnt := n, qFirst := first } } : State).Sound :=
  h.withCsr (h.legal.setQuantHistory e first hn) rfl

theorem State.Sound.setWriteIndex (h : s.Sound) {w : Word} (hw : s.csr.cfgOk = true → w.toNat < s.csr.sdDepth.toNat) :
    ({ s with csr := { s.csr with sdWr := w } } : State).Sound :=
  h.withCsr (h.legal.setWriteIndex hw) rfl

theorem State.Sound.setTLen (h : s.Sound) (v : Nat) : (s.setTLen v).Sound := h.unjudged _ rfl
theorem State.Sound.setZLen (h : s.Sound) (v : Nat) : (s.setZLen v).Sound := h.unjudged _ rfl
theorem State.Sound.setSLen (h : s.Sound) (r : SReg) (v : Nat) : (s.setSLen r v).Sound := h.unjudged _ rfl

theorem State.Sound.raise (h : s.Sound) (f : Cause) (info : Word) : (s.raise f info).Sound :=
  ⟨h.mem, h.memFill, h.delay, fun hok => h.delayFill (Bool.and_eq_true_iff.1 hok).1, h.legal.raise f info⟩

/-- A completed command leaves a well-formed state if its effect is sound. -/
theorem State.Sound.complete_wf (h : s.Sound) : s.complete.Wf :=
  ((h.unjudged { s.csr with ipDone := true } rfl).withHost none s.pending s.overlap s.readLog).wf_of_idle rfl

theorem State.sound_hardReset (s : State) : s.hardReset.Sound :=
  ⟨rfl, rfl, rfl, fun hok => (by cases hok), Csrs.legal_reset⟩

/-! What clears or fills the history of the units (R139, R306). -/

theorem State.Sound.resetPv (h : s.Sound) (bins : Nat) : (hwStorage.resetPv s bins).Sound :=
  (((h.putWords _ _).putWords _ _).putWords _ _).unjudged _ rfl

theorem State.Sound.resetQ (h : s.Sound) : (hwStorage.resetQ hwNum s Params.spc).Sound := by
  rw [resetQ_spc]
  exact (((h.putWords _ _).putWords _ _).putWords _ _).setQuantHistory 0 true (by decide)

/-- Clearing the delay lines puts the write index at 0, which lies inside them once they have a depth. -/
theorem State.Sound.resetSd (h : s.Sound) : (hwStorage.resetSd s).Sound :=
  ⟨h.mem, h.memFill, rfl, fun _ => rfl, h.legal.setWriteIndex fun hok =>
    have hdepth := (h.legal.config hok).depthLow
    show 0 < s.csr.sdDepth.toNat by omega⟩

theorem State.Sound.resetUnits (h : s.Sound) (imm3 : BitVec 3) (bins : Nat) :
    (hwStorage.resetUnits spcHardware s imm3 bins).Sound := by
  have afterPv : (if imm3.getLsbD 0 then hwStorage.resetPv s bins else s).Sound := by
    split
    · exact h.resetPv bins
    · exact h
  have afterQ {u : State} (hu : u.Sound) : (if imm3.getLsbD 1 then hwStorage.resetQ hwNum u Params.spc else u).Sound := by
    split
    · exact hu.resetQ
    · exact hu
  have afterSd {u : State} (hu : u.Sound) : (if imm3.getLsbD 2 then hwStorage.resetSd u else u).Sound := by
    split
    · exact hu.resetSd
    · exact hu
  exact afterSd (afterQ afterPv)

/-- Filling a slot keeps the delay-line RAM in canonical form and what its unlisted bytes read as. -/
theorem State.Sound.putDelaySlot {par : Params} {i : Nat} {bs : List (Bin (Datum Word))} :
    ∀ {k : Nat} {s : State}, s.Sound → (hwStorage.putDelaySlot par i k bs s).Sound := by
  induction bs with
  | nil => exact id
  | cons b bs ih =>
    intro k s h
    exact ih ⟨h.mem, h.memFill, wf_writeWords s.delay _ _ h.delay, h.delayFill, h.legal⟩

end

/-! ### The effect of each command keeps the sound states -/

section
variable {p : Csrs} {s : State}

/-- The counter with which a QNT starts its ramp is the one it has latched, or two ramps (R256). -/
theorem quantCnt_le (x : QuantIn Word) (hcnt : x.cnt ≤ 8) : p.env.quantCnt x ≤ 8 := by
  unfold Env.quantCnt Env.rampStart
  split
  · exact le_rfl
  · exact hcnt

/-- The depth that CFG computes is clamped (R301). -/
theorem depth_mem_Icc {E : Env Word} (hpar : E.par = Params.spc) : E.depth ∈ Set.Icc 2 4096 := by
  have hmax : E.par.dlDepthMax = 4096 := by rw [hpar]; rfl
  simp only [Env.depth, clampInt, hmax, Set.mem_Icc]
  omega

/-- A CFG that raises no fault has legal staged values (R133). -/
theorem checkCfg_eq_none (h : p.checkCfg = none) : sizeOk p.staged.fftSize.toNat = true ∧
    hopOk p.staged.fftSize.toNat p.staged.hop.toInt = true ∧ rateOk p.staged.sampleRate = true := by
  unfold Csrs.checkCfg at h
  split at h
  · cases h
  · next hsize =>
    split at h
    · cases h
    · next hhop =>
      split at h
      · cases h
      · next hrate => simp_all

theorem winEffect_sound (h : s.Sound) : (effectOf .win p s).after.Sound := by
  show (winEffect hwStorage spcHardware p s).after.Sound
  rw [winEffect_spc]
  exact h.putWords _ _

theorem fftfEffect_sound (h : s.Sound) : (effectOf .fftf p s).after.Sound := by
  show (fftfEffect hwStorage spcHardware p s).after.Sound
  rw [fftfEffect_spc]
  exact (h.putComplexes _ _).setZLen _

theorem fftiEffect_sound (h : s.Sound) : (effectOf .ffti p s).after.Sound := by
  show (fftiEffect hwStorage spcHardware p s).after.Sound
  rw [fftiEffect_spc]
  exact (((h.putComplexes _ _).putWords _ _).setZLen _).setTLen _

theorem polarEffect_sound (h : s.Sound) (rd : SReg) : (effectOf (.polar rd) p s).after.Sound := by
  show (polarEffect hwStorage spcHardware rd p s).after.Sound
  rw [polarEffect_spc]
  exact (h.putFrame _ _).setSLen _ _

theorem rectEffect_sound (h : s.Sound) (rs1 : SReg) : (effectOf (.rect rs1) p s).after.Sound := by
  show (rectEffect hwStorage spcHardware rs1 p s).after.Sound
  rw [rectEffect_spc]
  exact (h.putComplexes _ _).setZLen _

/-- STFTF does what WIN, FFTF and POLAR do (R191). -/
theorem stftfEffect_sound (h : s.Sound) (rd : SReg) : (effectOf (.stftf rd) p s).after.Sound :=
  polarEffect_sound (fftfEffect_sound (winEffect_sound h)) rd

/-- STFTI does what RECT, FFTI and WIN do (R193). -/
theorem stftiEffect_sound (h : s.Sound) (rs1 : SReg) : (effectOf (.stfti rs1) p s).after.Sound :=
  winEffect_sound (fftiEffect_sound (rectEffect_sound h rs1))

theorem pvEffect_sound (h : s.Sound) (rd rs1 : SReg) : (effectOf (.pv rd rs1) p s).after.Sound := by
  show (pvEffect hwStorage spcHardware rd rs1 p s).after.Sound
  unfold pvEffect
  split
  · rw [pvFirstEffect_spc]
    exact (((((h.putFrame _ _).putWords _ _).putWords _ _).putWords _ _).setSLen _ _).unjudged _ rfl
  · rw [pvNextEffect_spc]
    exact ((((h.putFrame _ _).putWords _ _).putWords _ _).putWords _ _).setSLen _ _

theorem fshEffect_sound (h : s.Sound) (rd rs1 : SReg) : (effectOf (.fsh rd rs1) p s).after.Sound := by
  show (fshEffect hwStorage spcHardware rd rs1 p s).after.Sound
  rw [fshEffect_spc]
  exact (h.putFrame _ _).setSLen _ _

theorem envcEffect_sound (h : s.Sound) (rs1 : SReg) : (effectOf (.envc rs1) p s).after.Sound := by
  show (envcEffect hwStorage spcHardware rs1 p s).after.Sound
  rw [envcEffect_spc]
  exact h.putWords _ _

/-- QNT leaves its ramp counter one below the value it used, so in 0..8 (R256). -/
theorem qntEffect_sound (h : s.Sound) (hcnt : p.qTrCnt = s.csr.qTrCnt) (rd rs1 : SReg) :
    (effectOf (.qnt rd rs1) p s).after.Sound := by
  have hramp : p.env.quantCnt (s.quantIn rs1 p) ≤ 8 := quantCnt_le _ (show p.qTrCnt.toNat ≤ 8 from hcnt ▸ h.legal.ramp)
  show (qntEffect hwStorage spcHardware rd rs1 p s).after.Sound
  unfold qntEffect
  split
  · rw [quantCopyEffect_spc]
    exact (h.putFrame _ _).setSLen _ _
  · have hnext : (BitVec.ofNat 32 (p.env.quantCnt (s.quantIn rs1 p) - 1)).toNat ≤ 8 := by
      rw [BitVec.toNat_ofNat]
      omega
    rw [quantRunEffect_spc]
    exact ((((h.putFrame _ _).putWords _ _).putWords _ _).setQuantHistory _ false hnext).setSLen rd _

theorem mskbEffect_sound (h : s.Sound) : (effectOf .mskb p s).after.Sound := by
  show (mskbEffect hwStorage spcHardware p s).after.Sound
  rw [mskbEffect_spc]
  exact (h.putWords _ _).unjudged _ rfl

theorem mskEffect_sound (h : s.Sound) (rd rs1 rs2 : SReg) : (effectOf (.msk rd rs1 rs2) p s).after.Sound := by
  show (mskEffect hwStorage spcHardware rd rs1 rs2 p s).after.Sound
  rw [mskEffect_spc]
  exact (h.putFrame _ _).setSLen _ _

theorem State.Sound.buildDelay (h : s.Sound) {E : Env Word} (hE : E.num = hwNum) (depth : Nat) :
    (hwStorage.buildDelay s p E depth).Sound := by
  rw [buildDelay_spc p s hE]
  exact (h.putWords _ _).putWords _ _

theorem State.Sound.buildTables (h : s.Sound) {E : Env Word} (hE : E.num = hwNum) :
    (hwStorage.buildTables s p E).Sound := by
  rw [buildTables_spc p s hE]
  exact ((((((h.putComplexes _ _).putWords _ _).putWords _ _).putWords _ _).putWords _ _).buildDelay hE _).putWords _ _

theorem sdlpEffect_sound (h : s.Sound) : (effectOf .sdlp p s).after.Sound := by
  show (sdlpEffect hwStorage spcHardware p s).after.Sound
  rw [sdlpEffect_spc]
  exact (h.buildDelay rfl _).unjudged _ rfl

/-- Filling a slot changes no control register. -/
@[simp] theorem putDelaySlot_csr (par : Params) (i k : Nat) (bs : List (Bin (Datum Word))) (s : State) :
    (hwStorage.putDelaySlot par i k bs s).csr = s.csr := by rw [putDelaySlot_keeps]

/-- The next slot of a line lies in the line (R306). -/
theorem toNat_nextSlot_lt (w : Nat) {depth : Nat} (hpos : 0 < depth) : (BitVec.ofNat 32 ((w + 1) % depth)).toNat < depth := by
  rw [BitVec.toNat_ofNat]
  exact (Nat.mod_le _ _).trans_lt (Nat.mod_lt _ hpos)

/-- SDL moves the write index to the next slot of the lines, which have a depth once configured (R306). -/
theorem sdlEffect_sound (h : s.Sound) (hdepth : p.sdDepth = s.csr.sdDepth) (rd rs1 : SReg) :
    (effectOf (.sdl rd rs1) p s).after.Sound := by
  show (sdlEffect hwStorage spcHardware rd rs1 p s).after.Sound
  rw [sdlEffect_spc]
  refine ((h.putDelaySlot.putFrame _ _).setSLen _ _).setWriteIndex fun hok => ?_
  simp only [setSLen_csr, Csrs.writeTag, State.putFrame, putWords_csr, putDelaySlot_csr] at hok ⊢
  have hlow := (h.legal.config hok).depthLow
  rw [hdepth]
  exact toNat_nextSlot_lt _ (by omega)

/-- CFG makes values that passed its checks the active configuration, and clears the delay lines (R133). -/
theorem cfgEffect_sound (h : s.Sound) (hcheck : p.checkCfg = none) : (effectOf .cfg p s).after.Sound := by
  obtain ⟨hsize, hhop, hrate⟩ := checkCfg_eq_none hcheck
  obtain ⟨hlow, hhigh⟩ := depth_mem_Icc (E := p.stagedEnv) rfl
  have hdepth : (BitVec.ofNat 32 p.stagedEnv.depth).toNat = p.stagedEnv.depth := by rw [BitVec.toNat_ofNat]; omega
  have hunits := (h.buildTables (p := p) (E := p.stagedEnv) rfl).resetUnits 7 p.stagedEnv.bins
  show (cfgEffect hwStorage spcHardware p s).after.Sound
  rw [cfgEffect_spc]
  exact ⟨hunits.mem, hunits.memFill, hunits.delay, fun _ => rfl, fun _ =>
    ⟨hsize, hhop, hrate, hlow.trans_eq hdepth.symm, hdepth.trans_le hhigh,
      show 0 < (BitVec.ofNat 32 p.stagedEnv.depth).toNat by omega⟩,
    hunits.legal.record, hunits.legal.ramp, hunits.legal.scale⟩

/-- The effect of a command whose checks pass, which has latched what only commands change as it stands. -/
theorem effect_sound (i : Instr) (h : s.Sound) (hsame : p.SameReadOnly s.csr) (hcheck : p.issueFault i = none) :
    (effectOf i p s).after.Sound := by
  cases i with
  | nop => exact h
  | cfg => exact cfgEffect_sound h hcheck
  | reset imm3 => exact h.resetUnits imm3 p.bins
  | win => exact winEffect_sound h
  | fftf => exact fftfEffect_sound h
  | ffti => exact fftiEffect_sound h
  | polar rd => exact polarEffect_sound h rd
  | rect rs1 => exact rectEffect_sound h rs1
  | stftf rd => exact stftfEffect_sound h rd
  | stfti rs1 => exact stftiEffect_sound h rs1
  | pv rd rs1 => exact pvEffect_sound h rd rs1
  | fsh rd rs1 => exact fshEffect_sound h rd rs1
  | envc rs1 => exact envcEffect_sound h rs1
  | qnt rd rs1 => exact qntEffect_sound h hsame.qTrCnt rd rs1
  | mskb => exact mskbEffect_sound h
  | msk rd rs1 rs2 => exact mskEffect_sound h rd rs1 rs2
  | sdlp => exact sdlpEffect_sound h
  | sdl rd rs1 => exact sdlEffect_sound h hsame.sdDepth rd rs1

end

/-! ### Every step keeps the well-formed states -/

section
variable {s t : State}

/-- A command whose parameters agree with the registers in what only commands change leaves a well-formed state, if a fault
it raises finds no command in flight. -/
theorem State.Sound.exec_wf (h : s.Sound) {i : Instr} (hsame : s.params.SameReadOnly s.csr)
    (hidle : ∀ f, s.params.issueFault i = some f → s.inFlight = none) (hx : exec i s = .next t) : t.Wf := by
  obtain ⟨f, hf, rfl⟩ | ⟨hcheck, -, rfl⟩ := exec_cases hx
  · exact (h.raise f.cause f.info).wf_of_idle (hidle f hf)
  · exact (effect_sound i h hsame hcheck).complete_wf

/-- A command runs at once while none is in flight (R80). -/
theorem State.Sound.exec_idle_wf (h : s.Sound) {i : Instr} (hidle : s.inFlight = none) (hx : exec i s = .next t) : t.Wf :=
  h.exec_wf (params_of_idle hidle ▸ .refl s.csr) (fun _ _ => hidle) hx

/-- The command in flight completes: its checks passed at its issue. -/
theorem State.Wf.exec_flight_wf (h : s.Wf) {c : InFlight} (hc : s.inFlight = some c) (hx : exec c.instr s = .next t) :
    t.Wf := by
  obtain ⟨-, hcheck, hsame⟩ := h.flight c hc
  rw [← params_of_busy hc] at hcheck hsame
  exact h.sound.exec_wf hsame (fun f hf => by simp [hcheck] at hf) hx

/-- A command that is issued has passed its checks and latches the registers as they stand (R82). -/
theorem State.Sound.issue_wf (h : s.Sound) {i : Instr} {n : Nat} (hidle : s.inFlight = none) (herr : s.csr.err = false) :
    (s.issue i n).Wf := by
  unfold State.issue
  split
  · next f _ => exact (h.raise f.cause f.info).wf_of_idle hidle
  · next hcheck =>
    refine State.wf_iff.2 ⟨h.withHost _ s.pending s.overlap s.readLog, fun c hc => ?_⟩
    obtain rfl := Option.some.inj hc
    exact ⟨herr, params_of_idle hidle ▸ hcheck, .refl s.csr⟩

/-- What is still to come at the bus, and what was read, does not matter. -/
theorem State.Wf.withHost (h : s.Wf) (pending : List HostEvent) (overlap : List Nat) (readLog : List Word) :
    ({ s with pending := pending, overlap := overlap, readLog := readLog } : State).Wf :=
  State.wf_iff.2 ⟨h.sound.withHost s.inFlight pending overlap readLog, h.flight⟩

/-- The overlap of the command in flight does not matter. -/
theorem State.Wf.withLeft (h : s.Wf) {c : InFlight} (hc : s.inFlight = some c) (n : Nat) :
    ({ s with inFlight := some { c with left := n } } : State).Wf := by
  refine State.wf_iff.2 ⟨h.sound.withHost _ s.pending s.overlap s.readLog, fun d hd => ?_⟩
  obtain rfl := Option.some.inj hd
  exact h.flight c hc

theorem State.Wf.serveRead (h : s.Wf) (a : WordAddr) : (s.serveRead a).Wf := h.withHost s.pending s.overlap _

/-- A host write leaves the registers that only commands change, or stores a word (R82, R371). -/
theorem State.Wf.memWrite (h : s.Wf) (a : WordAddr) (v : Word) : (s.memWrite a v).Wf := by
  have hwrite := s.csr.write_hostWrite a.toNat v
  unfold State.memWrite State.busWrite
  split
  · refine State.wf_iff.2 ⟨h.sound.withCsr (h.sound.legal.hostWrite hwrite) hwrite.sameReadOnly.cfgOk.symm, fun c hc => ?_⟩
    obtain ⟨herr, hcheck, hsame⟩ := h.flight c hc
    exact ⟨hwrite.err herr, hcheck, hsame.trans hwrite.sameReadOnly⟩
  · split
    · exact State.wf_iff.2 ⟨h.sound.putWords _ _, h.flight⟩
    · exact h

theorem State.wf_hardReset (s : State) : s.hardReset.Wf := s.sound_hardReset.wf_of_idle rfl

theorem State.Wf.serveBusy (h : s.Wf) {c : InFlight} (hc : s.inFlight = some c) (e : HostEvent) : (s.serveBusy c e).Wf := by
  have hcounted := h.withLeft hc (c.left - 1)
  cases e with
  | read a => exact hcounted.serveRead a
  | write a v => exact hcounted.memWrite a v
  | hardReset => exact State.wf_hardReset _

end

/-- Settles O26: along the cases of a step, an access, a reset, a fault, an issue or a completion each leave a well-formed
state. -/
theorem stepKeepsWellFormed : Obligations.StepKeepsWellFormed := by
  unfold Obligations.StepKeepsWellFormed
  intro s t h hstep
  have hrest (rest : List HostEvent) (o : List Nat) : ({ s with pending := rest, overlap := o } : State).Wf :=
    h.withHost rest o s.readLog
  obtain ⟨-, -, rfl⟩ | ⟨hidle, e, rest, -, hserved⟩ | ⟨c, hc, hx | ⟨e, rest, -, -, rfl⟩⟩ := step_cases hstep
  · exact h
  · obtain ⟨a, -, rfl⟩ | ⟨a, v, -, -, rfl⟩ | ⟨-, rfl⟩ | ⟨w, -, hcmd⟩ := hserved
    · exact (hrest rest s.overlap).serveRead a
    · exact (hrest rest s.overlap).memWrite a v
    · exact State.wf_hardReset _
    · obtain ⟨-, rfl⟩ | ⟨-, -, rfl⟩ | ⟨herr, i, -, ⟨-, hx⟩ | ⟨n, o, -, rfl⟩⟩ := hcmd
      · exact hrest rest s.overlap
      · exact ((hrest rest s.overlap).sound.raise .illegalCmd w).wf_of_idle hidle
      · exact (hrest rest s.overlap.tail).sound.exec_idle_wf hidle hx
      · exact (hrest rest o).sound.issue_wf hidle herr
  · exact h.exec_flight_wf hc hx
  · exact (hrest rest s.overlap).serveBusy hc e

end Sys2Proof.Machine

/-! SUPPORT. The statements of the memory chapter (spec/20_memory.md): the address map (R73), host accesses (R77, R79, R371),
issue and completion (R80, R82), and that every step keeps the tables of the configuration (R85). -/

namespace Sys2Proof.Machine

/-! ### What one step does with the next host access -/

section
variable {s : State} {rest : List HostEvent}

theorem step_read_idle {a : WordAddr} (hidle : s.inFlight = none) (hp : s.pending = .read a :: rest) :
    step s = .next (State.serveRead { s with pending := rest } a) := by
  simp [step, advance, State.plan, State.serve, hidle, hp]

theorem step_write_idle {a : WordAddr} {v : Word} (hidle : s.inFlight = none) (ha : a ≠ cmdAddr)
    (hp : s.pending = .write a v :: rest) : step s = .next (State.memWrite { s with pending := rest } a v) := by
  simp [step, advance, State.plan, State.serve, hidle, hp, ha]

/-- A command that overlaps no access is checked, executed and completed in one step (R80). -/
theorem step_command_merged {w : Word} {i : Instr} {o : List Nat} (hidle : s.inFlight = none) (herr : s.csr.err = false)
    (hp : s.pending = .write cmdAddr w :: rest) (hw : decode w = .ok i) (ho : s.overlap = 0 :: o) :
    step s = exec i { s with pending := rest, overlap := o } := by
  simp [step, advance, State.plan, State.serve, State.command, hidle, hp, herr, hw, ho]

/-- A command that overlaps an access is issued (R80). -/
theorem step_command_issued {w : Word} {i : Instr} {n : Nat} {o : List Nat} (hidle : s.inFlight = none)
    (herr : s.csr.err = false) (hp : s.pending = .write cmdAddr w :: rest) (hw : decode w = .ok i)
    (ho : s.overlap = (n + 1) :: o) : step s = .next (State.issue { s with pending := rest, overlap := o } i n) := by
  simp [step, advance, State.plan, State.serve, State.command, hidle, hp, herr, hw, ho]

variable {c : InFlight} {e : HostEvent}

/-- With no access to come that it would let pass, the command in flight completes (R79). -/
theorem step_completes (hc : s.inFlight = some c) (he : ∀ e ∈ s.pending.head?, c.completesBefore e = true) :
    step s = exec c.instr s := by
  cases hp : s.pending with
  | nil => simp [step, advance, State.plan, hc, hp]
  | cons e rest =>
    have hfirst := he e (by simp [hp])
    simp [step, advance, State.plan, hc, hp, hfirst]

/-- An access that the command in flight lets pass is served (R79). -/
theorem step_serves_busy (hc : s.inFlight = some c) (hp : s.pending = e :: rest) (he : c.completesBefore e = false) :
    step s = .next (State.serveBusy { s with pending := rest } c e) := by
  simp [step, advance, State.plan, hc, hp, he]

/-- An access that stalls waits for the completion, whatever overlap is left (R79). -/
theorem completesBefore_of_stalls (he : e.stalls = true) : c.completesBefore e = true := by
  cases e with
  | read a => simp [InFlight.completesBefore, he]
  | write a v => simp [InFlight.completesBefore, he]
  | hardReset => cases he

theorem completesBefore_of_passes (he : e.stalls = false) (hleft : 0 < c.left) : c.completesBefore e = false := by
  have hne : c.left ≠ 0 := by omega
  cases e <;> simp [InFlight.completesBefore, he, hne]

theorem step_completes_of_stalls (hc : s.inFlight = some c) (hp : s.pending = e :: rest) (he : e.stalls = true) :
    step s = exec c.instr s :=
  step_completes hc fun d hd => by
    obtain rfl : e = d := by simpa [hp] using hd
    exact completesBefore_of_stalls he

end

section
variable {a : WordAddr}

theorem isCsrAddr_of_lt (ha : a.toNat < 0x100) : isCsrAddr a = true := decide_eq_true ha

theorem isCsrAddr_of_ge (ha : 0x100 ≤ a.toNat) : isCsrAddr a = false := decide_eq_false (by omega)

end

/-- What the host reads of the control registers depends on them and on whether a command is in flight (R25). -/
theorem readCsr_congr {s t : State} (hcsr : t.csr = s.csr) (hbusy : t.busy = s.busy) (off : Nat) :
    t.readCsr off = s.readCsr off := by
  have hstatus : t.status = s.status := by unfold State.status; rw [hcsr, hbusy]
  rw [readCsr_eq_getD, readCsr_eq_getD, hcsr, hstatus]

/-- Settles O6: an access that stalls lets the command complete, one that does not is served while overlap is left. -/
theorem busyAccessesStallOrPass : Obligations.BusyAccessesStallOrPass := by
  unfold Obligations.BusyAccessesStallOrPass
  intro s c rest hc
  refine ⟨fun a ha hp => ?_, fun a v ha hp => ?_, fun a ha hleft hp => ?_, fun a v ha hcmd hleft hp => ?_⟩
  · exact step_completes_of_stalls hc hp (by simp [HostEvent.stalls, isCsrAddr_of_ge ha])
  · refine step_completes_of_stalls hc hp ?_
    obtain ha | rfl := ha
    · simp [HostEvent.stalls, isCsrAddr_of_ge ha]
    · rfl
  · have hcsr := isCsrAddr_of_lt ha
    rw [step_serves_busy hc hp (completesBefore_of_passes (by simp [HostEvent.stalls, hcsr]) hleft)]
    have hread : State.readCsr { s with pending := rest, inFlight := some { c with left := c.left - 1 } } a.toNat =
        s.readCsr a.toNat := by
      apply readCsr_congr
      · rfl
      · simp [State.busy, hc]
    simp [State.serveBusy, State.serveRead, State.memRead, hcsr, hread]
  · have hcsr := isCsrAddr_of_lt ha
    have hpasses : (HostEvent.write a v).stalls = false := by
      have hne : (a == cmdAddr) = false := beq_false_of_ne hcmd
      simp [HostEvent.stalls, hcsr, hne]
    rw [step_serves_busy hc hp (completesBefore_of_passes hpasses hleft)]
    simp [State.serveBusy, State.memWrite, hcsr]

/-! ### The address map -/

/-- The word addresses above the control registers where the map has a word (R73). -/
abbrev StoresWord (a : Nat) : Prop :=
  (0x1000 ≤ a ∧ a < 0x4000) ∨ (0x4000 ≤ a ∧ a < 0xC000 ∧ a % 0x2000 < 4098) ∨ (0xC000 ≤ a ∧ a < 0xD000) ∨
    (0xE000 ≤ a ∧ a < 0x12800) ∨ (0x13000 ≤ a ∧ a < 0x16130)

/-- Those that the host may write: T, Z, the pairs of the frame registers and DRIFT (R73). -/
abbrev StoresHostWrite (a : Nat) : Prop :=
  (0x1000 ≤ a ∧ a < 0x4000) ∨ (0x4000 ≤ a ∧ a < 0xC000 ∧ a % 0x2000 < 4098) ∨ (0x12000 ≤ a ∧ a < 0x12800)

/-- No word address lies in two regions (R73). -/
theorem regions_apart : ∀ r ∈ regions, ∀ r' ∈ regions,
    r = r' ∨ r.base + r.size ≤ r'.base ∨ r'.base + r'.size ≤ r.base := by decide

section
variable {a : Nat} {r : Region}

theorem regionOf_eq_some_iff : regionOf a = some r ↔ r ∈ regions ∧ r.base ≤ a ∧ a < r.base + r.size := by
  have hfound {q : Region} (h : regionOf a = some q) : q ∈ regions ∧ q.base ≤ a ∧ a < q.base + q.size :=
    ⟨List.mem_of_find?_eq_some h, by simpa using List.find?_some h⟩
  refine ⟨hfound, ?_⟩
  rintro ⟨hr, hlow, hhigh⟩
  cases h : regionOf a with
  | none =>
    have hout := List.find?_eq_none.1 h r hr
    simp only [hlow, hhigh, and_self, decide_true, not_true_eq_false] at hout
  | some q =>
    obtain ⟨hq, hlow', hhigh'⟩ := hfound h
    obtain rfl | hapart := regions_apart q hq r hr
    · rfl
    · omega

theorem region_existsAt_iff : (∃ r, regionOf a = some r ∧ r.existsAt a = true) ↔ StoresWord a := by
  simp only [regionOf_eq_some_iff, regions_spc, Region.existsAt, and_assoc]
  simp [tBase, zBase, sBase, twBase, brBase, winBase, maskBase, dampBase, dlenBase, bandBase, driftBase, pmagBase, pphBase,
    sphBase, accBase, silBase, envBase]
  omega

theorem hostWritable_iff : hostWritable a = true ↔ StoresHostWrite a := by
  have hregion : hostWritable a = true ↔ ∃ r, regionOf a = some r ∧ r.access = .rw ∧ r.existsAt a = true := by
    unfold hostWritable
    cases regionOf a <;> simp
  rw [hregion]
  simp only [regionOf_eq_some_iff, regions_spc, Region.existsAt, and_assoc]
  simp [tBase, zBase, sBase, driftBase]
  omega

theorem busRead_eq (s : State) (a : Nat) : s.busRead a = if StoresWord a then s.rawWord a else 0 := by
  rw [← if_congr region_existsAt_iff rfl rfl]
  unfold State.busRead
  cases regionOf a <;> simp

theorem busWrite_eq (s : State) (a : Nat) (v : Word) :
    s.busWrite a v = if StoresHostWrite a then s.putWords a [v] else s := by
  rw [← if_congr hostWritable_iff rfl rfl]
  rfl

end

theorem memRead_csr {s : State} {a : WordAddr} (ha : a.toNat < 0x100) : s.memRead a = s.readCsr a.toNat :=
  if_pos (isCsrAddr_of_lt ha)

theorem memRead_bus {s : State} {a : WordAddr} (ha : 0x100 ≤ a.toNat) :
    s.memRead a = if StoresWord a.toNat then s.rawWord a.toNat else 0 := by
  rw [← busRead_eq]
  exact if_neg (by simp [isCsrAddr_of_ge ha])

theorem memWrite_csr {s : State} {a : WordAddr} {v : Word} (ha : a.toNat < 0x100) :
    s.memWrite a v = { s with csr := s.csr.write a.toNat v } := if_pos (isCsrAddr_of_lt ha)

theorem memWrite_bus {s : State} {a : WordAddr} {v : Word} (ha : 0x100 ≤ a.toNat) :
    s.memWrite a v = if StoresHostWrite a.toNat then s.putWords a.toNat [v] else s := by
  rw [← busWrite_eq]
  exact if_neg (by simp [isCsrAddr_of_ge ha])

/-- Settles O20: a read is served with the register or with what the map has at the address. -/
theorem hostReads : Obligations.HostReads := by
  unfold Obligations.HostReads
  intro s a rest hidle hp
  have hstored (ha : 0x100 ≤ a.toNat) (h : StoresWord a.toNat) : s.memRead a = s.rawWord a.toNat := by
    rw [memRead_bus ha, if_pos h]
  have habsent (ha : 0x100 ≤ a.toNat) (h : ¬ StoresWord a.toNat) : s.memRead a = 0 := by rw [memRead_bus ha, if_neg h]
  have hsame : State.memRead { s with pending := rest } a = s.memRead a := rfl
  refine ⟨s.memRead a, by rw [step_read_idle hidle hp, State.serveRead, hsame], memRead_csr, fun _ _ => ?_, fun _ _ => ?_,
    fun _ _ => ?_, fun _ _ => ?_, fun _ _ => ?_, fun _ _ => ?_, fun _ => ?_⟩
  · exact habsent (by omega) (by omega)
  · exact hstored (by omega) (by omega)
  · split
    · exact hstored (by omega) (by omega)
    · exact habsent (by omega) (by omega)
  · split
    · exact habsent (by omega) (by omega)
    · exact hstored (by omega) (by omega)
  · exact habsent (by omega) (by omega)
  · exact hstored (by omega) (by omega)
  · exact habsent (by omega) (by omega)

/-- Settles O21: a write is served by storing one word where the map lets the host, and by nothing elsewhere. -/
theorem hostStorageWrites : Obligations.HostStorageWrites := by
  unfold Obligations.HostStorageWrites
  intro s a v rest hidle ha hp writable
  have hcmd : a ≠ cmdAddr := by rintro rfl; simp [cmdAddr] at ha
  have hstep := step_write_idle hidle hcmd hp
  rw [memWrite_bus ha] at hstep
  by_cases h : writable
  · rw [if_pos h] at hstep ⊢
    rw [if_pos h]
    refine ⟨_, hstep, ?_, ?_, rfl⟩
    · exact putWords_rawWord_inside { s with pending := rest } a.toNat [v] 0 (by simp)
    · exact (sameBytesOutside_refl _ _).putWords (s := { s with pending := rest }) a.toNat [v] (by simp)
  · rw [if_neg h] at hstep ⊢
    rw [if_neg h]
    exact ⟨_, hstep, rfl, sameBytesOutside_refl _ _, rfl⟩

/-! ### What the effect of a command depends on

An effect reads storage and its latched parameters (R82).
Whatever else the state holds, the effect handles the same reals and leaves the same storage. -/

/-- The state `u` with the storage of `s`. -/
def State.withStorage (u s : State) : State := { u with mem := s.mem, delay := s.delay, epoch := s.epoch }

/-- On every state with the storage of `s` the effect `e` handles the same reals, leaves the same storage and changes the
control registers by `g s`; everything else it leaves. -/
def UniformEffect (e : State → Effect Word State) (g : State → Csrs → Csrs) : Prop :=
  ∀ s u : State, e (u.withStorage s) =
    ⟨(e s).data, { u.withStorage s with csr := g s u.csr, mem := (e s).after.mem, delay := (e s).after.delay }⟩

/-- The registers that only CFG changes (R136). -/
def KeepsConfig (g : State → Csrs → Csrs) : Prop :=
  ∀ s c, (g s c).active = c.active ∧ (g s c).sdDepth = c.sdDepth ∧ (g s c).cfgOk = c.cfgOk

/-- A uniform effect that leaves the registers that only CFG changes. -/
def KeepingEffect (e : State → Effect Word State) : Prop := ∃ g, KeepsConfig g ∧ UniformEffect e g

section
variable {e f : State → Effect Word State} {g g' : State → Csrs → Csrs}

theorem UniformEffect.after_epoch (he : UniformEffect e g) (s : State) : (e s).after.epoch = s.epoch :=
  congrArg (fun x => x.after.epoch) (he s s)

theorem UniformEffect.andThen (he : UniformEffect e g) (hf : UniformEffect f g') :
    UniformEffect (fun s => (e s).andThen f) fun s c => g' (e s).after (g s c) := by
  intro s u
  have hepoch := he.after_epoch s
  have hafter : (e (u.withStorage s)).after = State.withStorage { u with csr := g s u.csr } (e s).after := by
    rw [he s u]
    simp only [State.withStorage, hepoch]
  simp only [Effect.andThen, hafter, hf _ { u with csr := g s u.csr }]
  rw [he s u]
  simp only [State.withStorage, hepoch]

theorem UniformEffect.keeping (h : UniformEffect e g)
    (hg : KeepsConfig g := by exact fun _ _ => ⟨rfl, rfl, rfl⟩) : KeepingEffect e := ⟨g, hg, h⟩

theorem KeepingEffect.andThen (he : KeepingEffect e) (hf : KeepingEffect f) :
    KeepingEffect fun s => (e s).andThen f := by
  obtain ⟨g, hg, he⟩ := he
  obtain ⟨g', hg', hf⟩ := hf
  refine ⟨_, fun s c => ?_, he.andThen hf⟩
  obtain ⟨hactive, hdepth, hok⟩ := hg s c
  obtain ⟨hactive', hdepth', hok'⟩ := hg' (e s).after (g s c)
  exact ⟨hactive'.trans hactive, hdepth'.trans hdepth, hok'.trans hok⟩

end

/-- An effect may be written in bus words. -/
theorem UniformEffect.of_eq {e e' : State → Effect Word State} {g : State → Csrs → Csrs} (heq : ∀ s, e s = e' s)
    (h : UniformEffect e' g) : UniformEffect e g := by
  obtain rfl : e = e' := funext heq
  exact h

/-- An effect that takes place only where the flag `b` is set. -/
theorem UniformEffect.onlyIf {f : State → State} {g : State → Csrs → Csrs} (h : UniformEffect (fun s => ⟨[], f s⟩) g)
    (b : Bool) : UniformEffect (fun s => ⟨[], if b then f s else s⟩) fun s c => if b then g s c else c := by
  cases b with
  | true => exact h
  | false => exact fun _ _ => rfl

section
variable (p : Csrs) (rd rs1 rs2 : SReg)

theorem nopEffect_uniform : UniformEffect (effectOf .nop p) fun _ c => c := fun _ _ => rfl

theorem winEffect_uniform : UniformEffect (effectOf .win p) fun _ c => c := .of_eq (winEffect_spc p) fun _ _ => rfl

theorem fftfEffect_uniform : UniformEffect (effectOf .fftf p) fun _ c => c.withZLen p.env.n :=
  .of_eq (fftfEffect_spc p) fun _ _ => rfl

theorem fftiEffect_uniform : UniformEffect (effectOf .ffti p) fun _ c => (c.withZLen p.env.n).withTLen p.env.n :=
  .of_eq (fftiEffect_spc p) fun _ _ => rfl

theorem polarEffect_uniform : UniformEffect (effectOf (.polar rd) p) fun _ c => c.withSLen rd p.env.bins :=
  .of_eq (fun s => polarEffect_spc p s rd) fun _ _ => rfl

theorem rectEffect_uniform : UniformEffect (effectOf (.rect rs1) p) fun _ c => c.withZLen p.env.n :=
  .of_eq (fun s => rectEffect_spc p s rs1) fun _ _ => rfl

theorem pvFirstEffect_uniform : UniformEffect (pvFirstEffect hwStorage rd rs1 p)
    fun _ c => { c.withSLen rd p.bins with pvFirst := false } :=
  .of_eq (fun s => pvFirstEffect_spc p s rd rs1) fun _ _ => rfl

theorem pvNextEffect_uniform : UniformEffect (pvNextEffect hwStorage spcHardware rd rs1 p)
    fun _ c => c.withSLen rd p.env.bins :=
  .of_eq (fun s => pvNextEffect_spc p s rd rs1) fun _ _ => rfl

theorem fshEffect_uniform : UniformEffect (effectOf (.fsh rd rs1) p) fun _ c => c.withSLen rd p.env.bins :=
  .of_eq (fun s => fshEffect_spc p s rd rs1) fun _ _ => rfl

theorem envcEffect_uniform : UniformEffect (effectOf (.envc rs1) p) fun _ c => c :=
  .of_eq (fun s => envcEffect_spc p s rs1) fun _ _ => rfl

theorem quantCopyEffect_uniform : UniformEffect (quantCopyEffect hwStorage spcHardware rd rs1 p)
    fun _ c => c.withSLen rd p.env.bins :=
  .of_eq (fun s => quantCopyEffect_spc p s rd rs1) fun _ _ => rfl

theorem quantRunEffect_uniform : UniformEffect (quantRunEffect hwStorage spcHardware rd rs1 p) fun s c =>
    let x := s.quantIn rs1 p
    let history : Csrs :=
      { c with qPrevE := p.env.energy x.mag, qTrCnt := BitVec.ofNat 32 (p.env.quantCnt x - 1), qFirst := false }
    history.withSLen rd p.env.bins :=
  .of_eq (fun s => quantRunEffect_spc p s rd rs1) fun _ _ => rfl

theorem mskbEffect_uniform : UniformEffect (effectOf .mskb p) fun _ c => { c with maskDirty := false } :=
  .of_eq (mskbEffect_spc p) fun _ _ => rfl

theorem mskEffect_uniform : UniformEffect (effectOf (.msk rd rs1 rs2) p) fun _ c => c.withSLen rd p.env.bins :=
  .of_eq (fun s => mskEffect_spc p s rd rs1 rs2) fun _ _ => rfl

theorem sdlpEffect_uniform : UniformEffect (effectOf .sdlp p) fun _ c => { c with sdDirty := false } :=
  .of_eq (sdlpEffect_spc p) fun _ _ => rfl

/-- The delay-line RAM with pairs stored in slot `slot` of lines `k`, `k + 1`, … (R306). -/
def fillSlot (par : Params) (slot : Nat) : Nat → List (Bin (Datum Word)) → Memory → Memory
  | _, [], m => m
  | k, b :: bs, m => fillSlot par slot (k + 1) bs (m.writeWords (delayIndex k slot par) [b.mag.word, b.ph.word])

theorem putDelaySlot_eq_fillSlot (par : Params) (slot : Nat) (bs : List (Bin (Datum Word))) : ∀ (k : Nat) (s : State),
    hwStorage.putDelaySlot par slot k bs s = { s with delay := fillSlot par slot k bs s.delay } := by
  induction bs with
  | nil => intro k s; rfl
  | cons b bs ih => intro k s; exact ih (k + 1) (hwStorage.putDelay s (delayIndex k slot par) [b.mag, b.ph])

theorem sdlEffect_uniform : UniformEffect (effectOf (.sdl rd rs1) p) fun _ c =>
    { c.withSLen rd p.env.bins with sdWr := BitVec.ofNat 32 ((p.sdWr.toNat + 1) % p.sdDepth.toNat) } := by
  refine .of_eq (fun s => sdlEffect_spc p s rd rs1) fun s u => ?_
  simp only [putDelaySlot_eq_fillSlot]
  rfl

/-- The registers that a RESET clears (R139). -/
def resetRegisters (imm3 : BitVec 3) (c : Csrs) : Csrs :=
  let c := if imm3.getLsbD 0 then { c with pvFirst := true } else c
  let c := if imm3.getLsbD 1 then { c with qPrevE := 0, qTrCnt := 0, qFirst := true } else c
  if imm3.getLsbD 2 then { c with sdWr := 0 } else c

theorem resetUnits_uniform (imm3 : BitVec 3) (bins : Nat) :
    UniformEffect (fun s => ⟨[], hwStorage.resetUnits spcHardware s imm3 bins⟩) fun _ c => resetRegisters imm3 c := by
  have hpv : UniformEffect (fun s => ⟨[], hwStorage.resetPv s bins⟩) fun _ c => { c with pvFirst := true } := fun _ _ => rfl
  have hq : UniformEffect (fun s => ⟨[], hwStorage.resetQ hwNum s Params.spc⟩)
      fun _ c => { c with qPrevE := 0, qTrCnt := 0, qFirst := true } :=
    .of_eq (fun s => congrArg _ (resetQ_spc s)) fun _ _ => rfl
  have hsd : UniformEffect (fun s => ⟨[], hwStorage.resetSd s⟩) fun _ c => { c with sdWr := 0 } := fun _ _ => rfl
  exact ((hpv.onlyIf (imm3.getLsbD 0)).andThen (hq.onlyIf (imm3.getLsbD 1))).andThen (hsd.onlyIf (imm3.getLsbD 2))

theorem resetEffect_uniform (imm3 : BitVec 3) :
    UniformEffect (effectOf (.reset imm3) p) fun _ c => resetRegisters imm3 c := resetUnits_uniform imm3 p.bins

theorem cfgEffect_uniform : UniformEffect (effectOf .cfg p) fun _ c =>
    { resetRegisters 7 c with
      active := ⟨p.staged.fftSize, p.staged.hop, p.staged.window, p.staged.sampleRate⟩
      sdDepth := BitVec.ofNat 32 p.stagedEnv.depth
      tags := ⟨0, 0, #v[0, 0, 0, 0]⟩
      cfgOk := true, cfgDirty := false, maskDirty := false, sdDirty := false } := by
  have htables : UniformEffect (fun s => hwEffect (p.maskParams ++ p.delayParams ++ p.cfgReals p.stagedEnv)
      (hwStorage.buildTables s p p.stagedEnv)) fun _ c => c := fun _ _ => rfl
  have hactivate : UniformEffect (fun s => ⟨[], s.activate p p.stagedEnv.depth⟩)
      fun _ c => (State.activate { State.reset with csr := c } p p.stagedEnv.depth).csr := fun _ _ => rfl
  refine .of_eq (fun s => ?_) ((htables.andThen (resetUnits_uniform 7 p.stagedEnv.bins)).andThen hactivate)
  rw [effectOf, effectOn, cfgEffect_spc]
  simp only [Effect.andThen, hwEffect, List.append_nil]

theorem resetRegisters_keepsConfig (imm3 : BitVec 3) : KeepsConfig fun _ c => resetRegisters imm3 c := by
  intro _ c
  unfold resetRegisters
  dsimp only
  split_ifs <;> exact ⟨rfl, rfl, rfl⟩

/-- Every command but CFG leaves what only CFG changes (R136). -/
theorem effect_keeping {i : Instr} (hi : i ≠ .cfg) : KeepingEffect (effectOf i p) := by
  have hwin := (winEffect_uniform p).keeping
  have hfftf := (fftfEffect_uniform p).keeping
  have hffti := (fftiEffect_uniform p).keeping
  cases i with
  | nop => exact (nopEffect_uniform p).keeping
  | cfg => exact absurd rfl hi
  | reset imm3 => exact (resetEffect_uniform p imm3).keeping (resetRegisters_keepsConfig imm3)
  | win => exact hwin
  | fftf => exact hfftf
  | ffti => exact hffti
  | polar rd => exact (polarEffect_uniform p rd).keeping
  | rect rs1 => exact (rectEffect_uniform p rs1).keeping
  | stftf rd => exact (hwin.andThen hfftf).andThen (polarEffect_uniform p rd).keeping
  | stfti rs1 => exact ((rectEffect_uniform p rs1).keeping.andThen hffti).andThen hwin
  | pv rd rs1 =>
    show KeepingEffect (pvEffect hwStorage spcHardware rd rs1 p)
    unfold pvEffect
    split
    · exact (pvFirstEffect_uniform p rd rs1).keeping
    · exact (pvNextEffect_uniform p rd rs1).keeping
  | fsh rd rs1 => exact (fshEffect_uniform p rd rs1).keeping
  | envc rs1 => exact (envcEffect_uniform p rs1).keeping
  | qnt rd rs1 =>
    show KeepingEffect (qntEffect hwStorage spcHardware rd rs1 p)
    unfold qntEffect
    split
    · exact (quantCopyEffect_uniform p rd rs1).keeping
    · exact (quantRunEffect_uniform p rd rs1).keeping
  | mskb => exact (mskbEffect_uniform p).keeping
  | msk rd rs1 rs2 => exact (mskEffect_uniform p rd rs1 rs2).keeping
  | sdlp => exact (sdlpEffect_uniform p).keeping
  | sdl rd rs1 => exact (sdlEffect_uniform p rd rs1).keeping

theorem effect_uniform (i : Instr) : ∃ g, UniformEffect (effectOf i p) g := by
  by_cases hi : i = .cfg
  · subst hi
    exact ⟨_, cfgEffect_uniform p⟩
  · obtain ⟨g, -, h⟩ := effect_keeping p hi
    exact ⟨g, h⟩

/-- An effect handles the same reals and leaves the same storage whatever the control registers hold (R82). -/
theorem effect_sameStorage (i : Instr) (s u : State) :
    (effectOf i p (u.withStorage s)).data = (effectOf i p s).data ∧
      (effectOf i p (u.withStorage s)).after.mem = (effectOf i p s).after.mem ∧
      (effectOf i p (u.withStorage s)).after.delay = (effectOf i p s).after.delay := by
  obtain ⟨g, hg⟩ := effect_uniform p i
  rw [hg s u]
  exact ⟨rfl, rfl, rfl⟩

/-- A command in flight does what it would do with no command in flight (R80). -/
theorem effect_withFlight (i : Instr) (s : State) (c : Option InFlight) :
    (effectOf i p { s with inFlight := c }).data = (effectOf i p s).data ∧
      (effectOf i p { s with inFlight := c }).after.complete = (effectOf i p s).after.complete := by
  obtain ⟨g, hg⟩ := effect_uniform p i
  have hflight := hg s { s with inFlight := c }
  have hidle := hg s s
  simp only [State.withStorage] at hflight hidle
  rw [hflight, congrArg Effect.after hidle]
  exact ⟨rfl, rfl⟩

end

/-! ### Issue and completion -/

/-- A command whose checks pass completes with its effect, or is refused for a real that is none (R327). -/
theorem exec_checked {i : Instr} {s : State} (hcheck : s.params.issueFault i = none) : exec i s =
    if (effectOf i s.params s).data.all Datum.ok then .next (effectOf i s.params s).after.complete
    else .refused .nonFiniteReal := by
  simp [exec_eq_runCommand, runCommand, hcheck]

/-- A command that has latched the registers as they stand completes as it would without having been issued (R80). -/
theorem exec_inFlight {i : Instr} {s : State} (n : Nat) (hidle : s.inFlight = none) (hcheck : s.csr.issueFault i = none) :
    exec i { s with inFlight := some ⟨i, s.csr, n⟩ } = exec i s := by
  have hparams := params_of_idle hidle
  have hflight : State.params { s with inFlight := some ⟨i, s.csr, n⟩ } = s.csr := rfl
  obtain ⟨hdata, hafter⟩ := effect_withFlight s.csr i s (some ⟨i, s.csr, n⟩)
  have hchecked : s.params.issueFault i = none := by rw [hparams, hcheck]
  rw [exec_checked hchecked, exec_checked (hflight ▸ hcheck), hparams, hflight, hdata, hafter]

/-- Settles O8: both states have the parameters that the command has latched, and the same storage. -/
theorem latchedParameters : Obligations.LatchedParameters := by
  unfold Obligations.LatchedParameters
  intro i s c x y t h
  obtain ⟨f, hf, rfl⟩ | ⟨hcheck, hreal, rfl⟩ := exec_cases h
  · exact ⟨_, exec_faults (s := { s with inFlight := some c, csr := y }) hf, rfl, rfl⟩
  · obtain ⟨hdata, hmem, hdelay⟩ := effect_sameStorage c.latched i { s with inFlight := some c, csr := x }
      { s with inFlight := some c, csr := y }
    refine ⟨_, exec_completes (s := { s with inFlight := some c, csr := y }) hcheck ?_, hmem, hdelay⟩
    exact fun d hd => hreal d (hdata ▸ hd)

/-- Settles O7: the state between issue and completion is the one before but for the command in flight, with which the
command completes as the merged one does; a fault is raised at issue in both forms. -/
theorem splitCommandRefinesMerged : Obligations.SplitCommandRefinesMerged := by
  unfold Obligations.SplitCommandRefinesMerged
  intro s w rest i n o hidle herr hp hw ho
  have hmerged : step { s with overlap := 0 :: o } = exec i { s with pending := rest, overlap := o } :=
    step_command_merged (s := { s with overlap := 0 :: o }) hidle herr hp hw rfl
  have hissued := step_command_issued hidle herr hp hw ho
  refine ⟨fun hcheck hstalls => ?_, fun f hf => ?_⟩
  · have hissue : State.issue { s with pending := rest, overlap := o } i n =
        { s with pending := rest, overlap := o, inFlight := some ⟨i, s.csr, n⟩ } := by
      simp [State.issue, State.params, hidle, hcheck]
    rw [hissue] at hissued
    refine ⟨_, hissued, rfl, rfl, rfl, rfl, ?_⟩
    rw [step_completes rfl fun e he => completesBefore_of_stalls (hstalls e he), hmerged]
    exact exec_inFlight (s := { s with pending := rest, overlap := o }) n hidle hcheck
  · have hissue : State.issue { s with pending := rest, overlap := o } i n =
        State.raise { s with pending := rest, overlap := o } f.cause f.info := by
      simp [State.issue, State.params, hidle, hf]
    have hparams : State.params { s with pending := rest, overlap := o } = s.csr := params_of_idle hidle
    rw [hissue] at hissued
    refine ⟨hissued, ?_⟩
    rw [hissued, hmerged, exec_faults (hparams ▸ hf)]

/-! ### Words that a store leaves as they were -/

/-- The word address `a` lies outside the block. -/
def Block.Misses (b : Block) (a : Nat) : Prop := a < b.base ∨ b.base + b.size ≤ a

section
variable {s t : State} {a n : Nat}

/-- A word depends on its bytes and on the free values of the reset (R380). -/
theorem word_of_sameBytes {bs : List Block} (h : SameBytesOutside bs s.mem t.mem) (hepoch : t.epoch = s.epoch)
    (ha : ∀ b ∈ bs, b.Misses a) : t.word a = s.word a := by
  have hbyte (j : Nat) (hj : j < 4) : t.mem.byte? (4 * a + j) = s.mem.byte? (4 * a + j) := by
    refine h _ fun b hb => ?_
    have hmiss := ha b hb
    unfold Block.Misses at hmiss
    omega
  have hraw : t.rawWord a = s.rawWord a := by
    simp only [State.rawWord, Memory.word, hbyte 0 (by omega), hbyte 1 (by omega), hbyte 2 (by omega), hbyte 3 (by omega),
      hepoch]
  unfold State.word
  rw [hraw, hepoch, show t.mem.byte? (4 * a) = s.mem.byte? (4 * a) from hbyte 0 (by omega)]

theorem words_congr (h : ∀ i, i < n → t.word (a + i) = s.word (a + i)) : t.words a n = s.words a n :=
  List.map_congr_left fun i hi => h i (List.mem_range.1 hi)

theorem complexes_congr (h : ∀ i, i < 2 * n → t.word (a + i) = s.word (a + i)) :
    t.complexes a n = s.complexes a n := by
  refine List.map_congr_left fun k hk => ?_
  have hk := List.mem_range.1 hk
  rw [Nat.add_assoc, h (2 * k) (by omega), h (2 * k + 1) (by omega)]

/-- Words that hold interleaved complex numbers are read as those numbers (R73). -/
theorem complexes_of_words {zs : List (Cx Word)} (h : s.words a (2 * zs.length) = cxWords zs) :
    s.complexes a zs.length = zs := by
  refine List.ext_getElem (length_complexes s a _) fun k hk hk' => ?_
  have hword (i : Nat) (hi : i < 2 * zs.length) : some (s.word (a + i)) = (cxWords zs)[i]? := by
    rw [← h]
    simp [State.words, hi]
  obtain ⟨hre, him⟩ := getElem_flatMap_pair Cx.re Cx.im zs k hk'
  have hfirst := (hword (2 * k) (by omega)).trans hre
  have hsecond := (hword (2 * k + 1) (by omega)).trans him
  simp only [Option.some.injEq, ← Nat.add_assoc] at hfirst hsecond
  simp [State.complexes, hfirst, hsecond]

theorem words_putWords {ws : List Word} (hl : ws.length = n) : (s.putWords a ws).words a n = ws := by
  subst hl
  refine List.ext_getElem (length_words _ _ _) fun i hi hi' => ?_
  simp only [State.words, List.getElem_map, List.getElem_range]
  exact putWords_word_inside s a ws i hi'

theorem words_putWords_outside {b : Nat} {ws : List Word} (h : a + n ≤ b ∨ b + ws.length ≤ a) :
    (s.putWords b ws).words a n = s.words a n :=
  words_congr fun i hi => putWords_word_outside s b ws (a + i) (by omega)

/-- Stores lists of words, each from its word address on. -/
def State.putAll (s : State) (stores : List (Nat × List Word)) : State :=
  stores.foldl (fun t w => t.putWords w.1 w.2) s

/-- The words of one store lie below those of the other, or above them. -/
def StoresApart (v w : Nat × List Word) : Prop := v.1 + v.2.length ≤ w.1 ∨ w.1 + w.2.length ≤ v.1

theorem putAll_word_outside {stores : List (Nat × List Word)} : ∀ {s : State},
    (∀ w ∈ stores, a < w.1 ∨ w.1 + w.2.length ≤ a) → (s.putAll stores).word a = s.word a := by
  induction stores with
  | nil => intros; rfl
  | cons w stores ih =>
    intro s h
    rw [List.forall_mem_cons] at h
    exact (ih h.2).trans (putWords_word_outside s w.1 w.2 a h.1)

/-- Of stores that are apart every one is read back. -/
theorem words_putAll {stores : List (Nat × List Word)} {ws : List Word} : ∀ {s : State},
    stores.Pairwise StoresApart → (a, ws) ∈ stores → ws.length = n → (s.putAll stores).words a n = ws := by
  induction stores with
  | nil => intro s _ h; cases h
  | cons w stores ih =>
    intro s happart hmem hl
    rw [List.pairwise_cons] at happart
    obtain ⟨hfirst, hrest⟩ := happart
    obtain rfl | hmem := List.mem_cons.1 hmem
    · have hkept (i : Nat) (hi : i < n) : ((s.putWords a ws).putAll stores).word (a + i) = (s.putWords a ws).word (a + i) :=
        putAll_word_outside fun v hv => by
          have hv : a + ws.length ≤ v.1 ∨ v.1 + v.2.length ≤ a := hfirst v hv
          omega
      exact (words_congr hkept).trans (words_putWords hl)
    · exact ih hrest hmem hl

end

/-! ### Where commands write -/

/-- The word addresses of TW, BR, WIN and BAND, with the unmapped page after TW (R73). -/
abbrev InTables (a : Nat) : Prop := (twBase ≤ a ∧ a < maskBase) ∨ (bandBase ≤ a ∧ a < driftBase)

/-- The word addresses of DLEN (R73). -/
abbrev InLengths (a : Nat) : Prop := dlenBase ≤ a ∧ a < bandBase

/-- The word addresses of Q_SIL (R73). -/
abbrev InSilence (a : Nat) : Prop := silBase ≤ a ∧ a < envBase

theorem inLengths_of_lt {n k : Nat} (hn : n ≤ 4096) (hk : k < n / 2) : InLengths (dlenBase + k) := by
  simp only [InLengths, dlenBase, bandBase]
  omega

theorem inSilence_of_lt {n : Nat} (hn : n < 128) : InSilence (silBase + n) := by
  simp only [InSilence, silBase, envBase]
  omega

/-- Whether a command writes the silence counters: RESET of the quantizer, and QNT with a positive strength (R139, R251). -/
def Csrs.writesSilence (p : Csrs) : Instr → Bool
  | .reset imm3 => imm3.getLsbD 1
  | .qnt _ _ => !p.strengthZero
  | _ => false

/-- Where the blocks of the commands but CFG lie: before TW, in MASK or DAMP, in DLEN for SDLP, in the history of the units. -/
inductive Csrs.WritePlace (p : Csrs) (i : Instr) (b : Block) : Prop
  | buffers (h : b.base + b.size ≤ twBase)
  | shapes (h : maskBase ≤ b.base ∧ b.base + b.size ≤ dlenBase)
  | lengths (hi : i = .sdlp) (h : dlenBase ≤ b.base ∧ b.base + b.size ≤ bandBase)
  | history (h : pmagBase ≤ b.base ∧ b.base + b.size ≤ silBase)
  | silence (hw : p.writesSilence i = true) (h : silBase ≤ b.base ∧ b.base + b.size ≤ envBase)
  | envelope (h : envBase ≤ b.base)

section
variable {p : Csrs} {i : Instr}

theorem writtenBlocks_place (hi : i ≠ .cfg) (hn : p.active.n.toNat ≤ 4096) :
    ∀ b ∈ p.writtenBlocks i, p.WritePlace i b := by
  have ht : p.WritePlace i ⟨tBase, p.active.n.toNat⟩ := .buffers (by simp only [tBase, twBase]; omega)
  have hz : p.WritePlace i ⟨zBase, 2 * p.active.n.toNat⟩ := .buffers (by simp only [zBase, twBase]; omega)
  have hframe (r : SReg) : p.WritePlace i (frameBlock r (p.active.n.toNat / 2 + 1)) :=
    .buffers (by simp only [frameBlock, sBase, twBase]; omega)
  have hmask : p.WritePlace i ⟨maskBase, p.active.n.toNat / 2⟩ := .shapes (by simp only [maskBase, dlenBase]; omega)
  have hdamp : p.WritePlace i ⟨dampBase, p.active.n.toNat / 2⟩ :=
    .shapes (by simp only [maskBase, dampBase, dlenBase]; omega)
  have hdlen (h : i = .sdlp) : p.WritePlace i ⟨dlenBase, p.active.n.toNat / 2⟩ :=
    .lengths h (by simp only [dlenBase, bandBase]; omega)
  have hpmag : p.WritePlace i ⟨pmagBase, p.active.n.toNat / 2 + 1⟩ := .history (by simp only [pmagBase, silBase]; omega)
  have hpph : p.WritePlace i ⟨pphBase, p.active.n.toNat / 2 + 1⟩ :=
    .history (by simp only [pmagBase, pphBase, silBase]; omega)
  have hsph : p.WritePlace i ⟨sphBase, p.active.n.toNat / 2 + 1⟩ :=
    .history (by simp only [pmagBase, sphBase, silBase]; omega)
  have hacc : p.WritePlace i ⟨accBase, 128⟩ := .history (by simp [pmagBase, accBase, silBase])
  have hsil (hw : p.writesSilence i = true) : p.WritePlace i ⟨silBase, 128⟩ := .silence hw (by simp [silBase, envBase])
  have henv : p.WritePlace i ⟨envBase, 48⟩ := .envelope le_rfl
  cases i with
  | nop => exact List.forall_mem_nil _
  | cfg => exact absurd rfl hi
  | reset imm3 =>
    unfold Csrs.writtenBlocks
    refine List.forall_mem_append.2 ⟨?_, ?_⟩
    · split
      · simp [hpmag, hpph, hsph]
      · exact List.forall_mem_nil _
    · split
      · next hq => simp [hacc, hsil hq, henv]
      · exact List.forall_mem_nil _
  | win => simp [Csrs.writtenBlocks, ht]
  | fftf => simp [Csrs.writtenBlocks, hz]
  | ffti => simp [Csrs.writtenBlocks, hz, ht]
  | polar rd => simp [Csrs.writtenBlocks, hframe]
  | rect rs1 => simp [Csrs.writtenBlocks, hz]
  | stftf rd => simp [Csrs.writtenBlocks, ht, hz, hframe]
  | stfti rs1 => simp [Csrs.writtenBlocks, hz, ht]
  | pv rd rs1 => simp [Csrs.writtenBlocks, hframe, hpmag, hpph, hsph]
  | fsh rd rs1 => simp [Csrs.writtenBlocks, hframe]
  | envc rs1 => simp [Csrs.writtenBlocks, henv]
  | qnt rd rs1 =>
    unfold Csrs.writtenBlocks
    refine List.forall_mem_cons.2 ⟨hframe rd, ?_⟩
    split
    · exact List.forall_mem_nil _
    · next hq => simp [hacc, hsil (by simp [Csrs.writesSilence, hq])]
  | mskb => simp [Csrs.writtenBlocks, hmask]
  | msk rd rs1 rs2 => simp [Csrs.writtenBlocks, hframe]
  | sdlp => simp [Csrs.writtenBlocks, hdamp, hdlen]
  | sdl rd rs1 => simp [Csrs.writtenBlocks, hframe]

/-- A word of the tables that the command does not write (R85). -/
def Csrs.KeptWord (p : Csrs) (i : Instr) (a : Nat) : Prop :=
  InTables a ∨ (InLengths a ∧ i ≠ .sdlp) ∨ (InSilence a ∧ p.writesSilence i = false)

theorem writtenBlocks_miss {a : Nat} (hi : i ≠ .cfg) (hn : p.active.n.toNat ≤ 4096) (ha : p.KeptWord i a) :
    ∀ b ∈ p.writtenBlocks i, b.Misses a := by
  intro b hb
  simp only [Csrs.KeptWord, InTables, InLengths, InSilence, twBase, maskBase, dlenBase, bandBase, driftBase, silBase,
    envBase] at ha
  unfold Block.Misses
  cases writtenBlocks_place hi hn b hb with
  | buffers h => unfold twBase at h; omega
  | shapes h => unfold maskBase dlenBase at h; omega
  | lengths hsdlp h =>
    simp only [hsdlp, ne_eq, not_true_eq_false, and_false, false_or] at ha
    unfold dlenBase bandBase at h
    omega
  | history h => unfold pmagBase silBase at h; omega
  | silence hw h =>
    simp only [hw, Bool.true_eq_false, and_false, or_false] at ha
    unfold silBase envBase at h
    omega
  | envelope h => unfold envBase at h; omega

/-- What the effect of a command but CFG leaves: the registers that only CFG changes, and the words it does not write. -/
theorem effect_keeps (s : State) (hi : i ≠ .cfg) :
    (effectOf i p s).after.epoch = s.epoch ∧ (effectOf i p s).after.csr.active = s.csr.active ∧
      (effectOf i p s).after.csr.sdDepth = s.csr.sdDepth ∧ (effectOf i p s).after.csr.cfgOk = s.csr.cfgOk := by
  obtain ⟨g, hkeeps, hg⟩ := effect_keeping p hi
  have hafter := congrArg Effect.after (hg s s)
  obtain ⟨hactive, hdepth, hok⟩ := hkeeps s s.csr
  change (effectOf i p s).after = _ at hafter
  rw [hafter]
  exact ⟨rfl, hactive, hdepth, hok⟩

theorem effect_word (s : State) {a : Nat} (hi : i ≠ .cfg) (hn : p.active.n.toNat ≤ 4096) (ha : p.KeptWord i a) :
    (effectOf i p s).after.word a = s.word a := by
  obtain ⟨hepoch, -⟩ := effect_keeps (p := p) s hi
  exact word_of_sameBytes (effect_inBlocks p s i) hepoch (writtenBlocks_miss hi hn ha)

end

/-! ### The delay lengths -/

section
variable {p : Csrs} {s : State} {E : Env Word}

/-- The delay lengths of `lines` lines lie in 1..`depth` - 1 (R44). -/
def State.LengthsLegal (s : State) (lines depth : Nat) : Prop :=
  ∀ k, k < lines → 1 ≤ (s.word (dlenBase + k)).toNat ∧ (s.word (dlenBase + k)).toNat ≤ depth - 1

/-- A delay length that is computed is clamped (R303). -/
theorem delayLen_mem_Icc {depth : Nat} (hdepth : 2 ≤ depth) (timeMs slope : Word) (k : Nat) :
    E.delayLen depth timeMs slope k ∈ Set.Icc 1 (depth - 1) := by
  simp only [Env.delayLen, clampInt, Set.mem_Icc]
  omega

theorem lengthsLegal_of_words {depth : Nat} {timeMs slope : Word} (hdepth : depth ∈ Set.Icc 2 4096)
    (h : s.words dlenBase E.lines = natWords (E.dlenTable depth timeMs slope)) : s.LengthsLegal E.lines depth := by
  intro k hk
  obtain ⟨hlow, hhigh⟩ := hdepth
  have hword : s.word (dlenBase + k) = BitVec.ofNat 32 (E.delayLen depth timeMs slope k) := by
    have hget := congrArg (fun ws : List Word => ws[k]?) h
    simpa [State.words, natWords, Env.dlenTable, tabulate, hk] using hget
  obtain ⟨hone, hlast⟩ := delayLen_mem_Icc (E := E) hlow timeMs slope k
  rw [hword, BitVec.toNat_ofNat, Nat.mod_eq_of_lt (by omega)]
  exact ⟨hone, hlast⟩

/-- SDLP builds the lengths for the depth in force (R304). -/
theorem sdlpEffect_lengths (hdepth : p.sdDepth.toNat ∈ Set.Icc 2 4096) :
    (effectOf .sdlp p s).after.LengthsLegal p.env.lines p.sdDepth.toNat := by
  refine lengthsLegal_of_words (E := p.env) (timeMs := p.delay.timeMs) (slope := p.delay.slope) hdepth ?_
  show (sdlpEffect hwStorage spcHardware p s).after.words _ _ = _
  rw [sdlpEffect_spc]
  show (hwStorage.buildDelay s p p.env p.sdDepth.toNat).words _ _ = _
  rw [buildDelay_spc p s rfl]
  exact words_putWords (by simp)

end

/-! ### The silence counters -/

section
variable {p : Csrs} {s : State}

/-- The silence counters are in 0..8 (R41). -/
def State.SilenceLegal (s : State) : Prop := ∀ n, n < 128 → (s.word (silBase + n)).toNat ≤ 8

theorem silenceLegal_of_words {ns : List Nat} (h : s.words silBase 128 = natWords ns) (hns : ∀ n ∈ ns, n ≤ 8) :
    s.SilenceLegal := by
  intro n hn
  have hget : some (s.word (silBase + n)) = (natWords ns)[n]? := by
    rw [← h]
    simp [State.words, hn]
  obtain ⟨m, hm, hword⟩ : ∃ m, ns[n]? = some m ∧ BitVec.ofNat 32 m = s.word (silBase + n) := by
    simpa [natWords] using hget.symm
  have hle := hns m (List.mem_of_getElem? hm)
  rw [← hword, BitVec.toNat_ofNat, Nat.mod_eq_of_lt (by omega)]
  exact hle

/-- The step of a note leaves its counter at 0 or counts it up to the limit (R259). -/
theorem noteStep_silence_le {R : Type} (E : Env R) (ph : List R) (a : List (Merged R)) (n : Nat) (acc : R) (sil : Nat) :
    (E.noteStep ph a n acc sil).2 ≤ E.par.silFrames := by
  unfold Env.noteStep
  split
  · split <;> exact Nat.zero_le _
  · dsimp only
    split <;> exact Nat.min_le_right _ _

theorem resetQ_silence : (hwStorage.resetQ hwNum s Params.spc).SilenceLegal := by
  refine silenceLegal_of_words (ns := List.replicate 128 8) ?_ (by simp)
  rw [resetQ_spc]
  have henv : silBase + 128 ≤ envBase := by decide
  change State.words (((s.putWords accBase (List.replicate 128 0)).putWords silBase (List.replicate 128 8)).putWords envBase
    (List.replicate 48 0)) silBase 128 = _
  rw [words_putWords_outside (.inl henv), words_putWords List.length_replicate]
  exact List.map_replicate.symm

/-- The delay lines are not on the bus (R71). -/
theorem State.SilenceLegal.resetSd (h : s.SilenceLegal) : (hwStorage.resetSd s).SilenceLegal := h

theorem resetUnits_silence {imm3 : BitVec 3} (hq : imm3.getLsbD 1 = true) (bins : Nat) :
    (hwStorage.resetUnits spcHardware s imm3 bins).SilenceLegal := by
  unfold Storage.resetUnits
  simp only [hq, if_true]
  split
  · exact State.SilenceLegal.resetSd resetQ_silence
  · exact resetQ_silence

theorem quantRunEffect_silence (rd rs1 : SReg) :
    (quantRunEffect hwStorage spcHardware rd rs1 p s).after.SilenceLegal := by
  refine silenceLegal_of_words (ns := (p.env.quantHistory (s.quantIn rs1 p)).map Prod.snd) ?_ fun n hn => ?_
  · rw [quantRunEffect_spc]
    have hist := length_quantHistory p.env (s.quantIn rs1 p)
    exact words_putWords ((length_natWords _).trans ((List.length_map _).trans hist))
  · obtain ⟨x, hx, rfl⟩ := List.mem_map.1 hn
    obtain ⟨m, -, rfl⟩ := (mem_tabulate _ _ _).1 hx
    exact noteStep_silence_le p.env _ _ m _ _

/-- The commands that write the silence counters leave them in 0..8 (R139, R259). -/
theorem effect_silence {i : Instr} (hw : p.writesSilence i = true) : (effectOf i p s).after.SilenceLegal := by
  cases i with
  | reset imm3 => exact resetUnits_silence hw p.bins
  | qnt rd rs1 =>
    have hzero : p.strengthZero = false := by simpa [Csrs.writesSilence] using hw
    show (qntEffect hwStorage spcHardware rd rs1 p s).after.SilenceLegal
    unfold qntEffect
    rw [if_neg (by simpa [Csrs.strengthZero] using hzero)]
    exact quantRunEffect_silence rd rs1
  | _ => cases hw

end

/-! ### The tables that CFG builds -/

section
variable (p : Csrs) (s : State)

/-- The stores of a CFG with the tables of the environment `E` (R133). -/
def Csrs.tableStores (p : Csrs) (E : Env Word) : List (Nat × List Word) :=
  [(twBase, cxWords E.twTable), (brBase, natWords E.brTable), (winBase, E.winTable p.staged.window),
   (bandBase, natWords E.bandTable), (maskBase, E.maskTable p.mask.mode p.mask.lo p.mask.hi p.mask.width),
   (dampBase, E.dampTable p.delay.damping), (dlenBase, natWords (E.dlenTable E.depth p.delay.timeMs p.delay.slope)),
   (driftBase, List.replicate E.lines 0)]

theorem buildTables_eq_putAll {E : Env Word} (hE : E.num = hwNum) :
    hwStorage.buildTables s p E = s.putAll (p.tableStores E) := by
  rw [buildTables_spc p s hE, buildDelay_spc p _ hE]
  rfl

/-- For a size that CFG accepts no table reaches into another (R73, R133). -/
theorem tableStores_apart {E : Env Word} (hn : E.n ≤ 4096) : (p.tableStores E).Pairwise StoresApart := by
  have hlines : E.lines = E.n / 2 := rfl
  simp only [Csrs.tableStores, List.pairwise_cons, List.forall_mem_cons, List.not_mem_nil, false_imp_iff, implies_true,
    List.Pairwise.nil, and_true, StoresApart, length_cxWords, length_natWords, length_twTable, length_brTable,
    length_winTable, length_bandTable, length_maskTable, length_dampTable, length_dlenTable, List.length_replicate, hlines,
    twBase, brBase, winBase, bandBase, maskBase, dampBase, dlenBase, driftBase]
  omega

theorem words_buildTables {E : Env Word} (hE : E.num = hwNum) (hn : E.n ≤ 4096) {a n : Nat} {ws : List Word}
    (h : (a, ws) ∈ p.tableStores E) (hl : ws.length = n) : (hwStorage.buildTables s p E).words a n = ws := by
  rw [buildTables_eq_putAll p s hE]
  exact words_putAll (tableStores_apart p hn) h hl

/-- A reset writes only the history of the units, which lies above the tables (R73, R139). -/
theorem resetUnits_word (imm3 : BitVec 3) (bins : Nat) {a : Nat} (ha : a < pmagBase) :
    (hwStorage.resetUnits spcHardware s imm3 bins).word a = s.word a := by
  have hframe := (sameBytesOutside_refl ([⟨pmagBase, bins⟩, ⟨pphBase, bins⟩, ⟨sphBase, bins⟩] ++
    [⟨accBase, 128⟩, ⟨silBase, 128⟩, ⟨envBase, 48⟩]) s.mem).resetUnits (imm3 := imm3)
    (fun _ => List.subset_append_left _ _) (fun _ => List.subset_append_right _ _)
  refine word_of_sameBytes hframe ((resetUnits_uniform imm3 bins).after_epoch s) ?_
  simp only [List.cons_append, List.nil_append, List.forall_mem_cons, List.not_mem_nil, false_imp_iff, implies_true,
    and_true, Block.Misses, pmagBase, pphBase, sphBase, accBase, silBase, envBase] at ha ⊢
  omega

/-- What CFG makes active is the environment it builds tables in (R133). -/
theorem activate_env (depth : Nat) : (s.activate p depth).csr.env = p.stagedEnv := rfl

theorem activate_window (depth : Nat) : (s.activate p depth).csr.active.window = p.staged.window := rfl

/-- Making a configuration active stores no word. -/
theorem activate_words (depth a n : Nat) : (s.activate p depth).words a n = s.words a n := rfl

theorem State.SilenceLegal.activate {s : State} (h : s.SilenceLegal) (depth : Nat) : (s.activate p depth).SilenceLegal := h

theorem cfgEffect_after : (effectOf .cfg p s).after =
    (hwStorage.resetUnits spcHardware (hwStorage.buildTables s p p.stagedEnv) 7 p.stagedEnv.bins).activate p
      p.stagedEnv.depth := congrArg Effect.after (cfgEffect_spc p s)

theorem words_cfgEffect (hn : p.stagedEnv.n ≤ 4096) {a n : Nat} {ws : List Word}
    (h : (a, ws) ∈ p.tableStores p.stagedEnv) (hl : ws.length = n) (ha : a + n ≤ pmagBase) :
    (effectOf .cfg p s).after.words a n = ws := by
  rw [cfgEffect_after, activate_words, ← words_buildTables p s rfl hn h hl]
  exact words_congr fun i hi => resetUnits_word _ 7 p.stagedEnv.bins (by omega)

theorem cfgEffect_silence : (effectOf .cfg p s).after.SilenceLegal := by
  rw [cfgEffect_after]
  exact State.SilenceLegal.activate p (resetUnits_silence (imm3 := 7) (by decide) p.stagedEnv.bins) p.stagedEnv.depth

/-- The tables as CFG leaves them are those of the configuration that it makes active (R133). -/
theorem cfgEffect_tables (hcheck : p.checkCfg = none) : (effectOf .cfg p s).after.TablesLegal := by
  obtain ⟨hsize, -, -⟩ := checkCfg_eq_none hcheck
  have hn : p.stagedEnv.n ≤ 4096 := le_of_sizeOk hsize
  have hlines : p.stagedEnv.lines = p.stagedEnv.n / 2 := rfl
  have hdepth := depth_mem_Icc (E := p.stagedEnv) rfl
  have henv : (effectOf .cfg p s).after.csr.env = p.stagedEnv := by rw [cfgEffect_after, activate_env]
  have hwindow : (effectOf .cfg p s).after.csr.active.window = p.staged.window := by
    rw [cfgEffect_after, activate_window]
  have hword : (effectOf .cfg p s).after.csr.sdDepth.toNat = p.stagedEnv.depth := by
    obtain ⟨-, hhigh⟩ := hdepth
    rw [cfgEffect_after]
    show (BitVec.ofNat 32 p.stagedEnv.depth).toNat = p.stagedEnv.depth
    rw [BitVec.toNat_ofNat]
    omega
  refine ⟨?_, ?_, ?_, ?_, ?_, cfgEffect_silence p s⟩
  · rw [henv, ← length_twTable]
    exact complexes_of_words (words_cfgEffect p s hn (by simp [Csrs.tableStores]) (length_cxWords _) (by
      rw [length_twTable]; unfold twBase pmagBase; omega))
  · rw [henv]
    exact words_cfgEffect p s hn (by simp [Csrs.tableStores]) (by simp) (by unfold brBase pmagBase; omega)
  · rw [henv, hwindow]
    exact words_cfgEffect p s hn (by simp [Csrs.tableStores]) (length_winTable _ _) (by unfold winBase pmagBase; omega)
  · rw [henv]
    exact words_cfgEffect p s hn (by simp [Csrs.tableStores]) (by simp) (by unfold bandBase pmagBase; omega)
  · rw [henv, hword]
    exact lengthsLegal_of_words (timeMs := p.delay.timeMs) (slope := p.delay.slope) hdepth
      (words_cfgEffect p s hn (by simp [Csrs.tableStores]) (by simp) (by unfold dlenBase pmagBase; omega))

end

/-! ### Every step keeps the tables -/

/-- While `CFG_OK` is 1 the tables are those of the active configuration (R85). -/
def State.TablesOk (s : State) : Prop := s.csr.cfgOk = true → s.TablesLegal

section
variable {s t : State}

/-- Tables whose words stay, with lengths and counters in their ranges, are those of a configuration that stays (R85). -/
theorem State.TablesLegal.of_words (h : s.TablesLegal) (hn : s.csr.active.n.toNat ≤ 4096)
    (hactive : t.csr.active = s.csr.active) (hwords : ∀ a, InTables a → t.word a = s.word a)
    (hlengths : t.LengthsLegal s.csr.env.lines t.csr.sdDepth.toNat) (hsilence : t.SilenceLegal) : t.TablesLegal := by
  have henv : t.csr.env = s.csr.env := by simp only [Csrs.env, Csrs.envOf, hactive]
  have hkept {a n : Nat} (ha : ∀ i, i < n → InTables (a + i)) (i : Nat) (hi : i < n) : t.word (a + i) = s.word (a + i) :=
    hwords _ (ha i hi)
  refine ⟨?_, ?_, ?_, ?_, henv ▸ hlengths, hsilence⟩
  · rw [henv, ← h.twiddles]
    exact complexes_congr (hkept fun i hi => .inl (by rw [env_n] at hi; unfold twBase maskBase; omega))
  · rw [henv, ← h.permutation]
    exact words_congr (hkept fun i hi => .inl (by rw [env_n] at hi; unfold twBase brBase maskBase; omega))
  · rw [henv, hactive, ← h.window]
    exact words_congr (hkept fun i hi => .inl (by rw [env_n] at hi; unfold twBase winBase maskBase; omega))
  · rw [henv, ← h.bands]
    exact words_congr (hkept fun i hi => .inr (by rw [env_lines] at hi; unfold bandBase driftBase; omega))

/-- What the host or a fault does: the configuration stays, or is lost, and no word of a table changes. -/
theorem State.TablesOk.of_same (h : s.TablesOk) (hs : s.Sound) (hok : t.csr.cfgOk = true → s.csr.cfgOk = true)
    (hactive : t.csr.active = s.csr.active) (hdepth : t.csr.sdDepth = s.csr.sdDepth)
    (hwords : ∀ a, InTables a ∨ InLengths a ∨ InSilence a → t.word a = s.word a) : t.TablesOk := by
  intro hset
  have htables := h (hok hset)
  have hn := le_of_sizeOk (hs.legal.config (hok hset)).size
  refine htables.of_words hn hactive (fun a ha => hwords a (.inl ha)) (fun k hk => ?_) fun n hn => ?_
  · have hrange := htables.lengths k hk
    rw [env_lines] at hk
    rw [hwords _ (.inr (.inl (inLengths_of_lt hn hk))), hdepth]
    exact hrange
  · rw [hwords _ (.inr (.inr (inSilence_of_lt hn)))]
    exact htables.silence n hn

/-- What is in flight, what is still to come at the bus, and what was read, does not matter. -/
theorem State.TablesOk.withHost (h : s.TablesOk) (hs : s.Sound) (f : Option InFlight) (pending : List HostEvent)
    (overlap : List Nat) (readLog : List Word) :
    ({ s with inFlight := f, pending := pending, overlap := overlap, readLog := readLog } : State).TablesOk :=
  h.of_same hs id rfl rfl fun _ _ => rfl

theorem State.TablesOk.raise (h : s.TablesOk) (hs : s.Sound) (f : Cause) (info : Word) : (s.raise f info).TablesOk :=
  h.of_same hs (fun hok => (Bool.and_eq_true_iff.1 hok).1) rfl rfl fun _ _ => rfl

/-- The host writes no table but DRIFT, and no register that only CFG changes (R73, R82, R371). -/
theorem State.TablesOk.memWrite (h : s.TablesOk) (hs : s.Sound) (a : WordAddr) (v : Word) : (s.memWrite a v).TablesOk := by
  by_cases ha : a.toNat < 0x100
  · have hsame := (s.csr.write_hostWrite a.toNat v).sameReadOnly
    rw [memWrite_csr ha]
    exact h.of_same hs (fun hok => hsame.cfgOk.trans hok) hsame.active.symm hsame.sdDepth.symm fun _ _ => rfl
  · rw [memWrite_bus (by omega)]
    split
    · next hstores =>
      refine h.of_same hs id rfl rfl fun x hx => putWords_word_outside s a.toNat [v] x ?_
      simp only [InTables, InLengths, InSilence, twBase, maskBase, bandBase, driftBase, dlenBase, silBase, envBase] at hx
      simp only [List.length_singleton]
      omega
    · exact h

theorem State.tablesOk_hardReset (s : State) : s.hardReset.TablesOk := fun hok => by cases hok

/-- A command other than CFG that has passed its checks: it writes in no table but DLEN and Q_SIL, and there values in their
ranges (R85, R303, R259). -/
theorem effect_tablesOk {p : Csrs} {i : Instr} (h : s.TablesOk) (hs : s.Sound) (hsame : p.SameReadOnly s.csr)
    (hi : i ≠ .cfg) : (effectOf i p s).after.TablesOk := by
  intro hset
  obtain ⟨-, hactive, hdepth, hok⟩ := effect_keeps (p := p) s hi
  have hconfig := hs.legal.config (hok.symm.trans hset)
  have htables := h (hok.symm.trans hset)
  have hn : p.active.n.toNat ≤ 4096 := hsame.active ▸ le_of_sizeOk hconfig.size
  have hword {a : Nat} := effect_word (a := a) s hi hn
  have hlines : s.csr.env.lines = p.env.lines := by rw [env_lines, env_lines, hsame.active]
  refine htables.of_words (le_of_sizeOk hconfig.size) hactive (fun a ha => hword (.inl ha)) ?_ ?_
  · rw [hdepth, hlines, ← hsame.sdDepth]
    by_cases hsdlp : i = .sdlp
    · subst hsdlp
      exact sdlpEffect_lengths (hsame.sdDepth ▸ ⟨hconfig.depthLow, hconfig.depthHigh⟩)
    · intro k hk
      have hrange := htables.lengths k (hlines ▸ hk)
      rw [env_lines] at hk
      rw [hword (.inr (.inl ⟨inLengths_of_lt hn hk, hsdlp⟩)), hsame.sdDepth]
      exact hrange
  · cases hw : p.writesSilence i with
    | true => exact effect_silence hw
    | false =>
      intro n hn
      rw [hword (.inr (.inr ⟨inSilence_of_lt hn, hw⟩))]
      exact htables.silence n hn

theorem State.TablesOk.complete (h : s.TablesOk) (hs : s.Sound) : s.complete.TablesOk :=
  h.of_same hs id rfl rfl fun _ _ => rfl

/-- A command whose parameters agree with the registers in what only commands change. -/
theorem State.TablesOk.exec (h : s.TablesOk) (hs : s.Sound) {i : Instr} (hsame : s.params.SameReadOnly s.csr)
    (hx : exec i s = .next t) : t.TablesOk := by
  obtain ⟨f, -, rfl⟩ | ⟨hcheck, -, rfl⟩ := exec_cases hx
  · exact h.raise hs f.cause f.info
  · have hafter : (effectOf i s.params s).after.TablesOk := by
      by_cases hi : i = .cfg
      · subst hi
        exact fun _ => cfgEffect_tables s.params s hcheck
      · exact effect_tablesOk h hs hsame hi
    exact hafter.complete (effect_sound i hs hsame hcheck)

theorem State.TablesOk.exec_idle (h : s.TablesOk) (hs : s.Sound) {i : Instr} (hidle : s.inFlight = none)
    (hx : Machine.exec i s = .next t) : t.TablesOk := h.exec hs (params_of_idle hidle ▸ .refl s.csr) hx

theorem State.TablesOk.issue (h : s.TablesOk) (hs : s.Sound) (i : Instr) (n : Nat) : (s.issue i n).TablesOk := by
  unfold State.issue
  split
  · next f _ => exact h.raise hs f.cause f.info
  · exact h.withHost hs _ s.pending s.overlap s.readLog

theorem State.TablesOk.serveBusy (h : s.TablesOk) (hs : s.Sound) (c : InFlight) (e : HostEvent) :
    (s.serveBusy c e).TablesOk := by
  have hcounted := h.withHost hs (some { c with left := c.left - 1 }) s.pending s.overlap s.readLog
  cases e with
  | read a => exact h.withHost hs _ s.pending s.overlap _
  | write a v => exact hcounted.memWrite (hs.withHost _ s.pending s.overlap s.readLog) a v
  | hardReset => exact State.tablesOk_hardReset _

end

/-- Settles O27: along the cases of a step, an access, a reset, a fault, an issue or a completion each keep the tables. -/
theorem stepKeepsTables : Obligations.StepKeepsTables := by
  unfold Obligations.StepKeepsTables
  intro s t hwf h hstep
  have hs := hwf.sound
  have hrest (rest : List HostEvent) (o : List Nat) : ({ s with pending := rest, overlap := o } : State).TablesOk :=
    State.TablesOk.withHost h hs s.inFlight rest o s.readLog
  have hsound (rest : List HostEvent) (o : List Nat) : ({ s with pending := rest, overlap := o } : State).Sound :=
    hs.withHost s.inFlight rest o s.readLog
  show t.TablesOk
  obtain ⟨-, -, rfl⟩ | ⟨hidle, e, rest, -, hserved⟩ | ⟨c, hc, hx | ⟨e, rest, -, -, rfl⟩⟩ := step_cases hstep
  · exact h
  · obtain ⟨a, -, rfl⟩ | ⟨a, v, -, -, rfl⟩ | ⟨-, rfl⟩ | ⟨w, -, hcmd⟩ := hserved
    · exact State.TablesOk.withHost h hs s.inFlight rest s.overlap _
    · exact (hrest rest s.overlap).memWrite (hsound rest s.overlap) a v
    · exact State.tablesOk_hardReset _
    · obtain ⟨-, rfl⟩ | ⟨-, -, rfl⟩ | ⟨-, i, -, ⟨-, hx⟩ | ⟨n, o, -, rfl⟩⟩ := hcmd
      · exact hrest rest s.overlap
      · exact (hrest rest s.overlap).raise (hsound rest s.overlap) .illegalCmd w
      · exact (hrest rest s.overlap.tail).exec_idle (hsound rest s.overlap.tail) hidle hx
      · exact (hrest rest o).issue (hsound rest o) i n
  · obtain ⟨-, -, hsame⟩ := hwf.flight c hc
    exact State.TablesOk.exec h hs (params_of_busy hc ▸ hsame) hx
  · exact (hrest rest s.overlap).serveBusy (hsound rest s.overlap) c e

end Sys2Proof.Machine

/-! SUPPORT. The statements of the encoding chapter (spec/30_encoding.md): the decoder and the encoder (R102 to R107, R112), the
issue of a command (R100, R101), and what sets and clears `DONE` and `ERR` (spec/60_exceptions.md R345 to R351). -/

namespace Sys2Proof

/-! ### The fields of a packed word -/

/-- The two bits of a frame register number (R102). -/
def sregBits (r : SReg) : BitVec 2 := BitVec.ofFin r

theorem ofNat_val_eq_setWidth (r : SReg) : BitVec.ofNat 32 r.val = (sregBits r).setWidth 32 := by revert r; decide

section
variable (op : BitVec 8) (rd rs1 rs2 : SReg) (imm3 : BitVec 3)

/-- A two-bit field of a word is the register whose bits it holds. -/
theorem toFin_extractLsb'_eq {w : Word} {lo : Nat} {r : SReg} (h0 : w.getLsbD lo = (sregBits r).getLsbD 0)
    (h1 : w.getLsbD (lo + 1) = (sregBits r).getLsbD 1) : (w.extractLsb' lo 2).toFin = r := by
  have hbits : w.extractLsb' lo 2 = sregBits r := BitVec.eq_of_getLsbD_eq fun j hj => by
    obtain rfl | rfl : j = 0 ∨ j = 1 := by omega
    · simpa using h0
    · simpa using h1
  exact congrArg BitVec.toFin hbits

@[simp] theorem rdField_packFields : rdField (packFields op rd rs1 rs2 imm3) = rd := by
  apply toFin_extractLsb'_eq <;> simp [packFields, ofNat_val_eq_setWidth]

@[simp] theorem rs1Field_packFields : rs1Field (packFields op rd rs1 rs2 imm3) = rs1 := by
  apply toFin_extractLsb'_eq <;> simp [packFields, ofNat_val_eq_setWidth]

@[simp] theorem rs2Field_packFields : rs2Field (packFields op rd rs1 rs2 imm3) = rs2 := by
  apply toFin_extractLsb'_eq <;> simp [packFields, ofNat_val_eq_setWidth]

@[simp] theorem imm3Field_packFields : imm3Field (packFields op rd rs1 rs2 imm3) = imm3 := by
  refine BitVec.eq_of_getLsbD_eq fun j hj => ?_
  have hlow : j < 12 ∧ j < 16 ∧ j < 20 ∧ j < 24 ∧ j < 32 := by omega
  simp [imm3Field, packFields, hj, hlow]

end

/-! ### The operand bits of a format -/

section
variable (w : Word)

/-- A field in its place is the word with every other bit 0. -/
theorem field_in_place (lo len : Nat) :
    (w.extractLsb' lo len).setWidth 32 <<< lo = w &&& ((BitVec.allOnes len).setWidth 32 <<< lo) := by
  ext j hj
  simp
  grind

theorem rdField_in_place : BitVec.ofNat 32 (rdField w).val <<< 20 = w &&& 0x00300000 := by
  rw [ofNat_val_eq_setWidth]
  exact field_in_place w 20 2

theorem rs1Field_in_place : BitVec.ofNat 32 (rs1Field w).val <<< 16 = w &&& 0x00030000 := by
  rw [ofNat_val_eq_setWidth]
  exact field_in_place w 16 2

theorem rs2Field_in_place : BitVec.ofNat 32 (rs2Field w).val <<< 12 = w &&& 0x00003000 := by
  rw [ofNat_val_eq_setWidth]
  exact field_in_place w 12 2

theorem imm3Field_in_place : (imm3Field w).setWidth 32 = w &&& 0x00000007 := by
  simpa [imm3Field] using field_in_place w 0 3

/-- The word with the opcode `op` whose operand fields, those of a format, are taken from `w` (R103). -/
def Format.pack (f : Format) (op : BitVec 8) (w : Word) : Word :=
  match f with
  | .z => packFields op 0 0 0 0
  | .i => packFields op 0 0 0 (imm3Field w)
  | .d => packFields op (rdField w) 0 0 0
  | .s => packFields op 0 (rs1Field w) 0 0
  | .ds => packFields op (rdField w) (rs1Field w) 0 0
  | .dss => packFields op (rdField w) (rs1Field w) (rs2Field w) 0

/-- The bits of the operand fields of a format (R103). -/
def Format.operandBits : Format → Word
  | .z => 0
  | .i => 0x00000007
  | .d => 0x00300000
  | .s => 0x00030000
  | .ds => 0x00330000
  | .dss => 0x00333000

theorem not_mask (f : Format) : ~~~f.mask = f.operandBits := by cases f <;> rfl

/-- A packed word is the match of its row and the operand bits (R103, R105). -/
theorem pack_eq (r : OpRow) : r.format.pack r.op w = r.matchWord ||| (w &&& r.format.operandBits) := by
  obtain ⟨op, f⟩ := r
  cases f <;>
    simp [Format.pack, packFields, OpRow.matchWord, Format.operandBits, rdField_in_place, rs1Field_in_place,
      rs2Field_in_place, imm3Field_in_place, BitVec.or_assoc, ← BitVec.and_or_distrib_left]

/-- A word is what its mask keeps and its operand bits. -/
theorem mask_or_operandBits (f : Format) : w &&& f.mask ||| w &&& f.operandBits = w := by
  rw [← not_mask, ← BitVec.and_or_distrib_left, BitVec.or_not_self, BitVec.and_allOnes]

end

/-! ### Rows of the opcode map -/

section
variable {r : OpRow} {w : Word}

theorem accepts_iff : r.accepts w = true ↔ w &&& r.format.mask = r.matchWord := beq_iff_eq

/-- A word that a row accepts is packed from its own fields. -/
theorem pack_of_accepts (h : r.accepts w = true) : r.format.pack r.op w = w := by
  rw [pack_eq, ← accepts_iff.1 h, mask_or_operandBits]

/-- Every mask keeps the opcode (R102, R103). -/
theorem getLsbD_mask (f : Format) {j : Nat} (hj : j < 8) : f.mask.getLsbD (24 + j) = true := by
  cases f <;> (revert j; decide)

theorem opField_and_mask (w : Word) (f : Format) : opField (w &&& f.mask) = opField w :=
  BitVec.eq_of_getLsbD_eq fun j hj => by simp [opField, getLsbD_mask f hj]

theorem opField_matchWord (r : OpRow) : opField r.matchWord = r.op :=
  BitVec.eq_of_getLsbD_eq fun j hj => by
    have hword : 24 + j < 32 := by omega
    simp [opField, OpRow.matchWord, hj, hword]

theorem opField_of_accepts (h : r.accepts w = true) : opField w = r.op := by
  rw [← opField_and_mask w r.format, accepts_iff.1 h, opField_matchWord]

/-- The match of a row has no bit below the opcode. -/
theorem matchWord_and_mask (r : OpRow) : r.matchWord &&& r.format.mask = r.matchWord := by
  refine BitVec.eq_of_getLsbD_eq fun j hj => ?_
  by_cases hlow : j < 24
  · simp [OpRow.matchWord, hlow]
  · obtain ⟨k, rfl⟩ := Nat.exists_eq_add_of_le (Nat.le_of_not_lt hlow)
    rw [BitVec.getLsbD_and, getLsbD_mask r.format (by omega), Bool.and_true]

/-- A word packed by the format of a row is accepted by the row. -/
theorem accepts_pack (r : OpRow) (w : Word) : r.accepts (r.format.pack r.op w) = true := by
  rw [accepts_iff, pack_eq, BitVec.and_comm, BitVec.and_or_distrib_left, BitVec.and_comm, matchWord_and_mask,
    ← not_mask, BitVec.and_comm w, ← BitVec.and_assoc, BitVec.and_not_self]
  simp

/-- No two rows have one opcode (R105). -/
theorem opMap_op_injective : ∀ r ∈ opMap, ∀ r' ∈ opMap, r.op = r'.op → r = r' := by decide

theorem rowOf_eq_some_iff : rowOf w = some r ↔ r ∈ opMap ∧ r.op = opField w := by
  have hfound {q : OpRow} (h : rowOf w = some q) : q ∈ opMap ∧ q.op = opField w :=
    ⟨List.mem_of_find?_eq_some h, by simpa using List.find?_some h⟩
  refine ⟨hfound, ?_⟩
  rintro ⟨hr, hop⟩
  cases h : rowOf w with
  | none => exact absurd (beq_iff_eq.2 hop) (List.find?_eq_none.1 h r hr)
  | some q =>
    obtain ⟨hq, hop'⟩ := hfound h
    rw [opMap_op_injective q hq r hr (hop'.trans hop.symm)]

theorem rowOf_of_accepts (hr : r ∈ opMap) (h : r.accepts w = true) : rowOf w = some r :=
  rowOf_eq_some_iff.2 ⟨hr, (opField_of_accepts h).symm⟩

theorem wordWellFormed_of_accepts (hr : r ∈ opMap) (h : r.accepts w = true) : wordWellFormed w = true := by
  simp only [wordWellFormed, rowOf_of_accepts hr h, h]

/-- Every row of the map names a command (R105). -/
theorem exists_commandOf (hr : r ∈ opMap) (w : Word) : ∃ i, commandOf r.op.toNat w = some i := by
  unfold opMap at hr
  fin_cases hr <;> exact ⟨_, rfl⟩

/-- The command that a row names, with its operands from the fields of `w`, has the word that the row's format packs from
them (R103, R105). -/
theorem encode_of_commandOf {i : Instr} (hr : r ∈ opMap) (hi : commandOf r.op.toNat w = some i) :
    encode i = r.format.pack r.op w := by
  unfold opMap at hr
  fin_cases hr <;> (obtain rfl := Option.some.inj hi; rfl)

end

/-! ### The decoder and the encoder -/

/-- The row of the opcode map that a command has (R105). -/
def Instr.row : Instr → OpRow
  | .nop => ⟨0x00, .z⟩
  | .cfg => ⟨0x01, .z⟩
  | .reset _ => ⟨0x02, .i⟩
  | .win => ⟨0x10, .z⟩
  | .fftf => ⟨0x11, .z⟩
  | .ffti => ⟨0x12, .z⟩
  | .polar _ => ⟨0x13, .d⟩
  | .rect _ => ⟨0x14, .s⟩
  | .stftf _ => ⟨0x15, .d⟩
  | .stfti _ => ⟨0x16, .s⟩
  | .pv _ _ => ⟨0x20, .ds⟩
  | .fsh _ _ => ⟨0x21, .ds⟩
  | .envc _ => ⟨0x22, .s⟩
  | .qnt _ _ => ⟨0x23, .ds⟩
  | .mskb => ⟨0x24, .z⟩
  | .msk _ _ _ => ⟨0x25, .dss⟩
  | .sdlp => ⟨0x26, .z⟩
  | .sdl _ _ => ⟨0x27, .ds⟩

section
variable {w : Word} {i : Instr}

theorem row_mem_opMap (i : Instr) : i.row ∈ opMap := by cases i <;> simp [Instr.row, opMap]

/-- The fields of the word of a command are its operands (R102, R103). -/
theorem commandOf_encode (i : Instr) : commandOf i.row.op.toNat (encode i) = some i := by
  cases i <;> simp [Instr.row, encode, commandOf]

theorem row_accepts_encode (i : Instr) : i.row.accepts (encode i) = true := by
  rw [encode_of_commandOf (row_mem_opMap i) (commandOf_encode i)]
  exact accepts_pack i.row (encode i)

/-- Decoding, as R106 says it: a row accepts the word, and its command takes its operands from the word. -/
theorem decode_eq_ok_iff : decode w = .ok i ↔ ∃ r ∈ opMap, r.accepts w = true ∧ commandOf r.op.toNat w = some i := by
  constructor
  · intro h
    unfold decode at h
    split at h
    · next r j hrow hj =>
      obtain ⟨hr, hop⟩ := rowOf_eq_some_iff.1 hrow
      split at h
      · next hacc => exact ⟨r, hr, hacc, by rw [hop, hj, Except.ok.inj h]⟩
      · cases h
    · cases h
  · rintro ⟨r, hr, hacc, hi⟩
    rw [← opField_of_accepts hacc] at hi
    simp only [decode, rowOf_of_accepts hr hacc, hi, hacc, if_true]

theorem decode_encode (i : Instr) : decode (encode i) = .ok i :=
  decode_eq_ok_iff.2 ⟨i.row, row_mem_opMap i, row_accepts_encode i, commandOf_encode i⟩

theorem encode_of_decode (h : decode w = .ok i) : encode i = w := by
  obtain ⟨r, hr, hacc, hi⟩ := decode_eq_ok_iff.1 h
  rw [encode_of_commandOf hr hi, pack_of_accepts hacc]

end

/-- Settles O1: a row accepts the words that its format packs from their own fields, and those are the words of its commands. -/
theorem decodeEncodeAgree : Obligations.DecodeEncodeAgree := by
  unfold Obligations.DecodeEncodeAgree
  exact ⟨fun i => ⟨decode_encode i, wordWellFormed_of_accepts (row_mem_opMap i) (row_accepts_encode i)⟩,
    fun _ _ => encode_of_decode⟩

/-- Settles O2: a row that accepts a word has its opcode, which no other row has, and names a command. -/
theorem decodeFollowsOpcodeMap : Obligations.DecodeFollowsOpcodeMap := by
  unfold Obligations.DecodeFollowsOpcodeMap
  refine ⟨fun w => ⟨?_, ?_⟩, fun w r r' hr hr' hacc hacc' => ?_⟩
  · rintro ⟨i, h⟩
    obtain ⟨r, hr, hacc, -⟩ := decode_eq_ok_iff.1 h
    exact ⟨r, hr, (opField_of_accepts hacc).symm, accepts_iff.1 hacc⟩
  · rintro ⟨r, hr, -, hmask⟩
    obtain ⟨i, hi⟩ := exists_commandOf hr w
    exact ⟨i, decode_eq_ok_iff.2 ⟨r, hr, accepts_iff.2 hmask, hi⟩⟩
  · exact opMap_op_injective r hr r' hr' ((opField_of_accepts hacc).symm.trans (opField_of_accepts hacc'))

/-- Settles O3: the eighteen words are those of their commands, and the other four miss every row or fail a mask. -/
theorem workedEncodings : Obligations.WorkedEncodings := by
  unfold Obligations.WorkedEncodings
  exact ⟨decode_encode .nop, decode_encode .cfg, decode_encode (.reset 7), decode_encode .win, decode_encode .fftf,
    decode_encode .ffti, decode_encode (.polar 3), decode_encode (.rect 2), decode_encode (.stftf 0),
    decode_encode (.stfti 1), decode_encode (.pv 1 0), decode_encode (.fsh 2 1), decode_encode (.envc 0),
    decode_encode (.qnt 1 2), decode_encode .mskb, decode_encode (.msk 2 1 0), decode_encode .sdlp,
    decode_encode (.sdl 1 2), by decide, by decide, by decide, by decide⟩

end Sys2Proof

namespace Sys2Proof.Machine

/-! ### The issue of a command -/

/-- A command with no entry of the overlap list, or the entry 0, is checked, executed and completed in one step (R80, log 10). -/
theorem step_command_headD {s : State} {rest : List HostEvent} {w : Word} {i : Instr} (hidle : s.inFlight = none)
    (herr : s.csr.err = false) (hp : s.pending = .write cmdAddr w :: rest) (hw : decode w = .ok i)
    (ho : s.overlap.headD 0 = 0) : step s = exec i { s with pending := rest, overlap := s.overlap.tail } := by
  cases hl : s.overlap with
  | nil => simp [step, advance, State.plan, State.serve, State.command, hidle, hp, herr, hw, hl]
  | cons n o =>
    obtain rfl : n = 0 := by simpa [hl] using ho
    exact step_command_merged hidle herr hp hw hl

/-- Settles O5: the list of overlaps is empty or begins with 0. -/
theorem stepRunsDecodedInstruction : Obligations.StepRunsDecodedInstruction := by
  unfold Obligations.StepRunsDecodedInstruction
  intro s w rest i hidle herr hp hw ho
  exact step_command_headD hidle herr hp hw ho

/-- Before a CFG has succeeded the check of every command but NOP and CFG fails at step (3) of R101. -/
theorem issueFault_not_configured {p : Csrs} {i : Instr} (hnop : i ≠ .nop) (hcfg : i ≠ .cfg) (hok : p.cfgOk = false) :
    p.issueFault i = some ⟨.notConfigured, encode i⟩ := by
  have hcheck (own : Option RaisedFault) : p.configured i own = some ⟨.notConfigured, encode i⟩ := by
    simp [Csrs.configured, hok]
  cases i with
  | nop => exact absurd rfl hnop
  | cfg => exact absurd rfl hcfg
  | _ => exact hcheck _

/-- Taking a fault that is none of the three CFG faults writes the fault record alone (R345). -/
theorem raise_of_keeps_cfgOk {c : Cause} (hc : c.clearsCfgOk = false) (s : State) (info : Word) :
    s.raise c info = { s with csr := { s.csr with errCode := c.code, errInfo := info, err := true } } := by
  simp [State.raise, hc]

/-- Settles O11: the command's check fails for want of a configuration, and it raises that fault. -/
theorem commandsNeedConfiguration : Obligations.CommandsNeedConfiguration := by
  unfold Obligations.CommandsNeedConfiguration
  intro i s hnop hcfg hidle hok
  have hfault : s.params.issueFault i = some ⟨.notConfigured, encode i⟩ := by
    rw [params_of_idle hidle]
    exact issueFault_not_configured hnop hcfg hok
  rw [exec_faults hfault, raise_of_keeps_cfgOk rfl]
  rfl

/-! ### No effect of a command touches the registers of faults and interrupts -/

/-- The fault record, `IE` and `DONE`. -/
def Csrs.signals (c : Csrs) : (Bool × Word × Word) × (Bool × Bool) × Bool :=
  ((c.err, c.errCode, c.errInfo), (c.ieDone, c.ieErr), c.ipDone)

/-- An effect that leaves the fault record, `IE` and `DONE`. -/
def KeepsSignals (e : State → Effect Word State) : Prop := ∀ s, (e s).after.csr.signals = s.csr.signals

section
variable {e f : State → Effect Word State} {g : State → Csrs → Csrs}

theorem UniformEffect.keepsSignals (h : UniformEffect e g)
    (hg : ∀ s c, (g s c).signals = c.signals := by exact fun _ _ => rfl) : KeepsSignals e := by
  intro s
  have hcsr : (e s).after.csr = g s s.csr := congrArg (fun x => x.after.csr) (h s s)
  rw [hcsr, hg]

theorem KeepsSignals.andThen (he : KeepsSignals e) (hf : KeepsSignals f) : KeepsSignals fun s => (e s).andThen f :=
  fun s => (hf (e s).after).trans (he s)

end

section
variable (p : Csrs)

theorem resetRegisters_signals (imm3 : BitVec 3) (c : Csrs) : (resetRegisters imm3 c).signals = c.signals := by
  unfold resetRegisters
  dsimp only
  split_ifs <;> rfl

/-- The writes that a command's rule lists are never to the fault record, `IE` or `DONE` (R345, R351). -/
theorem effect_keepsSignals (i : Instr) : KeepsSignals (effectOf i p) := by
  have hwin := (winEffect_uniform p).keepsSignals
  have hfftf := (fftfEffect_uniform p).keepsSignals
  have hffti := (fftiEffect_uniform p).keepsSignals
  cases i with
  | nop => exact (nopEffect_uniform p).keepsSignals
  | cfg => exact (cfgEffect_uniform p).keepsSignals fun _ c => resetRegisters_signals 7 c
  | reset imm3 => exact (resetEffect_uniform p imm3).keepsSignals fun _ c => resetRegisters_signals imm3 c
  | win => exact hwin
  | fftf => exact hfftf
  | ffti => exact hffti
  | polar rd => exact (polarEffect_uniform p rd).keepsSignals
  | rect rs1 => exact (rectEffect_uniform p rs1).keepsSignals
  | stftf rd => exact (hwin.andThen hfftf).andThen (polarEffect_uniform p rd).keepsSignals
  | stfti rs1 => exact ((rectEffect_uniform p rs1).keepsSignals.andThen hffti).andThen hwin
  | pv rd rs1 =>
    show KeepsSignals (pvEffect hwStorage spcHardware rd rs1 p)
    unfold pvEffect
    split
    · exact (pvFirstEffect_uniform p rd rs1).keepsSignals
    · exact (pvNextEffect_uniform p rd rs1).keepsSignals
  | fsh rd rs1 => exact (fshEffect_uniform p rd rs1).keepsSignals
  | envc rs1 => exact (envcEffect_uniform p rs1).keepsSignals
  | qnt rd rs1 =>
    show KeepsSignals (qntEffect hwStorage spcHardware rd rs1 p)
    unfold qntEffect
    split
    · exact (quantCopyEffect_uniform p rd rs1).keepsSignals
    · exact (quantRunEffect_uniform p rd rs1).keepsSignals
  | mskb => exact (mskbEffect_uniform p).keepsSignals
  | msk rd rs1 rs2 => exact (mskEffect_uniform p rd rs1 rs2).keepsSignals
  | sdlp => exact (sdlpEffect_uniform p).keepsSignals
  | sdl rd rs1 => exact (sdlEffect_uniform p rd rs1).keepsSignals

end

/-! ### What one step does to `DONE` and `ERR` -/

section
variable {s t : State}

/-- A command that answers a next state records a fault and leaves `DONE`, or completes and leaves `ERR` (R101, R345, R351). -/
theorem exec_signals {i : Instr} (h : exec i s = .next t) :
    (s.params.issueFault i ≠ none ∧ t.csr.err = true ∧ t.csr.ipDone = s.csr.ipDone) ∨
    (s.params.issueFault i = none ∧ t.inFlight = none ∧ t.csr.err = s.csr.err ∧ t.csr.ipDone = true) := by
  obtain ⟨f, hf, rfl⟩ | ⟨hcheck, -, rfl⟩ := exec_cases h
  · exact .inl ⟨by simp [hf], rfl, rfl⟩
  · have herr := congrArg (fun x => x.1.1) (effect_keepsSignals s.params i s)
    exact .inr ⟨hcheck, rfl, herr, rfl⟩

/-- The ways in which a step from `s` to `t` treats `DONE` and `ERR` (R101, R345, R347, R351, R380). -/
inductive SignalChange (s t : State) : Prop
  | kept (herr : t.csr.err = s.csr.err) (hdone : t.csr.ipDone = s.csr.ipDone)
  | hardReset {rest : List HostEvent} (hp : s.pending = .hardReset :: rest) (herr : t.csr.err = false)
      (hdone : t.csr.ipDone = false)
  | writeIp {rest : List HostEvent} {v : Word} (hp : s.pending = .write 0x00006 v :: rest)
      (hcsr : t.csr = s.csr.writeIp v)
  | fault {rest : List HostEvent} {w : Word} (hidle : s.inFlight = none) (hp : s.pending = .write cmdAddr w :: rest)
      (herr : t.csr.err = true) (hdone : t.csr.ipDone = s.csr.ipDone)
  | completed {c : InFlight} (hc : s.inFlight = some c) (hstep : step s = exec c.instr s) (hidle : t.inFlight = none)
      (herr : t.csr.err = s.csr.err) (hdone : t.csr.ipDone = true)
  | completedAtOnce {rest : List HostEvent} {w : Word} {i : Instr} (hfree : s.inFlight = none)
      (hclear : s.csr.err = false) (hp : s.pending = .write cmdAddr w :: rest) (hw : decode w = .ok i)
      (hcheck : s.csr.issueFault i = none) (hidle : t.inFlight = none) (herr : t.csr.err = s.csr.err)
      (hdone : t.csr.ipDone = true)

variable {rest : List HostEvent}

/-- A host write to a control register leaves `DONE` and `ERR` but at `IP` (R347, R351). -/
theorem Csrs.HostWrite.signals {c d : Csrs} {off : Nat} {v : Word} (h : c.HostWrite off v d) :
    (d.err = c.err ∧ d.ipDone = c.ipDone) ∨ (off = 0x06 ∧ d = c.writeIp v) := by
  cases h
  case ip hoff => exact .inr ⟨hoff, rfl⟩
  all_goals exact .inl ⟨rfl, rfl⟩

/-- A host write is served alike with and without a command in flight, on a state `u` with the registers of `s`. -/
theorem SignalChange.of_memWrite {u : State} {a : WordAddr} {v : Word} (hp : s.pending = .write a v :: rest)
    (hu : u.csr = s.csr) : SignalChange s (u.memWrite a v) := by
  unfold State.memWrite State.busWrite
  split
  · obtain ⟨herr, hdone⟩ | ⟨hoff, hcsr⟩ := (u.csr.write_hostWrite a.toNat v).signals
    · exact .kept (herr.trans (congrArg Csrs.err hu)) (hdone.trans (congrArg Csrs.ipDone hu))
    · obtain rfl : a = 0x00006 := BitVec.eq_of_toNat_eq hoff
      exact .writeIp hp (hu ▸ hcsr)
  · split <;> exact .kept (congrArg Csrs.err hu) (congrArg Csrs.ipDone hu)

theorem SignalChange.of_serveBusy {c : InFlight} {e : HostEvent} (hp : s.pending = e :: rest) :
    SignalChange s (State.serveBusy { s with pending := rest } c e) := by
  cases e with
  | read a => exact .kept rfl rfl
  | write a v => exact .of_memWrite hp rfl
  | hardReset => exact .hardReset hp rfl rfl

/-- A command that is issued raises its fault or becomes the command in flight (R101). -/
theorem SignalChange.of_issue {w : Word} (hidle : s.inFlight = none) (hp : s.pending = .write cmdAddr w :: rest)
    (o : List Nat) (i : Instr) (n : Nat) : SignalChange s (State.issue { s with pending := rest, overlap := o } i n) := by
  unfold State.issue
  split
  · exact .fault hidle hp rfl rfl
  · exact .kept rfl rfl

/-- A command that runs at once raises its fault or completes (R80, R101). -/
theorem SignalChange.of_exec_idle {w : Word} {i : Instr} {o : List Nat} (hidle : s.inFlight = none)
    (herr : s.csr.err = false) (hp : s.pending = .write cmdAddr w :: rest) (hw : decode w = .ok i)
    (hx : exec i { s with pending := rest, overlap := o } = .next t) : SignalChange s t := by
  have hparams : State.params { s with pending := rest, overlap := o } = s.csr := params_of_idle hidle
  obtain ⟨-, hraised, hdone⟩ | ⟨hcheck, hfinished, hkept, hdone⟩ := exec_signals hx
  · exact .fault hidle hp hraised hdone
  · exact .completedAtOnce hidle herr hp hw (hparams ▸ hcheck) hfinished hkept hdone

/-- The command in flight of a well-formed state has passed its checks, so it completes (R348). -/
theorem SignalChange.of_exec_flight {c : InFlight} (hwf : s.Wf) (hc : s.inFlight = some c)
    (hx : exec c.instr s = .next t) (hstep : step s = .next t) : SignalChange s t := by
  obtain ⟨-, hchecked, -⟩ := hwf.flight c hc
  obtain ⟨hfails, -⟩ | ⟨-, hidle, herr, hdone⟩ := exec_signals hx
  · exact absurd (params_of_busy hc ▸ hchecked) hfails
  · exact .completed hc (hstep.trans hx.symm) hidle herr hdone

theorem step_signalChange (hwf : s.Wf) (hstep : step s = .next t) : SignalChange s t := by
  obtain ⟨-, -, rfl⟩ | ⟨hidle, e, rest, hp, hserved⟩ | ⟨c, hc, hx | ⟨e, rest, hp, -, rfl⟩⟩ := step_cases hstep
  · exact .kept rfl rfl
  · obtain ⟨a, -, rfl⟩ | ⟨a, v, rfl, -, rfl⟩ | ⟨rfl, rfl⟩ | ⟨w, rfl, hcmd⟩ := hserved
    · exact .kept rfl rfl
    · exact .of_memWrite hp rfl
    · exact .hardReset hp rfl rfl
    · obtain ⟨-, rfl⟩ | ⟨-, -, rfl⟩ | ⟨herr, i, hw, ⟨-, hx⟩ | ⟨n, o, -, rfl⟩⟩ := hcmd
      · exact .kept rfl rfl
      · exact .fault hidle hp rfl rfl
      · exact .of_exec_idle hidle herr hp hw hx
      · exact .of_issue hidle hp o i n
  · exact .of_exec_flight hwf hc hx hstep
  · exact .of_serveBusy hp

/-- Only a completion sets `DONE` (R351). -/
theorem SignalChange.done_set (h : SignalChange s t) (hclear : s.csr.ipDone = false) (hset : t.csr.ipDone = true) :
    t.inFlight = none ∧
      ((∃ c, s.inFlight = some c ∧ step s = exec c.instr s) ∨
        (s.inFlight = none ∧ s.csr.err = false ∧ ∃ rest w i, s.pending = .write 0x00001 w :: rest ∧
          decode w = .ok i ∧ s.csr.issueFault i = none)) := by
  cases h
  case completed c hc hstep hidle _ _ => exact ⟨hidle, .inl ⟨c, hc, hstep⟩⟩
  case completedAtOnce rest w i hfree herr hp hw hcheck hidle _ _ =>
    exact ⟨hidle, .inr ⟨hfree, herr, rest, w, i, hp, hw, hcheck⟩⟩
  all_goals simp_all [Csrs.writeIp_eq]

/-- Only a write to `IP` with bit 0 set, or a hard reset, clears `DONE` (R351, R380). -/
theorem SignalChange.done_cleared (h : SignalChange s t) (hset : s.csr.ipDone = true) (hclear : t.csr.ipDone = false) :
    ∃ rest, s.pending = .hardReset :: rest ∨ ∃ v, v.getLsbD 0 = true ∧ s.pending = .write 0x00006 v :: rest := by
  cases h
  case hardReset rest hp _ _ => exact ⟨rest, .inl hp⟩
  case writeIp rest v hp hcsr =>
    rw [hcsr, Csrs.writeIp_eq] at hclear
    exact ⟨rest, .inr ⟨v, by simpa [hset] using hclear, hp⟩⟩
  all_goals simp_all

/-- Only a write to `IP` with bit 1 set, or a hard reset, clears `ERR` (R347, R380). -/
theorem SignalChange.err_cleared (h : SignalChange s t) (hset : s.csr.err = true) (hclear : t.csr.err = false) :
    ∃ rest, s.pending = .hardReset :: rest ∨ ∃ v, v.getLsbD 1 = true ∧ s.pending = .write 0x00006 v :: rest := by
  cases h
  case hardReset rest hp _ _ => exact ⟨rest, .inl hp⟩
  case writeIp rest v hp hcsr =>
    rw [hcsr, Csrs.writeIp_eq] at hclear
    exact ⟨rest, .inr ⟨v, by simpa [hset] using hclear, hp⟩⟩
  all_goals simp_all

/-- Only a fault sets `ERR`, which a word written to `CMD` raises while no command is in flight (R345, R348). -/
theorem SignalChange.err_set (h : SignalChange s t) (hclear : s.csr.err = false) (hset : t.csr.err = true) :
    s.inFlight = none ∧ ∃ rest w, s.pending = .write 0x00001 w :: rest := by
  cases h
  case fault rest w hidle hp _ _ => exact ⟨hidle, rest, w, hp⟩
  all_goals simp_all [Csrs.writeIp_eq]

end

/-- Settles O18: each clause along the ways in which a step treats `DONE` and `ERR`. -/
theorem doneAndErrChangeOnlyByRule : Obligations.DoneAndErrChangeOnlyByRule := by
  unfold Obligations.DoneAndErrChangeOnlyByRule
  intro s t hwf hstep
  have h := step_signalChange hwf hstep
  exact ⟨h.done_set, h.done_cleared, h.err_cleared, h.err_set⟩

end Sys2Proof.Machine

/-! SUPPORT. The statements of the control chapter (spec/40_control.md): NOP (R131), CFG and its checks (R133 to R135), RESET
(R139), and what no other command changes (R136, R71). -/

namespace Sys2Proof.Machine

/-! ### How a command completes -/

section
variable {i : Instr} {p : Csrs} {s : State} {g : State → Csrs → Csrs}

/-- The effect of a command changes the control registers and storage, and nothing of the host's side (R80). -/
theorem UniformEffect.after_eq (h : UniformEffect (effectOf i p) g) : (effectOf i p s).after =
    { s with csr := g s s.csr, mem := (effectOf i p s).after.mem, delay := (effectOf i p s).after.delay } :=
  congrArg Effect.after (h s s)

/-- A command that completes leaves `BUSY` 0, `DONE` pending, and the registers that its effect leaves (R80, R351). -/
theorem UniformEffect.finished (h : UniformEffect (effectOf i p) g) :
    s.Finished (effectOf i p s).after.complete (g s s.csr) := by
  rw [h.after_eq]
  exact ⟨rfl, rfl, rfl, rfl, rfl, rfl⟩

end

/-- Settles O28: NOP has no check to fail and no effect. -/
theorem nopCompletes : Obligations.NopCompletes := by
  unfold Obligations.NopCompletes
  intro s
  have hexec : exec .nop s = .next s.complete := exec_completes_hw (ws := []) rfl rfl allFinite_nil
  exact ⟨s.complete, hexec, rfl, rfl, (nopEffect_uniform s.params).finished⟩

/-! ### The checks of CFG -/

/-- On words the power-of-two test of R134 gives what it gives on the numbers: the difference wraps at 0 alone. -/
theorem powerTest_toNat (n : Word) :
    n ≠ 0 ∧ n &&& (n - 1) = 0 ↔ n.toNat ≠ 0 ∧ n.toNat &&& (n.toNat - 1) = 0 := by
  have hzero : n ≠ 0 ↔ n.toNat ≠ 0 := by rw [ne_eq, BitVec.toNat_eq]; rfl
  rw [hzero]
  refine and_congr_right fun hpos => ?_
  have hpred : (n - 1).toNat = n.toNat - 1 := by bv_omega
  rw [BitVec.toNat_eq, BitVec.toNat_and, hpred]
  rfl

/-- The sizes that CFG accepts are the powers of two from `2 ^ 2` to `2 ^ 12` (R133). -/
theorem sizeOk_iff_pow {n : Nat} : sizeOk n = true ↔ ∃ k, (2 ≤ k ∧ k ≤ 12) ∧ n = 2 ^ k := by
  have htest : sizeOk n = true ↔ n.isPowerOfTwo ∧ 2 ^ 2 ≤ n ∧ n ≤ 2 ^ 12 := by
    rw [← Nat.ne_zero_and_sub_one_eq_zero_iff_isPowerOfTwo]
    simp only [sizeOk, Bool.and_eq_true, bne_iff_ne, beq_iff_eq, decide_eq_true_eq]
    rfl
  rw [htest]
  constructor
  · rintro ⟨⟨k, rfl⟩, hlow, hhigh⟩
    exact ⟨k, ⟨(Nat.pow_le_pow_iff_right (by decide)).1 hlow, (Nat.pow_le_pow_iff_right (by decide)).1 hhigh⟩, rfl⟩
  · rintro ⟨k, ⟨hlow, hhigh⟩, rfl⟩
    exact ⟨⟨k, rfl⟩, Nat.pow_le_pow_right (by decide) hlow, Nat.pow_le_pow_right (by decide) hhigh⟩

/-- R134's list of sizes. -/
theorem sizeOk_iff_mem {n : Nat} :
    sizeOk n = true ↔ n ∈ [4, 8, 16, 32, 64, 128, 256, 512, 1024, 2048, 4096] := by
  have hlist : [4, 8, 16, 32, 64, 128, 256, 512, 1024, 2048, 4096] = (List.range' 2 11).map fun k => 2 ^ k := by decide
  rw [sizeOk_iff_pow, hlist, List.mem_map]
  refine exists_congr fun k => and_congr ?_ eq_comm
  rw [List.mem_range'_1]
  omega

/-- Settles O13: the library's power-of-two test, carried over to words, and the powers of two in range. -/
theorem acceptedSizes : Obligations.AcceptedSizes := by
  unfold Obligations.AcceptedSizes
  refine ⟨fun n => ?_, fun n => sizeOk_iff_mem⟩
  rw [powerTest_toNat, Nat.ne_zero_and_sub_one_eq_zero_iff_isPowerOfTwo]
  rfl

theorem hopOk_iff {n : Nat} {h : Int} : hopOk n h = true ↔ 0 < h ∧ h ≤ n := decide_eq_true_iff

/-- A rate is compared with 0 by its value (R133, R320). -/
theorem rateOk_iff {f : Word} : rateOk f = true ↔ f32Finite f = true ∧ 0 < f32Fix f := by
  have hfinite : f32Finite 0 = true := by decide
  have hfix : f32Fix 0 = 0 := by decide
  simp only [rateOk, rateOkOn, hwNum_lt, hwNum_ofInt, hwNum_ofBits, f32OfInt_zero, f32Lt, hfinite, hfix, Bool.true_and,
    Bool.and_eq_true, decide_eq_true_eq, and_self_left]

section
variable {p : Csrs}

theorem checkCfg_of_bad_size (hsize : ¬ sizeOk p.staged.fftSize.toNat = true) :
    p.checkCfg = some ⟨.cfgBadSize, p.staged.fftSize⟩ := by simp [Csrs.checkCfg, hsize]

theorem checkCfg_of_bad_hop (hsize : sizeOk p.staged.fftSize.toNat = true)
    (hhop : ¬ hopOk p.staged.fftSize.toNat p.staged.hop.toInt = true) :
    p.checkCfg = some ⟨.cfgBadHop, p.staged.hop⟩ := by simp [Csrs.checkCfg, hsize, hhop]

theorem checkCfg_of_bad_rate (hsize : sizeOk p.staged.fftSize.toNat = true)
    (hhop : hopOk p.staged.fftSize.toNat p.staged.hop.toInt = true) (hrate : ¬ rateOk p.staged.sampleRate = true) :
    p.checkCfg = some ⟨.cfgBadRate, p.staged.sampleRate⟩ := by simp [Csrs.checkCfg, hsize, hhop, hrate]

theorem checkCfg_of_good (hsize : sizeOk p.staged.fftSize.toNat = true)
    (hhop : hopOk p.staged.fftSize.toNat p.staged.hop.toInt = true) (hrate : rateOk p.staged.sampleRate = true) :
    p.checkCfg = none := by simp [Csrs.checkCfg, hsize, hhop, hrate]

end

/-- Taking one of the three CFG faults also clears `CFG_OK` (R345). -/
theorem raise_of_clears_cfgOk {c : Cause} (hc : c.clearsCfgOk = true) (s : State) (info : Word) : s.raise c info =
    { s with csr := { s.csr with errCode := c.code, errInfo := info, err := true, cfgOk := false } } := by
  simp [State.raise, hc]

/-- A CFG whose checks fail raises their fault and clears `CFG_OK` (R133, R345). -/
theorem exec_cfg_faults {s : State} {f : RaisedFault} (hidle : s.inFlight = none) (hf : s.csr.checkCfg = some f)
    (hc : f.cause.clearsCfgOk = true) : exec .cfg s = .next { s with
      csr := { s.csr with errCode := f.cause.code, errInfo := f.info, err := true, cfgOk := false } } := by
  have hfault : s.params.issueFault .cfg = some f := by rw [params_of_idle hidle]; exact hf
  rw [exec_faults hfault, raise_of_clears_cfgOk hc]

/-- Settles O14: the fault of each clause is that of the first check to fail. -/
theorem cfgRejectsBadConfiguration : Obligations.CfgRejectsBadConfiguration := by
  unfold Obligations.CfgRejectsBadConfiguration
  intro s hidle
  dsimp only
  rw [← sizeOk_iff_mem, ← hopOk_iff, ← rateOk_iff]
  exact ⟨fun hsize => exec_cfg_faults hidle (checkCfg_of_bad_size hsize) rfl,
    fun hsize hhop => exec_cfg_faults hidle (checkCfg_of_bad_hop hsize hhop) rfl,
    fun hsize hhop hrate => exec_cfg_faults hidle (checkCfg_of_bad_rate hsize hhop hrate) rfl⟩

/-! ### What no command but CFG changes -/

/-- A check whose fault, if it has one, leaves `CFG_OK` (R345). -/
def KeepsCfgOk (check : Option RaisedFault) : Prop := ∀ f, check = some f → f.cause.clearsCfgOk = false

section
variable {p : Csrs} {i : Instr} {own own' : Option RaisedFault}

theorem keepsCfgOk_none : KeepsCfgOk none := fun _ h => by cases h

theorem keepsCfgOk_lenCheck (bufferId : Nat) (tag : Word) (need : Nat) : KeepsCfgOk (lenCheck bufferId tag need) := by
  intro f h
  unfold lenCheck at h
  split at h
  · cases h
  · cases h; rfl

theorem KeepsCfgOk.or (h : KeepsCfgOk own) (h' : KeepsCfgOk own') : KeepsCfgOk (own.or own') := by
  intro f hf
  obtain hf | ⟨-, hf⟩ := Option.or_eq_some_iff.1 hf
  · exact h f hf
  · exact h' f hf

theorem KeepsCfgOk.configured (h : KeepsCfgOk own) : KeepsCfgOk (p.configured i own) := by
  intro f hf
  unfold Csrs.configured at hf
  split at hf
  · exact h f hf
  · cases hf; rfl

/-- Only CFG has checks whose faults clear `CFG_OK` (R341, R345). -/
theorem issueFault_keepsCfgOk (p : Csrs) (hi : i ≠ .cfg) : KeepsCfgOk (p.issueFault i) := by
  have ht : KeepsCfgOk p.checkT := keepsCfgOk_lenCheck _ _ _
  have hz : KeepsCfgOk p.checkZ := keepsCfgOk_lenCheck _ _ _
  have hs (r : SReg) : KeepsCfgOk (p.checkS r) := keepsCfgOk_lenCheck _ _ _
  cases i with
  | nop => exact keepsCfgOk_none
  | cfg => exact absurd rfl hi
  | reset _ | mskb | sdlp => exact keepsCfgOk_none.configured
  | win | fftf | stftf _ => exact ht.configured
  | ffti | polar _ => exact hz.configured
  | rect rs1 | stfti rs1 | pv _ rs1 | fsh _ rs1 | envc rs1 | qnt _ rs1 | sdl _ rs1 => exact (hs rs1).configured
  | msk _ rs1 rs2 => exact ((hs rs1).or (hs rs2)).configured

end

/-- The registers that the host writes and no command does: the staged configuration and the parameters of the units (R28,
R30 to R33). -/
def Csrs.parameters (c : Csrs) : (StagedCfg × Word × Bool) × QuantCtl × MaskCtl × DelayCtl :=
  ((c.staged, c.shiftHz, c.lockEn), c.quant, c.mask, c.delay)

/-- An effect that leaves what `v` sees of the state. -/
def Leaves {A : Type} (v : State → A) (e : State → Effect Word State) : Prop := ∀ s, v (e s).after = v s

section
variable {A : Type} {v : State → A} {e e' f : State → Effect Word State}

theorem Leaves.andThen (he : Leaves v e) (hf : Leaves v f) : Leaves v fun s => (e s).andThen f :=
  fun s => (hf (e s).after).trans (he s)

/-- An effect may be written in bus words. -/
theorem Leaves.of_eq (heq : ∀ s, e s = e' s) (h : Leaves v e') : Leaves v e := by
  obtain rfl : e = e' := funext heq
  exact h

end

/-- The commands that clear or fill the delay lines (R133, R139, R306). -/
def writesLines : Instr → Bool
  | .cfg | .reset _ | .sdl _ _ => true
  | _ => false

/-- The parameters and the delay lines. -/
def State.parametersAndLines (s : State) :
    ((StagedCfg × Word × Bool) × QuantCtl × MaskCtl × DelayCtl) × Memory := (s.csr.parameters, s.delay)

section
variable {p : Csrs} {i : Instr}

/-- No other command writes a parameter or the delay lines (R71, R139). -/
theorem effect_leaves_parametersAndLines (hi : writesLines i = false) :
    Leaves State.parametersAndLines (effectOf i p) := by
  have hwin : Leaves State.parametersAndLines (effectOf .win p) := .of_eq (winEffect_spc p) fun _ => rfl
  have hfftf : Leaves State.parametersAndLines (effectOf .fftf p) := .of_eq (fftfEffect_spc p) fun _ => rfl
  have hffti : Leaves State.parametersAndLines (effectOf .ffti p) := .of_eq (fftiEffect_spc p) fun _ => rfl
  have hpolar (rd : SReg) : Leaves State.parametersAndLines (effectOf (.polar rd) p) :=
    .of_eq (fun s => polarEffect_spc p s rd) fun _ => rfl
  have hrect (rs1 : SReg) : Leaves State.parametersAndLines (effectOf (.rect rs1) p) :=
    .of_eq (fun s => rectEffect_spc p s rs1) fun _ => rfl
  cases i with
  | nop => exact fun _ => rfl
  | cfg | reset _ | sdl _ _ => cases hi
  | win => exact hwin
  | fftf => exact hfftf
  | ffti => exact hffti
  | polar rd => exact hpolar rd
  | rect rs1 => exact hrect rs1
  | stftf rd => exact (hwin.andThen hfftf).andThen (hpolar rd)
  | stfti rs1 => exact ((hrect rs1).andThen hffti).andThen hwin
  | pv rd rs1 =>
    show Leaves _ (pvEffect hwStorage spcHardware rd rs1 p)
    unfold pvEffect
    split
    · exact .of_eq (fun s => pvFirstEffect_spc p s rd rs1) fun _ => rfl
    · exact .of_eq (fun s => pvNextEffect_spc p s rd rs1) fun _ => rfl
  | fsh rd rs1 => exact .of_eq (fun s => fshEffect_spc p s rd rs1) fun _ => rfl
  | envc rs1 => exact .of_eq (fun s => envcEffect_spc p s rs1) fun _ => rfl
  | qnt rd rs1 =>
    show Leaves _ (qntEffect hwStorage spcHardware rd rs1 p)
    unfold qntEffect
    split
    · exact .of_eq (fun s => quantCopyEffect_spc p s rd rs1) fun _ => rfl
    · exact .of_eq (fun s => quantRunEffect_spc p s rd rs1) fun _ => rfl
  | mskb => exact .of_eq (mskbEffect_spc p) fun _ => rfl
  | msk rd rs1 rs2 => exact .of_eq (fun s => mskEffect_spc p s rd rs1 rs2) fun _ => rfl
  | sdlp => exact .of_eq (sdlpEffect_spc p) fun _ => rfl

theorem resetRegisters_parameters (imm3 : BitVec 3) (c : Csrs) : (resetRegisters imm3 c).parameters = c.parameters := by
  unfold resetRegisters
  dsimp only
  split_ifs <;> rfl

/-- No command writes a parameter (R139). -/
theorem effect_parameters (i : Instr) (s : State) : (effectOf i p s).after.csr.parameters = s.csr.parameters := by
  cases i with
  | cfg =>
    rw [(cfgEffect_uniform p).after_eq]
    exact resetRegisters_parameters 7 s.csr
  | reset imm3 =>
    rw [(resetEffect_uniform p imm3).after_eq]
    exact resetRegisters_parameters imm3 s.csr
  | sdl rd rs1 => rw [(sdlEffect_uniform p rd rs1).after_eq]; rfl
  | _ => exact congrArg Prod.fst (effect_leaves_parametersAndLines rfl s)

theorem effect_delay (hi : writesLines i = false) (s : State) : (effectOf i p s).after.delay = s.delay :=
  congrArg Prod.snd (effect_leaves_parametersAndLines hi s)

end

/-- Settles O23: a fault leaves all of it, `CFG_OK` too where it is none of CFG's, and so does the effect of a command. -/
theorem commandsKeepConfiguration : Obligations.CommandsKeepConfiguration := by
  unfold Obligations.CommandsKeepConfiguration
  intro i s t hexec
  obtain ⟨f, hf, rfl⟩ | ⟨-, -, rfl⟩ := exec_cases hexec
  · refine ⟨fun hi => ⟨rfl, rfl, ?_⟩, rfl, rfl, rfl, rfl, rfl, rfl, rfl, rfl, fun _ _ _ => rfl⟩
    rw [raise_of_keeps_cfgOk (issueFault_keepsCfgOk s.params hi f hf)]
  · have hsignals := effect_keepsSignals s.params i s
    have hparameters := effect_parameters (p := s.params) i s
    simp only [Csrs.signals, Csrs.parameters, Prod.mk.injEq] at hsignals hparameters
    obtain ⟨-, ⟨hieDone, hieErr⟩, -⟩ := hsignals
    obtain ⟨⟨hstaged, hshift, hlock⟩, hquant, hmask, hdelay⟩ := hparameters
    refine ⟨fun hi => (effect_keeps s hi).2, hstaged, hshift, hlock, hquant, hmask, hdelay, hieDone, hieErr, ?_⟩
    intro hreset hsdl hcfg
    refine effect_delay ?_ s
    cases i with
    | cfg => exact absurd rfl hcfg
    | reset imm3 => exact absurd rfl (hreset imm3)
    | sdl rd rs1 => exact absurd rfl (hsdl rd rs1)
    | _ => rfl

/-! ### What a reset of the units leaves -/

/-- A word of a list of words that storage holds. -/
theorem word_of_words {s : State} {a n : Nat} {ws : List Word} (h : s.words a n = ws) (d : Word) {k : Nat} (hk : k < n) :
    s.word (a + k) = ws.getD k d := by rw [← h, getD_words s a n d k hk]

theorem word_of_replicate {s : State} {a n : Nat} {w : Word} (h : s.words a n = List.replicate n w) {k : Nat} (hk : k < n) :
    s.word (a + k) = w := by
  rw [word_of_words h 0 hk]
  exact List.getD_replicate (x := w) (y := 0) hk

/-- Stores change the bus memory alone, to what does not depend on the rest of the state. -/
theorem putAll_eq (stores : List (Nat × List Word)) : ∀ s : State,
    s.putAll stores = { s with mem := stores.foldl (fun m w => m.writeWords w.1 w.2) s.mem } := by
  induction stores with
  | nil => intro s; rfl
  | cons w stores ih => intro s; exact ih (s.putWords w.1 w.2)

/-- The stores of a reset of the phase vocoder, for `bins` bins (R139). -/
def pvStores (bins : Nat) : List (Nat × List Word) :=
  [(pmagBase, List.replicate bins 0), (pphBase, List.replicate bins 0), (sphBase, List.replicate bins 0)]

/-- The stores of a reset of the quantizer (R139). -/
def quantStores : List (Nat × List Word) :=
  [(accBase, List.replicate 128 0), (silBase, List.replicate 128 8), (envBase, List.replicate 48 0)]

/-- The stores of a reset of the units named (R139). -/
def resetStores (imm3 : BitVec 3) (bins : Nat) : List (Nat × List Word) :=
  (if imm3.getLsbD 0 then pvStores bins else []) ++ (if imm3.getLsbD 1 then quantStores else [])

theorem resetPv_eq_putAll (s : State) (bins : Nat) : hwStorage.resetPv s bins =
    { s.putAll (pvStores bins) with csr := { s.csr with pvFirst := true } } := rfl

theorem resetQ_eq_putAll (s : State) : hwStorage.resetQ hwNum s Params.spc =
    { s.putAll quantStores with csr := { s.csr with qPrevE := 0, qTrCnt := 0, qFirst := true } } := by
  rw [resetQ_spc]
  rfl

/-- A reset clears the history, the registers and the delay lines of the units it names, and nothing else (R139). -/
theorem resetUnits_eq_putAll (s : State) (imm3 : BitVec 3) (bins : Nat) :
    hwStorage.resetUnits spcHardware s imm3 bins = { s.putAll (resetStores imm3 bins) with
      csr := resetRegisters imm3 s.csr
      delay := if imm3.getLsbD 2 then Memory.zeroed else s.delay } := by
  unfold Storage.resetUnits resetStores resetRegisters
  simp only [spcHardware_num, spcHardware_par, resetPv_eq_putAll, resetQ_eq_putAll, resetSd_spc, putAll_eq,
    List.foldl_append]
  split_ifs <;> rfl

/-- No array of history reaches into another (R73). -/
theorem resetStores_apart (imm3 : BitVec 3) {bins : Nat} (hbins : bins ≤ 4096) :
    (resetStores imm3 bins).Pairwise StoresApart := by
  have hall : (pvStores bins ++ quantStores).Pairwise StoresApart := by
    simp only [pvStores, quantStores, List.cons_append, List.nil_append, List.pairwise_cons, List.forall_mem_cons,
      List.not_mem_nil, false_imp_iff, implies_true, List.Pairwise.nil, and_true, StoresApart, List.length_replicate,
      pmagBase, pphBase, sphBase, accBase, silBase, envBase]
    omega
  have hnamed (unit : Bool) (stores : List (Nat × List Word)) : (if unit then stores else []).Sublist stores := by
    cases unit with
    | true => exact List.Sublist.refl _
    | false => exact List.nil_sublist _
  exact hall.sublist ((hnamed _ _).append (hnamed _ _))

/-- The words of storage as RESET of the phase vocoder leaves them (R139). -/
def State.PvCleared (s : State) (bins : Nat) : Prop :=
  ∀ k, k < bins → s.word (pmagBase + k) = 0 ∧ s.word (pphBase + k) = 0 ∧ s.word (sphBase + k) = 0

/-- The words of storage as RESET of the quantizer leaves them (R139). -/
def State.QuantCleared (s : State) : Prop :=
  (∀ n, n < 128 → s.word (accBase + n) = 0 ∧ s.word (silBase + n) = 8) ∧ ∀ b, b < 48 → s.word (envBase + b) = 0

section
variable {s : State} {imm3 : BitVec 3} {bins : Nat}

theorem words_resetUnits (hbins : bins ≤ 4096) {a n : Nat} {w : Word}
    (h : (a, List.replicate n w) ∈ resetStores imm3 bins) :
    (hwStorage.resetUnits spcHardware s imm3 bins).words a n = List.replicate n w := by
  rw [resetUnits_eq_putAll]
  exact words_putAll (s := s) (resetStores_apart imm3 hbins) h List.length_replicate

theorem resetUnits_pvCleared (hbins : bins ≤ 4096) (hpv : imm3.getLsbD 0 = true) :
    (hwStorage.resetUnits spcHardware s imm3 bins).PvCleared bins := by
  have hstore {a : Nat} (h : (a, List.replicate bins 0) ∈ pvStores bins) {k : Nat} (hk : k < bins) :
      (hwStorage.resetUnits spcHardware s imm3 bins).word (a + k) = 0 :=
    word_of_replicate (words_resetUnits hbins (List.mem_append_left _ (by rwa [if_pos hpv]))) hk
  exact fun k hk => ⟨hstore (by simp [pvStores]) hk, hstore (by simp [pvStores]) hk, hstore (by simp [pvStores]) hk⟩

theorem resetUnits_quantCleared (hbins : bins ≤ 4096) (hq : imm3.getLsbD 1 = true) :
    (hwStorage.resetUnits spcHardware s imm3 bins).QuantCleared := by
  have hstore {a n : Nat} {w : Word} (h : (a, List.replicate n w) ∈ quantStores) {k : Nat} (hk : k < n) :
      (hwStorage.resetUnits spcHardware s imm3 bins).word (a + k) = w :=
    word_of_replicate (words_resetUnits hbins (List.mem_append_right _ (by rwa [if_pos hq]))) hk
  exact ⟨fun n hn => ⟨hstore (List.mem_cons_self ..) hn, hstore (by simp [quantStores]) hn⟩,
    fun b hb => hstore (by simp [quantStores]) hb⟩

theorem resetUnits_delay : (hwStorage.resetUnits spcHardware s imm3 bins).delay =
    if imm3.getLsbD 2 then Memory.zeroed else s.delay := by rw [resetUnits_eq_putAll]

end

/-- Every pair of a cleared delay-line RAM is 0 (R139). -/
theorem delayBin_of_zeroed {s : State} (h : s.delay = Memory.zeroed) (k i : Nat) : s.delayBin k i = ⟨0, 0⟩ := by
  have hword (a : Nat) : s.delayWord a = 0 := by
    rw [State.delayWord, h]
    exact (by decide : wordOfBytes 0 0 0 0 = 0)
  rw [State.delayBin, hword, hword]

/-- The registers that a RESET writes, each as the bit of its unit says (R139). -/
theorem resetRegisters_eq (imm3 : BitVec 3) (c : Csrs) : resetRegisters imm3 c = { c with
    pvFirst := c.pvFirst || imm3.getLsbD 0
    qFirst := c.qFirst || imm3.getLsbD 1
    qPrevE := if imm3.getLsbD 1 then 0 else c.qPrevE
    qTrCnt := if imm3.getLsbD 1 then 0 else c.qTrCnt
    sdWr := if imm3.getLsbD 2 then 0 else c.sdWr } := by
  unfold resetRegisters
  cases imm3.getLsbD 0 <;> cases imm3.getLsbD 1 <;> cases imm3.getLsbD 2 <;> simp

/-- Settles O29: what a reset of the units leaves of the history, with the number of bins in force. -/
theorem resetClearsNamedUnits : Obligations.ResetClearsNamedUnits := by
  unfold Obligations.ResetClearsNamedUnits
  intro imm3 s hconf
  dsimp only
  have hcheck : s.params.issueFault (.reset imm3) = none := configured_none hconf.ok _ none
  have hexec : exec (.reset imm3) s = .next (effectOf (.reset imm3) s.params s).after.complete :=
    exec_completes hcheck (List.forall_mem_nil _)
  have hbins : s.params.env.bins ≤ 4096 := by
    have := hconf.size_le
    rw [env_bins]
    omega
  have hdelay : (effectOf (.reset imm3) s.params s).after.delay = if imm3.getLsbD 2 then Memory.zeroed else s.delay :=
    resetUnits_delay
  refine ⟨_, hexec, fun hpv => resetUnits_pvCleared hbins hpv, fun hq => resetUnits_quantCleared hbins hq,
    fun hsd => delayBin_of_zeroed ?_, fun hsd => ?_, effect_inBlocks s.params s (.reset imm3), ?_⟩
  · rw [complete_delay, hdelay, if_pos hsd]
  · rw [complete_delay, hdelay, hsd]
    rfl
  · rw [← resetRegisters_eq]
    exact (resetEffect_uniform s.params imm3).finished

/-! ### The tables of a configuration in binary32

The rules of the depth, the damping and the delay lengths (R301 to R303), evaluated in the default hardware. -/

section
variable {E : Env Word} (hnum : E.num = hwNum)
include hnum

theorem nat_hw (k : Nat) : E.nat k = f32OfInt k := by rw [Env.nat, hnum]; rfl
theorem zero_hw : E.zero = 0 := by rw [Env.zero, hnum]; exact f32OfInt_zero
theorem one_hw : E.one = 0x3F800000 := by rw [Env.one, hnum]; exact f32OfInt_one
theorem half_hw : E.half = 0x3F000000 := by simpa [Env.half, Env.lit, Env.nat, hnum] using f32Half
theorem neg_hw (x : Word) : E.neg x = f32Sub 0 x := by rw [Env.neg, zero_hw hnum, hnum]; rfl
theorem max2_hw (x y : Word) : E.max2 x y = if f32Lt x y then y else x := by rw [Env.max2, hnum]; rfl
theorem min2_hw (x y : Word) : E.min2 x y = if f32Lt y x then y else x := by rw [Env.min2, hnum]; rfl

theorem binNorm_hw (k : Nat) : E.binNorm k = f32Div (f32OfInt k) (f32OfInt E.lines) := by
  rw [Env.binNorm, nat_hw hnum, nat_hw hnum, hnum]
  rfl

/-- `1000 × HOP`, the milliseconds of R301 and R303. -/
theorem thousandHops_hw : E.num.mul (E.nat 1000) (E.num.ofInt E.hop) = f32Mul 0x447A0000 (f32OfInt E.hop) := by
  have hthousand : f32OfInt 1000 = 0x447A0000 := by decide +kernel
  rw [nat_hw hnum, Nat.cast_ofNat, hthousand, hnum]
  rfl

/-- R301 with 2000 ms and 4096 slots. -/
theorem depth_hw (hpar : E.par = Params.spc) : E.depth = depthFrames E.fs E.hop := by
  have htwo : f32OfInt 2000 = 0x44FA0000 := by decide +kernel
  have hmax : E.nat E.par.sdMaxMs = 0x44FA0000 := by rw [nat_hw hnum, hpar]; exact htwo
  have hslots : E.par.dlDepthMax = 4096 := by rw [hpar]; rfl
  rw [Env.depth, Env.depthRaw, thousandHops_hw hnum, hmax, hslots, hnum, hwNum_ceil, saturate_saturate]
  rfl

/-- R302. -/
theorem damp_hw (damping : Word) (k : Nat) : E.damp damping k = dampValue E.lines damping k := by
  simp only [Env.damp, max2_hw hnum, zero_hw hnum, one_hw hnum, binNorm_hw hnum]
  rw [hnum]
  rfl

/-- The slope fraction of R303. -/
theorem slope_hw (slope : Word) : E.slope slope =
    let low := if f32Lt slope 0xC2C80000 then 0xC2C80000 else slope
    f32Div (if f32Lt 0x42C80000 low then 0x42C80000 else low) 0x42C80000 := by
  have hlow : E.num.ofInt (-100) = 0xC2C80000 := by rw [hnum]; decide +kernel
  have hhigh : E.nat 100 = 0x42C80000 := by rw [nat_hw hnum]; decide +kernel
  rw [Env.slope, Env.clamp, hlow, hhigh, max2_hw hnum, min2_hw hnum, hnum]
  rfl

/-- R303 before the rounding. -/
theorem delayRaw_hw (timeMs slope : Word) (k : Nat) :
    E.delayRaw timeMs slope k = delayFrames E.lines E.fs E.hop timeMs slope k := by
  rw [Env.delayRaw, Env.delayBase, thousandHops_hw hnum, Env.warp, slope_hw hnum, neg_hw hnum, zero_hw hnum, one_hw hnum,
    binNorm_hw hnum, hnum]
  rfl

/-- R303. -/
theorem delayLen_hw (depth : Nat) (timeMs slope : Word) (k : Nat) :
    E.delayLen depth timeMs slope k = delayLength E.lines E.fs E.hop timeMs slope depth k := by
  rw [Env.delayLen, Env.rnd, delayRaw_hw hnum, half_hw hnum, hnum, hwNum_floor, saturate_saturate]
  rfl

end

/-! ### What CFG leaves -/

/-- The registers of the history that a reset of all three units clears (R133, R139). -/
theorem resetRegisters_all (c : Csrs) :
    resetRegisters 7 c = { c with pvFirst := true, qFirst := true, qPrevE := 0, qTrCnt := 0, sdWr := 0 } := by
  rw [resetRegisters_eq]
  simp

/-! Making a configuration active changes no word and no delay line. -/

theorem State.PvCleared.activate {s : State} {bins : Nat} (h : s.PvCleared bins) (p : Csrs) (depth : Nat) :
    (s.activate p depth).PvCleared bins := h

theorem State.QuantCleared.activate {s : State} (h : s.QuantCleared) (p : Csrs) (depth : Nat) :
    (s.activate p depth).QuantCleared := h

theorem activate_delay (s : State) (p : Csrs) (depth : Nat) : (s.activate p depth).delay = s.delay := rfl

theorem natWords_tabulate (n : Nat) (f : Nat → Nat) : natWords (tabulate n f) =
    tabulate n fun k => BitVec.ofNat 32 (f k) := by
  simp [natWords, tabulate]

section
variable (p : Csrs) (s : State)

theorem stagedEnv_depth : p.stagedEnv.depth = depthFrames p.staged.sampleRate p.staged.hop.toInt := depth_hw rfl rfl

theorem cfgEffect_env : (effectOf .cfg p s).after.csr.env = p.stagedEnv := by rw [cfgEffect_after, activate_env]

theorem cfgEffect_window : (effectOf .cfg p s).after.csr.active.window = p.staged.window := by
  rw [cfgEffect_after, activate_window]

variable {p}

/-- The line `k` of the tables that CFG builds from the latched parameters (R285, R302, R303), and of the cleared drift. -/
theorem cfgEffect_line (hn : p.stagedEnv.n ≤ 4096) {k : Nat} (hk : k < p.stagedEnv.lines) :
    let E := p.stagedEnv
    let t := (effectOf .cfg p s).after
    t.word (maskBase + k) = E.maskFn p.mask.mode p.mask.lo p.mask.hi p.mask.width (E.binfreq k) ∧
    t.word (dampBase + k) = dampValue E.lines p.delay.damping k ∧
    t.word (dlenBase + k) = BitVec.ofNat 32 (delayLength E.lines p.staged.sampleRate p.staged.hop.toInt p.delay.timeMs
      p.delay.slope (depthFrames p.staged.sampleRate p.staged.hop.toInt) k) ∧
    t.word (driftBase + k) = 0 := by
  have hlines : p.stagedEnv.lines = p.stagedEnv.n / 2 := rfl
  have hstore {a : Nat} {ws : List Word} (h : (a, ws) ∈ p.tableStores p.stagedEnv) (hl : ws.length = p.stagedEnv.lines)
      (ha : a ≤ driftBase) : (effectOf .cfg p s).after.words a p.stagedEnv.lines = ws :=
    words_cfgEffect p s hn h hl (by unfold driftBase at ha; unfold pmagBase; omega)
  have hmask := hstore (a := maskBase) (ws := p.stagedEnv.maskTable p.mask.mode p.mask.lo p.mask.hi p.mask.width)
    (by simp [Csrs.tableStores]) (length_maskTable _ _ _ _ _) (by decide)
  have hdamp := hstore (a := dampBase) (ws := p.stagedEnv.dampTable p.delay.damping)
    (by simp [Csrs.tableStores]) (length_dampTable _ _) (by decide)
  have hdlen := hstore (a := dlenBase)
    (ws := natWords (p.stagedEnv.dlenTable p.stagedEnv.depth p.delay.timeMs p.delay.slope))
    (by simp [Csrs.tableStores]) (by simp) (by decide)
  have hdrift := hstore (a := driftBase) (ws := List.replicate p.stagedEnv.lines 0)
    (by simp [Csrs.tableStores]) List.length_replicate le_rfl
  refine ⟨?_, ?_, ?_, word_of_replicate hdrift hk⟩
  · rw [word_of_words hmask 0 hk, Env.maskTable, getD_tabulate _ _ _ k hk]
  · rw [word_of_words hdamp 0 hk, Env.dampTable, getD_tabulate _ _ _ k hk, damp_hw rfl]
  · rw [word_of_words hdlen 0 hk, Env.dlenTable, natWords_tabulate, getD_tabulate _ _ _ k hk, delayLen_hw rfl,
      stagedEnv_depth]
    rfl

variable {s}

/-- The history and the delay lines are as a RESET of all three units leaves them (R133, R139). -/
theorem cfgEffect_history (hn : p.stagedEnv.n ≤ 4096) : (effectOf .cfg p s).after.PvCleared p.stagedEnv.bins ∧
    (effectOf .cfg p s).after.QuantCleared ∧ (effectOf .cfg p s).after.delay = Memory.zeroed := by
  have hbins : p.stagedEnv.bins ≤ 4096 := by
    have : p.stagedEnv.bins = p.stagedEnv.n / 2 + 1 := rfl
    omega
  rw [cfgEffect_after, activate_delay, resetUnits_delay, if_pos (by decide)]
  exact ⟨(resetUnits_pvCleared hbins (by decide)).activate _ _,
    (resetUnits_quantCleared hbins (by decide)).activate _ _, rfl⟩

end

/-- Settles O30: the tables as every CFG leaves them, in binary32, the cleared history, and the registers. -/
theorem cfgBuildsConfiguration : Obligations.CfgBuildsConfiguration := by
  unfold Obligations.CfgBuildsConfiguration
  intro s
  dsimp only
  intro hsize hhop hrate hparams hreals
  have hcheck : s.params.checkCfg = none := checkCfg_of_good hsize hhop hrate
  have hexec : exec .cfg s = .next (effectOf .cfg s.params s).after.complete :=
    (exec_completes_hw (i := .cfg) hcheck (cfgEffect_spc s.params s) (allFinite_append.2 ⟨hparams, hreals⟩)).trans
      (by rw [cfgEffect_after])
  have hn : s.params.stagedEnv.n ≤ 4096 := le_of_sizeOk hsize
  have hline (k : Nat) (hk : k < s.params.stagedEnv.lines) := cfgEffect_line s hn hk
  have hframe : SameBytesOutside _ s.mem (effectOf .cfg s.params s).after.mem := effect_inBlocks s.params s .cfg
  have hfinished := (cfgEffect_uniform s.params).finished (s := s)
  rw [resetRegisters_all, stagedEnv_depth] at hfinished
  obtain ⟨hpv, ⟨hnotes, hbands⟩, hlines⟩ := cfgEffect_history (s := s) hn
  obtain ⟨htw, hbr, hwin, hband, -, -⟩ := cfgEffect_tables s.params s hcheck
  rw [cfgEffect_env] at htw hbr hwin hband
  rw [cfgEffect_window] at hwin
  -- All that is claimed of the state that the effect leaves is in hand, so the state itself can be forgotten.
  generalize (effectOf .cfg s.params s).after = t at *
  refine ⟨_, hexec, htw, hbr, hwin, hband, hline, hpv, hnotes, hbands, delayBin_of_zeroed hlines, hframe, hfinished⟩

end Sys2Proof.Machine

/-! SUPPORT. The statements of the FFT chapter (spec/41_fft.md): the bit-reversal table (R152), the Hann window (R153, R154), the
commands WIN, FFTF and FFTI (R161, R163, R166), what the network computes (R157), and the round trip (R160, R167). -/

namespace Sys2Proof.Machine

/-! ### The bit-reversal table (R152) -/

theorem bitReverse_lt (b : Nat) : ∀ n, bitReverse b n < 2 ^ b := by
  induction b with
  | zero => intro n; simp [bitReverse]
  | succ b ih =>
    intro n
    have hlow := ih (n / 2)
    have hbit : n % 2 * 2 ^ b ≤ 2 ^ b := Nat.mul_le_of_le_div _ _ _ (by
      rw [Nat.div_self (Nat.two_pow_pos b)]; omega)
    rw [bitReverse, Nat.pow_succ]
    omega

/-- Bit `i` of the reversed number is bit `b - 1 - i` of the number. -/
theorem testBit_bitReverse {b : Nat} : ∀ {i : Nat} (n : Nat), i < b →
    (bitReverse b n).testBit i = n.testBit (b - 1 - i) := by
  induction b with
  | zero => intro i n hi; omega
  | succ b ih =>
    intro i n hi
    rw [bitReverse, Nat.mul_comm, Nat.testBit_two_pow_mul_add _ (bitReverse_lt b _)]
    split
    · next hlow =>
      rw [ih (n / 2) hlow, Nat.testBit_div_two]
      congr 1
      omega
    · next hhigh =>
      obtain rfl : i = b := by omega
      simp

theorem bitReverse_bitReverse {b n : Nat} (hn : n < 2 ^ b) : bitReverse b (bitReverse b n) = n := by
  refine Nat.eq_of_testBit_eq fun i => ?_
  by_cases hi : i < b
  · rw [testBit_bitReverse _ hi, testBit_bitReverse _ (by omega)]
    congr 1
    omega
  · have hpow : 2 ^ b ≤ 2 ^ i := Nat.pow_le_pow_right (by omega) (by omega)
    rw [Nat.testBit_lt_two_pow ((bitReverse_lt b _).trans_le hpow), Nat.testBit_lt_two_pow (hn.trans_le hpow)]

/-- The table for `N = 2 ^ m`. -/
theorem brTable_eq {R : Type} {E : Env R} {m : Nat} (hE : E.n = 2 ^ m) :
    E.brTable = tabulate (2 ^ m) (bitReverse m) := by
  rw [Env.brTable, Env.log2n, hE, Nat.log2_two_pow]

theorem brTable_getElem? {R : Type} {E : Env R} {m n : Nat} (hE : E.n = 2 ^ m) (hn : n < 2 ^ m) :
    E.brTable[n]? = some (bitReverse m n) := by
  simp [brTable_eq hE, tabulate, hn]

/-- Settles O58: the table is `bitReverse`, which moves every bit to the mirrored place and so is its own inverse. -/
theorem bitReversalTable : Obligations.BitReversalTable := by
  unfold Obligations.BitReversalTable
  intro R num hop fs
  refine ⟨fun m => ⟨length_brTable _, fun n hn => ?_⟩, (brTable_eq rfl).trans (by decide),
    (brTable_eq rfl).trans (by decide), (brTable_eq rfl).trans (by decide)⟩
  have hrev := bitReverse_lt m n
  refine ⟨bitReverse m n, brTable_getElem? rfl hn, hrev, ?_, fun b hb => testBit_bitReverse n hb⟩
  rw [brTable_getElem? rfl hrev, bitReverse_bitReverse hn]

/-! ### The Hann window (R153, R154) -/

/-- R153 for the Hann window, with the operations of the record `exactNum` written as those of the real numbers. -/
theorem exactWinTable_hann (n k : Nat) (hop : Int) (fs : ℝ) (hk : k < n) :
    (exactEnv n hop fs).at_ ((exactEnv n hop fs).winTable .hann) k = 1 / 2 - 1 / 2 * Real.cos (2 * Real.pi * k / n) := by
  rw [Env.at_, Env.winTable, getD_tabulate _ _ _ k (show k < (exactEnv n hop fs).n from hk)]
  simp [Env.windowAt, Env.windowAngle, Env.half, Env.lit, Env.nat, Env.twoPi, Env.two, exactEnv, exactNum, Params.spc]

/-- The angle of the window moves by a quarter turn over a quarter of the frame, and wraps with the index. -/
theorem cos_angle_quarters (q j i : Nat) (hq : 0 < q) :
    Real.cos (2 * Real.pi * ((j + i * q) % (4 * q) : ℕ) / (4 * q : ℕ)) =
      Real.cos (2 * Real.pi * j / (4 * q : ℕ) + i * (Real.pi / 2)) := by
  have hpos : ((4 * q : ℕ) : ℝ) ≠ 0 := by positivity
  have hdiv : (j : ℝ) + i * q = ((j + i * q) % (4 * q) : ℕ) + (4 * q : ℕ) * ((j + i * q) / (4 * q) : ℕ) := by
    exact_mod_cast (Nat.mod_add_div (j + i * q) (4 * q)).symm
  have hturns : 2 * Real.pi * j / (4 * q : ℕ) + i * (Real.pi / 2) =
      2 * Real.pi * ((j + i * q) % (4 * q) : ℕ) / (4 * q : ℕ) + ((j + i * q) / (4 * q) : ℕ) * (2 * Real.pi) := by
    have hscaled := congrArg (fun x : ℝ => 2 * Real.pi * x / (4 * q : ℕ)) hdiv
    have hquarter : 2 * Real.pi * (i * q : ℝ) / (4 * q : ℕ) = i * (Real.pi / 2) := by
      have : (q : ℝ) ≠ 0 := by positivity
      push_cast
      field_simp
      ring
    have hwhole : ∀ t : ℝ, 2 * Real.pi * ((4 * q : ℕ) * t) / (4 * q : ℕ) = t * (2 * Real.pi) := fun t => by
      field_simp
    simpa only [mul_add, add_div, hquarter, hwhole] using hscaled
  rw [hturns, Real.cos_add_nat_mul_two_pi]

/-- Settles O57: four shifts by a quarter turn give the cosines `c`, `-s`, `-c`, `s`, whose squares add to 2. -/
theorem hannSquaresAddUp : Obligations.HannSquaresAddUp := by
  unfold Obligations.HannSquaresAddUp
  intro q hop fs j hq hj
  have hmod (i : Nat) : (j + i * q) % (4 * q) < 4 * q := Nat.mod_lt _ (by omega)
  have hcos (i : Nat) := cos_angle_quarters q j i hq
  have h1 := hcos 1
  have h2 := hcos 2
  have h3 := hcos 3
  have l1 := hmod 1
  simp only [one_mul, Nat.cast_one] at h1 l1
  dsimp only
  rw [exactWinTable_hann _ _ _ _ hj, exactWinTable_hann _ _ _ _ l1, exactWinTable_hann _ _ _ _ (hmod 2),
    exactWinTable_hann _ _ _ _ (hmod 3), h1, h2, h3]
  generalize 2 * Real.pi * (j : ℝ) / (4 * q : ℕ) = x
  have e1 : Real.cos (x + Real.pi / 2) = -Real.sin x := Real.cos_add_pi_div_two x
  have e2 : Real.cos (x + (2 : ℕ) * (Real.pi / 2)) = -Real.cos x := by
    rw [← Real.cos_add_pi]; congr 1; push_cast; ring
  have e3 : Real.cos (x + (3 : ℕ) * (Real.pi / 2)) = Real.sin x := by
    rw [show x + (3 : ℕ) * (Real.pi / 2) = (x + Real.pi / 2) + Real.pi by push_cast; ring, Real.cos_add_pi, e1, neg_neg]
  rw [e1, e2, e3]
  linear_combination (1 / 2) * Real.sin_sq_add_cos_sq x

/-! ### WIN, FFTF and FFTI on the hardware (R161, R163, R166) -/

section
variable {p : Csrs} {par : Params} {rate : Word → Bool} (h : p.Configured)
include h

theorem issueFault_win_none (ht : p.tags.t = p.active.n) : p.issueFault .win par rate = none :=
  (configured_none h.ok _ _).trans (checkT_none ht)

theorem issueFault_fftf_none (ht : p.tags.t = p.active.n) : p.issueFault .fftf par rate = none :=
  (configured_none h.ok _ _).trans (checkT_none ht)

theorem issueFault_ffti_none (hz : p.tags.z = p.active.n) : p.issueFault .ffti par rate = none :=
  (configured_none h.ok _ _).trans (checkZ_none hz)

end

/-- The registers that FFTF leaves are those of a configured machine whose spectrum has the length needed (R163). -/
theorem Csrs.Configured.withZLen {c : Csrs} (h : c.Configured) (v : Nat) :
    Csrs.Configured { c.withZLen v with ipDone := true } :=
  ⟨h.ok, h.legal.size, h.legal.hop, h.legal.rate, h.legal.depthLow, h.legal.depthHigh, h.legal.writeIndex⟩

theorem withZLen_tag (c : Csrs) : (c.withZLen c.active.n.toNat).tags.z = c.active.n :=
  (BitVec.ofNat_toNat _ _).trans (BitVec.setWidth_eq _)

theorem applyWindow_words {E : Env Word} (hE : E.num = hwNum) (s : State) (a b : Nat) :
    E.applyWindow (s.words a E.n) (s.words b E.n) = tabulate E.n fun k => f32Mul (s.word (a + k)) (s.word (b + k)) := by
  refine List.map_congr_left fun k hk => ?_
  have hk := List.mem_range.1 hk
  rw [Env.at_, Env.at_, getD_words s a _ _ k hk, getD_words s b _ _ k hk, hE]
  rfl

/-- The forward transform is that of the samples with imaginary parts 0 (R158). -/
theorem fwd_eq_net {R : Type} (E : Env R) (tw : List (Cx R)) (br : List Nat) {t : List R} (ht : t.length = E.n) :
    E.fwd tw br t = E.net tw br false (t.map fun x => ⟨x, E.zero⟩) := by
  have hsamples : (tabulate E.n fun k => (⟨E.at_ t k, E.zero⟩ : Cx R)) = t.map fun x => ⟨x, E.zero⟩ := by
    refine List.ext_getElem (by simp [ht]) fun k hk hk' => ?_
    have hkt : k < t.length := by simpa using hk'
    simp [Env.at_, hkt]
  rw [Env.fwd, hsamples]

theorem inv_env (p : Csrs) (tw : List (Cx Word)) (br : List Nat) (z : List (Cx Word)) :
    p.env.inv tw br z = (p.env.net tw br true z).map fun y =>
      ⟨f32Mul (f32Div 0x3F800000 (f32OfInt p.env.n)) y.re, f32Mul (f32Div 0x3F800000 (f32OfInt p.env.n)) y.im⟩ := by
  simp only [Env.inv, env_one, env_num, hwNum_mul, hwNum_div, Env.nat, hwNum_ofInt]

/-- Complex numbers just stored are read back (R73). -/
theorem complexes_of_putComplexes {s : State} {a n : Nat} {zs : List (Cx Word)} (hl : zs.length = n) :
    (s.putComplexes a zs).complexes a n = zs := by
  subst hl
  exact complexes_of_words (words_putWords (length_cxWords zs))

/-- Settles O31: the effect of WIN stores the products, entry by entry. -/
theorem winAppliesWindow : Obligations.WinAppliesWindow := by
  unfold Obligations.WinAppliesWindow
  intro s hconf htag n hfin
  have hout := applyWindow_words (E := s.params.env) rfl s tBase winBase
  have hexec := exec_completes_hw (issueFault_win_none hconf htag) (winEffect_spc s.params s) (by
    rw [hout]
    exact allFinite_append.2 ⟨allFinite_append.2 ⟨allFinite_words.2 fun k hk => (hfin k hk).1,
      allFinite_words.2 fun k hk => (hfin k hk).2.1⟩, allFinite_tabulate.2 fun k hk => (hfin k hk).2.2⟩)
  have hblocks : SameBytesOutside [⟨tBase, n⟩] s.mem (effectOf .win s.params s).after.mem := winEffect_inBlocks _ _
  have hfinished := (winEffect_uniform s.params).finished (s := s)
  rw [show effectOf .win s.params s = _ from winEffect_spc s.params s] at hblocks hfinished
  refine ⟨_, hexec, fun k hk => ?_, hblocks, rfl, hfinished⟩
  rw [complete_word, hout, putWords_word_inside _ _ _ k (by rw [length_tabulate]; exact hk), getElem_tabulate]

/-- Settles O32: the effect of FFTF stores the forward transform. -/
theorem fftfTransforms : Obligations.FftfTransforms := by
  unfold Obligations.FftfTransforms
  intro s hconf htag E tw z ht htw hz
  have hout : E.fwd tw (s.nats brBase E.n) (s.words tBase E.n) = z := by
    rw [fwd_eq_net E _ _ (length_words s _ _)]
    simp only [z, E, env_zero]
  have hexec := exec_completes_hw (issueFault_fftf_none hconf htag) (fftfEffect_spc s.params s) (by
    rw [show s.params.env.fwd _ _ _ = z from hout]
    exact allFinite_append.2 ⟨allFinite_append.2 ⟨ht, htw⟩, hz⟩)
  have hblocks : SameBytesOutside [⟨zBase, 2 * E.n⟩] s.mem (effectOf .fftf s.params s).after.mem :=
    fftfEffect_inBlocks _ _
  have hfinished := (fftfEffect_uniform s.params).finished (s := s)
  rw [show effectOf .fftf s.params s = _ from fftfEffect_spc s.params s] at hblocks hfinished
  refine ⟨_, hexec, ?_, hblocks, rfl, hfinished⟩
  exact (complexes_of_putComplexes (length_fwd E _ _ _)).trans hout

/-- Settles O33: the effect of FFTI stores the inverse transform, and beside it, in `T`, its real parts. -/
theorem fftiTransforms : Obligations.FftiTransforms := by
  unfold Obligations.FftiTransforms
  intro s hconf htag E tw scale y hz htw hy
  have hout : E.inv tw (s.nats brBase E.n) (s.complexes zBase E.n) = y := inv_env s.params _ _ _
  have hexec := exec_completes_hw (issueFault_ffti_none hconf htag) (fftiEffect_spc s.params s) (by
    rw [show s.params.env.inv _ _ _ = y from hout]
    exact allFinite_append.2 ⟨allFinite_append.2 ⟨hz, htw⟩, hy⟩)
  have hblocks : SameBytesOutside [⟨zBase, 2 * E.n⟩, ⟨tBase, E.n⟩] s.mem (effectOf .ffti s.params s).after.mem :=
    fftiEffect_inBlocks _ _
  have hfinished := (fftiEffect_uniform s.params).finished (s := s)
  rw [show effectOf .ffti s.params s = _ from fftiEffect_spc s.params s] at hblocks hfinished
  have hlen : y.length = E.n := by rw [← hout]; exact length_inv E _ _ _
  refine ⟨_, hexec, ?_, ?_, hblocks, rfl, hfinished⟩
  · have hapart : tBase + (y.map Cx.re).length ≤ zBase := by
      have hsize : E.n ≤ 4096 := hconf.size_le
      rw [List.length_map, hlen]
      simp only [tBase, zBase]
      omega
    have hkept : ((s.putComplexes zBase y).putWords tBase (y.map Cx.re)).complexes zBase E.n =
        (s.putComplexes zBase y).complexes zBase E.n :=
      complexes_congr fun i _ => putWords_word_outside _ _ _ _ (.inr (by omega))
    rw [show s.params.env.inv _ _ _ = y from hout]
    exact hkept.trans (complexes_of_putComplexes hlen)
  · rw [show s.params.env.inv _ _ _ = y from hout]
    exact words_putWords (s := s.putComplexes zBase y) (by simpa using hlen)

/-! ### The network entry by entry (R155, R156), for every numerics record -/

/-- Writing `g k` at the distinct places `f k` for every `k < n` leaves `g k` at `f k`. -/
theorem foldl_set_getElem? {A : Type} {n : Nat} {f : Nat → Nat} {g : Nat → A} {y : List A}
    (hf : ∀ k, k < n → f k < y.length) (hinj : ∀ j k, j < n → k < n → f j = f k → j = k) {k : Nat} (hk : k < n) :
    ((List.range n).foldl (fun y k => y.set (f k) (g k)) y)[f k]? = some (g k) := by
  induction n with
  | zero => omega
  | succ n ih =>
    have hlen : ((List.range n).foldl (fun y k => y.set (f k) (g k)) y).length = y.length :=
      List.foldlRecOn _ _ (motive := fun z : List A => z.length = y.length) rfl fun _ hz _ _ => List.length_set.trans hz
    rw [List.range_succ, List.foldl_append, List.foldl_cons, List.foldl_nil]
    by_cases hkn : k = n
    · subst hkn
      exact List.getElem?_set_self (by rw [hlen]; exact hf k hk)
    · rw [List.getElem?_set_ne fun he => hkn (hinj _ _ hk (by omega) he.symm)]
      exact ih (fun j hj => hf j (by omega)) (fun i j hi hj => hinj i j (by omega) (by omega)) (by omega)

section
variable {R : Type} {E : Env R} {m : Nat} (hE : E.n = 2 ^ m)
include hE

/-- The permutation reads the array at the reversed index (R152, R156). -/
theorem cat_permute (x : List (Cx R)) {p : Nat} (hp : p < 2 ^ m) :
    E.cat_ (E.permute E.brTable x) p = E.cat_ x (bitReverse m p) := by
  have hbr {k : Nat} (hk : k < 2 ^ m) : E.brTable.getD k 0 = bitReverse m k := by
    rw [List.getD_eq_getElem?_getD, brTable_getElem? hE hk, Option.getD_some]
  have hentry := foldl_set_getElem? (n := E.n) (f := fun k => E.brTable.getD k 0) (g := fun k => E.cat_ x k)
    (y := tabulate E.n fun _ => E.czero) (k := bitReverse m p)
    (fun k hk => by rw [hE] at hk; rw [hbr hk, length_tabulate, hE]; exact bitReverse_lt m k)
    (fun j k hj hk he => by
      rw [hE] at hj hk
      rw [hbr hj, hbr hk] at he
      rw [← bitReverse_bitReverse hj, he, bitReverse_bitReverse hk])
    (by rw [hE]; exact bitReverse_lt m p)
  rw [hbr (bitReverse_lt m p), bitReverse_bitReverse hp] at hentry
  rw [Env.cat_, List.getD_eq_getElem?_getD, Env.permute, hentry, Option.getD_some]

omit hE in
theorem group_entry_lt {s g k : Nat} (hs : s ≤ m) (hg : g < 2 ^ (m - s)) (hk : k < 2 ^ s) : g * 2 ^ s + k < 2 ^ m := by
  calc g * 2 ^ s + k < (g + 1) * 2 ^ s := by rw [Nat.succ_mul]; omega
    _ ≤ 2 ^ (m - s) * 2 ^ s := Nat.mul_le_mul_right _ hg
    _ = 2 ^ m := by rw [← Nat.pow_add, Nat.sub_add_cancel hs]

section
variable (tw y : List (Cx R)) (inv : Bool) {s g k : Nat} (hs : s + 1 ≤ m) (hg : g < 2 ^ (m - (s + 1)))
include hs hg

/-- Entry `k` of group `g` after a stage of span `2 ^ s`, by the index in the group. -/
theorem cat_stage (hk : k < 2 ^ (s + 1)) : E.cat_ (E.stage tw inv (2 ^ s) y) (g * 2 ^ (s + 1) + k) =
    if k < 2 ^ s then
      (E.butterfly (E.cat_ y (g * 2 ^ (s + 1) + k)) (E.cat_ y (g * 2 ^ (s + 1) + k + 2 ^ s))
        (E.stageTwiddle tw inv (2 ^ s) k)).1
    else
      (E.butterfly (E.cat_ y (g * 2 ^ (s + 1) + k - 2 ^ s)) (E.cat_ y (g * 2 ^ (s + 1) + k))
        (E.stageTwiddle tw inv (2 ^ s) (k - 2 ^ s))).2 := by
  have hp : g * 2 ^ (s + 1) + k < E.n := by rw [hE]; exact group_entry_lt hs hg hk
  have hmod : (g * 2 ^ (s + 1) + k) % (2 * 2 ^ s) = k := by
    rw [← Nat.pow_succ', Nat.mul_add_mod', Nat.mod_eq_of_lt hk]
  rw [Env.cat_, Env.stage, getD_tabulate _ _ _ _ hp]
  simp only [hmod]

/-- The upper half of group `g`: the sums of the butterflies over the groups `2 g` and `2 g + 1` of the stage before. -/
theorem cat_stage_upper (hk : k < 2 ^ s) : E.cat_ (E.stage tw inv (2 ^ s) y) (g * 2 ^ (s + 1) + k) =
    E.cadd (E.cat_ y (2 * g * 2 ^ s + k))
      (E.cmul (E.stageTwiddle tw inv (2 ^ s) k) (E.cat_ y ((2 * g + 1) * 2 ^ s + k))) := by
  have hfirst : g * 2 ^ (s + 1) + k = 2 * g * 2 ^ s + k := by ring
  have hsecond : g * 2 ^ (s + 1) + k + 2 ^ s = (2 * g + 1) * 2 ^ s + k := by ring
  rw [cat_stage hE tw y inv hs hg (by rw [Nat.pow_succ]; omega), if_pos hk, hsecond, hfirst, Env.butterfly]

/-- The lower half of group `g`: the differences of the butterflies. -/
theorem cat_stage_lower (hk : k < 2 ^ s) : E.cat_ (E.stage tw inv (2 ^ s) y) (g * 2 ^ (s + 1) + (2 ^ s + k)) =
    E.csub (E.cat_ y (2 * g * 2 ^ s + k))
      (E.cmul (E.stageTwiddle tw inv (2 ^ s) k) (E.cat_ y ((2 * g + 1) * 2 ^ s + k))) := by
  have hsecond : g * 2 ^ (s + 1) + (2 ^ s + k) = (2 * g + 1) * 2 ^ s + k := by ring
  have hfirst : (2 * g + 1) * 2 ^ s + k - 2 ^ s = 2 * g * 2 ^ s + k := by
    rw [show (2 * g + 1) * 2 ^ s + k = 2 * g * 2 ^ s + k + 2 ^ s by ring, Nat.add_sub_cancel]
  rw [cat_stage hE tw y inv hs hg (by rw [Nat.pow_succ]; omega), if_neg (by omega), hsecond, hfirst,
    Nat.add_sub_cancel_left, Env.butterfly]

end

omit hE in
/-- The first `s` stages of the network (R156). -/
def Env.stagesTo (E : Env R) (tw : List (Cx R)) (inv : Bool) (y : List (Cx R)) (s : Nat) : List (Cx R) :=
  (List.range s).foldl (fun y s => E.stage tw inv (2 ^ s) y) y

theorem net_eq_stagesTo (tw : List (Cx R)) (br : List Nat) (inv : Bool) (x : List (Cx R)) :
    E.net tw br inv x = E.stagesTo tw inv (E.permute br x) m := by
  rw [Env.net, Env.stages, Env.stagesTo, Env.log2n, hE, Nat.log2_two_pow]

omit hE in
theorem stagesTo_succ (tw : List (Cx R)) (inv : Bool) (y : List (Cx R)) (s : Nat) :
    E.stagesTo tw inv y (s + 1) = E.stage tw inv (2 ^ s) (E.stagesTo tw inv y s) := by
  rw [Env.stagesTo, List.range_succ, List.foldl_append]
  rfl

end

/-! ### The discrete Fourier transform by halves -/

/-- The number on the unit circle at `x` turns, against the direction of the angle for the forward transform (R157). -/
noncomputable def turn (inv : Bool) (x : ℝ) : ℂ := Complex.exp ((if inv then 1 else -1) * (2 * Real.pi * x) * Complex.I)

section
variable (inv : Bool)

theorem turn_add (x y : ℝ) : turn inv (x + y) = turn inv x * turn inv y := by
  rw [turn, turn, turn, ← Complex.exp_add]
  congr 1
  push_cast
  ring

@[simp] theorem turn_natCast (k : ℕ) : turn inv k = 1 := by
  rw [turn, Complex.exp_eq_one_iff]
  cases inv with
  | false => exact ⟨-k, by push_cast; simp; ring⟩
  | true => exact ⟨k, by push_cast; simp; ring⟩

@[simp] theorem turn_zero : turn inv 0 = 1 := by simpa using turn_natCast inv 0

@[simp] theorem turn_half : turn inv (1 / 2) = -1 := by
  have harg : (2 * Real.pi * ((1 / 2 : ℝ) : ℂ)) = Real.pi := by push_cast; ring
  rw [turn, harg]
  cases inv with
  | false => simp [Complex.exp_neg]
  | true => simp

/-- `TW[i]` of R151, and its conjugate for the inverse transform. -/
theorem turn_eq_mk (x : ℝ) : turn inv x =
    ⟨Real.cos (2 * Real.pi * x), if inv then Real.sin (2 * Real.pi * x) else -Real.sin (2 * Real.pi * x)⟩ := by
  have harg : (2 * Real.pi * x : ℂ) = ((2 * Real.pi * x : ℝ) : ℂ) := by push_cast; rfl
  rw [turn, harg]
  generalize 2 * Real.pi * x = θ
  cases inv with
  | false =>
    have : (if false = true then (1 : ℂ) else -1) * (θ : ℂ) * Complex.I = ((-θ : ℝ) : ℂ) * Complex.I := by simp
    rw [this]
    apply Complex.ext <;> simp [Complex.exp_ofReal_mul_I_re, Complex.exp_ofReal_mul_I_im, -Complex.ofReal_neg]
  | true =>
    simp only [if_true, one_mul]
    apply Complex.ext <;> simp [Complex.exp_ofReal_mul_I_re, Complex.exp_ofReal_mul_I_im]

/-- Entry `k` of the discrete Fourier transform of the first `M` values of `f` (R157). -/
noncomputable def dft (M : ℕ) (f : ℕ → ℂ) (k : ℕ) : ℂ := ∑ j ∈ Finset.range M, f j * turn inv (k * j / M)

theorem sum_range_two_mul (f : ℕ → ℂ) (M : ℕ) :
    ∑ j ∈ Finset.range (2 * M), f j = ∑ j ∈ Finset.range M, f (2 * j) + ∑ j ∈ Finset.range M, f (2 * j + 1) := by
  induction M with
  | zero => simp
  | succ M ih =>
    rw [Nat.mul_succ, Finset.sum_range_succ, Finset.sum_range_succ, ih, Finset.sum_range_succ, Finset.sum_range_succ]
    ring

variable {M : ℕ} (hM : 0 < M) (f : ℕ → ℂ) (k : ℕ)
include hM

theorem dft_add_period : dft inv M f (k + M) = dft inv M f k := by
  refine Finset.sum_congr rfl fun j _ => ?_
  have hne : (M : ℝ) ≠ 0 := by positivity
  have harg : ((k + M : ℕ) : ℝ) * j / M = k * j / M + (j : ℕ) := by push_cast; field_simp
  rw [harg, turn_add, turn_natCast, mul_one]

/-- The even and the odd values, each with a transform of half the size. -/
theorem dft_two_mul : dft inv (2 * M) f k =
    dft inv M (fun j => f (2 * j)) k + turn inv (k / (2 * M)) * dft inv M (fun j => f (2 * j + 1)) k := by
  have hne : (M : ℝ) ≠ 0 := by positivity
  rw [dft, sum_range_two_mul, dft, dft, Finset.mul_sum]
  congr 1 <;> refine Finset.sum_congr rfl fun j _ => ?_
  · congr 2
    push_cast
    field_simp
  · have harg : (k : ℝ) * ((2 * j + 1 : ℕ) : ℝ) / ((2 * M : ℕ) : ℝ) = k / (2 * M) + k * j / M := by
      push_cast
      field_simp
      ring
    rw [harg, turn_add]
    ring

/-- The second half of the entries differs in the sign of the odd part. -/
theorem dft_two_mul_add : dft inv (2 * M) f (M + k) =
    dft inv M (fun j => f (2 * j)) k - turn inv (k / (2 * M)) * dft inv M (fun j => f (2 * j + 1)) k := by
  have hne : (M : ℝ) ≠ 0 := by positivity
  have harg : ((M + k : ℕ) : ℝ) / (2 * M) = 1 / 2 + k / (2 * M) := by push_cast; field_simp
  rw [dft_two_mul inv hM, harg, turn_add, turn_half, Nat.add_comm M k, dft_add_period inv hM, dft_add_period inv hM]
  ring

end

/-! ### The network over the exact reals -/

section
variable (n : ℕ) (hop : Int) (fs : ℝ)

theorem toComplex_cadd (a b : Cx ℝ) : toComplex ((exactEnv n hop fs).cadd a b) = toComplex a + toComplex b := rfl

theorem toComplex_csub (a b : Cx ℝ) : toComplex ((exactEnv n hop fs).csub a b) = toComplex a - toComplex b := rfl

theorem toComplex_cmul (a b : Cx ℝ) : toComplex ((exactEnv n hop fs).cmul a b) = toComplex a * toComplex b := by
  apply Complex.ext <;> simp [toComplex, Env.cmul, exactEnv, exactNum]

theorem exactTwiddle (i : ℕ) : (exactEnv n hop fs).twiddle i =
    ⟨Real.cos (2 * Real.pi * (i / n)), -Real.sin (2 * Real.pi * (i / n))⟩ := by
  simp [Env.twiddle, Env.angle, Env.neg, Env.zero, Env.twoPi, Env.two, Env.nat, exactEnv, exactNum, mul_div_assoc]

end

section
variable {m : ℕ} (hop : Int) (fs : ℝ) (inv : Bool)

/-- The factor of butterfly `k` of a stage of span `2 ^ s` (R151, R156). -/
theorem toComplex_stageTwiddle {s k : ℕ} (hs : s + 1 ≤ m) (hk : k < 2 ^ s) :
    toComplex ((exactEnv (2 ^ m) hop fs).stageTwiddle (exactEnv (2 ^ m) hop fs).twTable inv (2 ^ s) k) =
      turn inv (k / (2 * (2 ^ s : ℕ))) := by
  obtain ⟨d, rfl⟩ : ∃ d, m = s + 1 + d := ⟨m - (s + 1), by omega⟩
  have hstride : 2 ^ (s + 1 + d) / (2 * 2 ^ s) = 2 ^ d := by
    rw [← Nat.pow_succ', Nat.pow_add, Nat.mul_div_cancel_left _ (Nat.two_pow_pos _)]
  have hhalf : 2 ^ (s + 1 + d) / 2 = 2 ^ s * 2 ^ d := by
    rw [show 2 ^ (s + 1 + d) = 2 ^ s * 2 ^ d * 2 by ring, Nat.mul_div_cancel _ (by omega)]
  have hindex : k * 2 ^ d < 2 ^ (s + 1 + d) / 2 := by
    rw [hhalf]
    exact Nat.mul_lt_mul_of_pos_right hk (Nat.two_pow_pos d)
  have hentry : (exactEnv (2 ^ (s + 1 + d)) hop fs).cat_ (exactEnv (2 ^ (s + 1 + d)) hop fs).twTable
      (k * (2 ^ (s + 1 + d) / (2 * 2 ^ s))) = (exactEnv (2 ^ (s + 1 + d)) hop fs).twiddle (k * 2 ^ d) := by
    rw [hstride]
    exact getD_tabulate _ _ _ _ hindex
  have hturns : ((k * 2 ^ d : ℕ) : ℝ) / (2 ^ (s + 1 + d) : ℕ) = k / (2 * (2 ^ s : ℕ)) := by
    push_cast
    rw [pow_add, pow_succ]
    field_simp
  rw [turn_eq_mk, ← hturns]
  unfold Env.stageTwiddle
  rw [show (exactEnv (2 ^ (s + 1 + d)) hop fs).n = 2 ^ (s + 1 + d) from rfl, hentry, exactTwiddle]
  cases inv <;> simp [toComplex, Env.conj, Env.neg, Env.zero, exactEnv, exactNum]

/-- After `s` stages group `g` holds the transform, of size `2 ^ s`, of the samples whose index ends, in binary, in the
reversed `g`. -/
theorem stagesTo_eq_dft (x : List (Cx ℝ)) {s : ℕ} (hs : s ≤ m) : ∀ {g k : ℕ}, g < 2 ^ (m - s) → k < 2 ^ s →
    let E := exactEnv (2 ^ m) hop fs
    toComplex (E.cat_ (E.stagesTo E.twTable inv (E.permute E.brTable x) s) (g * 2 ^ s + k)) =
      dft inv (2 ^ s) (fun j => toComplex (E.cat_ x (j * 2 ^ (m - s) + bitReverse (m - s) g))) k := by
  have hE : (exactEnv (2 ^ m) hop fs).n = 2 ^ m := rfl
  induction s with
  | zero =>
    intro g k hg hk E
    obtain rfl : k = 0 := by omega
    have hperm := cat_permute hE x (p := g) (by simpa using hg)
    simp only [Env.stagesTo, List.range_zero, List.foldl_nil, dft, E]
    simp [hperm]
  | succ s ih =>
    intro g k hg hk E
    have hpow : 2 ^ (m - s) = 2 * 2 ^ (m - (s + 1)) := by rw [← Nat.pow_succ']; congr 1; omega
    have hrev : m - s = m - (s + 1) + 1 := by omega
    have hsize : (2 : ℕ) ^ (s + 1) = 2 * 2 ^ s := Nat.pow_succ'
    have hMpos : 0 < 2 ^ s := Nat.two_pow_pos s
    have heven {i : ℕ} (hi : i < 2 ^ s) := ih (by omega) (g := 2 * g) (k := i) (by omega) hi
    have hodd {i : ℕ} (hi : i < 2 ^ s) := ih (by omega) (g := 2 * g + 1) (k := i) (by omega) hi
    have hindexEven (j : ℕ) : j * 2 ^ (m - s) + bitReverse (m - s) (2 * g) =
        2 * j * 2 ^ (m - (s + 1)) + bitReverse (m - (s + 1)) g := by
      rw [hpow, hrev, bitReverse]
      simp only [Nat.mul_mod_right, Nat.zero_mul, Nat.zero_add, Nat.mul_div_cancel_left g (show 0 < 2 by omega)]
      ring
    have hindexOdd (j : ℕ) : j * 2 ^ (m - s) + bitReverse (m - s) (2 * g + 1) =
        (2 * j + 1) * 2 ^ (m - (s + 1)) + bitReverse (m - (s + 1)) g := by
      rw [hpow, hrev, bitReverse]
      rw [show (2 * g + 1) % 2 = 1 by omega, show (2 * g + 1) / 2 = g by omega]
      ring
    simp only [hindexEven, hindexOdd] at heven hodd
    rw [stagesTo_succ, hsize]
    rcases lt_or_ge k (2 ^ s) with hlow | hhigh
    · rw [← hsize, cat_stage_upper hE _ _ inv hs hg hlow, toComplex_cadd, toComplex_cmul, heven hlow, hodd hlow,
        toComplex_stageTwiddle hop fs inv hs hlow, hsize, dft_two_mul inv hMpos]
    · obtain ⟨i, rfl⟩ : ∃ i, k = 2 ^ s + i := ⟨k - 2 ^ s, by omega⟩
      have hi : i < 2 ^ s := by omega
      rw [← hsize, cat_stage_lower hE _ _ inv hs hg hi, toComplex_csub, toComplex_cmul, heven hi, hodd hi,
        toComplex_stageTwiddle hop fs inv hs hi, hsize, dft_two_mul_add inv hMpos]

/-- The network computes the discrete Fourier transform (R157). -/
theorem net_eq_dft (x : List (Cx ℝ)) {k : ℕ} (hk : k < 2 ^ m) :
    let E := exactEnv (2 ^ m) hop fs
    toComplex (E.cat_ (E.net E.twTable E.brTable inv x) k) = dft inv (2 ^ m) (fun n => toComplex (E.cat_ x n)) k := by
  intro E
  have h := stagesTo_eq_dft hop fs inv x (le_refl m) (g := 0) (k := k) (by simp) hk
  rw [net_eq_stagesTo (m := m) rfl]
  simpa [bitReverse] using h

end

/-- Settles O48: after the last stage the one group that is left holds the transform of all the samples. -/
theorem networkIsFourierTransform : Obligations.NetworkIsFourierTransform := by
  unfold Obligations.NetworkIsFourierTransform
  intro m hop fs x inv k _ hk E
  rw [net_eq_dft hop fs inv x hk, dft]
  refine Finset.sum_congr rfl fun n _ => ?_
  rw [turn]
  congr 2
  push_cast
  ring

/-! ### The inverse transform in the exact reals (R160) -/

theorem turn_false_eq (x : ℝ) : turn false x = turn true (-x) := by
  simp [turn]

theorem turn_nat_mul (inv : Bool) (j : ℕ) (x : ℝ) : turn inv (j * x) = turn inv x ^ j := by
  rw [turn, turn, ← Complex.exp_nat_mul]
  congr 1
  push_cast
  ring

/-- A number of turns that gives 1 is whole. -/
theorem turn_true_eq_one {x : ℝ} (h : turn true x = 1) : ∃ i : ℤ, x = i := by
  simp only [turn, if_true, one_mul] at h
  obtain ⟨i, hi⟩ := Complex.exp_eq_one_iff.1 h
  refine ⟨i, ?_⟩
  have hpi : (2 * Real.pi * Complex.I : ℂ) ≠ 0 := Complex.two_pi_I_ne_zero
  have : (x : ℂ) = (i : ℂ) := mul_right_cancel₀ hpi (by linear_combination hi)
  exact_mod_cast this

/-- The turns by the multiples of `(k - n) / M` cancel, unless `k = n`. -/
theorem sum_turn {M k n : ℕ} (hk : k < M) (hn : n < M) :
    ∑ j ∈ Finset.range M, turn true (j * (((k : ℝ) - n) / M)) = if n = k then (M : ℂ) else 0 := by
  have hM : (M : ℝ) ≠ 0 := by
    have : 0 < M := by omega
    positivity
  simp only [turn_nat_mul]
  split
  · next h => subst h; simp
  · next h =>
    have hone : turn true (((k : ℝ) - n) / M) ≠ 1 := fun hone => by
      obtain ⟨i, hi⟩ := turn_true_eq_one hone
      have hreal : (k : ℝ) - n = i * M := by rw [← hi]; field_simp
      have hint : (k : ℤ) - n = i * M := by exact_mod_cast hreal
      have hzero : (k : ℤ) - n = 0 := Int.eq_zero_of_abs_lt_dvd (Dvd.intro_left i hint.symm) (by rw [abs_lt]; omega)
      omega
    have hpow : turn true (((k : ℝ) - n) / M) ^ M = 1 := by
      rw [← turn_nat_mul, show (M : ℝ) * (((k : ℝ) - n) / M) = k + -n by field_simp; ring, turn_add, ← turn_false_eq]
      simp
    have hgeom := mul_geom_sum (turn true (((k : ℝ) - n) / M)) M
    rw [hpow, sub_self] at hgeom
    exact (mul_eq_zero.1 hgeom).resolve_left (sub_ne_zero.2 hone)

/-- The inverse transform of the forward transform, times the size (R157). -/
theorem dft_true_dft_false {M : ℕ} (f : ℕ → ℂ) {k : ℕ} (hk : k < M) : dft true M (dft false M f) k = M * f k := by
  have hterm (n j : ℕ) : f n * turn false (j * n / M) * turn true (k * j / M) =
      f n * turn true (j * (((k : ℝ) - n) / M)) := by
    rw [turn_false_eq, mul_assoc, ← turn_add]
    congr 2
    ring
  calc dft true M (dft false M f) k
      = ∑ j ∈ Finset.range M, ∑ n ∈ Finset.range M, f n * turn true (j * (((k : ℝ) - n) / M)) := by
        simp only [dft, Finset.sum_mul, hterm]
    _ = ∑ n ∈ Finset.range M, f n * (if n = k then (M : ℂ) else 0) := by
        rw [Finset.sum_comm]
        refine Finset.sum_congr rfl fun n hn => ?_
        rw [← Finset.mul_sum, sum_turn hk (Finset.mem_range.1 hn)]
    _ = M * f k := by
        simp only [mul_ite, mul_zero, Finset.sum_ite_eq', Finset.mem_range, hk, if_true, mul_comm]

theorem toComplex_injective : Function.Injective toComplex := fun a b h => by
  obtain ⟨are, aim⟩ := a
  obtain ⟨bre, bim⟩ := b
  simpa [toComplex] using h

theorem cat_of_lt {R : Type} (E : Env R) {zs : List (Cx R)} {k : ℕ} (hk : k < zs.length) : E.cat_ zs k = zs[k] :=
  List.getD_eq_getElem _ _ hk

theorem ext_cat {R : Type} (E : Env R) {n : ℕ} {xs ys : List (Cx R)} (hx : xs.length = n) (hy : ys.length = n)
    (h : ∀ k, k < n → E.cat_ xs k = E.cat_ ys k) : xs = ys :=
  List.ext_getElem (hx.trans hy.symm) fun k hk hk' => by
    rw [← cat_of_lt E hk, ← cat_of_lt E hk', h k (hx ▸ hk)]

/-- The scale of R159, entry by entry. -/
theorem cat_inv {R : Type} (E : Env R) (tw z : List (Cx R)) (br : List ℕ) {k : ℕ} (hk : k < E.n) :
    E.cat_ (E.inv tw br z) k =
      ⟨E.num.mul (E.num.div E.one (E.nat E.n)) (E.cat_ (E.net tw br true z) k).re,
        E.num.mul (E.num.div E.one (E.nat E.n)) (E.cat_ (E.net tw br true z) k).im⟩ := by
  have hnet : k < (E.net tw br true z).length := by rw [length_net]; exact hk
  rw [cat_of_lt E hnet, cat_of_lt E (show k < (E.inv tw br z).length by rw [length_inv]; exact hk)]
  simp [Env.inv]

/-- The scale of R159 is that of a complex number by a real one. -/
theorem toComplex_cat_inv {E : Env ℝ} (hE : E.num = exactNum) (tw z : List (Cx ℝ)) (br : List ℕ) {k : ℕ} (hk : k < E.n) :
    toComplex (E.cat_ (E.inv tw br z) k) = toComplex (E.cat_ (E.net tw br true z) k) / E.n := by
  rw [cat_inv E tw z br hk, Env.one, Env.nat, hE]
  apply Complex.ext <;> simp [toComplex, exactNum, Complex.div_natCast_re, Complex.div_natCast_im] <;> ring

/-- R160 in the exact reals. -/
theorem inv_net {m : ℕ} (hop : Int) (fs : ℝ) {x : List (Cx ℝ)} (hx : x.length = 2 ^ m) :
    let E := exactEnv (2 ^ m) hop fs
    E.inv E.twTable E.brTable (E.net E.twTable E.brTable false x) = x := by
  intro E
  refine ext_cat E (length_inv E _ _ _) hx fun k hk => toComplex_injective ?_
  replace hk : k < 2 ^ m := hk
  have hM : ((2 ^ m : ℕ) : ℂ) ≠ 0 := Nat.cast_ne_zero.2 (Nat.two_pow_pos m).ne'
  have hforward : dft true (2 ^ m) (fun n => toComplex (E.cat_ (E.net E.twTable E.brTable false x) n)) k =
      dft true (2 ^ m) (dft false (2 ^ m) fun n => toComplex (E.cat_ x n)) k :=
    Finset.sum_congr rfl fun n hn => congrArg (· * _) (net_eq_dft hop fs false x (Finset.mem_range.1 hn))
  rw [toComplex_cat_inv (E := E) rfl _ _ _ hk, net_eq_dft hop fs true _ hk, hforward, dft_true_dft_false _ hk]
  exact mul_div_cancel_left₀ _ hM

/-- The samples come back from the transforms of R163 and R166. -/
theorem inv_fwd {m : ℕ} (hop : Int) (fs : ℝ) {t : List ℝ} (ht : t.length = 2 ^ m) :
    let E := exactEnv (2 ^ m) hop fs
    (E.inv E.twTable E.brTable (E.fwd E.twTable E.brTable t)).map Cx.re = t := by
  intro E
  rw [fwd_eq_net E _ _ (ht.trans rfl), inv_net hop fs (by simpa using ht), List.map_map]
  exact List.map_id t

/-! ### The energy of the quantizer in the exact reals (R221, R263) -/

section
variable {E : Env ℝ} (hE : E.num = exactNum)
include hE

theorem exact_sum (xs : List ℝ) : E.sum xs = xs.sum := by
  have hzero : E.zero = 0 := by simp [Env.zero, hE, exactNum]
  rw [Env.sum, hzero, List.sum_eq_foldl, hE]
  rfl

/-- The square of a merged magnitude is the energy of its contributors (R221). -/
theorem exact_mergeMag_sq (mag : List ℝ) (ks : List ℕ) :
    E.mergeMag mag ks * E.mergeMag mag ks = (ks.map fun k => E.at_ mag k * E.at_ mag k).sum := by
  have hzero : E.zero = 0 := by simp [Env.zero, hE, exactNum]
  match ks with
  | [] => simp [Env.mergeMag, hzero]
  | [k] =>
    have hroot : Real.sqrt (E.at_ mag k * E.at_ mag k) * Real.sqrt (E.at_ mag k * E.at_ mag k) =
        E.at_ mag k * E.at_ mag k := Real.mul_self_sqrt (mul_self_nonneg _)
    simp only [Env.mergeMag, hE, exactNum, List.map_cons, List.map_nil, List.sum_singleton]
    split
    · exact hroot
    · rfl
  | k :: j :: ks =>
    have hnonneg : 0 ≤ ((k :: j :: ks).map fun k => E.at_ mag k * E.at_ mag k).sum :=
      List.sum_nonneg fun y hy => by
        obtain ⟨i, -, rfl⟩ := List.mem_map.1 hy
        exact mul_self_nonneg _
    have hroot := Real.mul_self_sqrt hnonneg
    simpa only [Env.mergeMag, exact_sum hE, hE, exactNum] using hroot

omit hE in
/-- The sum over the contributors of a target (R220), as a sum over a set of bins. -/
theorem sum_contributors (m : ℕ) (target : ℕ → ℕ) (f : ℕ → ℝ) (t : ℕ) :
    ((contributors m (fun k => some (target k)) t).map f).sum = ∑ k ∈ Finset.range m with target k = t, f k := by
  have hfilter : contributors m (fun k => some (target k)) t = (List.range m).filter fun k => decide (target k = t) := by
    refine List.filter_congr fun k _ => ?_
    rw [Option.some_beq_some, beq_eq_decide]
  rw [hfilter]
  rfl

omit hE in
theorem energyOf_tabulate (n : ℕ) (f : ℕ → ℝ) : energyOf (tabulate n f) = ∑ k ∈ Finset.range n, f k * f k := by
  rw [energyOf, tabulate, List.map_map]
  rfl

/-- The redistributor keeps the energy where every bin has a target (R221). -/
theorem exact_redist_energy (mag ph : List ℝ) {m : ℕ} {target : ℕ → ℕ} (ht : ∀ k, k < m → target k < m) :
    energyOf ((E.redist mag ph m fun k => some (target k)).map Merged.mag) = energyOf (tabulate m (E.at_ mag)) := by
  have hmags : (E.redist mag ph m fun k => some (target k)).map Merged.mag =
      tabulate m fun t => E.mergeMag mag (contributors m (fun k => some (target k)) t) := List.map_map
  rw [hmags, energyOf_tabulate, energyOf_tabulate]
  simp only [exact_mergeMag_sq hE, sum_contributors]
  exact Finset.sum_fiberwise_of_maps_to (fun k hk => Finset.mem_range.2 (ht k (Finset.mem_range.1 hk))) _

omit hE in
/-- The target of a bin lies among the bins (R258). -/
theorem quantTarget_lt {R : Type} {E : Env R} {q : QuantMap R} {k : ℕ} {o : ℕ × ℕ} (h : E.quantTarget q k = some o) :
    o.1 < E.lines := by
  unfold Env.quantTarget at h
  split at h
  · cases h
  · dsimp only at h
    split at h
    · cases h
    · next hrange =>
      obtain rfl := Option.some.inj h
      dsimp only
      omega

omit hE in
theorem getD_quantTargets_lt {R : Type} {E : Env R} (x : QuantIn R) {k : ℕ} (hk : k < E.lines) :
    (((E.quantTargets x).getD k none).map Prod.fst).getD k < E.lines := by
  rw [Env.quantTargets, getD_tabulate _ _ _ _ hk]
  cases htarget : E.quantTarget (E.quantMap x) k with
  | none => exact hk
  | some o => exact quantTarget_lt htarget

omit hE in
theorem map_mag_zipWith {R : Type} : ∀ {mags phases : List R}, mags.length = phases.length →
    (List.zipWith Bin.mk mags phases).map Bin.mag = mags
  | [], [], _ => rfl
  | m :: _, _ :: _, h => congrArg (m :: ·) (map_mag_zipWith (Nat.succ.inj h))

/-- Without an envelope the output magnitudes are those of the redistributor, and the Nyquist bin adds no energy (R250,
R263). -/
theorem exact_quantFrame_energy (x : QuantIn ℝ) (hx : x.envelope = none) :
    energyOf ((E.quantFrame x).map Bin.mag) = energyOf (tabulate E.lines (E.at_ x.mag)) := by
  have hzero : E.zero = 0 := by simp [Env.zero, hE, exactNum]
  have hmags : E.quantMags x = (E.quantMerged x).map Merged.mag := by simp [Env.quantMags, hx]
  have hframe : (E.quantFrame x).map Bin.mag = (E.quantMerged x).map Merged.mag ++ [0] := by
    rw [Env.quantFrame, List.map_append, map_mag_zipWith (by simp), hmags, List.map_singleton, hzero]
  have hredist := exact_redist_energy hE x.mag x.ph fun k (hk : k < E.lines) => getD_quantTargets_lt x hk
  have hnyquist : energyOf ((E.quantMerged x).map Merged.mag ++ [0]) = energyOf ((E.quantMerged x).map Merged.mag) := by
    simp [energyOf]
  rw [hframe, hnyquist]
  exact hredist

end

/-! ### The tolerance contract and the exact reals (R326) -/

theorem closeTo_refl (x : ℝ) : closeTo x x := by
  unfold closeTo
  rw [sub_self, abs_zero]
  positivity

theorem phaseCloseTo_refl (x : ℝ) : phaseCloseTo x x := ⟨0, by simpa using closeTo_refl x⟩

theorem binCloseTo_refl (top : ℝ) (x : Bin ℝ) : binCloseTo top x x :=
  ⟨closeTo_refl _, fun _ => phaseCloseTo_refl _, 0, by simp; positivity⟩

theorem quantIn_map_id (x : QuantIn ℝ) : x.map (fun y => y) = x := by
  obtain ⟨mag, ph, strength, thr, amt, preserve, inScl, drift, envelope, band, first, cnt, prevE, acc, sil⟩ := x
  cases drift <;> cases envelope <;> simp [QuantIn.map]

/-- The exact reals meet the contract: every result is its own reference value, the round trip is exact, and so is the
energy. -/
theorem exactNum_meetsTolerance : MeetsTolerance exactNum (fun x => x) where
  roundTrip := by
    intro m hop fs t top _ _ ht E z back hfin _ _ n hn
    have hback : back = t := inv_fwd hop fs ht
    have htop : 0 ≤ top := (abs_nonneg _).trans (hfin _ (List.getElem_mem (ht ▸ hn))).2
    rw [hback, sub_self, abs_zero]
    positivity
  energy := by
    intro n hop fs x hx E total _ _
    have henergy := exact_quantFrame_energy (E := E) rfl x hx
    have htotal : energyOf ((E.quantFrame x).map fun b => b.mag) = total := by
      simpa only [total, List.map_id'] using henergy
    have hnonneg : 0 ≤ total := by
      simp only [total, List.map_id', energyOf_tabulate]
      exact Finset.sum_nonneg fun k _ => mul_self_nonneg _
    rw [htotal, sub_self, abs_zero]
    positivity
  mask := by
    intro n hop fs mode lo hi w f E _ _ _ _ _
    show |E.maskFn mode lo hi w f - E.maskFn mode lo hi w f| ≤ _
    rw [sub_self, abs_zero]
    positivity
  results := fun n hop fs w k note a b c d e _ =>
    ⟨List.forall₂_same.2 fun _ _ _ => closeTo_refl _, fun _ _ => closeTo_refl _,
      List.forall₂_same.2 fun _ _ _ => phaseCloseTo_refl _⟩
  frames := by
    intro m hop fs w x z y ks top _ _ _ _ E X spectral _ _ _ _
    simp only [spectral, List.map_id', X]
    exact ⟨List.forall₂_same.2 fun _ _ _ => closeTo_refl _, List.forall₂_same.2 fun _ _ _ _ => binCloseTo_refl _ _⟩
  synthesis := by
    intro m hop fs w b _ _ _ E X b' _ _
    have hb : b' = b := List.map_id' b
    rw [hb]
    exact List.forall₂_same.2 fun _ _ _ => closeTo_refl _
  quantizer := by
    intro n hop fs x E X _ _
    rw [quantIn_map_id, List.map_id']
    exact ⟨List.forall₂_same.2 fun _ _ _ _ => ⟨closeTo_refl _, phaseCloseTo_refl _⟩,
      List.forall₂_same.2 fun _ _ => ⟨fun _ => phaseCloseTo_refl _, rfl⟩, fun _ => closeTo_refl _⟩
  operations := fun a b _ _ _ _ =>
    ⟨closeTo_refl _, closeTo_refl _, closeTo_refl _, fun _ _ => closeTo_refl _, fun _ => closeTo_refl _, closeTo_refl _,
      closeTo_refl _, fun _ => closeTo_refl _, closeTo_refl _, .inl (closeTo_refl _)⟩

/-! ### FFTF and FFTI on the machine over the exact reals (R163, R166, R321) -/

section
variable (H : Hardware ℝ) {s t : RealState ℝ} {a n : ℕ}

theorem realStorage_get_word (s : RealState ℝ) (a : ℕ) : ((realStorage H).get s a).word = s.word.word a := by
  rw [realStorage_get]
  cases lookupReal a s.bus <;> rfl

theorem realStorage_reals_congr (h : ∀ i, i < n → (realStorage H).get t (a + i) = (realStorage H).get s (a + i)) :
    (realStorage H).reals t a n = (realStorage H).reals s a n :=
  List.map_congr_left fun i hi => h i (List.mem_range.1 hi)

theorem realStorage_complexes_congr
    (h : ∀ i, i < 2 * n → (realStorage H).get t (a + i) = (realStorage H).get s (a + i)) :
    (realStorage H).complexes t a n = (realStorage H).complexes s a n := by
  refine List.map_congr_left fun k hk => ?_
  have hk := List.mem_range.1 hk
  rw [Nat.add_assoc, h (2 * k) (by omega), h (2 * k + 1) (by omega)]

theorem realStorage_nats_congr (h : ∀ i, i < n → (realStorage H).get t (a + i) = (realStorage H).get s (a + i)) :
    (realStorage H).nats t a n = (realStorage H).nats s a n := by
  refine congrArg (List.map BitVec.toNat) (words_congr fun i hi => ?_)
  rw [realStorage_base, realStorage_base, ← realStorage_get_word H, ← realStorage_get_word H, h i hi]

/-- A datum among the parts of complex numbers is one of the data they were read from. -/
theorem realStorage_complexes_ok (h : ∀ i, i < 2 * n → ((realStorage H).get s (a + i)).ok = true) :
    ∀ d ∈ cxWords ((realStorage H).complexes s a n), d.ok = true := by
  intro d hd
  obtain ⟨z, hz, hdz⟩ := List.mem_flatMap.1 hd
  obtain ⟨k, hk, rfl⟩ := (mem_tabulate _ _ _).1 hz
  simp only [List.mem_cons, List.not_mem_nil, or_false, Nat.add_assoc] at hdz
  rcases hdz with rfl | rfl
  · exact h (2 * k) (by omega)
  · exact h (2 * k + 1) (by omega)

end

/-- A computed real is a real of the exact record, which has no overflow (R327). -/
theorem exact_cxData_ok {E : Env ℝ} (hE : E.num = exactNum) (zs : List (Cx ℝ)) : ∀ d ∈ E.cxData zs, d.ok = true := by
  intro d hd
  obtain ⟨z, hz, hdz⟩ := List.mem_flatMap.1 hd
  obtain ⟨y, -, rfl⟩ := List.mem_map.1 hz
  simp only [List.mem_cons, List.not_mem_nil, or_false, hE] at hdz
  rcases hdz with rfl | rfl <;> rfl

theorem length_cxData {R : Type} (E : Env R) (zs : List (Cx R)) : (E.cxData zs).length = 2 * zs.length := by
  rw [Env.cxData, cxWords, length_flatMap_pair, List.length_map]

section
variable {x : RealState ℝ} (hidle : x.word.inFlight = none) (hconf : x.word.csr.Configured)
include hidle hconf

/-- FFTF leaves the forward transform in `Z`, kept as exact reals, and every real beyond `Z` as it was. -/
theorem exact_fftf (htag : x.word.csr.tags.t = x.word.csr.active.n) :
    let M := realStorage exactHardware
    let E := x.word.csr.envOf exactHardware
    (∀ d ∈ M.reals x tBase E.n ++ cxWords (M.complexes x twBase (E.n / 2)), d.ok = true) →
    ∃ a, execWith exactHardware .fftf x = .next a ∧
      a.word.inFlight = none ∧ a.word.csr = { x.word.csr.withZLen E.n with ipDone := true } ∧
      cxsOf (M.complexes a zBase E.n) =
        E.fwd (cxsOf (M.complexes x twBase (E.n / 2))) (M.nats x brBase E.n) (realsOf (M.reals x tBase E.n)) ∧
      (∀ i, i < 2 * E.n → (M.get a (zBase + i)).ok = true) ∧
      ∀ w, zBase + 2 * E.n ≤ w → M.get a w = M.get x w := by
  intro M E hdata
  have hparams : (M.base x).params = x.word.csr := params_of_idle hidle
  let z := E.fwd (cxsOf (M.complexes x twBase (E.n / 2))) (M.nats x brBase E.n) (realsOf (M.reals x tBase E.n))
  have hz : z.length = E.n := length_fwd E _ _ _
  have hout : (E.cxData z).length = 2 * E.n := by rw [length_cxData, hz]
  have hexec := runCommand_completes (M := M) (i := .fftf) (s := x) (effect := fftfEffect M exactHardware)
    (par := exactHardware.par) (rate := rateOkOn exactHardware.num)
    (by rw [hparams]; exact issueFault_fftf_none hconf htag)
    (by
      rw [hparams]
      exact List.forall_mem_append.2 ⟨hdata, exact_cxData_ok rfl _⟩)
  rw [hparams] at hexec
  have hget (w : ℕ) : M.get (M.modify (fftfEffect M exactHardware x.word.csr x).after State.complete) w =
      M.get (M.put x zBase (E.cxData z)) w := rfl
  refine ⟨_, hexec, rfl, rfl, ?_, fun i hi => ?_, fun w hw => ?_⟩
  · rw [realStorage_complexes_congr exactHardware fun i _ => hget _]
    have := complexes_put exactHardware x zBase E z
    rwa [hz] at this
  · rw [hget, realStorage_get_put_inside _ _ _ _ _ (by rw [hout]; exact hi)]
    rfl
  · rw [hget, realStorage_get_put_outside _ _ _ _ _ (.inr (by rw [hout]; exact hw))]

/-- FFTI leaves the real parts of the inverse transform in `T`, kept as exact reals. -/
theorem exact_ffti (htag : x.word.csr.tags.z = x.word.csr.active.n) :
    let M := realStorage exactHardware
    let E := x.word.csr.envOf exactHardware
    (∀ d ∈ cxWords (M.complexes x zBase E.n) ++ cxWords (M.complexes x twBase (E.n / 2)), d.ok = true) →
    ∃ b, execWith exactHardware .ffti x = .next b ∧
      realsOf (M.reals b tBase E.n) = (E.inv (cxsOf (M.complexes x twBase (E.n / 2))) (M.nats x brBase E.n)
        (cxsOf (M.complexes x zBase E.n))).map Cx.re := by
  intro M E hdata
  have hparams : (M.base x).params = x.word.csr := params_of_idle hidle
  let y := E.inv (cxsOf (M.complexes x twBase (E.n / 2))) (M.nats x brBase E.n) (cxsOf (M.complexes x zBase E.n))
  have hy : (y.map Cx.re).length = E.n := by rw [List.length_map]; exact length_inv E _ _ _
  have hexec := runCommand_completes (M := M) (i := .ffti) (s := x) (effect := fftiEffect M exactHardware)
    (par := exactHardware.par) (rate := rateOkOn exactHardware.num)
    (by rw [hparams]; exact issueFault_ffti_none hconf htag)
    (by
      rw [hparams]
      exact List.forall_mem_append.2 ⟨hdata, exact_cxData_ok rfl _⟩)
  rw [hparams] at hexec
  refine ⟨_, hexec, ?_⟩
  have hget (w : ℕ) : M.get (M.modify (fftiEffect M exactHardware x.word.csr x).after State.complete) w =
      M.get (M.put (M.put x zBase (E.cxData y)) tBase (E.data (y.map Cx.re))) w := rfl
  rw [realStorage_reals_congr exactHardware fun i _ => hget _]
  have := reals_put exactHardware (M.put x zBase (E.cxData y)) tBase exactNum (y.map Cx.re)
  rwa [hy] at this

/-- The round trip on the machine over the exact reals (R160, R167, R321). -/
theorem exact_roundTrip (htag : x.word.csr.tags.t = x.word.csr.active.n) :
    let M := realStorage exactHardware
    let E := x.word.csr.envOf exactHardware
    cxsOf (M.complexes x twBase (E.n / 2)) = E.twTable → M.nats x brBase E.n = E.brTable →
    (∀ d ∈ M.reals x tBase E.n ++ cxWords (M.complexes x twBase (E.n / 2)), d.ok = true) →
    ∃ a b, execWith exactHardware .fftf x = .next a ∧ execWith exactHardware .ffti a = .next b ∧
      realsOf (M.reals b tBase E.n) = realsOf (M.reals x tBase E.n) := by
  intro M E htw hbr hdata
  obtain ⟨m, -, hm⟩ := sizeOk_iff_pow.1 hconf.legal.size
  have hsize : E.n ≤ 4096 := hconf.size_le
  obtain ⟨a, hfftf, hidle', hcsr, hz, hzok, hkept⟩ := exact_fftf hidle hconf htag hdata
  replace hkept : ∀ w, zBase + 2 * E.n ≤ w → M.get a w = M.get x w := hkept
  have henv : a.word.csr.envOf exactHardware = E := by rw [hcsr]; rfl
  have hconf' : a.word.csr.Configured := by
    rw [hcsr]
    exact hconf.withZLen E.n
  have htag' : a.word.csr.tags.z = a.word.csr.active.n := by
    rw [hcsr]
    exact withZLen_tag x.word.csr
  have htw' : M.complexes a twBase (E.n / 2) = M.complexes x twBase (E.n / 2) :=
    realStorage_complexes_congr exactHardware fun i _ => hkept _ (by simp only [twBase, zBase]; omega)
  have hbr' : M.nats a brBase E.n = M.nats x brBase E.n :=
    realStorage_nats_congr exactHardware fun i _ => hkept _ (by simp only [brBase, zBase]; omega)
  have hinverse := exact_ffti hidle' hconf' htag'
  rw [henv] at hinverse
  obtain ⟨b, hffti, hback⟩ := hinverse (List.forall_mem_append.2 ⟨realStorage_complexes_ok exactHardware hzok, by
    rw [htw']
    exact (List.forall_mem_append.1 hdata).2⟩)
  refine ⟨a, b, hfftf, hffti, hback.trans ?_⟩
  have hE : E = exactEnv (2 ^ m) E.hop E.fs := by rw [← hm]; rfl
  have hround := inv_fwd (m := m) E.hop E.fs (t := realsOf (M.reals x tBase E.n))
    (by simp only [realsOf, Storage.reals, List.length_map, length_tabulate]; exact hm)
  dsimp only at hround
  rw [← hE] at hround
  rw [show (realStorage exactHardware).complexes a twBase (E.n / 2) = _ from htw',
    show (realStorage exactHardware).nats a brBase E.n = _ from hbr', hz, htw, hbr, hround]

end

/-! ### Rounding to binary32 (R323)

The pattern of a quotient is that of a mantissa `q` and a shift `k`, which stand for `q * 2 ^ k` units of 2^-149. -/

theorem f32Frac_ofNat (n : ℕ) : f32Frac (BitVec.ofNat 32 n) = n % 2 ^ 23 := by
  simp [f32Frac, BitVec.extractLsb'_toNat]

theorem f32One_eq : f32One = 2 ^ 149 := by rw [f32One, Nat.one_shiftLeft]

/-- The pattern with a sign, a shift `k` and a mantissa `q`. -/
def f32Make (neg : Bool) (k q : ℕ) : Word :=
  BitVec.ofNat 32 (if neg then 0x80000000 + (k <<< 23 + q) else k <<< 23 + q)

/-- What a pattern stands for, where its mantissa has 24 bits, or is shorter and not shifted. -/
theorem f32Make_spec (neg : Bool) {k q : ℕ} (hq : q ≤ 2 ^ 24) (hk : k = 0 ∨ 2 ^ 23 ≤ q)
    (hbody : k <<< 23 + q < 0x7F800000) :
    f32Finite (f32Make neg k q) = true ∧ f32Neg (f32Make neg k q) = neg ∧ f32Mag (f32Make neg k q) = q * 2 ^ k := by
  obtain ⟨b, hb⟩ : ∃ b, b = k <<< 23 + q := ⟨_, rfl⟩
  have hbval : b = k * 2 ^ 23 + q := by rw [hb, Nat.shiftLeft_eq]
  rw [← hb] at hbody
  have hexp : f32Exp (f32Make neg k q) = b / 2 ^ 23 := by
    rw [f32Make, ← hb, f32Exp_ofNat]
    split <;> omega
  have hfrac : f32Frac (f32Make neg k q) = b % 2 ^ 23 := by
    rw [f32Make, ← hb, f32Frac_ofNat]
    split <;> omega
  refine ⟨?_, ?_, ?_⟩
  · rw [f32Finite, hexp, bne_iff_ne]
    omega
  · rw [f32Neg, BitVec.msb_eq_decide, f32Make, ← hb, BitVec.toNat_ofNat]
    cases neg
    · simp only [Bool.false_eq_true, if_false, decide_eq_false_iff_not]; omega
    · simp only [if_true, decide_eq_true_eq]; omega
  · rw [f32Mag, hexp, hfrac]
    rcases (by omega : k = 0 ∧ q < 2 ^ 23 ∨ 2 ^ 23 ≤ q ∧ q < 2 ^ 24 ∨ q = 2 ^ 24) with ⟨rfl, hlt⟩ | ⟨hge, hlt⟩ | hfull
    · rw [if_pos (by omega), hbval]
      omega
    · rw [if_neg (by omega), Nat.shiftLeft_eq, show b / 2 ^ 23 - 1 = k by omega, show 2 ^ 23 + b % 2 ^ 23 = q by omega]
    · rw [if_neg (by omega), Nat.shiftLeft_eq, show b / 2 ^ 23 - 1 = k + 1 by omega, show b % 2 ^ 23 = 0 by omega, hfull,
        Nat.pow_succ]
      ring

/-- The number of units of 2^-149 in 2^128, where the finite range ends (R322). -/
def unitsEnd : ℕ := 2 ^ 149 * 2 ^ 128

theorem unitsEnd_pos : 0 < unitsEnd := Nat.mul_pos (Nat.two_pow_pos _) (Nat.two_pow_pos _)

theorem unitsEnd_le {k : ℕ} (hk : 277 ≤ k) : unitsEnd ≤ 2 ^ k := by
  obtain ⟨j, rfl⟩ : ∃ j, k = 149 + j := ⟨k - 149, by omega⟩
  rw [Nat.pow_add]
  exact Nat.mul_le_mul_left _ (Nat.pow_le_pow_right (by omega) (by omega))

theorem lt_unitsEnd {x k : ℕ} (hx : x < 2 ^ k) (hk : k ≤ 277) : x < unitsEnd := by
  have hpow : 2 ^ k ≤ 2 ^ (149 + (k - 149)) := Nat.pow_le_pow_right (by omega) (by omega)
  rw [Nat.pow_add] at hpow
  exact hx.trans_le (hpow.trans (Nat.mul_le_mul_left _ (Nat.pow_le_pow_right (by omega) (by omega))))

section
variable {n d : ℕ}

/-- The shift that leaves 24 bits of a quotient. -/
def packShift (n d : ℕ) : ℕ := Nat.log2 (n / d) - 23

/-- The mantissa of a quotient, rounded. -/
def packMantissa (n d : ℕ) : ℕ := roundQuot n (d <<< packShift n d)

theorem f32Pack_eq_make (neg : Bool) (hbody : packShift n d <<< 23 + packMantissa n d < 0x7F800000) :
    f32Pack neg n d = f32Make neg (packShift n d) (packMantissa n d) := by
  unfold f32Pack f32Make packMantissa
  unfold packMantissa at hbody
  generalize hk : packShift n d = k at hbody
  have hk' : Nat.log2 (n / d) - 23 = k := hk
  simp only [hk', hbody, if_true]

theorem le_roundQuot (n d : ℕ) : n / d ≤ roundQuot n d := by
  unfold roundQuot
  dsimp only
  split_ifs <;> omega

theorem quot_shift (n d k : ℕ) : n / (d <<< k) = n / d / 2 ^ k := by rw [Nat.shiftLeft_eq, Nat.div_div_eq_div_mul]

theorem packShift_pos (h : packShift n d ≠ 0) : 2 ^ (packShift n d + 23) ≤ n / d := by
  have hlog : packShift n d + 23 = Nat.log2 (n / d) := by unfold packShift at h ⊢; omega
  have hne : n / d ≠ 0 := fun h0 => by rw [h0] at hlog; simp at hlog
  rw [hlog]
  exact Nat.log2_self_le hne

theorem quot_lt (n d : ℕ) : n / d < 2 ^ (packShift n d + 24) := by
  have hlog : n / d < 2 ^ (Nat.log2 (n / d) + 1) := Nat.lt_log2_self
  exact hlog.trans_le (Nat.pow_le_pow_right (by omega) (by unfold packShift; omega))

theorem quot_shift_lt (n d : ℕ) : n / (d <<< packShift n d) < 2 ^ 24 := by
  rw [quot_shift, Nat.div_lt_iff_lt_mul (Nat.two_pow_pos _), ← Nat.pow_add, Nat.add_comm]
  exact quot_lt n d

theorem packMantissa_le (n d : ℕ) : packMantissa n d ≤ 2 ^ 24 := by
  have hle := roundQuot_le n (d <<< packShift n d)
  have hlt := quot_shift_lt n d
  unfold packMantissa
  omega

theorem packMantissa_ge (h : packShift n d ≠ 0) : 2 ^ 23 ≤ packMantissa n d := by
  refine le_trans ?_ (le_roundQuot n (d <<< packShift n d))
  rw [quot_shift, Nat.le_div_iff_mul_le (Nat.two_pow_pos _), ← Nat.pow_add, Nat.add_comm]
  exact packShift_pos h

/-- What the rounded quotient stands for, where it is in the finite range. -/
theorem f32Pack_spec (neg : Bool) (hbody : packShift n d <<< 23 + packMantissa n d < 0x7F800000) :
    f32Finite (f32Pack neg n d) = true ∧ f32Neg (f32Pack neg n d) = neg ∧
      f32Mag (f32Pack neg n d) = packMantissa n d * 2 ^ packShift n d := by
  rw [f32Pack_eq_make neg hbody]
  refine f32Make_spec neg (packMantissa_le n d) ?_ hbody
  by_cases h : packShift n d = 0
  · exact .inl h
  · exact .inr (packMantissa_ge h)

/-- A quotient whose rounded pattern is finite is in the finite range. -/
theorem quot_lt_of_pack_finite {neg : Bool} (h : f32Finite (f32Pack neg n d) = true) : n / d < unitsEnd := by
  by_contra hge
  have hbody : ¬ packShift n d <<< 23 + packMantissa n d < 0x7F800000 := by
    have hshift : 254 ≤ packShift n d := by
      by_contra hlt
      exact hge (lt_unitsEnd (quot_lt n d) (by omega))
    have hmant := packMantissa_ge (n := n) (d := d) (by omega)
    rw [Nat.shiftLeft_eq]
    omega
  have hpack : f32Pack neg n d = BitVec.ofNat 32 (if neg then 0x80000000 + 0x7F800000 else 0x7F800000) := by
    unfold f32Pack
    unfold packMantissa at hbody
    generalize hk : packShift n d = k at hbody
    have hk' : Nat.log2 (n / d) - 23 = k := hk
    simp only [hk', hbody, if_false]
  rw [hpack] at h
  cases neg <;> exact absurd h (by decide)

end

/-! ### Exact results -/

/-- A finite pattern and the number of units of 2^-149 that it stands for. -/
def HasFix (w : Word) (x : ℤ) : Prop := f32Finite w = true ∧ f32Fix w = x

/-- The number of units is that of a finite pattern: 24 bits and a shift, inside the finite range. -/
def Representable (x : ℤ) : Prop := (∃ c j : ℕ, x.natAbs = c * 2 ^ j ∧ c < 2 ^ 24) ∧ x.natAbs < unitsEnd

theorem f32Mag_cases (w : Word) : ∃ c j : ℕ, f32Mag w = c * 2 ^ j ∧ c < 2 ^ 24 := by
  have hfrac := f32Frac_lt w
  unfold f32Mag
  split
  · exact ⟨f32Frac w, 0, by simp, by omega⟩
  · exact ⟨2 ^ 23 + f32Frac w, f32Exp w - 1, Nat.shiftLeft_eq _ _, by omega⟩

theorem f32Exp_lt (w : Word) : f32Exp w < 256 := (w.extractLsb' 23 8).isLt

theorem HasFix.representable {w : Word} {x : ℤ} (h : HasFix w x) : Representable x := by
  obtain ⟨hfin, rfl⟩ := h
  rw [Representable, natAbs_f32Fix]
  refine ⟨f32Mag_cases w, lt_unitsEnd (f32Mag_lt w) ?_⟩
  have := f32Exp_lt w
  simp only [f32Finite, bne_iff_ne, ne_eq] at hfin
  omega

theorem representable_zero : Representable 0 := ⟨⟨0, 0, rfl, Nat.two_pow_pos 24⟩, unitsEnd_pos⟩

theorem Representable.mul_two_pow {x : ℤ} (h : Representable x) {k : ℕ} (hk : (x * 2 ^ k).natAbs < unitsEnd) :
    Representable (x * 2 ^ k) := by
  obtain ⟨⟨c, j, hx, hc⟩, -⟩ := h
  refine ⟨⟨c, j + k, ?_, hc⟩, hk⟩
  rw [Int.natAbs_mul, Int.natAbs_pow, hx, Nat.pow_add, Nat.mul_assoc]
  rfl

/-- A quotient that is representable is not rounded. -/
theorem pack_exact (neg : Bool) {r d : ℕ} (hd : 0 < d) (hr : Representable r) :
    f32Finite (f32Pack neg (r * d) d) = true ∧ f32Neg (f32Pack neg (r * d) d) = neg ∧
      f32Mag (f32Pack neg (r * d) d) = r := by
  obtain ⟨⟨c, j, hcj, hc⟩, hlt⟩ := hr
  rw [Int.natAbs_natCast] at hcj hlt
  have hquot : r * d / d = r := Nat.mul_div_cancel r hd
  have hshift : packShift (r * d) d ≤ j := by
    rw [packShift, hquot]
    by_cases h0 : r = 0
    · subst h0; simp
    · have hlog : Nat.log2 r < 24 + j := by
        rw [Nat.log2_lt h0, hcj, Nat.pow_add]
        exact Nat.mul_lt_mul_of_pos_right hc (Nat.two_pow_pos j)
      omega
  have hdvd : 2 ^ packShift (r * d) d ∣ r := hcj ▸ (Nat.pow_dvd_pow 2 hshift).mul_left c
  obtain ⟨q, hq⟩ := hdvd
  have hmant : packMantissa (r * d) d = q := by
    have hn : r * d = q * (d <<< packShift (r * d) d) := by
      rw [Nat.shiftLeft_eq]
      calc r * d = 2 ^ packShift (r * d) d * q * d := congrArg (· * d) hq
        _ = _ := by ring
    have hpos : 0 < d <<< packShift (r * d) d := by
      rw [Nat.shiftLeft_eq]
      exact Nat.mul_pos hd (Nat.two_pow_pos _)
    rw [packMantissa]
    generalize packShift (r * d) d = k at hn hpos
    rw [hn, roundQuot, Nat.mul_div_cancel _ hpos, Nat.mul_mod_left]
    simp [hpos]
  have hbody : packShift (r * d) d <<< 23 + packMantissa (r * d) d < 0x7F800000 := by
    have hle : packMantissa (r * d) d < 2 ^ 24 := by
      rw [hmant]
      have hquot24 := quot_shift_lt (r * d) d
      rwa [quot_shift, hquot, Nat.div_eq_of_eq_mul_right (Nat.two_pow_pos _) hq] at hquot24
    have hshift253 : packShift (r * d) d ≤ 253 := by
      by_contra hgt
      have hge := packShift_pos (n := r * d) (d := d) (by omega)
      rw [hquot] at hge
      have hend := unitsEnd_le (k := packShift (r * d) d + 23) (by omega)
      omega
    rw [Nat.shiftLeft_eq]
    omega
  obtain ⟨hfin, hneg, hmag⟩ := f32Pack_spec neg hbody
  exact ⟨hfin, hneg, by rw [hmag, hmant, Nat.mul_comm, ← hq]⟩


/-- A size with a sign. -/
def signed (neg : Bool) (n : ℕ) : ℤ := if neg then -(n : ℤ) else n

theorem f32Fix_eq_signed (w : Word) : f32Fix w = signed (f32Neg w) (f32Mag w) := rfl

theorem signed_mul (p q : Bool) (m n : ℕ) : signed p m * signed q n = signed (p != q) (m * n) := by
  cases p <;> cases q <;> simp [signed]

theorem natAbs_signed (p : Bool) (n : ℕ) : (signed p n).natAbs = n := by
  cases p <;> simp [signed]

theorem signed_natAbs {p : Bool} {x : ℤ} (h : x = 0 ∨ (p = true ↔ x < 0)) : signed p x.natAbs = x := by
  cases p with
  | false => simp only [signed, Bool.false_eq_true, if_false, false_iff] at h ⊢; omega
  | true => simp only [signed, if_true, true_iff] at h ⊢; omega

theorem signed_false (n : ℕ) : signed false n = n := rfl

theorem f32Fix_flip (w : Word) : f32Fix (f32Flip w) = -f32Fix w := by
  have hneg : f32Neg (f32Flip w) = !f32Neg w := by
    rw [f32Neg, f32Flip, BitVec.msb_xor]
    exact Bool.xor_true _
  have hmag : f32Mag (f32Flip w) = f32Mag w := by simp [f32Mag, f32Exp_flip, f32Frac_flip]
  rw [f32Fix_eq_signed, f32Fix_eq_signed, hneg, hmag]
  cases f32Neg w <;> simp [signed]

/-- A representable quotient, with its sign. -/
theorem pack_hasFix (neg : Bool) {n r d : ℕ} (hd : 0 < d) (hn : n = r * d) (hr : Representable r) :
    HasFix (f32Pack neg n d) (signed neg r) := by
  subst hn
  obtain ⟨hfin, hneg, hmag⟩ := pack_exact neg hd hr
  exact ⟨hfin, by rw [f32Fix_eq_signed, hneg, hmag]⟩

theorem Representable.natAbs {x : ℤ} (h : Representable x) : Representable (x.natAbs : ℤ) := by
  rwa [Representable, Int.natAbs_natCast]

section
variable {a b : Word} {x y z : ℤ}

theorem HasFix.flip (h : HasFix b y) : HasFix (f32Flip b) (-y) :=
  ⟨by rw [f32Finite, f32Exp_flip]; exact h.1, by rw [f32Fix_flip, h.2]⟩

theorem HasFix.add (ha : HasFix a x) (hb : HasFix b y) (hz : Representable (x + y)) : HasFix (f32Add a b) (x + y) := by
  obtain ⟨hfa, rfl⟩ := ha
  obtain ⟨hfb, rfl⟩ := hb
  simp only [f32Add, hfa, hfb, Bool.and_self, if_true]
  generalize f32Fix a + f32Fix b = z at hz ⊢
  have hpack := pack_hasFix (z < 0 || (z == 0 && f32Neg a && f32Neg b)) Nat.one_pos (Nat.mul_one _).symm hz.natAbs
  rwa [signed_natAbs (by by_cases h0 : z = 0 <;> simp [h0])] at hpack

theorem HasFix.sub (ha : HasFix a x) (hb : HasFix b y) (hz : Representable (x - y)) : HasFix (f32Sub a b) (x - y) := by
  rw [Int.sub_eq_add_neg] at hz ⊢
  exact ha.add hb.flip hz

/-- A product whose exact value is a representable number of units. -/
theorem HasFix.mul (ha : HasFix a x) (hb : HasFix b y) (hz : Representable z) (hxy : x * y = z * 2 ^ 149) :
    HasFix (f32Mul a b) z := by
  obtain ⟨hfa, rfl⟩ := ha
  obtain ⟨hfb, rfl⟩ := hb
  have hmags : f32Mag a * f32Mag b = z.natAbs * f32One := by
    rw [← natAbs_f32Fix, ← natAbs_f32Fix, ← Int.natAbs_mul, hxy, Int.natAbs_mul, f32One_eq]
    rfl
  have hpack := pack_hasFix (f32Neg a != f32Neg b) (by rw [f32One_eq]; positivity) hmags hz.natAbs
  have hsign : signed (f32Neg a != f32Neg b) z.natAbs * signed false (2 ^ 149) = z * 2 ^ 149 := by
    rw [signed_mul, Bool.bne_false, ← f32One_eq, ← hmags, ← signed_mul]
    exact hxy
  have hone : signed false (2 ^ 149) = 2 ^ 149 := by rw [signed_false]; norm_num
  rw [hone] at hsign
  have hvalue : signed (f32Neg a != f32Neg b) z.natAbs = z := mul_right_cancel₀ (by norm_num) hsign
  simp only [f32Mul, hfa, hfb, Bool.and_self, if_true]
  rwa [hvalue] at hpack

/-- A quotient whose exact value is a representable number of units. -/
theorem HasFix.div (ha : HasFix a x) (hb : HasFix b y) (hy : y ≠ 0) (hz : Representable z) (hxy : x * 2 ^ 149 = z * y) :
    HasFix (f32Div a b) z := by
  obtain ⟨hfa, rfl⟩ := ha
  obtain ⟨hfb, rfl⟩ := hb
  have hmagb : f32Mag b ≠ 0 := by rwa [← natAbs_f32Fix, Int.natAbs_ne_zero]
  have hmags : f32Mag a * f32One = z.natAbs * f32Mag b := by
    rw [← natAbs_f32Fix, ← natAbs_f32Fix, ← Int.natAbs_mul z, ← hxy, Int.natAbs_mul, f32One_eq]
    rfl
  have hpack := pack_hasFix (f32Neg a != f32Neg b) (by omega) hmags hz.natAbs
  have hsign : signed (f32Neg a != f32Neg b) z.natAbs * f32Fix b = z * f32Fix b := by
    rw [f32Fix_eq_signed b, signed_mul, ← hmags, show ((f32Neg a != f32Neg b) != f32Neg b) = (f32Neg a != false) by
      cases f32Neg a <;> cases f32Neg b <;> rfl, ← signed_mul, ← f32Fix_eq_signed, ← f32Fix_eq_signed, ← hxy, f32One_eq]
    simp [signed]
  have hvalue := mul_right_cancel₀ hy hsign
  simp only [f32Div, hfa, hfb, Bool.and_self, bne_iff_ne.2 hmagb, if_true]
  rwa [hvalue] at hpack

end

/-- An integer of at most 24 bits is converted without rounding (R320). -/
theorem hasFix_ofInt {i : ℤ} (hi : i.natAbs < 2 ^ 24) : HasFix (f32OfInt i) (i * 2 ^ 149) := by
  have hr : Representable (i * 2 ^ 149) := by
    refine ⟨⟨i.natAbs, 149, ?_, hi⟩, ?_⟩
    · rw [Int.natAbs_mul]; rfl
    · rw [Int.natAbs_mul]
      exact lt_unitsEnd (k := 24 + 149) (by
        rw [Nat.pow_add]
        exact Nat.mul_lt_mul_of_pos_right hi (by decide)) (by norm_num)
  have hone : i * (f32One : ℤ) = i * 2 ^ 149 := by rw [f32One_eq]; push_cast; rfl
  have hpack := pack_hasFix (i * 2 ^ 149 < 0) Nat.one_pos (Nat.mul_one _).symm hr.natAbs
  rw [signed_natAbs (by simp)] at hpack
  rwa [f32OfInt, f32OfFix, hone]

/-! ### Rounding errors -/

/-- The nearest integer is within a half of the quotient. -/
theorem roundQuot_near (n d : ℕ) (hd : 0 < d) :
    2 * n ≤ 2 * (roundQuot n d * d) + d ∧ 2 * (roundQuot n d * d) ≤ 2 * n + d := by
  have hdiv : n / d * d + n % d = n := Nat.div_add_mod' n d
  have hmod : n % d < d := Nat.mod_lt n hd
  have hsucc : (n / d + 1) * d = n / d * d + d := Nat.succ_mul _ _
  unfold roundQuot
  dsimp only
  split_ifs
  · omega
  · rw [hsucc]; omega
  · rcases Nat.mod_two_eq_zero_or_one (n / d) with h | h <;> rw [h]
    · rw [Nat.add_zero]; omega
    · rw [hsucc]; omega

/-- A quotient rounded to a mantissa and a shift is off by half a unit of the mantissa. -/
theorem packMantissa_near (n : ℕ) {d : ℕ} (hd : 0 < d) :
    |((packMantissa n d * 2 ^ packShift n d : ℕ) : ℝ) - n / d| ≤ 2 ^ packShift n d / 2 := by
  obtain ⟨hlow, hhigh⟩ := roundQuot_near n (d <<< packShift n d) (by
    rw [Nat.shiftLeft_eq]; exact Nat.mul_pos hd (Nat.two_pow_pos _))
  rw [← packMantissa, Nat.shiftLeft_eq] at hlow hhigh
  generalize packMantissa n d = q at hlow hhigh ⊢
  have hd' : (0 : ℝ) < d := by exact_mod_cast hd
  have hlow' : 2 * (n : ℝ) ≤ 2 * (q * (d * 2 ^ packShift n d)) + d * 2 ^ packShift n d := by exact_mod_cast hlow
  have hhigh' : 2 * (q * (d * 2 ^ packShift n d)) ≤ 2 * (n : ℝ) + d * 2 ^ packShift n d := by exact_mod_cast hhigh
  push_cast
  rw [abs_le]
  constructor
  · rw [neg_le_sub_iff_le_add, div_le_iff₀ hd']; linarith
  · rw [sub_le_iff_le_add, ← sub_le_iff_le_add', le_div_iff₀ hd']; linarith

/-- Rounding moves a quotient by at most 2^-24 of it, and by at most half a unit where it has fewer than 24 bits. -/
theorem pack_near (neg : Bool) {n d e : ℕ} (hd : 0 < d) (hn : n / d < 2 ^ e) (he : e ≤ 276) :
    f32Finite (f32Pack neg n d) = true ∧ f32Neg (f32Pack neg n d) = neg ∧
      |((f32Mag (f32Pack neg n d) : ℕ) : ℝ) - n / d| ≤ (if packShift n d = 0 then 1 / 2 else (n / d : ℝ) / 2 ^ 24) := by
  have hbody : packShift n d <<< 23 + packMantissa n d < 0x7F800000 := by
    have hmant := packMantissa_le n d
    have hshift : packShift n d ≤ 252 := by
      by_contra hgt
      have hge := packShift_pos (n := n) (d := d) (by omega)
      have : (2 : ℕ) ^ e ≤ 2 ^ (packShift n d + 23) := Nat.pow_le_pow_right (by omega) (by omega)
      omega
    rw [Nat.shiftLeft_eq]
    omega
  obtain ⟨hfin, hneg, hmag⟩ := f32Pack_spec neg hbody
  refine ⟨hfin, hneg, ?_⟩
  rw [hmag]
  refine (packMantissa_near n hd).trans ?_
  split
  · next h0 => simp [h0]
  · next h0 =>
    have hge : ((2 ^ (packShift n d + 23) : ℕ) : ℝ) ≤ n / d :=
      (Nat.cast_le.2 (packShift_pos h0)).trans Nat.cast_div_le
    rw [le_div_iff₀ (by norm_num)]
    calc (2 : ℝ) ^ packShift n d / 2 * 2 ^ 24 = ((2 ^ (packShift n d + 23) : ℕ) : ℝ) := by push_cast; ring
      _ ≤ n / d := hge

theorem abs_signed_sub (p : Bool) (m : ℕ) (y : ℝ) : |(signed p m : ℝ) - (if p then -y else y)| = |(m : ℝ) - y| := by
  cases p with
  | false => simp [signed]
  | true =>
    rw [← abs_neg]
    congr 1
    simp [signed]
    ring

theorem abs_realOf_sub (w : Word) (y : ℝ) : |realOf w - y / 2 ^ 149| = |(f32Fix w : ℝ) - y| / 2 ^ 149 := by
  rw [realOf, ← sub_div, abs_div, abs_of_pos (show (0 : ℝ) < 2 ^ 149 by positivity)]

/-- The same in real numbers, with the sign. -/
theorem realOf_pack_near (neg : Bool) {n d e : ℕ} (hd : 0 < d) (hn : n / d < 2 ^ e) (he : e ≤ 276) :
    f32Finite (f32Pack neg n d) = true ∧ |realOf (f32Pack neg n d) - (if neg then -(n / d : ℝ) else n / d) / 2 ^ 149| ≤
      (if packShift n d = 0 then 1 / 2 else (n / d : ℝ) / 2 ^ 24) / 2 ^ 149 := by
  obtain ⟨hfin, hneg, hnear⟩ := pack_near neg hd hn he
  refine ⟨hfin, ?_⟩
  rw [abs_realOf_sub, f32Fix_eq_signed, hneg, abs_signed_sub]
  exact div_le_div_of_nonneg_right hnear (by positivity)

/-- A sum is rounded by at most 2^-24 of it (R323). -/
theorem f32Add_near {a b : Word} {e : ℕ} (ha : f32Finite a = true) (hb : f32Finite b = true)
    (hlt : (f32Fix a + f32Fix b).natAbs < 2 ^ e) (he : e ≤ 276) : f32Finite (f32Add a b) = true ∧
      |realOf (f32Add a b) - (realOf a + realOf b)| ≤ |realOf a + realOf b| / 2 ^ 24 := by
  have hsum : realOf a + realOf b = ((f32Fix a + f32Fix b : ℤ) : ℝ) / 2 ^ 149 := by
    rw [realOf, realOf, ← add_div]
    push_cast
    rfl
  by_cases hsmall : (f32Fix a + f32Fix b).natAbs < 2 ^ 24
  · have hr : Representable (f32Fix a + f32Fix b) := ⟨⟨_, 0, (Nat.mul_one _).symm, hsmall⟩, lt_unitsEnd hsmall (by omega)⟩
    obtain ⟨hfin, hfix⟩ := HasFix.add ⟨ha, rfl⟩ ⟨hb, rfl⟩ hr
    refine ⟨hfin, ?_⟩
    rw [hsum, realOf, hfix, sub_self, abs_zero]
    positivity
  · simp only [f32Add, ha, hb, Bool.and_self, if_true]
    rw [hsum]
    generalize f32Fix a + f32Fix b = z at *
    obtain ⟨hfin, hnear⟩ := realOf_pack_near (z < 0 || (z == 0 && f32Neg a && f32Neg b)) Nat.one_pos
      (by rwa [Nat.div_one] : z.natAbs / 1 < 2 ^ e) he
    have hshift : packShift z.natAbs 1 ≠ 0 := by
      have hlog : 24 ≤ Nat.log2 z.natAbs := (Nat.le_log2 (by omega)).2 (by omega)
      rw [packShift, Nat.div_one]
      omega
    have hsign : (z < 0 || (z == 0 && f32Neg a && f32Neg b)) = decide (z < 0) := by
      simp [show z ≠ 0 by omega]
    have habs : ((z.natAbs : ℕ) : ℝ) = |(z : ℝ)| := by rw [Nat.cast_natAbs, Int.cast_abs]
    have hz : (if decide (z < 0) = true then -|(z : ℝ)| else |(z : ℝ)|) = z := by
      by_cases hlt : z < 0
      · simp [hlt, abs_of_neg (show (z : ℝ) < 0 by exact_mod_cast hlt)]
      · simp [hlt, abs_of_nonneg (show (0 : ℝ) ≤ z by exact_mod_cast not_lt.1 hlt)]
    rw [if_neg hshift, Nat.cast_one, div_one, habs, hsign, hz] at hnear
    refine ⟨hfin, ?_⟩
    rw [hsign, abs_div, abs_of_pos (show (0 : ℝ) < 2 ^ 149 by positivity), div_right_comm]
    exact hnear

/-- A product is rounded by at most 2^-24 of it and half a unit (R323). -/
theorem f32Mul_near {a b : Word} {e : ℕ} (ha : f32Finite a = true) (hb : f32Finite b = true)
    (hlt : f32Mag a * f32Mag b / f32One < 2 ^ e) (he : e ≤ 276) : f32Finite (f32Mul a b) = true ∧
      |realOf (f32Mul a b) - realOf a * realOf b| ≤ |realOf a * realOf b| / 2 ^ 24 + 1 / 2 ^ 150 := by
  simp only [f32Mul, ha, hb, Bool.and_self, if_true]
  obtain ⟨hfin, hnear⟩ := realOf_pack_near (f32Neg a != f32Neg b) (by rw [f32One_eq]; positivity) hlt he
  refine ⟨hfin, ?_⟩
  have hone : ((f32One : ℕ) : ℝ) = 2 ^ 149 := by rw [f32One_eq, Nat.cast_pow, Nat.cast_ofNat]
  have hprod : (if (f32Neg a != f32Neg b) = true then -(((f32Mag a * f32Mag b : ℕ) : ℝ) / f32One)
      else ((f32Mag a * f32Mag b : ℕ) : ℝ) / f32One) / 2 ^ 149 = realOf a * realOf b := by
    have hfix : ((f32Fix a * f32Fix b : ℤ) : ℝ) = (signed (f32Neg a != f32Neg b) (f32Mag a * f32Mag b) : ℤ) := by
      rw [f32Fix_eq_signed, f32Fix_eq_signed, signed_mul]
    rw [realOf, realOf, div_mul_div_comm, ← Int.cast_mul, hfix, hone, signed]
    split <;> · push_cast; ring
  have habs : ((f32Mag a * f32Mag b : ℕ) : ℝ) / f32One / 2 ^ 149 = |realOf a * realOf b| := by
    have hquot : (0 : ℝ) ≤ ((f32Mag a * f32Mag b : ℕ) : ℝ) / f32One := div_nonneg (Nat.cast_nonneg _) (Nat.cast_nonneg _)
    rw [← hprod, abs_div, abs_of_pos (show (0 : ℝ) < 2 ^ 149 by positivity)]
    congr 1
    split
    · rw [abs_neg, abs_of_nonneg hquot]
    · rw [abs_of_nonneg hquot]
  rw [hprod] at hnear
  refine hnear.trans ?_
  split
  · calc (1 / 2 : ℝ) / 2 ^ 149 = 1 / 2 ^ 150 := by norm_num
      _ ≤ |realOf a * realOf b| / 2 ^ 24 + 1 / 2 ^ 150 := le_add_of_nonneg_left (by positivity)
  · rw [div_right_comm, habs]
    exact le_add_of_nonneg_right (by positivity)

/-! ### Sine and cosine are finite for every finite argument

Whatever the free value, it is finite or replaced by the reference value, and the series of the reference value stays small. -/

theorem natAbs_shiftRight_le {x B : ℤ} {k : ℕ} (hlow : -(B * 2 ^ k) ≤ x) (hhigh : x ≤ B * 2 ^ k) :
    ((x >>> k).natAbs : ℤ) ≤ B := by
  have hpos : (0 : ℤ) < 2 ^ k := by positivity
  have hdiv : x >>> k = x / 2 ^ k := by rw [Int.shiftRight_eq_div_pow]; push_cast; rfl
  have h1 : -B ≤ x / 2 ^ k := (Int.le_ediv_iff_mul_le hpos).2 (by rw [neg_mul]; exact hlow)
  have h2 : x / 2 ^ k ≤ B := Int.ediv_le_of_le_mul hpos hhigh
  rw [hdiv]
  omega

/-- Multiplication by a number of at most 16 with `fixBits` fraction bits. -/
theorem natAbs_fixMul_le (t : ℤ) {r2 : ℤ} (h0 : 0 ≤ r2) (h16 : r2 ≤ 16 * 2 ^ 80) : (fixMul t r2).natAbs ≤ 16 * t.natAbs := by
  have habs : |t * r2| ≤ 16 * t.natAbs * 2 ^ 80 := by
    rw [abs_mul, abs_of_nonneg h0, Int.abs_eq_natAbs]
    calc (t.natAbs : ℤ) * r2 ≤ t.natAbs * (16 * 2 ^ 80) := Int.mul_le_mul_of_nonneg_left h16 (by omega)
      _ = _ := by ring
  obtain ⟨hlow, hhigh⟩ := abs_le.1 habs
  have := natAbs_shiftRight_le hlow hhigh
  rw [fixMul, fixBits]
  omega

theorem natAbs_alternatingSeries_le {r2 : ℤ} (h0 : 0 ≤ r2) (h16 : r2 ≤ 16 * 2 ^ 80) (fuel : ℕ) : ∀ (t : ℤ) (k : ℕ),
    (alternatingSeries fuel r2 t k).natAbs ≤ 17 ^ fuel * t.natAbs := by
  induction fuel with
  | zero => intro t k; simp [alternatingSeries]
  | succ fuel ih =>
    intro t k
    obtain ⟨u, hu⟩ : ∃ u, u = -(fixMul t r2) / (((k + 1) * (k + 2) : ℕ) : ℤ) := ⟨_, rfl⟩
    have hnext : u.natAbs ≤ 16 * t.natAbs := by
      rw [hu]
      refine (Int.natAbs_ediv_le_natAbs _ _).trans ?_
      rw [Int.natAbs_neg]
      exact natAbs_fixMul_le t h0 h16
    have hrest : (alternatingSeries fuel r2 u (k + 2)).natAbs ≤ 17 ^ fuel * (16 * t.natAbs) :=
      (ih u (k + 2)).trans (Nat.mul_le_mul_left _ hnext)
    have hone : t.natAbs ≤ 17 ^ fuel * t.natAbs := Nat.le_mul_of_pos_left _ (by positivity)
    rw [alternatingSeries, ← hu]
    calc (t + alternatingSeries fuel r2 u (k + 2)).natAbs
        ≤ t.natAbs + (alternatingSeries fuel r2 u (k + 2)).natAbs := Int.natAbs_add_le _ _
      _ ≤ 17 ^ fuel * t.natAbs + 17 ^ fuel * (16 * t.natAbs) := Nat.add_le_add hone hrest
      _ = 17 ^ (fuel + 1) * t.natAbs := by ring

/-- The reduced angle is at most 4 in size. -/
theorem natAbs_reduceAngle_le (w : Word) : ((reduceAngle w).natAbs : ℤ) ≤ 2 ^ 82 := by
  have hpos : (0 : ℤ) < twoPi400 := by decide
  have hsize : twoPi400 ≤ 2 * (2 ^ 82 * (2 ^ 160 * 2 ^ 160)) := by decide
  rw [← pow_add] at hsize
  have hlow := Int.emod_nonneg (f32Fix w * ((1 <<< 251 : ℕ) : ℤ)) hpos.ne'
  have hhigh := Int.emod_lt_of_pos (f32Fix w * ((1 <<< 251 : ℕ) : ℤ)) hpos
  unfold reduceAngle
  dsimp only
  generalize f32Fix w * ((1 <<< 251 : ℕ) : ℤ) % twoPi400 = r at hlow hhigh ⊢
  have hcentred : ∀ top : ℤ, twoPi400 ≤ 2 * top →
      -top ≤ (if 2 * r ≤ twoPi400 then r else r - twoPi400) ∧ (if 2 * r ≤ twoPi400 then r else r - twoPi400) ≤ top := by
    intro top htop
    split <;> constructor <;> linarith
  obtain ⟨hcl, hch⟩ := hcentred _ hsize
  generalize (if 2 * r ≤ twoPi400 then r else r - twoPi400) = c at hcl hch ⊢
  refine (congrArg (fun y : ℤ => (y.natAbs : ℤ)) ?_).trans_le (natAbs_shiftRight_le (k := 320) hcl hch)
  simp [← Int.shiftRight_natCast_right]

/-- The square of a reduced angle is at most 16. -/
theorem fixMul_reduceAngle_mem (w : Word) :
    0 ≤ fixMul (reduceAngle w) (reduceAngle w) ∧ fixMul (reduceAngle w) (reduceAngle w) ≤ 16 * 2 ^ 80 := by
  have hle := natAbs_reduceAngle_le w
  generalize reduceAngle w = r at hle
  have hsq : r * r ≤ 2 ^ 82 * 2 ^ 82 := by
    rw [← Int.natAbs_mul_self' r]
    exact Int.mul_le_mul hle hle (by omega) (by norm_num)
  have hdiv : fixMul r r = r * r / 2 ^ 80 := by rw [fixMul, Int.shiftRight_eq_div_pow]; norm_num [fixBits]
  rw [hdiv]
  exact ⟨Int.ediv_nonneg (mul_self_nonneg r) (by norm_num), Int.ediv_le_of_le_mul (by norm_num) (by linarith)⟩

/-- The series for a start of at most 4, in units of 2^-149. -/
theorem natAbs_series_units_lt {r2 : ℤ} (h0 : 0 ≤ r2) (h16 : r2 ≤ 16 * 2 ^ 80) {t : ℤ} (ht : (t.natAbs : ℤ) ≤ 2 ^ 82)
    (k : ℕ) : (fixToUnits (alternatingSeries 24 r2 t k)).natAbs < 2 ^ 251 := by
  have hseries := natAbs_alternatingSeries_le h0 h16 24 t k
  have hone : ((1 <<< 69 : ℕ) : ℤ).natAbs = 2 ^ 69 := by rw [Nat.one_shiftLeft, Int.natAbs_natCast]
  have ht' : t.natAbs ≤ 2 ^ 82 := by exact_mod_cast ht
  rw [fixToUnits, Int.natAbs_mul, hone]
  calc (alternatingSeries 24 r2 t k).natAbs * 2 ^ 69
      ≤ 17 ^ 24 * 2 ^ 82 * 2 ^ 69 := Nat.mul_le_mul_right _ (hseries.trans (Nat.mul_le_mul_left _ ht'))
    _ < 2 ^ 251 := by norm_num

theorem natAbs_sinRef_lt (w : Word) : (sinRef w).natAbs < 2 ^ 251 := by
  obtain ⟨h0, h16⟩ := fixMul_reduceAngle_mem w
  exact natAbs_series_units_lt h0 h16 (natAbs_reduceAngle_le w) 1

theorem natAbs_cosRef_lt (w : Word) : (cosRef w).natAbs < 2 ^ 251 := by
  obtain ⟨h0, h16⟩ := fixMul_reduceAngle_mem w
  exact natAbs_series_units_lt h0 h16 (by decide) 0

theorem f32OfFix_finite {x : ℤ} (h : x.natAbs < 2 ^ 251) : f32Finite (f32OfFix x) = true :=
  (small_pack _ _ _ 251 (by rwa [Nat.div_one]) (by omega) (by omega)).1

theorem heldBy_finite {ref : ℤ} (raw : Word) (h : ref.natAbs < 2 ^ 251) : f32Finite (heldBy ref raw) = true := by
  rcases heldBy_cases ref raw with ⟨hraw, hfin, -⟩ | href
  · rwa [hraw]
  · rw [href]
    exact f32OfFix_finite h

theorem heldAngle_finite (w : Word) {exact : ℕ → ℤ} {ref : ℤ} (raw : Word)
    (hexact : ∀ {i}, i < 2048 → (exact i).natAbs < 2 ^ 150) (href : ref.natAbs < 2 ^ 251) :
    f32Finite (heldAngle w exact ref raw) = true := by
  unfold heldAngle
  split
  · next htw =>
    simp only [isTwiddleAngle, Bool.and_eq_true, decide_eq_true_eq] at htw
    obtain ⟨⟨hlow, hhigh⟩, -⟩ := htw
    exact f32OfFix_finite ((hexact (by omega)).trans (Nat.pow_lt_pow_right (by omega) (by omega)))
  · exact heldBy_finite raw href

theorem f32Sin_finite {w : Word} (h : f32Finite w = true) : f32Finite (f32Sin w) = true := by
  rw [f32Sin, if_pos h]
  exact heldAngle_finite w _ turnSin_lt (natAbs_sinRef_lt w)

theorem f32Cos_finite {w : Word} (h : f32Finite w = true) : f32Finite (f32Cos w) = true := by
  rw [f32Cos, if_pos h]
  exact heldAngle_finite w _ turnCos_lt (natAbs_cosRef_lt w)

/-! ### The twiddle table on the hardware (R151) -/

theorem representable_neg {x : ℤ} (h : Representable x) : Representable (-x) := by rwa [Representable, Int.natAbs_neg]

theorem hasFix_zero : HasFix 0 0 := ⟨by decide, by decide⟩

/-- The unary minus of the rules is exact (log 8). -/
theorem HasFix.neg {w : Word} {x : ℤ} (h : HasFix w x) : HasFix (f32Sub 0 w) (-x) := by
  have hsub := hasFix_zero.sub h (by rw [Int.zero_sub]; exact representable_neg h.representable)
  rwa [Int.zero_sub] at hsub

/-- The angle `2π i / n` of the tables, in binary32. -/
def f32Angle (i n : ℕ) : Word := f32Div (f32Mul 0x40C90FDB (f32OfInt i)) (f32OfInt n)

theorem env_angle (p : Csrs) (i : ℕ) : p.env.angle i = f32Angle i p.env.n := by
  have htwo : f32Mul (f32OfInt 2) f32Pi = 0x40C90FDB := rfl
  simp only [Env.angle, Env.twoPi, Env.two, Env.nat, env_num, hwNum_mul, hwNum_div, hwNum_ofInt]
  rw [f32Angle, ← htwo]
  rfl

theorem env_twiddle (p : Csrs) (i : ℕ) :
    p.env.twiddle i = ⟨f32Cos (f32Angle i p.env.n), f32Sub 0 (f32Sin (f32Angle i p.env.n))⟩ := by
  rw [Env.twiddle, env_angle, Env.neg, env_zero]
  rfl

theorem f32Angle_finite {i n : ℕ} (hi : i < 2 ^ 12) (hn : 0 < n) (hn' : n < 2 ^ 24) : f32Finite (f32Angle i n) = true := by
  obtain ⟨hfini, hfixi⟩ := hasFix_ofInt (i := (i : ℤ)) (by omega)
  obtain ⟨hfinn, hfixn⟩ := hasFix_ofInt (i := (n : ℤ)) (by omega)
  have hmagi : f32Mag (f32OfInt i) < 2 ^ 161 := by
    rw [← natAbs_f32Fix, hfixi]
    omega
  have hmagn : f32One ≤ f32Mag (f32OfInt n) := by
    rw [← natAbs_f32Fix, hfixn, f32One_eq]
    omega
  have hprod := small_mul (x := 0x40C90FDB) (a := 152) ⟨by decide, by decide⟩ ⟨hfini, hmagi⟩ 164
    (by omega) (by omega) (by omega)
  have hone : 0 < f32One := by rw [f32One_eq]; positivity
  rw [f32Angle, f32Div, hprod.1, hfinn, bne_iff_ne.2 (show f32Mag (f32OfInt n) ≠ 0 by omega)]
  refine (small_pack _ _ _ 165 ?_ (by omega) (by omega)).1
  exact (Nat.div_le_of_le_mul (by rw [Nat.mul_comm]; exact Nat.mul_le_mul_right _ hmagn)).trans_lt hprod.2

theorem twiddle_finite {p : Csrs} (h : sizeOk p.active.n.toNat = true) {i : ℕ} (hi : i < 2 ^ 12) :
    f32Finite (p.env.twiddle i).re = true ∧ f32Finite (p.env.twiddle i).im = true := by
  obtain ⟨m, ⟨-, hm⟩, hn⟩ := sizeOk_iff_pow.1 h
  have hle := le_of_sizeOk h
  have hangle := f32Angle_finite hi (n := p.env.n) (by rw [env_n, hn]; positivity) (by rw [env_n]; omega)
  rw [env_twiddle]
  exact ⟨f32Cos_finite hangle, (HasFix.neg ⟨f32Sin_finite hangle, rfl⟩).1⟩

/-- The angles 0 and a quarter turn are the same words for every size, and sine and cosine are pinned there (log 2). -/
theorem twiddle_quarters {p : Csrs} (h : sizeOk p.active.n.toNat = true) :
    p.env.twiddle 0 = ⟨0x3F800000, 0⟩ ∧ p.env.twiddle (p.env.n / 4) = ⟨0, 0xBF800000⟩ := by
  have hangles : ∀ n ∈ [4, 8, 16, 32, 64, 128, 256, 512, 1024, 2048, 4096],
      f32Angle 0 n = 0 ∧ f32Angle (n / 4) n = 0x3FC90FDB := by decide +kernel
  obtain ⟨hzero, hquarter⟩ := hangles p.env.n (sizeOk_iff_mem.1 h)
  have hcos : f32Cos 0 = 0x3F800000 ∧ f32Cos 0x3FC90FDB = 0 := ⟨rfl, rfl⟩
  have hsin : f32Sub 0 (f32Sin 0) = 0 ∧ f32Sub 0 (f32Sin 0x3FC90FDB) = 0xBF800000 := ⟨rfl, rfl⟩
  rw [env_twiddle, env_twiddle, hzero, hquarter, hcos.1, hcos.2, hsin.1, hsin.2]
  exact ⟨rfl, rfl⟩

/-! ### FFTF and then FFTI on the hardware, with the tables of CFG (R160, R167) -/

theorem map_toNat_natWords {ns : List ℕ} (h : ∀ k ∈ ns, k < 2 ^ 32) : (natWords ns).map BitVec.toNat = ns := by
  rw [natWords, List.map_map]
  exact (List.map_congr_left fun k hk => Nat.mod_eq_of_lt (h k hk)).trans (List.map_id ns)

theorem allFinite_twTable {p : Csrs} (h : sizeOk p.active.n.toNat = true) : allFinite (cxWords p.env.twTable) := by
  have hle := le_of_sizeOk h
  refine allFinite_cxWords.2 fun z hz => ?_
  obtain ⟨i, hi, rfl⟩ := (mem_tabulate _ _ _).1 hz
  rw [env_n] at hi
  exact twiddle_finite h (by omega)

section
variable {s : State} (hidle : s.inFlight = none) (hconf : s.csr.Configured) (htag : s.csr.tags.t = s.csr.active.n)
  (htw : s.complexes twBase (s.csr.env.n / 2) = s.csr.env.twTable)
  (hbr : s.words brBase s.csr.env.n = natWords s.csr.env.brTable)
include hidle hconf htag htw hbr

/-- Where the reals stay finite both commands complete and leave the real parts of the inverse of the forward transform. -/
theorem hw_roundTrip :
    let E := s.csr.env
    let z := E.net E.twTable E.brTable false ((s.words tBase E.n).map fun x => ⟨x, 0⟩)
    let y := E.inv E.twTable E.brTable z
    allFinite (s.words tBase E.n) → allFinite (cxWords z) → allFinite (cxWords y) →
    ∃ a b, exec .fftf s = .next a ∧ exec .ffti a = .next b ∧ ∀ k, k < E.n → b.word (tBase + k) = (E.cat_ y k).re := by
  intro E z y ht hz hy
  obtain ⟨m, -, hm⟩ := sizeOk_iff_pow.1 hconf.legal.size
  have hsize : E.n ≤ 4096 := hconf.size_le
  have hparams : s.params = s.csr := params_of_idle hidle
  have htwFinite : allFinite (cxWords E.twTable) := allFinite_twTable hconf.legal.size
  have hbrLt : ∀ k ∈ E.brTable, k < 2 ^ 32 := by
    rw [brTable_eq (m := m) hm]
    intro k hk
    obtain ⟨i, -, rfl⟩ := (mem_tabulate _ _ _).1 hk
    have := bitReverse_lt m i
    have : 2 ^ m ≤ 4096 := hm ▸ hsize
    omega
  have hnats : s.nats brBase E.n = E.brTable := by rw [State.nats, hbr, map_toNat_natWords hbrLt]
  have hfftf := fftfTransforms s
  rw [hparams] at hfftf
  dsimp only at hfftf
  rw [htw, show s.nats brBase s.csr.env.n = E.brTable from hnats] at hfftf
  obtain ⟨a, hexec, hza, hbytes, -, hdone⟩ := hfftf hconf htag ht htwFinite hz
  have hword (x : ℕ) (hx : zBase + 2 * E.n ≤ x) : a.word x = s.word x :=
    word_of_sameBytes hbytes hdone.epoch fun b hb => by
      obtain rfl := List.mem_singleton.1 hb
      exact .inr hx
  have htwa : a.complexes twBase (E.n / 2) = E.twTable :=
    (complexes_congr fun i _ => hword _ (by simp only [twBase, zBase]; omega)).trans htw
  have hnatsa : a.nats brBase E.n = E.brTable :=
    (congrArg (List.map BitVec.toNat) (words_congr fun i _ => hword _ (by simp only [brBase, zBase]; omega))).trans hnats
  have hparamsa : a.params = { s.csr.withZLen E.n with ipDone := true } := by
    rw [params_of_idle hdone.idle, hdone.csr]
  have hffti := fftiTransforms a
  rw [hparamsa] at hffti
  have henv : Csrs.env { s.csr.withZLen E.n with ipDone := true } = E := rfl
  dsimp only at hffti
  rw [henv, htwa, hnatsa, hza, ← inv_env s.csr] at hffti
  obtain ⟨b, hexec', -, htb, -⟩ := hffti (hconf.withZLen E.n) (withZLen_tag s.csr) hz htwFinite hy
  replace htb : b.words tBase E.n = y.map Cx.re := htb
  refine ⟨a, b, hexec, hexec', fun k hk => ?_⟩
  have hk' : k < y.length := by rw [show y.length = E.n from length_inv E _ _ _]; exact hk
  rw [word_of_words htb 0 hk, cat_of_lt E hk', List.getD_eq_getElem _ _ (by rwa [List.length_map]), List.getElem_map]

end

/-! ### The network on exact values

Where the parts of a complex number are finite patterns of known values, and the parts of a result are representable, the
result has the exact value. -/

/-- The parts of a complex number, in units of 2^-149. -/
def HasCx (z : Cx Word) (x y : ℤ) : Prop := HasFix z.re x ∧ HasFix z.im y

/-- Both parts of a complex number are finite. -/
def FiniteCx (z : Cx Word) : Prop := f32Finite z.re = true ∧ f32Finite z.im = true

theorem HasCx.finite {z : Cx Word} {x y : ℤ} (h : HasCx z x y) : FiniteCx z := ⟨h.1.1, h.2.1⟩

section
variable {E : Env Word} (hE : E.num = hwNum) {a b w z : Cx Word} {x y x' y' : ℤ}
include hE

theorem hasCx_add (ha : HasCx a x y) (hb : HasCx b x' y') (hx : Representable (x + x')) (hy : Representable (y + y')) :
    HasCx (E.cadd a b) (x + x') (y + y') := by
  rw [Env.cadd, hE]
  exact ⟨ha.1.add hb.1 hx, ha.2.add hb.2 hy⟩

theorem hasCx_sub (ha : HasCx a x y) (hb : HasCx b x' y') (hx : Representable (x - x')) (hy : Representable (y - y')) :
    HasCx (E.csub a b) (x - x') (y - y') := by
  rw [Env.csub, hE]
  exact ⟨ha.1.sub hb.1 hx, ha.2.sub hb.2 hy⟩

theorem hasCx_mul_zero (hw : FiniteCx w) (hz : HasCx z 0 0) : HasCx (E.cmul w z) 0 0 := by
  have hmul {c d : Word} (hc : f32Finite c = true) (hd : HasFix d 0) : HasFix (f32Mul c d) 0 :=
    HasFix.mul ⟨hc, rfl⟩ hd representable_zero (by simp)
  rw [Env.cmul, hE]
  exact ⟨(hmul hw.1 hz.1).sub (hmul hw.2 hz.2) representable_zero, (hmul hw.1 hz.2).add (hmul hw.2 hz.1) representable_zero⟩

theorem hasCx_mul_one (hw : HasCx w (2 ^ 149) 0) (hz : HasCx z x y) : HasCx (E.cmul w z) x y := by
  have hone {c d : Word} {i : ℤ} (hc : HasFix c (2 ^ 149)) (hd : HasFix d i) : HasFix (f32Mul c d) i :=
    hc.mul hd hd.representable (mul_comm _ _)
  have hzero {c d : Word} {i : ℤ} (hc : HasFix c 0) (hd : HasFix d i) : HasFix (f32Mul c d) 0 :=
    hc.mul hd representable_zero (by simp)
  have hre := (hone hw.1 hz.1).sub (hzero hw.2 hz.2) (by rw [sub_zero]; exact hz.1.representable)
  have him := (hone hw.1 hz.2).add (hzero hw.2 hz.1) (by rw [add_zero]; exact hz.2.representable)
  rw [sub_zero] at hre
  rw [add_zero] at him
  rw [Env.cmul, hE]
  exact ⟨hre, him⟩

theorem hasCx_conj (hw : HasCx w x y) : HasCx (E.conj w) x (-y) := by
  have hzero : E.zero = 0 := by rw [Env.zero, hE]; exact f32OfInt_zero
  rw [Env.conj, Env.neg, hzero, hE]
  exact ⟨hw.1, hw.2.neg⟩

theorem hasCx_czero : HasCx E.czero 0 0 := by
  have hzero : E.zero = 0 := by rw [Env.zero, hE]; exact f32OfInt_zero
  rw [Env.czero, hzero]
  exact ⟨hasFix_zero, hasFix_zero⟩

theorem finiteCx_cat {zs : List (Cx Word)} (h : ∀ z ∈ zs, FiniteCx z) (i : ℕ) : FiniteCx (E.cat_ zs i) := by
  rcases lt_or_ge i zs.length with hi | hi
  · rw [cat_of_lt E hi]
    exact h _ (List.getElem_mem hi)
  · rw [Env.cat_, List.getD_eq_default _ _ hi]
    exact (hasCx_czero hE).finite

theorem finiteCx_stageTwiddle {tw : List (Cx Word)} (h : ∀ z ∈ tw, FiniteCx z) (inv : Bool) (half i : ℕ) :
    FiniteCx (E.stageTwiddle tw inv half i) := by
  have hcat := finiteCx_cat hE h (i * (E.n / (2 * half)))
  unfold Env.stageTwiddle
  cases inv with
  | false => exact hcat
  | true => exact (hasCx_conj hE ⟨⟨hcat.1, rfl⟩, ⟨hcat.2, rfl⟩⟩).finite

/-- The factor of the first butterfly of a group is 1. -/
theorem hasCx_stageTwiddle_zero {tw : List (Cx Word)} (h : HasCx (E.cat_ tw 0) (2 ^ 149) 0) (inv : Bool) (half : ℕ) :
    HasCx (E.stageTwiddle tw inv half 0) (2 ^ 149) 0 := by
  unfold Env.stageTwiddle
  rw [Nat.zero_mul]
  cases inv with
  | false => exact h
  | true => exact hasCx_conj hE h

end

/-! ### An impulse through both transforms (R160) -/

/-- Every entry of an array of `2 ^ m` is in the upper or the lower half of a group of `2 ^ (s + 1)`. -/
theorem forall_entries {m s : ℕ} (hs : s + 1 ≤ m) {P : ℕ → Prop}
    (hupper : ∀ g k, g < 2 ^ (m - (s + 1)) → k < 2 ^ s → P (g * 2 ^ (s + 1) + k))
    (hlower : ∀ g k, g < 2 ^ (m - (s + 1)) → k < 2 ^ s → P (g * 2 ^ (s + 1) + (2 ^ s + k))) : ∀ p, p < 2 ^ m → P p := by
  intro p hp
  have hpow : 2 ^ m = 2 ^ (m - (s + 1)) * 2 ^ (s + 1) := by rw [← Nat.pow_add]; congr 1; omega
  have hgroup : p / 2 ^ (s + 1) < 2 ^ (m - (s + 1)) := by
    rw [Nat.div_lt_iff_lt_mul (Nat.two_pow_pos _), ← hpow]
    exact hp
  have hindex : p % 2 ^ (s + 1) < 2 ^ (s + 1) := Nat.mod_lt _ (Nat.two_pow_pos _)
  have hp' : p / 2 ^ (s + 1) * 2 ^ (s + 1) + p % 2 ^ (s + 1) = p := Nat.div_add_mod' _ _
  have hsize : (2 : ℕ) ^ (s + 1) = 2 * 2 ^ s := Nat.pow_succ'
  rcases lt_or_ge (p % 2 ^ (s + 1)) (2 ^ s) with hlt | hge
  · rw [← hp']
    exact hupper _ _ hgroup hlt
  · obtain ⟨k, hk⟩ : ∃ k, p % 2 ^ (s + 1) = 2 ^ s + k := ⟨_, (Nat.add_sub_of_le hge).symm⟩
    rw [← hp', hk]
    exact hlower _ _ hgroup (by omega)

/-- The entries that butterfly `k` of group `g` reads. -/
theorem butterfly_entries_lt {m s g k : ℕ} (hs : s + 1 ≤ m) (hg : g < 2 ^ (m - (s + 1))) (hk : k < 2 ^ s) :
    2 * g * 2 ^ s + k < 2 ^ m ∧ (2 * g + 1) * 2 ^ s + k < 2 ^ m := by
  have hsize : (2 : ℕ) ^ (s + 1) = 2 * 2 ^ s := Nat.pow_succ'
  have hlast := group_entry_lt (k := 2 ^ s + k) hs hg (by omega)
  have hsecond : g * 2 ^ (s + 1) + (2 ^ s + k) = (2 * g + 1) * 2 ^ s + k := by ring
  rw [Nat.add_mul] at hsecond ⊢
  omega

section
variable {E : Env Word} (hE : E.num = hwNum) {m : ℕ} (hn : E.n = 2 ^ m) {tw y : List (Cx Word)} {inv : Bool} {v : ℤ}
  (htw : ∀ z ∈ tw, FiniteCx z)
include hE hn htw

/-- The stages spread an impulse: after `s` of them the first `2 ^ s` entries have its value, and the others are 0. -/
theorem stagesTo_impulse (hv : Representable v) (hy : ∀ p, p < 2 ^ m → HasCx (E.cat_ y p) (if p = 0 then v else 0) 0)
    {s : ℕ} (hs : s ≤ m) :
    ∀ p, p < 2 ^ m → HasCx (E.cat_ (E.stagesTo tw inv y s) p) (if p < 2 ^ s then v else 0) 0 := by
  induction s with
  | zero => simpa [Env.stagesTo] using hy
  | succ s ih =>
    have hprev := ih (by omega)
    rw [stagesTo_succ]
    have hsize : (2 : ℕ) ^ (s + 1) = 2 * 2 ^ s := Nat.pow_succ'
    have hrep (c : Prop) [Decidable c] : Representable (if c then v else 0) := by
      split
      · exact hv
      · exact representable_zero
    have hfirst {g k : ℕ} (hg : g < 2 ^ (m - (s + 1))) (hk : k < 2 ^ s) :
        HasCx (E.cat_ (E.stagesTo tw inv y s) (2 * g * 2 ^ s + k)) (if g = 0 then v else 0) 0 := by
      have h := hprev (2 * g * 2 ^ s + k) (butterfly_entries_lt hs hg hk).1
      rcases g with - | g
      · simpa [hk] using h
      · rwa [if_neg (by rw [Nat.mul_succ, Nat.add_mul]; omega)] at h
    have hproduct {g k : ℕ} (hg : g < 2 ^ (m - (s + 1))) (hk : k < 2 ^ s) :
        HasCx (E.cmul (E.stageTwiddle tw inv (2 ^ s) k) (E.cat_ (E.stagesTo tw inv y s) ((2 * g + 1) * 2 ^ s + k))) 0 0 := by
      have h := hprev ((2 * g + 1) * 2 ^ s + k) (butterfly_entries_lt hs hg hk).2
      rw [if_neg (by rw [Nat.add_mul]; omega)] at h
      exact hasCx_mul_zero hE (finiteCx_stageTwiddle hE htw inv _ _) h
    have hgroup {g k : ℕ} (hk : k < 2 ^ (s + 1)) : g * 2 ^ (s + 1) + k < 2 ^ (s + 1) ↔ g = 0 := by
      rcases g with - | g
      · simp [hk]
      · rw [Nat.succ_mul]; omega
    refine forall_entries hs (fun g k hg hk => ?_) fun g k hg hk => ?_
    · rw [cat_stage_upper hn _ _ inv hs hg hk]
      have h := hasCx_add hE (hfirst hg hk) (hproduct hg hk) (by rw [add_zero]; exact hrep _) representable_zero
      simpa only [hgroup (g := g) (show k < 2 ^ (s + 1) by omega), add_zero] using h
    · rw [cat_stage_lower hn _ _ inv hs hg hk]
      have h := hasCx_sub hE (hfirst hg hk) (hproduct hg hk) (by rw [sub_zero]; exact hrep _) representable_zero
      simpa only [hgroup (g := g) (show 2 ^ s + k < 2 ^ (s + 1) by omega), sub_zero] using h

/-- The stages gather a constant: after `s` of them the first entry of each group has the sum of its `2 ^ s` values, and the
others are 0. -/
theorem stagesTo_constant (htw0 : HasCx (E.cat_ tw 0) (2 ^ 149) 0) (hv : Representable v)
    (hend : (v * 2 ^ m).natAbs < unitsEnd) (hy : ∀ p, p < 2 ^ m → HasCx (E.cat_ y p) v 0) {s : ℕ} (hs : s ≤ m) :
    ∀ p, p < 2 ^ m → HasCx (E.cat_ (E.stagesTo tw inv y s) p) (if p % 2 ^ s = 0 then v * 2 ^ s else 0) 0 := by
  induction s with
  | zero => simpa [Env.stagesTo, Nat.mod_one] using hy
  | succ s ih =>
    have hprev := ih (by omega)
    rw [stagesTo_succ]
    have hsize : (2 : ℕ) ^ (s + 1) = 2 * 2 ^ s := Nat.pow_succ'
    have hsum : v * 2 ^ s + v * 2 ^ s = v * 2 ^ (s + 1) := by ring
    have hrep : Representable (v * 2 ^ (s + 1)) := by
      refine hv.mul_two_pow (lt_of_le_of_lt ?_ hend)
      rw [Int.natAbs_mul, Int.natAbs_mul, Int.natAbs_pow, Int.natAbs_pow]
      exact Nat.mul_le_mul_left _ (Nat.pow_le_pow_right (by decide) hs)
    have hentry {g k : ℕ} (hk : k < 2 ^ s) : (g * 2 ^ s + k) % 2 ^ s = k := by
      rw [Nat.mul_add_mod', Nat.mod_eq_of_lt hk]
    have hfirst {g k : ℕ} (hg : g < 2 ^ (m - (s + 1))) (hk : k < 2 ^ s) :
        HasCx (E.cat_ (E.stagesTo tw inv y s) (2 * g * 2 ^ s + k)) (if k = 0 then v * 2 ^ s else 0) 0 := by
      have h := hprev _ (butterfly_entries_lt hs hg hk).1
      rwa [hentry hk] at h
    have hproduct {g k : ℕ} (hg : g < 2 ^ (m - (s + 1))) (hk : k < 2 ^ s) :
        HasCx (E.cmul (E.stageTwiddle tw inv (2 ^ s) k) (E.cat_ (E.stagesTo tw inv y s) ((2 * g + 1) * 2 ^ s + k)))
          (if k = 0 then v * 2 ^ s else 0) 0 := by
      have h := hprev _ (butterfly_entries_lt hs hg hk).2
      rw [hentry hk] at h
      rcases k with - | k
      · exact hasCx_mul_one hE (hasCx_stageTwiddle_zero hE htw0 inv _) h
      · exact hasCx_mul_zero hE (finiteCx_stageTwiddle hE htw inv _ _) h
    have hgroup {g k : ℕ} (hk : k < 2 ^ (s + 1)) : (g * 2 ^ (s + 1) + k) % 2 ^ (s + 1) = k := by
      rw [Nat.mul_add_mod', Nat.mod_eq_of_lt hk]
    refine forall_entries hs (fun g k hg hk => ?_) fun g k hg hk => ?_
    · rw [cat_stage_upper hn _ _ inv hs hg hk, hgroup (by omega)]
      have h1 := hfirst hg hk
      have h2 := hproduct hg hk
      rcases k with - | k
      · simpa only [if_true, hsum, add_zero] using
          hasCx_add hE h1 h2 (by simpa only [if_true, hsum] using hrep) representable_zero
      · exact hasCx_add hE h1 h2 representable_zero representable_zero
    · rw [cat_stage_lower hn _ _ inv hs hg hk, hgroup (by omega), if_neg (by have := Nat.two_pow_pos s; omega)]
      have h1 := hfirst hg hk
      have h2 := hproduct hg hk
      have h := hasCx_sub hE h1 h2 (by rw [sub_self]; exact representable_zero) representable_zero
      rwa [sub_self, sub_zero] at h

end

theorem bitReverse_eq_zero {m k : ℕ} (hk : k < 2 ^ m) : bitReverse m k = 0 ↔ k = 0 := by
  have hzero : bitReverse m 0 = 0 := by
    refine Nat.eq_of_testBit_eq fun i => ?_
    by_cases hi : i < m
    · rw [testBit_bitReverse 0 hi, Nat.zero_testBit, Nat.zero_testBit]
    · rw [Nat.testBit_lt_two_pow ((bitReverse_lt m 0).trans_le (Nat.pow_le_pow_right (by omega) (by omega))),
        Nat.zero_testBit]
  constructor
  · intro h
    rw [← bitReverse_bitReverse hk, h, hzero]
  · rintro rfl
    exact hzero

/-- The scale of R159 is exact: the sizes are powers of two. -/
theorem hasFix_scale {m : ℕ} (hm : m ≤ 12) : HasFix (f32Div 0x3F800000 (f32OfInt ((2 ^ m : ℕ) : ℤ))) (2 ^ (149 - m)) := by
  have hpow : (2 : ℕ) ^ m ≤ 2 ^ 12 := Nat.pow_le_pow_right (by decide) hm
  have hone : HasFix 0x3F800000 (2 ^ 149) := ⟨by decide, by decide⟩
  have hsize := hasFix_ofInt (i := ((2 ^ m : ℕ) : ℤ)) (by rw [Int.natAbs_natCast]; omega)
  have hsplit : (2 : ℤ) ^ (149 - m) * 2 ^ m = 2 ^ 149 := by rw [← pow_add]; congr 1; omega
  refine hone.div hsize (by positivity) ⟨⟨1, 149 - m, ?_, by decide⟩, ?_⟩ ?_
  · rw [Int.natAbs_pow, Nat.one_mul]
    rfl
  · rw [Int.natAbs_pow]
    exact lt_unitsEnd (Nat.pow_lt_pow_right (by decide) (show 149 - m < 150 by omega)) (by decide)
  · rw [← mul_assoc, Nat.cast_pow, Nat.cast_ofNat, hsplit]

/-- Entries of the array of complex samples of an impulse (R158). -/
theorem cat_impulse {E : Env Word} (hE : E.num = hwNum) {c : Word} {v : ℤ} (hc : HasFix c v) (n k : ℕ) :
    HasCx (E.cat_ ((c :: List.replicate n 0).map fun x => (⟨x, 0⟩ : Cx Word)) k) (if k = 0 then v else 0) 0 := by
  rcases k with - | k
  · exact ⟨hc, hasFix_zero⟩
  · have hentry : E.cat_ ((c :: List.replicate n 0).map fun x => (⟨x, 0⟩ : Cx Word)) (k + 1) = E.czero ∨
        E.cat_ ((c :: List.replicate n 0).map fun x => (⟨x, 0⟩ : Cx Word)) (k + 1) = ⟨0, 0⟩ := by
      rcases lt_or_ge k n with hk | hk
      · exact .inr (by simp [Env.cat_, hk])
      · exact .inl (by simp [Env.cat_, hk])
    rcases hentry with h | h <;> rw [h]
    · exact hasCx_czero hE
    · exact ⟨hasFix_zero, hasFix_zero⟩

section
variable {p : Csrs} (hsize : sizeOk p.active.n.toNat = true)
include hsize

theorem finiteCx_twTable : ∀ z ∈ p.env.twTable, FiniteCx z := allFinite_cxWords.1 (allFinite_twTable hsize)

theorem hasCx_twTable_zero : HasCx (p.env.cat_ p.env.twTable 0) (2 ^ 149) 0 := by
  have hpos : 0 < p.env.n / 2 := by
    have hlow := sizeOk_iff_mem.1 hsize
    rw [env_n]
    simp only [List.mem_cons, List.not_mem_nil, or_false] at hlow
    omega
  have hentry : p.env.cat_ p.env.twTable 0 = ⟨0x3F800000, 0⟩ :=
    (getD_tabulate _ _ _ _ hpos).trans (twiddle_quarters hsize).1
  rw [hentry]
  exact ⟨⟨by decide, by decide⟩, hasFix_zero⟩

/-- An impulse at sample 0 has a constant spectrum, and the inverse transform of that is the impulse, without any
rounding. -/
theorem hw_impulse {c : Word} {v : ℤ} (hc : HasFix c v) (hend : (v * p.env.n).natAbs < unitsEnd) :
    let E := p.env
    let z := E.net E.twTable E.brTable false ((c :: List.replicate (E.n - 1) 0).map fun x => ⟨x, 0⟩)
    let y := E.inv E.twTable E.brTable z
    (∀ k, k < E.n → HasCx (E.cat_ z k) v 0) ∧ ∀ k, k < E.n → HasCx (E.cat_ y k) (if k = 0 then v else 0) 0 := by
  intro E z y
  obtain ⟨m, ⟨-, hm⟩, hn⟩ := sizeOk_iff_pow.1 hsize
  replace hn : E.n = 2 ^ m := hn
  have hE : E.num = hwNum := rfl
  have hend' : (v * 2 ^ m).natAbs < unitsEnd := by
    rw [show p.env.n = 2 ^ m from hn] at hend
    exact_mod_cast hend
  have hz : ∀ k, k < 2 ^ m → HasCx (E.cat_ z k) v 0 := by
    intro k hk
    have hstages := stagesTo_impulse hE hn (inv := false) (finiteCx_twTable hsize) hc.representable (fun p hp => by
      rw [cat_permute hn _ hp]
      simpa only [bitReverse_eq_zero hp] using cat_impulse hE hc (E.n - 1) (bitReverse m p)) (le_refl m) k hk
    rwa [if_pos hk, ← net_eq_stagesTo hn] at hstages
  have hnet : ∀ k, k < 2 ^ m → HasCx (E.cat_ (E.net E.twTable E.brTable true z) k) (if k = 0 then v * 2 ^ m else 0) 0 := by
    intro k hk
    have hstages := stagesTo_constant hE hn (inv := true) (finiteCx_twTable hsize) (hasCx_twTable_zero hsize)
      hc.representable hend' (fun p hp => by
        rw [cat_permute hn z hp]
        exact hz _ (bitReverse_lt m p)) (le_refl m) k hk
    rwa [Nat.mod_eq_of_lt hk, ← net_eq_stagesTo hn] at hstages
  rw [hn]
  refine ⟨hz, fun k hk => ?_⟩
  have hscale : HasFix (E.num.div E.one (E.nat E.n)) (2 ^ (149 - m)) := by
    rw [show E.one = 0x3F800000 from env_one p, Env.nat, hn]
    exact hasFix_scale hm
  have hsplit : (2 : ℤ) ^ (149 - m) * 2 ^ m = 2 ^ 149 := by rw [← pow_add]; congr 1; omega
  have hentry := hnet k hk
  rw [cat_inv E _ _ _ (by rwa [hn])]
  refine ⟨hscale.mul hentry.1 ?_ ?_, hscale.mul hentry.2 representable_zero (by simp)⟩
  · split
    · exact hc.representable
    · exact representable_zero
  · split
    · rw [mul_left_comm, hsplit]
    · simp

end

theorem allFinite_of_cat {E : Env Word} {n : ℕ} {zs : List (Cx Word)} (hl : zs.length = n)
    (h : ∀ k, k < n → FiniteCx (E.cat_ zs k)) : allFinite (cxWords zs) := by
  refine allFinite_cxWords.2 fun z hz => ?_
  obtain ⟨k, hk, rfl⟩ := List.getElem_of_mem hz
  rw [← cat_of_lt E hk]
  exact h k (hl ▸ hk)

/-- A product by the size that is finite bounds the exact product. -/
theorem natAbs_mul_size_lt {c : Word} {n : ℕ} (hn : n < 2 ^ 24) (h : f32Finite (f32Mul c (f32OfInt n)) = true) :
    f32Finite c = true ∧ (f32Fix c * n).natAbs < unitsEnd := by
  obtain ⟨hfin, hfix⟩ := hasFix_ofInt (i := (n : ℤ)) (by omega)
  have hc : f32Finite c = true := by
    by_contra hc
    rw [f32Mul, if_neg (by simp [hc])] at h
    exact absurd h (by decide)
  refine ⟨hc, ?_⟩
  simp only [f32Mul, hc, hfin, Bool.and_self, if_true] at h
  have hmag : f32Mag (f32OfInt n) = n * f32One := by
    rw [← natAbs_f32Fix, hfix, f32One_eq, Int.natAbs_mul]
    rfl
  have hlt := quot_lt_of_pack_finite h
  rwa [hmag, ← Nat.mul_assoc, Nat.mul_div_cancel _ (by rw [f32One_eq]; positivity), ← natAbs_f32Fix,
    ← Int.natAbs_natCast n, ← Int.natAbs_mul] at hlt

section
variable {s : State} (hidle : s.inFlight = none) (hconf : s.csr.Configured) (htag : s.csr.tags.t = s.csr.active.n)
  (htw : s.complexes twBase (s.csr.env.n / 2) = s.csr.env.twTable)
  (hbr : s.words brBase s.csr.env.n = natWords s.csr.env.brTable)
include hidle hconf htag htw hbr

/-- On the hardware an impulse at sample 0 comes back exactly (R160). -/
theorem hw_impulse_roundTrip {c : Word} (hc : f32Finite (f32Mul c (f32OfInt s.csr.env.n)) = true)
    (ht : s.words tBase s.csr.env.n = c :: List.replicate (s.csr.env.n - 1) 0) :
    ∃ a b, exec .fftf s = .next a ∧ exec .ffti a = .next b ∧
      ∀ k, k < s.csr.env.n → realOf (b.word (tBase + k)) = realOf (s.word (tBase + k)) := by
  have hsize : s.csr.env.n ≤ 4096 := hconf.size_le
  obtain ⟨hfin, hend⟩ := natAbs_mul_size_lt (by omega) hc
  obtain ⟨hz, hy⟩ := hw_impulse hconf.legal.size ⟨hfin, rfl⟩ hend
  obtain ⟨a, b, hfftf, hffti, hback⟩ := hw_roundTrip hidle hconf htag htw hbr
    (by
      rw [ht]
      exact allFinite_cons.2 ⟨hfin, fun w hw => by rw [List.eq_of_mem_replicate hw]; decide⟩)
    (by
      rw [ht]
      exact allFinite_of_cat (length_net _ _ _ _ _) fun k hk => (hz k hk).finite)
    (by
      rw [ht]
      exact allFinite_of_cat (length_inv _ _ _ _) fun k hk => (hy k hk).finite)
  refine ⟨a, b, hfftf, hffti, fun k hk => ?_⟩
  rw [ht] at hback
  have hsample := word_of_words ht 0 hk
  have hvalue : f32Fix (s.word (tBase + k)) = if k = 0 then f32Fix c else 0 := by
    rw [hsample]
    rcases k with - | k
    · rfl
    · rw [List.getD_cons_succ, List.getD_replicate _ (by omega)]
      exact hasFix_zero.2
  rw [realOf, realOf, hback k hk, (hy k hk).1.2, hvalue]

end

/-! ### Four samples through both transforms, with rounding (R160, R326 a)

With N = 4 the twiddles are 1 and -j, so that every rounding is that of a sum, but for the last product by 1/4.
Each stage at most triples the values and their error, and adds at most 5.1 units of 2^-24 of the values. -/

theorem natAbs_lt_of_abs_le {x : ℤ} {B : ℕ} (h : |(x : ℝ) / 2 ^ 149| ≤ 2 ^ B) : x.natAbs < 2 ^ (B + 150) := by
  have hpos : (0 : ℝ) < 2 ^ 149 := by positivity
  rw [abs_div, abs_of_pos hpos, div_le_iff₀ hpos, ← pow_add] at h
  have hnat : x.natAbs ≤ 2 ^ (B + 149) := by
    rw [← Int.cast_abs, Int.abs_eq_natAbs] at h
    exact_mod_cast h
  exact hnat.trans_lt (Nat.pow_lt_pow_right (by decide) (by omega))

/-- The pattern `w` is a real within `r` of `x`, which is at most `t` in size. -/
def Near (t r : ℝ) (w : Word) (x : ℝ) : Prop := f32Finite w = true ∧ |realOf w - x| ≤ r ∧ |x| ≤ t

section
variable {a b : Word} {x y t t' r r' : ℝ}

theorem Near.abs_le (h : Near t r a x) : |realOf a| ≤ t + r := by
  obtain ⟨-, hr, ht⟩ := h
  have := abs_sub_abs_le_abs_sub (realOf a) x
  linarith

theorem near_of_hasFix {v : ℤ} (h : HasFix a v) (hx : x = v / 2 ^ 149) (ht : |x| ≤ t) : Near t 0 a x :=
  ⟨h.1, by rw [hx, realOf, h.2, sub_self, abs_zero], ht⟩

theorem realOf_flip (w : Word) : realOf (f32Flip w) = -realOf w := by
  rw [realOf, realOf, f32Fix_flip]
  push_cast
  ring

theorem Near.flip (h : Near t r b y) : Near t r (f32Flip b) (-y) := by
  obtain ⟨hfin, hr, ht⟩ := h
  refine ⟨by rw [f32Finite, f32Exp_flip]; exact hfin, ?_, by rwa [abs_neg]⟩
  rwa [realOf_flip, neg_sub_neg, abs_sub_comm]

theorem Near.add (ha : Near t r a x) (hb : Near t' r' b y) {B : ℕ} (hB : t + r + (t' + r') ≤ 2 ^ B) (hB' : B ≤ 126) :
    Near (t + t') (r + r' + (t + r + (t' + r')) / 2 ^ 24) (f32Add a b) (x + y) := by
  have hsize : |realOf a + realOf b| ≤ t + r + (t' + r') :=
    (abs_add_le _ _).trans (add_le_add ha.abs_le hb.abs_le)
  have hfix : realOf a + realOf b = ((f32Fix a + f32Fix b : ℤ) : ℝ) / 2 ^ 149 := by
    rw [realOf, realOf, ← add_div]
    push_cast
    rfl
  have hlt : (f32Fix a + f32Fix b).natAbs < 2 ^ (B + 150) :=
    natAbs_lt_of_abs_le (by rw [← hfix]; exact hsize.trans hB)
  obtain ⟨hfin, hnear⟩ := f32Add_near ha.1 hb.1 hlt (by omega)
  refine ⟨hfin, ?_, (abs_add_le _ _).trans (add_le_add ha.2.2 hb.2.2)⟩
  have hround : |realOf a + realOf b| / 2 ^ 24 ≤ (t + r + (t' + r')) / 2 ^ 24 :=
    div_le_div_of_nonneg_right hsize (by positivity)
  calc |realOf (f32Add a b) - (x + y)|
      = |(realOf (f32Add a b) - (realOf a + realOf b)) + ((realOf a - x) + (realOf b - y))| := by ring_nf
    _ ≤ |realOf (f32Add a b) - (realOf a + realOf b)| + (|realOf a - x| + |realOf b - y|) :=
        (abs_add_le _ _).trans (add_le_add_right (abs_add_le _ _) _)
    _ ≤ r + r' + (t + r + (t' + r')) / 2 ^ 24 := by linarith [ha.2.1, hb.2.1]

theorem Near.sub (ha : Near t r a x) (hb : Near t' r' b y) {B : ℕ} (hB : t + r + (t' + r') ≤ 2 ^ B) (hB' : B ≤ 126) :
    Near (t + t') (r + r' + (t + r + (t' + r')) / 2 ^ 24) (f32Sub a b) (x - y) := by
  rw [sub_eq_add_neg]
  exact ha.add hb.flip hB hB'

/-- A factor 0, 1 or -1 of the hardware, exactly. -/
def UnitFactor (w : Word) (x : ℝ) : Prop := ∃ i : ℤ, |i| ≤ 1 ∧ HasFix w (i * 2 ^ 149) ∧ x = i

/-- Multiplication by 0, 1 or -1 does not round. -/
theorem UnitFactor.mul (ha : UnitFactor a x) (hb : Near t r b y) : Near t r (f32Mul a b) (x * y) := by
  obtain ⟨i, hi, hfix, rfl⟩ := ha
  obtain ⟨hfin, hr, ht⟩ := hb
  have hrep : Representable (i * f32Fix b) := by
    have h := HasFix.representable ⟨hfin, rfl⟩
    obtain rfl | rfl | rfl : i = -1 ∨ i = 0 ∨ i = 1 := by rw [abs_le] at hi; omega
    · rw [neg_one_mul]; exact representable_neg h
    · rw [zero_mul]; exact representable_zero
    · rwa [one_mul]
  obtain ⟨hfinProd, hfixProd⟩ := hfix.mul ⟨hfin, rfl⟩ hrep (by ring)
  have hreal : realOf (f32Mul a b) = i * realOf b := by
    rw [realOf, hfixProd, realOf]
    push_cast
    ring
  have hone : |(i : ℝ)| ≤ 1 := by exact_mod_cast hi
  refine ⟨hfinProd, ?_, ?_⟩
  · rw [hreal, ← mul_sub, abs_mul]
    exact (mul_le_of_le_one_left (abs_nonneg _) hone).trans hr
  · rw [abs_mul]
    exact (mul_le_of_le_one_left (abs_nonneg _) hone).trans ht

end

/-- Both parts of a complex number are near. -/
def NearCx (t r : ℝ) (z : Cx Word) (x : Cx ℝ) : Prop := Near t r z.re x.re ∧ Near t r z.im x.im

/-- Both parts of a complex number are 0, 1 or -1. -/
def UnitCx (w : Cx Word) (x : Cx ℝ) : Prop := UnitFactor w.re x.re ∧ UnitFactor w.im x.im

/-- The error of the sum of a butterfly, from errors `r` and values of at most `t`. -/
noncomputable def butterflyError (t r : ℝ) : ℝ :=
  r + (r + r + (t + r + (t + r)) / 2 ^ 24) +
    (t + r + (t + t + (r + r + (t + r + (t + r)) / 2 ^ 24))) / 2 ^ 24

section
variable {E : Env Word} {X : Env ℝ} (hE : E.num = hwNum) (hX : X.num = exactNum) {t r : ℝ}
include hE hX

theorem nearCx_butterfly {a b w : Cx Word} {x y v : Cx ℝ} (ha : NearCx t r a x) (hb : NearCx t r b y)
    (hw : UnitCx w v) {B : ℕ} (hB : t + r + (t + t + (r + r + (t + r + (t + r)) / 2 ^ 24)) ≤ 2 ^ B) (hB' : B ≤ 126)
    (ht : 0 ≤ t) (hr : 0 ≤ r) :
    NearCx (t + (t + t)) (butterflyError t r) (E.butterfly a b w).1 (X.butterfly x y v).1 ∧
      NearCx (t + (t + t)) (butterflyError t r) (E.butterfly a b w).2 (X.butterfly x y v).2 := by
  have hround : 0 ≤ (t + r + (t + r)) / 2 ^ 24 := by positivity
  have hsmall : t + r + (t + r) ≤ 2 ^ B := by linarith
  have hre : Near (t + t) (r + r + (t + r + (t + r)) / 2 ^ 24) (E.cmul w b).re (X.cmul v y).re := by
    rw [Env.cmul, hE, Env.cmul, hX]
    exact (hw.1.mul hb.1).sub (hw.2.mul hb.2) hsmall hB'
  have him : Near (t + t) (r + r + (t + r + (t + r)) / 2 ^ 24) (E.cmul w b).im (X.cmul v y).im := by
    rw [Env.cmul, hE, Env.cmul, hX]
    exact (hw.1.mul hb.2).add (hw.2.mul hb.1) hsmall hB'
  simp only [Env.butterfly, Env.cadd, Env.csub, hE, hX]
  exact ⟨⟨ha.1.add hre hB hB', ha.2.add him hB hB'⟩, ⟨ha.1.sub hre hB hB', ha.2.sub him hB hB'⟩⟩

end

theorem Near.mono {t t' r r' x : ℝ} {w : Word} (h : Near t r w x) (ht : t ≤ t') (hr : r ≤ r') : Near t' r' w x :=
  ⟨h.1, h.2.1.trans hr, h.2.2.trans ht⟩

theorem NearCx.mono {t t' r r' : ℝ} {z : Cx Word} {x : Cx ℝ} (h : NearCx t r z x) (ht : t ≤ t') (hr : r ≤ r') :
    NearCx t' r' z x := ⟨h.1.mono ht hr, h.2.mono ht hr⟩

/-- The size of the values after `s` stages. -/
noncomputable def stageSize (top : ℝ) (s : ℕ) : ℝ := 3 ^ s * top

/-- The error after `s` stages. -/
noncomputable def stageError (top : ℝ) (s : ℕ) : ℝ := 17 / 10 * s * stageSize top s / 2 ^ 24

theorem stageSize_succ (top : ℝ) (s : ℕ) : stageSize top (s + 1) = 3 * stageSize top s := by
  rw [stageSize, stageSize, pow_succ]
  ring

section
variable {top : ℝ} {s : ℕ} (htop : 0 ≤ top)
include htop

theorem stageSize_nonneg : 0 ≤ stageSize top s := by unfold stageSize; positivity

theorem stageError_nonneg : 0 ≤ stageError top s := by
  have := stageSize_nonneg htop (s := s)
  unfold stageError
  positivity

variable (hs : s ≤ 3)
include hs

theorem stageError_le : stageError top s ≤ stageSize top s / 100 := by
  have hsize := stageSize_nonneg htop (s := s)
  have hs' : (s : ℝ) ≤ 3 := by exact_mod_cast hs
  have hprod : (s : ℝ) * stageSize top s ≤ 3 * stageSize top s := mul_le_mul_of_nonneg_right hs' hsize
  unfold stageError
  linarith

theorem butterflyError_le : butterflyError (stageSize top s) (stageError top s) ≤ stageError top (s + 1) := by
  have hsize := stageSize_nonneg htop (s := s)
  have hsmall := stageError_le htop hs
  have hstep : stageError top (s + 1) = 3 * stageError top s + 51 / 10 * stageSize top s / 2 ^ 24 := by
    rw [stageError, stageError, stageSize_succ]
    push_cast
    ring
  rw [hstep, butterflyError]
  linarith

theorem butterflySize_le (hle : top ≤ 2 ^ 100) : stageSize top s + stageError top s + (stageSize top s + stageSize top s +
    (stageError top s + stageError top s + (stageSize top s + stageError top s + (stageSize top s + stageError top s)) /
      2 ^ 24)) ≤ 2 ^ 107 := by
  have hsize := stageSize_nonneg htop (s := s)
  have hsmall := stageError_le htop hs
  have hpow : (3 : ℝ) ^ s ≤ 3 ^ 3 := pow_le_pow_right₀ (by norm_num) hs
  have hle' : stageSize top s ≤ 3 ^ 3 * 2 ^ 100 := mul_le_mul hpow hle htop (by norm_num)
  linarith

end

theorem length_stage {R : Type} (E : Env R) (tw : List (Cx R)) (inv : Bool) (half : ℕ) (y : List (Cx R)) :
    (E.stage tw inv half y).length = E.n := length_tabulate _ _

theorem cat_of_ge {R : Type} (E : Env R) {zs : List (Cx R)} {k : ℕ} (hk : zs.length ≤ k) : E.cat_ zs k = E.czero :=
  List.getD_eq_default _ _ hk

section
variable {E : Env Word} {X : Env ℝ} (hE : E.num = hwNum) (hX : X.num = exactNum) (hn : E.n = X.n) {top : ℝ}
  (htop : 0 ≤ top) (hle : top ≤ 2 ^ 100)
include hE hX

theorem nearCx_czero {t r : ℝ} (ht : 0 ≤ t) (hr : 0 ≤ r) : NearCx t r E.czero X.czero := by
  have hzero : X.zero = 0 := by rw [Env.zero, hX]; simp [exactNum]
  obtain ⟨hre, him⟩ := hasCx_czero hE
  rw [Env.czero, Env.czero, hzero] at *
  exact ⟨(near_of_hasFix hre (by simp) (by simpa using ht)).mono le_rfl hr,
    (near_of_hasFix him (by simp) (by simpa using ht)).mono le_rfl hr⟩

include hn

/-- Arrays of N entries are near if their entries are. -/
theorem nearCx_cat {t r : ℝ} (ht : 0 ≤ t) (hr : 0 ≤ r) {zs : List (Cx Word)} {xs : List (Cx ℝ)} (hzs : zs.length = E.n)
    (hxs : xs.length = X.n) (h : ∀ k, k < E.n → NearCx t r (E.cat_ zs k) (X.cat_ xs k)) (k : ℕ) :
    NearCx t r (E.cat_ zs k) (X.cat_ xs k) := by
  rcases lt_or_ge k E.n with hk | hk
  · exact h k hk
  · rw [cat_of_ge E (by omega), cat_of_ge X (by omega)]
    exact nearCx_czero hE hX ht hr

variable {tw : List (Cx Word)} {tx : List (Cx ℝ)} {inv : Bool}
  (htw : ∀ half i, UnitCx (E.stageTwiddle tw inv half i) (X.stageTwiddle tx inv half i))
include htop hle htw

theorem nearCx_stage {s : ℕ} (hs : s ≤ 3) {half : ℕ} {y : List (Cx Word)} {x : List (Cx ℝ)}
    (h : ∀ k, NearCx (stageSize top s) (stageError top s) (E.cat_ y k) (X.cat_ x k)) (k : ℕ) :
    NearCx (stageSize top (s + 1)) (stageError top (s + 1)) (E.cat_ (E.stage tw inv half y) k)
      (X.cat_ (X.stage tx inv half x) k) := by
  have hsize := stageSize_nonneg htop (s := s)
  have herror := stageError_nonneg htop (s := s)
  have hbutterfly (i j l : ℕ) := nearCx_butterfly hE hX (h i) (h j) (htw half l) (butterflySize_le htop hs hle)
    (by omega) hsize herror
  have hgrow : stageSize top s + (stageSize top s + stageSize top s) ≤ stageSize top (s + 1) := by
    rw [stageSize_succ]
    linarith
  have hround := butterflyError_le htop hs
  refine nearCx_cat hE hX hn (stageSize_nonneg htop) (stageError_nonneg htop) (length_stage _ _ _ _ _)
    (length_stage _ _ _ _ _) (fun p hp => ?_) k
  have hword : E.cat_ (E.stage tw inv half y) p = _ := getD_tabulate _ _ _ _ hp
  have hreal : X.cat_ (X.stage tx inv half x) p = _ := getD_tabulate _ _ _ _ (hn ▸ hp)
  rw [hword, hreal]
  dsimp only
  split
  · exact (hbutterfly _ _ _).1.mono hgrow hround
  · exact (hbutterfly _ _ _).2.mono hgrow hround

/-- The two stages of the network for N = 4. -/
theorem nearCx_net (hfour : E.n = 2 ^ 2) {s : ℕ} (hs : s ≤ 2) {y : List (Cx Word)} {x : List (Cx ℝ)}
    (h : ∀ k, NearCx (stageSize top s) (stageError top s) (E.cat_ y k) (X.cat_ x k)) (k : ℕ) :
    NearCx (stageSize top (s + 2)) (stageError top (s + 2)) (E.cat_ (E.net tw E.brTable inv y) k)
      (X.cat_ (X.net tx X.brTable inv x) k) := by
  have hperm : ∀ k, NearCx (stageSize top s) (stageError top s) (E.cat_ (E.permute E.brTable y) k)
      (X.cat_ (X.permute X.brTable x) k) :=
    nearCx_cat hE hX hn (stageSize_nonneg htop) (stageError_nonneg htop) (length_permute _ _ _) (length_permute _ _ _)
      fun p hp => by
        rw [cat_permute hfour y (by omega), cat_permute (hn ▸ hfour) x (by omega)]
        exact h _
  rw [net_eq_stagesTo hfour, net_eq_stagesTo (hn ▸ hfour)]
  rw [stagesTo_succ, stagesTo_succ, stagesTo_succ, stagesTo_succ]
  exact nearCx_stage hE hX hn htop hle htw (by omega) (nearCx_stage hE hX hn htop hle htw (by omega) hperm) k

end

/-! ### The twiddles for N = 4 -/

theorem unitFactor_zero : UnitFactor 0 0 := ⟨0, by norm_num, by rw [zero_mul]; exact hasFix_zero, by norm_num⟩

theorem unitFactor_one : UnitFactor 0x3F800000 1 :=
  ⟨1, by norm_num, by rw [one_mul]; exact ⟨by decide, by decide⟩, by norm_num⟩

theorem unitFactor_neg_one : UnitFactor 0xBF800000 (-1) :=
  ⟨-1, by norm_num, by rw [neg_one_mul]; exact ⟨by decide, by decide⟩, by norm_num⟩

theorem UnitFactor.neg {w : Word} {x : ℝ} (h : UnitFactor w x) : UnitFactor (f32Sub 0 w) (-x) := by
  obtain ⟨i, hi, hfix, rfl⟩ := h
  exact ⟨-i, by rwa [abs_neg], by rw [neg_mul]; exact hfix.neg, by push_cast; rfl⟩

section
variable {p : Csrs} (hsize : sizeOk p.active.n.toNat = true) (hfour : p.env.n = 4) (hop : Int) (fs : ℝ)
include hsize hfour

/-- The twiddle table for N = 4 holds 1 and -j in both carriers (R151). -/
theorem unitCx_twTable (i : ℕ) :
    UnitCx (p.env.cat_ p.env.twTable i) ((exactEnv 4 hop fs).cat_ (exactEnv 4 hop fs).twTable i) := by
  obtain ⟨hzero, hone⟩ := twiddle_quarters hsize
  rw [hfour] at hone
  have hlen : p.env.twTable.length = 2 := by rw [length_twTable, hfour]
  have hlen' : (exactEnv 4 hop fs).twTable.length = 2 := by
    rw [length_twTable, show (exactEnv 4 hop fs).n = 4 from rfl]
  have hentry (i : ℕ) (hi : i < 2) : p.env.cat_ p.env.twTable i = p.env.twiddle i :=
    getD_tabulate _ _ _ _ (by rw [hfour]; exact hi)
  have hentry' (i : ℕ) (hi : i < 2) : (exactEnv 4 hop fs).cat_ (exactEnv 4 hop fs).twTable i =
      (exactEnv 4 hop fs).twiddle i :=
    getD_tabulate _ _ _ _ (by rw [show (exactEnv 4 hop fs).n = 4 from rfl]; exact hi)
  match i with
  | 0 =>
    have hexact : (exactEnv 4 hop fs).twiddle 0 = ⟨1, 0⟩ := by simp [exactTwiddle]
    rw [hentry 0 (by omega), hentry' 0 (by omega), hzero, hexact]
    exact ⟨unitFactor_one, unitFactor_zero⟩
  | 1 =>
    have hangle : 2 * Real.pi * ((1 : ℕ) / (4 : ℕ) : ℝ) = Real.pi / 2 := by push_cast; ring
    have hexact : (exactEnv 4 hop fs).twiddle 1 = ⟨0, -1⟩ := by
      rw [exactTwiddle, hangle, Real.cos_pi_div_two, Real.sin_pi_div_two]
    rw [hentry 1 (by omega), hentry' 1 (by omega), hone, hexact]
    exact ⟨unitFactor_zero, unitFactor_neg_one⟩
  | i + 2 =>
    rw [cat_of_ge _ (by omega), cat_of_ge _ (by omega)]
    have hexact : (exactEnv 4 hop fs).czero = ⟨0, 0⟩ := by simp [Env.czero, Env.zero, exactEnv, exactNum]
    rw [hexact, Env.czero, env_zero]
    exact ⟨unitFactor_zero, unitFactor_zero⟩

theorem unitCx_stageTwiddle (inv : Bool) (half i : ℕ) : UnitCx (p.env.stageTwiddle p.env.twTable inv half i)
    ((exactEnv 4 hop fs).stageTwiddle (exactEnv 4 hop fs).twTable inv half i) := by
  have hentry := unitCx_twTable hsize hfour hop fs (i * (4 / (2 * half)))
  unfold Env.stageTwiddle
  rw [hfour, show (exactEnv 4 hop fs).n = 4 from rfl]
  cases inv with
  | false => exact hentry
  | true =>
    have hneg (x : ℝ) : (exactEnv 4 hop fs).neg x = -x := by simp [Env.neg, Env.zero, exactEnv, exactNum]
    have hneg' (w : Word) : p.env.neg w = f32Sub 0 w := by rw [Env.neg, env_zero]; rfl
    simp only [if_true, Env.conj, hneg, hneg']
    exact ⟨hentry.1, hentry.2.neg⟩

end

/-! ### The round trip for N = 4 -/

/-- The scale 1/4 of R159, with the rounding of the product. -/
theorem near_quarter {sc w : Word} {x t r : ℝ} (hsc : HasFix sc (2 ^ 147)) (h : Near t r w x) {B : ℕ} (hB : t + r ≤ 2 ^ B)
    (hB' : B ≤ 126) : f32Finite (f32Mul sc w) = true ∧
      |realOf (f32Mul sc w) - x / 4| ≤ r / 4 + ((t + r) / 4 / 2 ^ 24 + 1 / 2 ^ 150) := by
  have hquarter : realOf sc = 1 / 4 := by rw [realOf, hsc.2]; norm_num
  have hmag : f32Mag w < 2 ^ (B + 150) := by
    rw [← natAbs_f32Fix]
    exact natAbs_lt_of_abs_le (h.abs_le.trans hB)
  have hprod : f32Mag sc * f32Mag w / f32One < 2 ^ (B + 150) := by
    refine lt_of_le_of_lt (Nat.div_le_of_le_mul (Nat.mul_le_mul_right _ ?_)) hmag
    rw [← natAbs_f32Fix, hsc.2, f32One_eq]
    decide
  obtain ⟨hfin, hnear⟩ := f32Mul_near hsc.1 h.1 hprod (by omega)
  refine ⟨hfin, ?_⟩
  rw [hquarter] at hnear
  have hsize : |1 / 4 * realOf w| ≤ (t + r) / 4 := by
    rw [abs_mul, abs_of_pos (by norm_num : (0 : ℝ) < 1 / 4)]
    linarith [h.abs_le]
  have hinput : |1 / 4 * realOf w - x / 4| ≤ r / 4 := by
    rw [show 1 / 4 * realOf w - x / 4 = 1 / 4 * (realOf w - x) by ring, abs_mul,
      abs_of_pos (by norm_num : (0 : ℝ) < 1 / 4)]
    linarith [h.2.1]
  have hsplit := abs_sub_le (realOf (f32Mul sc w)) (1 / 4 * realOf w) (x / 4)
  linarith

theorem stageError_four_le {top : ℝ} (htop : 0 ≤ top) : stageError top 4 ≤ top := by
  rw [stageError, stageSize]
  push_cast
  linarith

/-- What the errors of four stages and of the scale come to (R326 a). -/
theorem four_error_le {top : ℝ} (hlow : (2 : ℝ)⁻¹ ^ 100 ≤ top) :
    stageError top 4 / 4 + ((4 * top + stageError top 4) / 4 / 2 ^ 24 + 1 / 2 ^ 150) ≤ top / 100000 := by
  have htiny : (1 : ℝ) / 2 ^ 150 ≤ top / 2 ^ 50 := by
    rw [div_le_div_iff₀ (by positivity) (by positivity)]
    have : (2 : ℝ)⁻¹ ^ 100 * 2 ^ 150 ≤ top * 2 ^ 150 := mul_le_mul_of_nonneg_right hlow (by positivity)
    linarith [show (2 : ℝ)⁻¹ ^ 100 * 2 ^ 150 = 1 * 2 ^ 50 by norm_num]
  have hpos : 0 < top := lt_of_lt_of_le (by positivity) hlow
  rw [stageError, stageSize]
  push_cast
  linarith

section
variable {p : Csrs} (hsize : sizeOk p.active.n.toNat = true) (hfour : p.env.n = 4) {t : List Word} (ht : t.length = 4)
  {top : ℝ} (hlow : (2 : ℝ)⁻¹ ^ 100 ≤ top) (hle : top ≤ 2 ^ 100)
  (hfin : ∀ w ∈ t, f32Finite w = true ∧ |realOf w| ≤ top)
include hsize hfour ht hlow hle hfin

/-- Four samples through both transforms: everything stays finite, and every sample comes back within 1e-5 of `top`. -/
theorem hw_four :
    let E := p.env
    let z := E.net E.twTable E.brTable false (t.map fun x => ⟨x, 0⟩)
    let y := E.inv E.twTable E.brTable z
    (∀ k, k < 4 → FiniteCx (E.cat_ z k)) ∧ ∀ k, k < 4 → FiniteCx (E.cat_ y k) ∧
      |realOf (E.cat_ y k).re - realOf (t.getD k 0)| ≤ top / 100000 := by
  intro E z y
  have hE : E.num = hwNum := rfl
  have htop : 0 ≤ top := le_trans (by positivity) hlow
  let X := exactEnv 4 0 0
  have hX : X.num = exactNum := rfl
  have hn : E.n = X.n := hfour
  let xs : List (Cx ℝ) := t.map fun w => ⟨realOf w, 0⟩
  have hxs : xs.length = 2 ^ 2 := by simp [xs, ht]
  have hsample {k : ℕ} (hk : k < 4) : X.cat_ xs k = ⟨realOf (t.getD k 0), 0⟩ := by
    rw [cat_of_lt X (by omega), List.getD_eq_getElem _ _ (by omega)]
    simp [xs]
  have hstart : ∀ k, NearCx (stageSize top 0) (stageError top 0) (E.cat_ (t.map fun x => ⟨x, 0⟩) k) (X.cat_ xs k) := by
    refine nearCx_cat hE hX hn (stageSize_nonneg htop) (stageError_nonneg htop) (by rw [List.length_map, ht, ← hfour])
      hxs fun k hk => ?_
    have hk4 : k < 4 := hfour ▸ hk
    obtain ⟨hfinite, hbound⟩ := hfin (t.getD k 0) (by
      rw [List.getD_eq_getElem _ _ (by omega)]
      exact List.getElem_mem _)
    have hword : E.cat_ (t.map fun x => ⟨x, 0⟩) k = ⟨t.getD k 0, 0⟩ := by
      rw [cat_of_lt E (by rw [List.length_map]; omega), List.getD_eq_getElem _ _ (by omega)]
      simp
    rw [hword, hsample hk4]
    refine ⟨⟨hfinite, ?_, ?_⟩, (near_of_hasFix (t := stageSize top 0) hasFix_zero (by simp) ?_).mono le_rfl
      (stageError_nonneg htop)⟩
    · rw [sub_self, abs_zero]
      exact stageError_nonneg htop
    · simpa [stageSize] using hbound
    · rw [abs_zero]
      exact stageSize_nonneg htop
  have hforward := nearCx_net hE hX hn htop hle (inv := false)
    (fun half i => unitCx_stageTwiddle hsize hfour 0 0 false half i) hfour (by omega) hstart
  have hinverse := nearCx_net hE hX hn htop hle (inv := true)
    (fun half i => unitCx_stageTwiddle hsize hfour 0 0 true half i) hfour (by omega) hforward
  refine ⟨fun k _ => ⟨(hforward k).1.1, (hforward k).2.1⟩, fun k hk => ?_⟩
  have hexact : X.cat_ (X.net X.twTable X.brTable true (X.net X.twTable X.brTable false xs)) k =
      ⟨4 * realOf (t.getD k 0), 0⟩ := by
    have hround : X.inv X.twTable X.brTable (X.net X.twTable X.brTable false xs) = xs := inv_net (m := 2) 0 0 hxs
    have hscaled := cat_inv X X.twTable (X.net X.twTable X.brTable false xs) X.brTable hk
    have hquarter : X.num.div X.one (X.nat X.n) = 1 / 4 := by simp [X, exactEnv, exactNum, Env.one, Env.nat]
    rw [hround, hsample hk, hquarter] at hscaled
    generalize X.cat_ (X.net X.twTable X.brTable true (X.net X.twTable X.brTable false xs)) k = u at hscaled ⊢
    obtain ⟨re, im⟩ := u
    obtain ⟨hre, him⟩ := Cx.mk.inj hscaled
    have hre' : realOf (t.getD k 0) = 1 / 4 * re := hre
    have him' : 0 = 1 / 4 * im := him
    exact congrArg₂ Cx.mk (by linarith) (by linarith)
  have hbound : |4 * realOf (t.getD k 0)| ≤ 4 * top := by
    have hmem : t.getD k 0 ∈ t := by
      rw [List.getD_eq_getElem _ _ (by omega)]
      exact List.getElem_mem _
    rw [abs_mul, abs_of_pos (by norm_num : (0 : ℝ) < 4)]
    linarith [(hfin _ hmem).2]
  obtain ⟨⟨hre, hreNear, -⟩, him⟩ := hinverse k
  rw [hexact] at hreNear him
  have hscale : HasFix (E.num.div E.one (E.nat E.n)) (2 ^ 147) := by
    have hfix : HasFix (f32Div 0x3F800000 (f32OfInt ((2 ^ 2 : ℕ) : ℤ))) (2 ^ 147) := hasFix_scale (m := 2) (by omega)
    rw [show E.one = 0x3F800000 from env_one p, Env.nat, show E.n = 2 ^ 2 from hfour, hE, hwNum_div, hwNum_ofInt]
    exact hfix
  have hreal := near_quarter hscale (⟨hre, hreNear, hbound⟩ : Near (4 * top) (stageError top 4) _ _) (B := 107)
    (by linarith [stageError_four_le htop]) (by omega)
  have himag := near_quarter hscale him (B := 107)
    (by linarith [stageError_four_le htop, show stageSize top 4 = 81 * top by rw [stageSize]; norm_num]) (by omega)
  rw [cat_inv E _ _ _ (by rw [hfour]; exact hk)]
  refine ⟨⟨hreal.1, himag.1⟩, ?_⟩
  have hfinal := hreal.2.trans (four_error_le hlow)
  rwa [mul_div_cancel_left₀ _ (by norm_num)] at hfinal

end

section
variable {s : State} (hidle : s.inFlight = none) (hconf : s.csr.Configured) (htag : s.csr.tags.t = s.csr.active.n)
  (htw : s.complexes twBase (s.csr.env.n / 2) = s.csr.env.twTable)
  (hbr : s.words brBase s.csr.env.n = natWords s.csr.env.brTable)
include hidle hconf htag htw hbr

/-- On the hardware four samples of size up to `top` come back within 1e-5 of it (R160, R326 a). -/
theorem hw_four_roundTrip {top : ℝ} (hfour : s.csr.env.n = 4) (hlow : (2 : ℝ)⁻¹ ^ 100 ≤ top) (hle : top ≤ 2 ^ 100)
    (ht : ∀ k, k < 4 → f32Finite (s.word (tBase + k)) = true ∧ |realOf (s.word (tBase + k))| ≤ top) :
    ∃ a b, exec .fftf s = .next a ∧ exec .ffti a = .next b ∧
      ∀ k, k < 4 → |realOf (b.word (tBase + k)) - realOf (s.word (tBase + k))| ≤ top / 100000 := by
  have hsamples : ∀ w ∈ s.words tBase s.csr.env.n, f32Finite w = true ∧ |realOf w| ≤ top := by
    intro w hw
    obtain ⟨k, hk, rfl⟩ := List.mem_map.1 hw
    exact ht k (hfour ▸ List.mem_range.1 hk)
  obtain ⟨hz, hy⟩ := hw_four hconf.legal.size hfour (by rw [length_words, hfour]) hlow hle hsamples
  obtain ⟨a, b, hfftf, hffti, hback⟩ := hw_roundTrip hidle hconf htag htw hbr
    (fun w hw => (hsamples w hw).1)
    (allFinite_of_cat ((length_net _ _ _ _ _).trans hfour) hz)
    (allFinite_of_cat ((length_inv _ _ _ _).trans hfour) fun k hk => (hy k hk).1)
  refine ⟨a, b, hfftf, hffti, fun k hk => ?_⟩
  have herror := (hy k hk).2
  rwa [getD_words s _ _ _ _ (by rw [hfour]; exact hk), ← hback k (by rw [hfour]; exact hk)] at herror

end

/-- Settles O49: Fourier inversion in the exact reals, and from it the tolerance contract and the machine that keeps exact reals; on
the hardware the values of an impulse are exact at every stage, and for N = 4 the error of every stage is bounded. -/
theorem inverseUndoesForward : Obligations.InverseUndoesForward := by
  unfold Obligations.InverseUndoesForward
  refine ⟨fun m hop fs x hx => inv_net hop fs hx, exactNum_meetsTolerance,
    fun x hidle hconf htag => exact_roundTrip hidle hconf htag,
    fun p hsize => twiddle_quarters hsize, ?_⟩
  intro s hidle hconf htag n htw hbr
  refine ⟨fun c hc ht => ?_, fun top hfour hlow hle ht => ?_⟩
  · exact hw_impulse_roundTrip hidle hconf htag htw hbr hc ht
  · exact hw_four_roundTrip hidle hconf htag htw hbr hfour hlow hle ht

end Sys2Proof.Machine

/-! SUPPORT. The statements of the STFT chapter (spec/42_stft.md): the converters POLAR and RECT (R186, R188), and STFTF and STFTI
as the sequences of the commands that they stand for (R191, R193). -/

namespace Sys2Proof.Machine

/-! ### Frames and spectra in storage (R73) -/

section
variable {s : State} {a n : Nat}

theorem allFinite_complexes : allFinite (cxWords (s.complexes a n)) ↔
    ∀ k, k < n → f32Finite (s.word (a + 2 * k)) = true ∧ f32Finite (s.word (a + 2 * k + 1)) = true := by
  simp [allFinite_cxWords, State.complexes]

/-! Setting a tag changes no word. -/

theorem setZLen_words (v : Nat) : (s.setZLen v).words a n = s.words a n := rfl
theorem setTLen_words (v : Nat) : (s.setTLen v).words a n = s.words a n := rfl
theorem setZLen_complexes (v : Nat) : (s.setZLen v).complexes a n = s.complexes a n := rfl
theorem setTLen_complexes (v : Nat) : (s.setTLen v).complexes a n = s.complexes a n := rfl

theorem complexes_putWords_outside {b : Nat} {ws : List Word} (h : a + 2 * n ≤ b ∨ b + ws.length ≤ a) :
    (s.putWords b ws).complexes a n = s.complexes a n :=
  complexes_congr fun i hi => putWords_word_outside s b ws (a + i) (by omega)

theorem nats_putWords_outside {b : Nat} {ws : List Word} (h : a + n ≤ b ∨ b + ws.length ≤ a) :
    (s.putWords b ws).nats a n = s.nats a n := congrArg _ (words_putWords_outside h)

/-- A frame just stored is read back (R73). -/
theorem frame_of_putFrame {r : SReg} {bs : List (Bin Word)} (hl : bs.length = n) : (s.putFrame r bs).frame r n = bs := by
  subst hl
  refine List.ext_getElem (length_frame _ _ _) fun k _ hk => ?_
  obtain ⟨hmag, hph⟩ := putFrame_word s r bs k hk
  simp [State.frame, hmag, hph]

variable (E : Env Word)

theorem cat_complexes {k : Nat} (hk : k < n) : E.cat_ (s.complexes a n) k = ⟨s.word (a + 2 * k), s.word (a + 2 * k + 1)⟩ :=
  getD_tabulate _ _ _ k hk

theorem binAt_frame (r : SReg) {k : Nat} (hk : k < n) : E.binAt (s.frame r n) k = ⟨s.mag r k, s.ph r k⟩ :=
  getD_tabulate _ _ _ k hk

end

/-- The `B` bins of an analysis frame are among the `N` of the spectrum (R7, R133). -/
theorem Csrs.Configured.bins_le {c : Csrs} (h : c.Configured) : c.env.bins ≤ c.env.n := by
  have hsize := h.legal.size
  simp only [sizeOk, Bool.and_eq_true, decide_eq_true_eq] at hsize
  have hfour : 4 ≤ c.active.n.toNat := hsize.2.1
  rw [env_bins, env_n]
  omega

/-! ### The converters and the window on the hardware, entry by entry (R161, R186, R188) -/

/-- R186 for bin `k` of a spectrum in storage. -/
theorem polarFrame_getElem (p : Csrs) (s : State) (a : Nat) {k : Nat} (hk : k < p.env.bins)
    (hlen : k < (p.env.polarFrame (s.complexes a p.env.bins)).length) :
    (p.env.polarFrame (s.complexes a p.env.bins))[k] =
      ⟨f32Sqrt (f32Add (f32Mul (s.word (a + 2 * k)) (s.word (a + 2 * k)))
        (f32Mul (s.word (a + 2 * k + 1)) (s.word (a + 2 * k + 1)))),
       f32Arg (s.word (a + 2 * k)) (s.word (a + 2 * k + 1))⟩ := by
  simp only [Env.polarFrame, getElem_tabulate, cat_complexes p.env hk]
  rfl

/-- The bins of an analysis frame are all that POLAR reads of a spectrum. -/
theorem polarFrame_complexes {E : Env Word} (s : State) (a : Nat) (h : E.bins ≤ E.n) :
    E.polarFrame (s.complexes a E.bins) = E.polarFrame (s.complexes a E.n) :=
  List.map_congr_left fun k hk => by
    have hk := List.mem_range.1 hk
    rw [cat_complexes E hk, cat_complexes E (hk.trans_le h)]

/-- R188 for a bin in storage. -/
theorem rectBin_frame (p : Csrs) (s : State) (r : SReg) {k : Nat} (hk : k < p.env.bins) :
    p.env.rectBin (p.env.binAt (s.frame r p.env.bins) k) =
      ⟨f32Mul (s.mag r k) (f32Cos (s.ph r k)), f32Mul (s.mag r k) (f32Sin (s.ph r k))⟩ := by
  rw [binAt_frame p.env r hk]
  rfl

section
variable {R : Type} (E : Env R) {k : Nat}

/-- The bins of the frame stand first in its spectrum (R188). -/
theorem rectFrame_getElem_low (frame : List (Bin R)) (hk : k < E.bins) (hlen : k < (E.rectFrame frame).length) :
    (E.rectFrame frame)[k] = E.rectBin (E.binAt frame k) := by
  simp only [Env.rectFrame, getElem_tabulate, if_pos hk]

/-- The mirrored bin of bin `k` is its conjugate (R188). -/
theorem rectFrame_getElem_mirror (frame : List (Bin R)) (hk : k + 2 ≤ E.bins)
    (hlen : E.n - k < (E.rectFrame frame).length) :
    (E.rectFrame frame)[E.n - k] = E.conj (E.rectBin (E.binAt frame k)) := by
  have hbins : E.bins = E.n / 2 + 1 := rfl
  have hhigh : ¬E.n - k < E.bins := by omega
  simp only [Env.rectFrame, getElem_tabulate, if_neg hhigh, Nat.sub_sub_self (show k ≤ E.n by omega)]

/-- Every entry of the spectrum is a bin of the frame or the conjugate of one (R188). -/
theorem mem_rectFrame {frame : List (Bin R)} {z : Cx R} (h : z ∈ E.rectFrame frame) :
    ∃ k, k < E.bins ∧ (z = E.rectBin (E.binAt frame k) ∨ z = E.conj (E.rectBin (E.binAt frame k))) := by
  have hbins : E.bins = E.n / 2 + 1 := rfl
  obtain ⟨p, hp, rfl⟩ := (mem_tabulate _ _ _).1 h
  split
  · next hlow => exact ⟨p, hlow, .inl rfl⟩
  · exact ⟨E.n - p, by omega, .inr rfl⟩

end

theorem f32Sub_zero_finite {w : Word} (h : f32Finite w = true) : f32Finite (f32Sub 0 w) = true :=
  (HasFix.neg (w := w) ⟨h, rfl⟩).1

theorem applyWindow_eq_zipWith {R : Type} (E : Env R) {t win : List R} (ht : t.length = E.n) (hwin : win.length = E.n) :
    E.applyWindow t win = List.zipWith E.num.mul t win := by
  refine List.ext_getElem (by simp [ht, hwin]) fun k hk _ => ?_
  rw [length_applyWindow] at hk
  simp [Env.applyWindow, Env.at_, ht, hwin, hk]

/-! ### POLAR and RECT (R186, R188) -/

section
variable {p : Csrs} {par : Params} {rate : Word → Bool} (h : p.Configured)
include h

theorem issueFault_polar_none (rd : SReg) (hz : p.tags.z = p.active.n) : p.issueFault (.polar rd) par rate = none :=
  (configured_none h.ok _ _).trans (checkZ_none hz)

theorem issueFault_stftf_none (rd : SReg) (ht : p.tags.t = p.active.n) : p.issueFault (.stftf rd) par rate = none :=
  (configured_none h.ok _ _).trans (checkT_none ht)

theorem issueFault_rect_none {rs1 : SReg} (hs : p.tags.s[rs1].toNat = p.env.bins) :
    p.issueFault (.rect rs1) par rate = none :=
  (configured_none h.ok _ _).trans (checkS_none hs)

theorem issueFault_stfti_none {rs1 : SReg} (hs : p.tags.s[rs1].toNat = p.env.bins) :
    p.issueFault (.stfti rs1) par rate = none :=
  (configured_none h.ok _ _).trans (checkS_none hs)

end

/-- Settles O34: the effect of POLAR stores modulus and argument, bin by bin. -/
theorem polarConverts : Obligations.PolarConverts := by
  unfold Obligations.PolarConverts
  intro rd s hconf htag bins re im modulus hfin
  have hout {k : Nat} (hk : k < bins) := polarFrame_getElem s.params s zBase hk (by rwa [length_polarFrame])
  have hexec := exec_completes_hw (issueFault_polar_none hconf rd htag) (polarEffect_spc s.params s rd) (by
    refine allFinite_append.2 ⟨allFinite_complexes.2 fun k hk => ⟨(hfin k hk).1, (hfin k hk).2.1⟩,
      allFinite_binWords.2 fun b hb => ?_⟩
    obtain ⟨k, hk, rfl⟩ := List.mem_iff_getElem.1 hb
    rw [length_polarFrame] at hk
    rw [hout hk]
    exact (hfin k hk).2.2)
  have hblocks : SameBytesOutside [frameBlock rd bins] s.mem (effectOf (.polar rd) s.params s).after.mem :=
    polarEffect_inBlocks _ _ rd
  have hfinished := (polarEffect_uniform s.params rd).finished (s := s)
  rw [show effectOf (.polar rd) s.params s = _ from polarEffect_spc s.params s rd] at hblocks hfinished
  refine ⟨_, hexec, fun k hk => ?_, hblocks, rfl, hfinished⟩
  obtain ⟨hmag, hph⟩ := putFrame_word s rd (s.params.env.polarFrame (s.complexes zBase bins)) k
    ((length_polarFrame _ _).symm ▸ hk)
  rw [hout hk] at hmag hph
  exact ⟨hmag, hph⟩

/-- Settles O35: the effect of RECT stores the bins of the frame, and behind them their conjugates mirrored. -/
theorem rectConverts : Obligations.RectConverts := by
  unfold Obligations.RectConverts
  intro rs1 s hconf n bins re im htag hfin
  have hbin {k : Nat} (hk : k < bins) : _ = (⟨re k, im k⟩ : Cx Word) := rectBin_frame s.params s rs1 hk
  have hlen := length_rectFrame s.params.env (s.frame rs1 bins)
  have hexec := exec_completes_hw (issueFault_rect_none hconf htag) (rectEffect_spc s.params s rs1) (by
    refine allFinite_append.2 ⟨allFinite_frame.2 fun k hk => ⟨(hfin k hk).1, (hfin k hk).2.1⟩,
      allFinite_cxWords.2 fun z hz => ?_⟩
    obtain ⟨k, hk, rfl | rfl⟩ := mem_rectFrame _ hz <;> rw [hbin hk]
    · exact (hfin k hk).2.2
    · exact ⟨(hfin k hk).2.2.1, by rw [Env.conj, neg_hw rfl]; exact f32Sub_zero_finite (hfin k hk).2.2.2⟩)
  have hblocks : SameBytesOutside [⟨zBase, 2 * n⟩] s.mem (effectOf (.rect rs1) s.params s).after.mem :=
    rectEffect_inBlocks _ _ rs1
  have hfinished := (rectEffect_uniform s.params rs1).finished (s := s)
  rw [show effectOf (.rect rs1) s.params s = _ from rectEffect_spc s.params s rs1] at hblocks hfinished
  have hstored {k : Nat} (hk : k < n) := putComplexes_word s zBase (s.params.env.rectFrame (s.frame rs1 bins)) k
    (hlen.symm ▸ hk)
  refine ⟨_, hexec, fun k hk => ?_, fun k hlow hhigh => ?_, hblocks, rfl, hfinished⟩
  · have hentry := hstored (hk.trans_le hconf.bins_le)
    rwa [rectFrame_getElem_low _ _ hk, hbin hk] at hentry
  · have hbins : bins = n / 2 + 1 := rfl
    have hentry := hstored (show n - k < n by omega)
    rw [rectFrame_getElem_mirror _ _ hhigh, hbin (by omega), Env.conj, neg_hw rfl] at hentry
    exact hentry

/-! ### A command as a stage of a longer one (R191, R193)

A stage works on a state `w` in the middle of a sequence. Run by itself, the command starts from the completion of `w`, where
`DONE` is pending and `BUSY` is 0. An effect that does not look at either leaves the same completed state from both. -/

/-- A change of the control registers that goes on alike whether `DONE` is pending or not. -/
def KeepsDone (g : State → Csrs → Csrs) : Prop :=
  ∀ s c, { g s { c with ipDone := true } with ipDone := true } = ({ g s c with ipDone := true } : Csrs)

/-- A uniform effect that does not look at `DONE`. -/
def DoneBlind (e : State → Effect Word State) : Prop := ∃ g, KeepsDone g ∧ UniformEffect e g

theorem UniformEffect.doneBlind {e : State → Effect Word State} {g : State → Csrs → Csrs} (h : UniformEffect e g)
    (hg : KeepsDone g := by exact fun _ _ => rfl) : DoneBlind e := ⟨g, hg, h⟩

/-- On a completed state such an effect handles the same words, and completing it gives the same state. -/
theorem DoneBlind.complete {e : State → Effect Word State} (h : DoneBlind e) {w v : State} {ws : List Word}
    (hw : e w = hwEffect ws v) : ∃ u, e w.complete = hwEffect ws u ∧ u.complete = v.complete := by
  obtain ⟨g, hg, h⟩ := h
  have hplain : e w = ⟨(e w).data, { w with csr := g w w.csr, mem := (e w).after.mem, delay := (e w).after.delay }⟩ := h w w
  have hdone : e w.complete = ⟨(e w).data,
      { w.complete with csr := g w w.complete.csr, mem := (e w).after.mem, delay := (e w).after.delay }⟩ := h w w.complete
  obtain ⟨-, hv⟩ := Effect.mk.inj (hw.symm.trans hplain)
  refine ⟨_, hdone.trans (by rw [hw]; rfl), ?_⟩
  rw [hv]
  exact congrArg (fun c => ({ w with
    inFlight := none, csr := c, mem := (e w).after.mem, delay := (e w).after.delay } : State)) (hg w w.csr)

/-- Command `i` leads from `w` to `v` as a stage in the environment `E`: its checks pass, the words it handles are finite, and its
effect does not look at `DONE`. -/
structure Stage (E : Env Word) (i : Instr) (w v : State) : Prop where
  check : w.complete.csr.issueFault i = none
  env : w.csr.env = E
  blind : ∀ q, DoneBlind (effectOf i q)
  effect : ∃ ws, allFinite ws ∧ ∀ q : Csrs, q.env = E → effectOf i q w = hwEffect ws v

/-- The checks of a command do not look at `DONE` (R101). -/
theorem issueFault_done (c : Csrs) (i : Instr) : Csrs.issueFault { c with ipDone := true } i = c.issueFault i := by
  cases i <;> rfl

section
variable {E : Env Word} {i j k l : Instr} {s w v t : State}

/-- A stage as a command of its own, after the stage before it. -/
theorem Stage.exec (h : Stage E i w v) : exec i w.complete = .next v.complete := by
  obtain ⟨ws, hfin, heffect⟩ := h.effect
  obtain ⟨u, hu, hcomplete⟩ := (h.blind w.complete.csr).complete (heffect _ h.env)
  exact hcomplete ▸ exec_completes_hw h.check hu hfin

/-- The first stage as a command of its own. -/
theorem Stage.exec_idle (h : Stage E i s v) (hidle : s.inFlight = none) : Machine.exec i s = .next v.complete := by
  obtain ⟨ws, hfin, heffect⟩ := h.effect
  have hcheck : s.csr.issueFault i = none := (issueFault_done s.csr i).symm.trans h.check
  rw [← params_of_idle hidle] at hcheck
  exact exec_completes_hw hcheck (heffect _ (by rw [params_of_idle hidle]; exact h.env)) hfin

/-- A command made of three stages completes, and so do the stages as commands one after the other, in the same state. -/
theorem Stage.exec_three (hidle : s.inFlight = none) (h₁ : Stage E i s w) (h₂ : Stage E j w v) (h₃ : Stage E k v t)
    (hcheck : s.csr.issueFault l = none)
    (hsplit : effectOf l s.csr s = ((effectOf i s.csr s).andThen (effectOf j s.csr)).andThen (effectOf k s.csr)) :
    Machine.exec i s = .next w.complete ∧ Machine.exec j w.complete = .next v.complete ∧
      Machine.exec k v.complete = .next t.complete ∧ Machine.exec l s = .next t.complete := by
  refine ⟨h₁.exec_idle hidle, h₂.exec, h₃.exec, ?_⟩
  obtain ⟨ws₁, hfin₁, heffect₁⟩ := h₁.effect
  obtain ⟨ws₂, hfin₂, heffect₂⟩ := h₂.effect
  obtain ⟨ws₃, hfin₃, heffect₃⟩ := h₃.effect
  rw [heffect₁ _ h₁.env, andThen_hw _ _ _ _ _ (heffect₂ _ h₁.env), andThen_hw _ _ _ _ _ (heffect₃ _ h₁.env)] at hsplit
  rw [← params_of_idle hidle] at hcheck hsplit
  exact exec_completes_hw hcheck hsplit (allFinite_append.2 ⟨allFinite_append.2 ⟨hfin₁, hfin₂⟩, hfin₃⟩)

end

/-! ### WIN, FFTF, FFTI, POLAR and RECT as stages -/

/-- Registers with the configuration of a configured machine. -/
theorem Csrs.Configured.of_same {c d : Csrs} (h : c.Configured) (hok : d.cfgOk = c.cfgOk) (hactive : d.active = c.active)
    (hdepth : d.sdDepth = c.sdDepth) (hwr : d.sdWr = c.sdWr) : d.Configured := by
  obtain ⟨hcfg, hsize, hhop, hrate, hlow, hhigh, hindex⟩ := h
  exact ⟨hok.trans hcfg, hactive ▸ hsize, hactive ▸ hhop, hactive ▸ hrate, hdepth ▸ hlow, hdepth ▸ hhigh,
    by rw [hdepth, hwr]; exact hindex⟩

theorem setZLen_csr_eq (s : State) (v : Nat) : (s.setZLen v).csr = s.csr.withZLen v := rfl
theorem setTLen_csr_eq (s : State) (v : Nat) : (s.setTLen v).csr = s.csr.withTLen v := rfl
theorem putComplexes_csr (s : State) (a : Nat) (zs : List (Cx Word)) : (s.putComplexes a zs).csr = s.csr := rfl

theorem withZLen_withZLen (c : Csrs) (v : Nat) : (c.withZLen v).withZLen v = c.withZLen v := rfl

theorem withTLen_tag (c : Csrs) : (c.withTLen c.active.n.toNat).tags.t = c.active.n :=
  (BitVec.ofNat_toNat _ _).trans (BitVec.setWidth_eq _)

/-- The tags are no part of the configuration. -/
theorem env_withZLen (c : Csrs) (v : Nat) : (c.withZLen v).env = c.env := rfl
theorem env_withTLen (c : Csrs) (v : Nat) : (c.withTLen v).env = c.env := rfl

/-- The state `w` with what FFTI stores for the inverse transform `y` of `n` entries, and both tags set (R166). -/
def State.withInverse (w : State) (y : List (Cx Word)) (n : Nat) : State :=
  (((w.putComplexes zBase y).putWords tBase (y.map Cx.re)).setZLen n).setTLen n

section
variable {w : State} {y : List (Cx Word)} {n : Nat}

theorem withInverse_csr : (w.withInverse y n).csr = (w.csr.withZLen n).withTLen n := by
  rw [State.withInverse, setTLen_csr_eq, setZLen_csr_eq, putWords_csr, putComplexes_csr]

variable (hy : y.length = n) (hn : n ≤ 4096)
include hy

theorem withInverse_samples : (w.withInverse y n).words tBase n = y.map Cx.re := by
  rw [State.withInverse, setTLen_words, setZLen_words]
  exact words_putWords (by rw [List.length_map, hy])

include hn

/-- The samples in `T` lie below the spectrum in `Z` (R73). -/
theorem withInverse_spectrum : (w.withInverse y n).complexes zBase n = y := by
  have hapart : tBase + (y.map Cx.re).length ≤ zBase := by
    rw [List.length_map]
    simp only [tBase, zBase]
    omega
  rw [State.withInverse, setTLen_complexes, setZLen_complexes, complexes_putWords_outside (.inr hapart)]
  exact complexes_of_putComplexes hy

/-- The window table lies above both (R73). -/
theorem withInverse_window : (w.withInverse y n).words winBase n = w.words winBase n := by
  have hspectrum : zBase + (cxWords y).length ≤ winBase := by
    rw [length_cxWords]
    simp only [zBase, winBase]
    omega
  have hsamples : tBase + (y.map Cx.re).length ≤ winBase := by
    rw [List.length_map]
    simp only [tBase, winBase]
    omega
  rw [State.withInverse, setTLen_words, setZLen_words, words_putWords_outside (.inr hsamples)]
  exact words_putWords_outside (.inr hspectrum)

end

section
variable {E : Env Word} {w : State} (henv : w.csr.env = E)
include henv

theorem stage_win (hcheck : w.complete.csr.issueFault .win = none) {t win : List Word} (ht : w.words tBase E.n = t)
    (hwin : w.words winBase E.n = win) (htFinite : allFinite t) (hwinFinite : allFinite win)
    (hx : allFinite (List.zipWith f32Mul t win)) :
    Stage E .win w (w.putWords tBase (List.zipWith f32Mul t win)) := by
  subst ht hwin
  refine ⟨hcheck, henv, fun q => (winEffect_uniform q).doneBlind, _,
    allFinite_append.2 ⟨allFinite_append.2 ⟨htFinite, hwinFinite⟩, hx⟩, ?_⟩
  rintro q rfl
  have hout := applyWindow_eq_zipWith q.env (length_words w tBase _) (length_words w winBase _)
  exact (winEffect_spc q w).trans (by rw [hout]; rfl)

theorem stage_fftf (hcheck : w.complete.csr.issueFault .fftf = none) {t : List Word} (ht : w.words tBase E.n = t)
    {tw : List (Cx Word)} (htw : w.complexes twBase (E.n / 2) = tw) {br : List Nat} (hbr : w.nats brBase E.n = br)
    (htFinite : allFinite t) (htwFinite : allFinite (cxWords tw))
    (hz : allFinite (cxWords (E.net tw br false (t.map fun y => ⟨y, 0⟩)))) :
    Stage E .fftf w ((w.putComplexes zBase (E.net tw br false (t.map fun y => ⟨y, 0⟩))).setZLen E.n) := by
  subst ht htw hbr
  refine ⟨hcheck, henv, fun q => (fftfEffect_uniform q).doneBlind, _,
    allFinite_append.2 ⟨allFinite_append.2 ⟨htFinite, htwFinite⟩, hz⟩, ?_⟩
  rintro q rfl
  have hout := fwd_eq_net q.env (w.complexes twBase (q.env.n / 2)) (w.nats brBase q.env.n) (length_words w tBase _)
  rw [env_zero] at hout
  exact (fftfEffect_spc q w).trans (by dsimp only; rw [hout])

theorem stage_ffti (hcheck : w.complete.csr.issueFault .ffti = none) {z : List (Cx Word)}
    (hz : w.complexes zBase E.n = z) {tw : List (Cx Word)} (htw : w.complexes twBase (E.n / 2) = tw) {br : List Nat}
    (hbr : w.nats brBase E.n = br) (hzFinite : allFinite (cxWords z)) (htwFinite : allFinite (cxWords tw))
    (hy : allFinite (cxWords (E.inv tw br z))) :
    Stage E .ffti w (w.withInverse (E.inv tw br z) E.n) := by
  subst hz htw hbr
  refine ⟨hcheck, henv, fun q => (fftiEffect_uniform q).doneBlind, _,
    allFinite_append.2 ⟨allFinite_append.2 ⟨hzFinite, htwFinite⟩, hy⟩, ?_⟩
  rintro q rfl
  exact fftiEffect_spc q w

theorem stage_polar (rd : SReg) (hcheck : w.complete.csr.issueFault (.polar rd) = none) (hle : E.bins ≤ E.n)
    {z : List (Cx Word)} (hz : w.complexes zBase E.n = z) (hzFinite : allFinite (cxWords z))
    (hframe : allFinite (binWords (E.polarFrame z))) :
    Stage E (.polar rd) w ((w.putFrame rd (E.polarFrame z)).setSLen rd E.bins) := by
  subst hz
  have hbins : allFinite (cxWords (w.complexes zBase E.bins)) :=
    allFinite_complexes.2 fun k hk => allFinite_complexes.1 hzFinite k (hk.trans_le hle)
  refine ⟨hcheck, henv, fun q => (polarEffect_uniform q rd).doneBlind, _, allFinite_append.2 ⟨hbins, hframe⟩, ?_⟩
  rintro q rfl
  exact (polarEffect_spc q w rd).trans (by rw [polarFrame_complexes w zBase hle])

theorem stage_rect (rs1 : SReg) (hcheck : w.complete.csr.issueFault (.rect rs1) = none)
    (hframe : allFinite (binWords (w.frame rs1 E.bins)))
    (hz : allFinite (cxWords (E.rectFrame (w.frame rs1 E.bins)))) :
    Stage E (.rect rs1) w ((w.putComplexes zBase (E.rectFrame (w.frame rs1 E.bins))).setZLen E.n) := by
  refine ⟨hcheck, henv, fun q => (rectEffect_uniform q rs1).doneBlind, _, allFinite_append.2 ⟨hframe, hz⟩, ?_⟩
  rintro q rfl
  exact rectEffect_spc q w rs1

end

/-! ### STFTF and STFTI (R191, R193) -/

/-- What a command on an idle machine whose checks pass leaves alone, and what of the registers it changes (R80, R85, R351). -/
theorem frame_of_exec {i : Instr} {s t : State} {g : State → Csrs → Csrs} (h : exec i s = .next t)
    (hidle : s.inFlight = none) (hcheck : s.csr.issueFault i = none) (hg : UniformEffect (effectOf i s.csr) g)
    (hreset : ∀ imm3, i ≠ .reset imm3) (hsdl : ∀ rd rs1, i ≠ .sdl rd rs1) (hcfg : i ≠ .cfg) :
    SameBytesOutside (s.csr.writtenBlocks i) s.mem t.mem ∧ t.delay = s.delay ∧ s.Finished t (g s s.csr) := by
  have hblocks := commandsWriteOnlyTheirBlocks i s t h
  obtain ⟨-, -, -, -, -, -, -, -, -, hdelay⟩ := commandsKeepConfiguration i s t h
  have hcases := exec_cases h
  rw [params_of_idle hidle] at hblocks hcases
  refine ⟨hblocks, hdelay hreset hsdl hcfg, ?_⟩
  obtain ⟨f, hfault, -⟩ | ⟨-, -, rfl⟩ := hcases
  · rw [hcheck] at hfault
    cases hfault
  · exact hg.finished

theorem stftfEffect_uniform (p : Csrs) (rd : SReg) :
    UniformEffect (effectOf (.stftf rd) p) fun _ c => (c.withZLen p.env.n).withSLen rd p.env.bins :=
  ((winEffect_uniform p).andThen (fftfEffect_uniform p)).andThen (polarEffect_uniform p rd)

/-- RECT and FFTI set the same tag. -/
theorem stftiEffect_uniform (p : Csrs) (rs1 : SReg) :
    UniformEffect (effectOf (.stfti rs1) p) fun _ c => (c.withZLen p.env.n).withTLen p.env.n :=
  ((rectEffect_uniform p rs1).andThen (fftiEffect_uniform p)).andThen (winEffect_uniform p)

/-- Settles O36: WIN, FFTF and POLAR are stages, of which none writes a table that a later one reads or the result of an
earlier one. -/
theorem stftfIsSequence : Obligations.StftfIsSequence := by
  unfold Obligations.StftfIsSequence
  intro rd s hidle hconf htag E tw x z ht hwin hx htw hz hframe
  have hsize : E.n ≤ 4096 := hconf.size_le
  have hxlen : x.length = E.n := by simp [x]
  have htimeSpectrum : tBase + E.n ≤ zBase := by simp only [tBase, zBase]; omega
  have hspectrumFrame : zBase + 2 * E.n ≤ sBase rd := by simp only [zBase, sBase]; omega
  let afterWin := s.putWords tBase x
  let afterFftf := (afterWin.putComplexes zBase z).setZLen E.n
  let afterPolar := (afterFftf.putFrame rd (E.polarFrame z)).setSLen rd E.bins
  have hwinStage : Stage E .win s afterWin :=
    stage_win rfl ((issueFault_done _ _).trans (issueFault_win_none hconf htag)) rfl rfl ht hwin hx
  have hfftfStage : Stage E .fftf afterWin afterFftf :=
    stage_fftf (w := afterWin) rfl ((issueFault_done _ _).trans (issueFault_fftf_none hconf htag)) (words_putWords hxlen)
      (complexes_putWords_outside (.inr (by rw [hxlen]; simp only [tBase, twBase]; omega)))
      (nats_putWords_outside (.inr (by rw [hxlen]; simp only [tBase, brBase]; omega))) hx htw hz
  have hspectrum : afterFftf.complexes zBase E.n = z := by
    rw [setZLen_complexes]
    exact complexes_of_putComplexes (length_net E _ _ _ _)
  have hpolarStage : Stage E (.polar rd) afterFftf afterPolar :=
    stage_polar (w := afterFftf) rfl rd (issueFault_polar_none (hconf.withZLen E.n) rd (withZLen_tag s.csr))
      hconf.bins_le hspectrum hz hframe
  have hcheck : s.csr.issueFault (.stftf rd) = none := issueFault_stftf_none hconf rd htag
  obtain ⟨hexecWin, hexecFftf, hexecPolar, hexec⟩ :=
    Stage.exec_three (l := .stftf rd) hidle hwinStage hfftfStage hpolarStage hcheck rfl
  obtain ⟨hblocks, hdelay, hfinished⟩ :=
    frame_of_exec hexec hidle hcheck (stftfEffect_uniform s.csr rd) (by simp) (by simp) (by simp)
  have htime : afterPolar.words tBase E.n = x :=
    calc afterPolar.words tBase E.n
      _ = afterFftf.words tBase E.n := words_putWords_outside (.inl (by omega))
      _ = afterWin.words tBase E.n := words_putWords_outside (.inl htimeSpectrum)
      _ = x := words_putWords hxlen
  have hkept : afterPolar.complexes zBase E.n = z :=
    (complexes_putWords_outside (s := afterFftf) (.inl hspectrumFrame)).trans hspectrum
  have hpolar : afterPolar.frame rd E.bins = E.polarFrame z := frame_of_putFrame (s := afterFftf) (length_polarFrame E z)
  exact ⟨afterWin.complete, afterFftf.complete, afterPolar.complete, hexecWin, hexecFftf, hexecPolar, hexec, htime, hkept,
    hpolar, hblocks, hdelay, hfinished⟩

/-- Settles O37: RECT, FFTI and WIN are stages, of which none writes a table that a later one reads; RECT leaves the spectrum
that FFTI reads, and FFTI the samples that WIN reads. -/
theorem stftiIsSequence : Obligations.StftiIsSequence := by
  unfold Obligations.StftiIsSequence
  intro rs1 s hidle hconf E htag tw z y x hframe hz htw hy hwin hx
  have hsize : E.n ≤ 4096 := hconf.size_le
  have hzwords : (cxWords z).length = 2 * E.n := by rw [length_cxWords, length_rectFrame E]
  have hylen : y.length = E.n := length_inv E _ _ _
  have hxlen : x.length = E.n := by simp [x, hylen]
  obtain ⟨htimeSpectrum, htwApart, hbrApart, hwinApart⟩ : tBase + E.n ≤ zBase ∧ zBase + 2 * E.n ≤ twBase ∧
      zBase + 2 * E.n ≤ brBase ∧ zBase + 2 * E.n ≤ winBase := by
    simp only [tBase, zBase, twBase, brBase, winBase]; omega
  let afterRect := (s.putComplexes zBase z).setZLen E.n
  let afterFfti := afterRect.withInverse y E.n
  let afterWin := afterFfti.putWords tBase x
  have hrectStage : Stage E (.rect rs1) s afterRect :=
    stage_rect rfl rs1 ((issueFault_done _ _).trans (issueFault_rect_none hconf htag)) hframe hz
  have hfftiStage : Stage E .ffti afterRect afterFfti :=
    stage_ffti (w := afterRect) rfl (issueFault_ffti_none (hconf.withZLen E.n) (withZLen_tag s.csr))
      (complexes_of_putComplexes (length_rectFrame E _))
      (complexes_putWords_outside (.inr (by rw [hzwords]; exact htwApart)))
      (nats_putWords_outside (.inr (by rw [hzwords]; exact hbrApart))) hz htw hy
  have hregisters : afterFfti.csr = (s.csr.withZLen E.n).withTLen E.n := by
    rw [withInverse_csr, setZLen_csr_eq, putComplexes_csr, withZLen_withZLen]
  have hwinCheck : afterFfti.complete.csr.issueFault .win = none := by
    rw [complete_csr, issueFault_done, hregisters]
    exact issueFault_win_none (hconf.of_same rfl rfl rfl rfl) (withTLen_tag (s.csr.withZLen E.n))
  have hwindow : afterFfti.words winBase E.n = s.words winBase E.n := by
    rw [withInverse_window hylen hsize, setZLen_words]
    exact words_putWords_outside (.inr (by rw [hzwords]; exact hwinApart))
  have hsamplesFinite : allFinite (y.map Cx.re) := fun v hv => by
    obtain ⟨entry, hentry, rfl⟩ := List.mem_map.1 hv
    exact (allFinite_cxWords.1 hy entry hentry).1
  have hwinStage : Stage E .win afterFfti afterWin :=
    stage_win (by rw [hregisters, env_withTLen, env_withZLen]) hwinCheck (withInverse_samples hylen) hwindow hsamplesFinite
      hwin hx
  have hcheck : s.csr.issueFault (.stfti rs1) = none := issueFault_stfti_none hconf htag
  obtain ⟨hexecRect, hexecFfti, hexecWin, hexec⟩ :=
    Stage.exec_three (l := .stfti rs1) hidle hrectStage hfftiStage hwinStage hcheck rfl
  obtain ⟨hblocks, hdelay, hfinished⟩ :=
    frame_of_exec hexec hidle hcheck (stftiEffect_uniform s.csr rs1) (by simp) (by simp) (by simp)
  have hspectrum : afterWin.complexes zBase E.n = y :=
    (complexes_putWords_outside (.inr (by rw [hxlen]; exact htimeSpectrum))).trans (withInverse_spectrum hylen hsize)
  have htime : afterWin.words tBase E.n = x := words_putWords (s := afterFfti) hxlen
  exact ⟨afterRect.complete, afterFfti.complete, afterWin.complete, hexecRect, hexecFfti, hexecWin, hexec, hspectrum, htime,
    hblocks, hdelay, hfinished⟩

end Sys2Proof.Machine

/-! SUPPORT. The statements of the phase vocoder chapter (spec/43_phase_vocoder.md): the advance of the synthesis phase in the exact
reals (R210), phase locking (R205, R206), and PV on its first call and on later ones (R201, R203, R204, R207 to R209). -/

namespace Sys2Proof.Machine

/-! ### The advance of the synthesis phase (R210) -/

section
variable (n k : Nat) (hop : Int) (fs shift lph pph sph : ℝ)

/-- `wrap` does not see whole turns (R10). -/
theorem exactWrap_sub_turns (x : ℝ) (turns : ℤ) :
    (exactEnv n hop fs).wrap (x - 2 * Real.pi * turns) = (exactEnv n hop fs).wrap x := by
  rw [exactWrap_eq_toIocMod, exactWrap_eq_toIocMod, mul_comm _ (turns : ℝ), ← zsmul_eq_mul, toIocMod_sub_zsmul]

/-- R207: the deviation is the measured advance less the expected one, up to whole turns. -/
theorem exactDeviation_eq : ∃ turns : ℤ, (exactEnv n hop fs).deviation k lph pph =
    lph - pph - (exactEnv n hop fs).expect k - 2 * Real.pi * turns :=
  ⟨_, exactWrap_eq_sub_ceil n hop fs _⟩

/-- R207, R208: where HOP and FS are not 0, the increment is the expected advance, the deviation from it and the phase of the shift:
the conversion to an instantaneous frequency and back cancels. -/
theorem exactPhaseInc_eq (hhop : 0 < hop) (hfs : 0 < fs) : (exactEnv n hop fs).phaseInc k shift lph pph =
    (exactEnv n hop fs).expect k + (exactEnv n hop fs).deviation k lph pph + 2 * Real.pi * shift * hop / fs := by
  have hpi := Real.pi_pos
  have hhop : (0 : ℝ) < hop := Int.cast_pos.2 hhop
  let f := (exactEnv n hop fs).binfreq k
  let d := (exactEnv n hop fs).deviation k lph pph
  have hturn : (exactEnv n hop fs).twoPi = 2 * Real.pi := congrArg (· * Real.pi) (Int.cast_ofNat 2)
  show (exactEnv n hop fs).twoPi * (f + d * fs / ((exactEnv n hop fs).twoPi * hop) + shift) * hop / fs =
    (exactEnv n hop fs).twoPi * f * hop / fs + d + 2 * Real.pi * shift * hop / fs
  rw [hturn]
  field_simp

end

/-- Settles O51: the expected advance cancels, and what is left of the deviation's `wrap` are whole turns. -/
theorem vocoderLaw : Obligations.VocoderLaw := by
  unfold Obligations.VocoderLaw
  intro n k hop fs shift lph pph sph _ hhop hfs E
  obtain ⟨turns, hdev⟩ := exactDeviation_eq n k hop fs lph pph
  have hadvance : sph + E.phaseInc k shift lph pph =
      sph + lph - pph + 2 * Real.pi * shift * hop / fs - 2 * Real.pi * turns := by
    rw [exactPhaseInc_eq n k hop fs shift lph pph hhop hfs, hdev]
    ring
  calc E.synthPhase k shift lph pph sph
    _ = E.wrap (sph + E.phaseInc k shift lph pph) := rfl
    _ = E.wrap (sph + lph - pph + 2 * Real.pi * shift * hop / fs) := by rw [hadvance, exactWrap_sub_turns]

/-! ### Peaks in the exact reals (R205) -/

section
variable (n : Nat) (hop : Int) (fs : ℝ)

theorem exactMax2_lt_iff {a b c : ℝ} : (exactEnv n hop fs).max2 a b < c ↔ a < c ∧ b < c := by
  have hmax : (exactEnv n hop fs).max2 a b = max a b := by
    rw [max_def_lt]
    simp [Env.max2, exactEnv, exactNum]
  rw [hmax, max_lt_iff]

theorem exactFoldMax_lt_iff {c : ℝ} (xs : List ℝ) : ∀ x : ℝ,
    xs.foldl (exactEnv n hop fs).max2 x < c ↔ x < c ∧ ∀ y ∈ xs, y < c := by
  induction xs with
  | nil => simp
  | cons y ys ih =>
    intro x
    rw [List.foldl_cons, ih, exactMax2_lt_iff, List.forall_mem_cons, and_assoc]

/-- The largest element of a list is below a bound exactly when every element is. -/
theorem exactMaxOf_lt_iff (empty : ℝ) {xs : List ℝ} (hxs : xs ≠ []) {c : ℝ} :
    (exactEnv n hop fs).maxOf empty xs < c ↔ ∀ x ∈ xs, x < c := by
  cases xs with
  | nil => exact absurd rfl hxs
  | cons x xs =>
    rw [List.forall_mem_cons]
    exact exactFoldMax_lt_iff n hop fs xs x

theorem exactPeakFloor_eq : (exactEnv n hop fs).lit Params.spc.peakFloor = 0.01 := by
  show ((1 : ℤ) : ℝ) / (((100 : ℕ) : ℤ) : ℝ) = 0.01
  norm_num

/-- Being above the peak floor times the largest magnitude is being above it times every magnitude. -/
theorem exactPeakFloor_lt_iff {mag : List ℝ} (hlen : mag.length = (exactEnv n hop fs).bins) {c : ℝ} :
    0.01 * (exactEnv n hop fs).maxOf 0 (mag.take (exactEnv n hop fs).bins) < c ↔
      ∀ j, j < (exactEnv n hop fs).bins → 0.01 * mag.getD j 0 < c := by
  have hne : mag ≠ [] := List.ne_nil_of_length_eq_add_one hlen
  have hscale (x : ℝ) : 0.01 * x < c ↔ x < 100 * c := by constructor <;> intro h <;> linarith
  rw [← hlen, List.take_length, hscale, exactMaxOf_lt_iff n hop fs 0 hne, List.forall_mem_iff_getElem]
  refine forall₂_congr fun j hj => ?_
  rw [hscale, List.getD_eq_getElem _ _ hj]

/-- R205: the peak test of the record is that of the rule. -/
theorem exactIsPeak_iff {mag : List ℝ} (hlen : mag.length = (exactEnv n hop fs).bins) (k : Nat) :
    (exactEnv n hop fs).isPeak mag k = true ↔
      1 ≤ k ∧ k + 2 ≤ (exactEnv n hop fs).bins ∧ mag.getD (k - 1) 0 < mag.getD k 0 ∧ mag.getD (k + 1) 0 < mag.getD k 0 ∧
        ∀ j, j < (exactEnv n hop fs).bins → 0.01 * mag.getD j 0 < mag.getD k 0 := by
  have hzero : (exactEnv n hop fs).zero = 0 := Int.cast_zero
  have hlt (a b : ℝ) : (exactEnv n hop fs).num.lt a b = true ↔ a < b := decide_eq_true_iff
  have hfloor : (exactEnv n hop fs).num.mul ((exactEnv n hop fs).lit (exactEnv n hop fs).par.peakFloor)
      ((exactEnv n hop fs).maxOf 0 (mag.take (exactEnv n hop fs).bins)) =
      0.01 * (exactEnv n hop fs).maxOf 0 (mag.take (exactEnv n hop fs).bins) :=
    congrArg (· * _) (exactPeakFloor_eq n hop fs)
  simp only [Env.isPeak, Env.at_, hzero, hfloor, Bool.and_eq_true, hlt, decide_eq_true_eq, exactPeakFloor_lt_iff n hop fs hlen,
    and_assoc]

end

/-! ### The nearest peak (R206) -/

/-- Bin `p` comes before bin `q` in the order of R206 around bin `k`: it is nearer, or as near and not the higher. -/
def Nearer (k p q : Nat) : Prop :=
  ((p : Int) - k).natAbs < ((q : Int) - k).natAbs ∨ (((p : Int) - k).natAbs = ((q : Int) - k).natAbs ∧ p ≤ q)

theorem nearer_refl (k p : Nat) : Nearer k p p := .inr ⟨rfl, le_rfl⟩

/-- The bins at distance `d` from bin `k`, the lower first. -/
def lockRing (k d : Nat) : List Nat := if d = 0 then [k] else if d ≤ k then [k - d, k + d] else [k + d]

theorem lockCandidates_eq (h k : Nat) : lockCandidates h k = (List.range (h + 1)).flatMap (lockRing k) := rfl

theorem mem_lockRing {k d p : Nat} : p ∈ lockRing k d ↔ ((p : Int) - k).natAbs = d := by
  unfold lockRing
  split_ifs <;> simp only [List.mem_cons, List.not_mem_nil, or_false] <;> omega

theorem lockRing_pairwise (k d : Nat) : (lockRing k d).Pairwise (Nearer k) := by
  unfold lockRing
  split_ifs
  · exact List.pairwise_singleton _ _
  · have hnearer : Nearer k (k - d) (k + d) := by unfold Nearer; omega
    exact List.pairwise_pair.2 hnearer
  · exact List.pairwise_singleton _ _

theorem mem_lockCandidates {h k p : Nat} : p ∈ lockCandidates h k ↔ p ≤ k + h ∧ k ≤ p + h := by
  simp only [lockCandidates_eq, List.mem_flatMap, List.mem_range, mem_lockRing]
  constructor
  · rintro ⟨d, hd, hdist⟩
    omega
  · intro hnear
    exact ⟨_, by omega, rfl⟩

/-- The candidates stand in the order of R206: ring after ring, and each ring in order. -/
theorem lockCandidates_pairwise (h k : Nat) : (lockCandidates h k).Pairwise (Nearer k) := by
  rw [lockCandidates_eq, List.pairwise_flatMap]
  refine ⟨fun d _ => lockRing_pairwise k d, List.pairwise_lt_range.imp fun hlt p hp q hq => .inl ?_⟩
  rwa [mem_lockRing.1 hp, mem_lockRing.1 hq]

/-- The first element of an ordered list that passes a test comes before every other that does. -/
theorem find?_first_of_pairwise {A : Type} {r : A → A → Prop} {test : A → Bool} {xs : List A} {a b : A}
    (hrefl : r a a) (hsorted : xs.Pairwise r) (hfind : xs.find? test = some a) (hb : b ∈ xs) (htest : test b = true) :
    r a b := by
  obtain ⟨-, before, after, rfl, hbefore⟩ := List.find?_eq_some_iff_append.1 hfind
  obtain ⟨-, hafter, -⟩ := List.pairwise_append.1 hsorted
  have hlater : ∀ c ∈ after, r a c := (List.pairwise_cons.1 hafter).1
  obtain hb | hb := List.mem_append.1 hb
  · have hfails := hbefore b hb
    simp [htest] at hfails
  · obtain rfl | hb := List.mem_cons.1 hb
    · exact hrefl
    · exact hlater b hb

/-- Settles O52: the peak test is that of R205, and the search for a peak goes through the bins in the order of R206. -/
theorem lockFollowsNearestPeak : Obligations.LockFollowsNearestPeak := by
  unfold Obligations.LockFollowsNearestPeak
  constructor
  · intro n hop fs mag k E m hlen
    exact exactIsPeak_iff n hop fs hlen k
  · intro R num n hop fs mag k E near
    have hnear (p : Nat) : near p ↔ E.isPeak mag p = true ∧ p ∈ lockCandidates 4 k :=
      and_congr_right' mem_lockCandidates.symm
    split
    · next hnone =>
      intro p hp
      obtain ⟨hpeak, hmem⟩ := (hnear p).1 hp
      exact List.find?_eq_none.1 hnone p hmem hpeak
    · next p hsome =>
      refine ⟨(hnear p).2 ⟨List.find?_some hsome, List.mem_of_find?_eq_some hsome⟩, fun q hq => ?_⟩
      obtain ⟨hpeak, hmem⟩ := (hnear q).1 hq
      exact find?_first_of_pairwise (r := Nearer k) (nearer_refl k p) (lockCandidates_pairwise 4 k) hsome hmem hpeak

/-! ### What a PV call stores (R203, R209) -/

/-- The stores of a PV call: the frame of magnitudes `mag` and phases `sph` in register `rd`, and the history with the phases `pph`
that the call has used. -/
def pvCallStores (rd : SReg) (bins : Nat) (mag pph sph : Nat → Word) : List (Nat × List Word) :=
  (sBase rd, binWords (tabulate bins fun k => ⟨mag k, sph k⟩)) ::
    [(pmagBase, tabulate bins mag), (pphBase, tabulate bins pph), (sphBase, tabulate bins sph)]

section
variable {s : State} {rd rs1 : SReg} {bins : Nat} {mag pph sph : Nat → Word}

theorem pvCallStores_apart (hbins : bins ≤ 4096) : (pvCallStores rd bins mag pph sph).Pairwise StoresApart := by
  have hrd : rd.val < 4 := rd.isLt
  simp only [pvCallStores, List.pairwise_cons, List.mem_cons, List.not_mem_nil, or_false, forall_eq_or_imp, forall_eq,
    false_imp_iff, implies_true, List.Pairwise.nil, and_true, StoresApart, length_binWords, length_tabulate, sBase, pmagBase,
    pphBase, sphBase]
  omega

/-- A block of words that a PV call stores is read back. -/
theorem putPvCall_word {base : Nat} {f : Nat → Word} (hbins : bins ≤ 4096)
    (hmem : (base, tabulate bins f) ∈ pvCallStores rd bins mag pph sph) {k : Nat} (hk : k < bins) :
    (s.putAll (pvCallStores rd bins mag pph sph)).word (base + k) = f k := by
  have hwords := words_putAll (s := s) (pvCallStores_apart hbins) hmem (length_tabulate bins f)
  rw [← getD_words _ base bins 0 k hk, hwords, getD_tabulate _ _ _ _ hk]

theorem putAll_cons (w : Nat × List Word) (stores : List (Nat × List Word)) :
    s.putAll (w :: stores) = (s.putWords w.1 w.2).putAll stores := rfl

/-- The frame that a PV call stores is read back: the history lies above the frame registers (R73). -/
theorem putPvCall_frame (hbins : bins ≤ 4096) {k : Nat} (hk : k < bins) :
    (s.putAll (pvCallStores rd bins mag pph sph)).mag rd k = mag k ∧
      (s.putAll (pvCallStores rd bins mag pph sph)).ph rd k = sph k := by
  have hrd : rd.val < 4 := rd.isLt
  obtain ⟨hmag, hph⟩ := putFrame_word s rd (tabulate bins fun k => ⟨mag k, sph k⟩) k (by rwa [length_tabulate])
  rw [getElem_tabulate] at hmag hph
  have hkept {a : Nat} (ha : a < pmagBase) : (s.putAll (pvCallStores rd bins mag pph sph)).word a =
      (s.putFrame rd (tabulate bins fun k => ⟨mag k, sph k⟩)).word a := by
    rw [pvCallStores, putAll_cons]
    refine putAll_word_outside fun w hw => .inl (ha.trans_le ?_)
    simp only [List.mem_cons, List.not_mem_nil, or_false] at hw
    obtain rfl | rfl | rfl := hw
    exacts [le_refl pmagBase, (by decide : pmagBase ≤ pphBase), (by decide : pmagBase ≤ sphBase)]
  have hbelow : sBase rd + 2 * k + 1 < pmagBase := by
    simp only [sBase, pmagBase]
    omega
  exact ⟨(hkept (by omega)).trans hmag, (hkept hbelow).trans hph⟩

theorem issueFault_pv_none {p : Csrs} {par : Params} {rate : Word → Bool} (h : p.Configured) (rd : SReg)
    (hs : p.tags.s[rs1].toNat = p.env.bins) : p.issueFault (.pv rd rs1) par rate = none :=
  (configured_none h.ok _ _).trans (checkS_none hs)

/-- A PV call that is checked and whose reals are finite completes with its stores read back and nothing else written. -/
theorem exec_pv {ws : List Word} {u : State} {g : State → Csrs → Csrs} (hconf : s.params.Configured)
    (htag : s.params.tags.s[rs1].toNat = s.params.env.bins)
    (heffect : effectOf (.pv rd rs1) s.params s = hwEffect ws u) (hfin : allFinite ws)
    (hmem : u.mem = (s.putAll (pvCallStores rd s.params.env.bins mag pph sph)).mem) (hdelay : u.delay = s.delay)
    (hregisters : UniformEffect (effectOf (.pv rd rs1) s.params) g) :
    ∃ t, exec (.pv rd rs1) s = .next t ∧
      (∀ k, k < s.params.env.bins → t.mag rd k = mag k ∧ t.ph rd k = sph k ∧ t.word (pmagBase + k) = mag k ∧
        t.word (pphBase + k) = pph k ∧ t.word (sphBase + k) = sph k) ∧
      SameBytesOutside (s.params.writtenBlocks (.pv rd rs1)) s.mem t.mem ∧ t.delay = s.delay ∧
      s.Finished t (g s s.csr) := by
  have hbins : s.params.env.bins ≤ 4096 := hconf.bins_le.trans hconf.size_le
  have hblocks : EffectInBlocks (.pv rd rs1) s.params s := pvEffect_inBlocks s.params s rd rs1
  have hfinished := hregisters.finished (s := s)
  rw [EffectInBlocks, heffect] at hblocks
  rw [heffect] at hfinished
  have hword (a : Nat) : u.complete.word a = (s.putAll (pvCallStores rd s.params.env.bins mag pph sph)).word a :=
    word_of_sameBytes (bs := []) (fun a _ => congrArg (Memory.byte? · a) hmem) hfinished.epoch (by simp)
  refine ⟨_, exec_completes_hw (issueFault_pv_none hconf rd htag) heffect hfin, fun k hk => ?_, hblocks, hdelay, hfinished⟩
  obtain ⟨hmag, hph⟩ := putPvCall_frame (s := s) (rd := rd) (mag := mag) (pph := pph) (sph := sph) hbins hk
  simp only [State.mag, State.ph, hword] at hmag hph ⊢
  exact ⟨hmag, hph, putPvCall_word hbins (by simp [pvCallStores]) hk, putPvCall_word hbins (by simp [pvCallStores]) hk,
    putPvCall_word hbins (by simp [pvCallStores]) hk⟩

end

/-! ### The first PV call and the later ones -/

section
variable {p : Csrs} (s : State) (rd rs1 : SReg)

theorem effectOf_pv_first (h : p.pvFirst = true) : effectOf (.pv rd rs1) p = pvFirstEffect hwStorage rd rs1 p :=
  funext fun _ => if_pos h

theorem effectOf_pv_next (h : p.pvFirst = false) :
    effectOf (.pv rd rs1) p = pvNextEffect hwStorage spcHardware rd rs1 p :=
  funext fun _ => if_neg (by simp [h])

/-- R203: a first call stores the frame as it is and seeds the history with it. -/
theorem pvFirstEffect_stores : ∃ u, pvFirstEffect hwStorage rd rs1 p s = hwEffect (binWords (s.frame rs1 p.env.bins)) u ∧
    u.mem = (s.putAll (pvCallStores rd p.env.bins (s.mag rs1) (s.ph rs1) (s.ph rs1))).mem ∧ u.delay = s.delay := by
  rw [pvFirstEffect_spc]
  simp only [frame_map_mag, frame_map_ph]
  exact ⟨_, rfl, rfl, rfl⟩

/-- The phase that a call after the first works with in bin `k` of register `rs1`: its own, or with `LOCK_EN` that of the peak
whose region holds it (R201, R206). -/
def State.pvUsedPhase (s : State) (p : Csrs) (rs1 : SReg) (k : Nat) : Word :=
  if p.lockEn then
    (tabulate p.env.bins (s.ph rs1)).getD ((p.env.lockPeak (tabulate p.env.bins (s.mag rs1)) k).getD k) 0
  else s.ph rs1 k

/-- The new synthesis phase of bin `k` (R208). -/
def State.pvNewPhase (s : State) (p : Csrs) (rs1 : SReg) (k : Nat) : Word :=
  p.env.synthPhase k p.shiftHz (s.pvUsedPhase p rs1 k) (s.word (pphBase + k)) (s.word (sphBase + k))

theorem lockedPhases_frame :
    p.env.lockedPhases p.lockEn (tabulate p.env.bins (s.mag rs1)) (tabulate p.env.bins (s.ph rs1)) =
      tabulate p.env.bins (s.pvUsedPhase p rs1) := by
  unfold State.pvUsedPhase
  cases p.lockEn with
  | false => rfl
  | true => simp only [Env.lockedPhases, Env.lock, Env.at_, env_zero, if_true]

theorem synthPhases_frame : p.env.synthPhases p.shiftHz (tabulate p.env.bins (s.pvUsedPhase p rs1))
    (s.words pphBase p.env.bins) (s.words sphBase p.env.bins) = tabulate p.env.bins (s.pvNewPhase p rs1) := by
  refine List.map_congr_left fun k hk => ?_
  have hk := List.mem_range.1 hk
  rw [Env.at_, Env.at_, Env.at_, getD_tabulate _ _ _ _ hk, getD_words s _ _ _ k hk, getD_words s _ _ _ k hk]
  rfl

theorem zipWith_tabulate {A B C : Type} (f : A → B → C) (n : Nat) (g : Nat → A) (h : Nat → B) :
    List.zipWith f (tabulate n g) (tabulate n h) = tabulate n fun k => f (g k) (h k) := by
  simp [tabulate, List.zipWith_map_left, List.zipWith_map_right]

/-- R209: a later call stores the magnitudes, the phases that it has used, and the new synthesis phases, which are the output. -/
theorem pvNextEffect_stores : ∃ u, pvNextEffect hwStorage spcHardware rd rs1 p s =
      hwEffect (p.shiftHz :: binWords (s.frame rs1 p.env.bins) ++ s.words pphBase p.env.bins ++ s.words sphBase p.env.bins
        ++ tabulate p.env.bins (s.pvNewPhase p rs1)) u ∧
    u.mem = (s.putAll (pvCallStores rd p.env.bins (s.mag rs1) (s.pvUsedPhase p rs1) (s.pvNewPhase p rs1))).mem ∧
    u.delay = s.delay := by
  rw [pvNextEffect_spc]
  simp only [frame_map_mag, frame_map_ph, lockedPhases_frame, synthPhases_frame, zipWith_tabulate]
  exact ⟨_, rfl, rfl, rfl⟩

end

/-- Settles O38: a first call stores the frame of the source in the destination and in the history. -/
theorem pvFirstCallSeeds : Obligations.PvFirstCallSeeds := by
  unfold Obligations.PvFirstCallSeeds
  intro rd rs1 s hconf hfirst bins htag hfin
  obtain ⟨u, heffect, hmem, hdelay⟩ := pvFirstEffect_stores (p := s.params) s rd rs1
  have hregisters := pvFirstEffect_uniform s.params rd rs1
  rw [← effectOf_pv_first rd rs1 hfirst] at heffect hregisters
  exact exec_pv hconf htag heffect (allFinite_frame.2 hfin) hmem hdelay hregisters

/-- Settles O39: a later call stores the magnitudes, the phases that it has used, and the new synthesis phases. -/
theorem pvTracksPhases : Obligations.PvTracksPhases := by
  unfold Obligations.PvTracksPhases
  intro rd rs1 s hconf hnext E bins mags phs lph new htag hshift hfin
  obtain ⟨u, heffect, hmem, hdelay⟩ := pvNextEffect_stores (p := s.params) s rd rs1
  have hregisters := pvNextEffect_uniform s.params rd rs1
  rw [← effectOf_pv_next rd rs1 hnext] at heffect hregisters
  have hreals : allFinite (s.params.shiftHz :: binWords (s.frame rs1 bins) ++ s.words pphBase bins ++ s.words sphBase bins
      ++ tabulate bins (s.pvNewPhase s.params rs1)) := by
    simp only [List.cons_append, allFinite_cons, allFinite_append, allFinite_frame, allFinite_words, allFinite_tabulate,
      imp_and, forall_and]
    simp only [imp_and, forall_and] at hfin
    obtain ⟨hmag, hph, hpph, hsph, hout⟩ := hfin
    exact ⟨hshift, ⟨⟨⟨hmag, hph⟩, hpph⟩, hsph⟩, hout⟩
  exact exec_pv hconf htag heffect hreals hmem hdelay hregisters

end Sys2Proof.Machine

/-! SUPPORT. The statements of the shifter chapter (spec/44_shifter.md): the energy redistributor in the exact reals (R220 to
R223), and the frame that FSH moves (R227, R228). -/

namespace Sys2Proof.Machine

/-! ### The contributors of a target (R220) -/

section
variable {m t k : Nat} {tgt : Nat → Option Nat}

theorem mem_contributors : k ∈ contributors m tgt t ↔ k < m ∧ tgt k = some t := by simp [contributors]

theorem contributors_ascending (m : Nat) (tgt : Nat → Option Nat) (t : Nat) : (contributors m tgt t).Pairwise (· < ·) :=
  List.pairwise_lt_range.filter _

theorem contributors_eq_nil (h : ∀ j, j < m → tgt j ≠ some t) : contributors m tgt t = [] :=
  List.eq_nil_iff_forall_not_mem.2 fun j hj => by
    obtain ⟨hlt, htarget⟩ := mem_contributors.1 hj
    exact h j hlt htarget

theorem contributors_eq_singleton (hk : k < m) (h : ∀ j, j < m → (tgt j = some t ↔ j = k)) : contributors m tgt t = [k] := by
  refine List.Perm.eq_singleton ((List.perm_ext_iff_of_nodup ?_ (List.nodup_singleton k)).2 fun j => ?_)
  · exact List.nodup_range.filter _
  · rw [mem_contributors, List.mem_singleton]
    constructor
    · rintro ⟨hj, htarget⟩
      exact (h j hj).1 htarget
    · rintro rfl
      exact ⟨hk, (h j hk).2 rfl⟩

/-- The sum over the bins of a list that pass a test, as a sum over a set of bins. -/
theorem sum_map_filter_range (m : Nat) (test : Nat → Bool) (f : Nat → ℝ) :
    (((List.range m).filter test).map f).sum = ∑ k ∈ Finset.range m with test k = true, f k := by
  have htest : test = fun k => decide (test k = true) := funext fun k => Bool.decide_eq_true.symm
  rw [htest]
  simp only [decide_eq_true_eq]
  rfl

/-- Where every target lies among the `m` bins, the bins with a target are those that contribute to one of the `m` targets. -/
theorem sum_over_targets (htgt : ∀ k t, k < m → tgt k = some t → t < m) (f : Nat → ℝ) :
    ∑ t ∈ Finset.range m, ((contributors m tgt t).map f).sum =
      (((List.range m).filter fun k => (tgt k).isSome).map f).sum := by
  have hmaps : ∀ k ∈ (Finset.range m).filter fun k => (tgt k).isSome = true,
      tgt k ∈ (Finset.range m).map Function.Embedding.some := by
    intro k hk
    obtain ⟨hk, hsome⟩ := Finset.mem_filter.1 hk
    obtain ⟨t, ht⟩ := Option.isSome_iff_exists.1 hsome
    exact Finset.mem_map.2 ⟨t, Finset.mem_range.2 (htgt k t (Finset.mem_range.1 hk) ht), ht.symm⟩
  have hfiber (t : Nat) : (((Finset.range m).filter fun k => (tgt k).isSome = true).filter fun k => tgt k = some t) =
      (Finset.range m).filter fun k => tgt k = some t := by
    rw [Finset.filter_filter]
    exact Finset.filter_congr fun k _ => and_iff_right_of_imp fun h => h ▸ rfl
  simp only [contributors, sum_map_filter_range, beq_iff_eq, ← Finset.sum_fiberwise_of_maps_to hmaps, Finset.sum_map,
    Function.Embedding.some_apply, hfiber]

end

/-! ### What one target gets, over any numerics record (R220) -/

section
variable {R : Type} {E : Env R} (mag ph : List R) {m t k : Nat} {tgt : Nat → Option Nat}

theorem redist_getElem (ht : t < (E.redist mag ph m tgt).length) : (E.redist mag ph m tgt)[t] = E.redistAt mag ph m tgt t :=
  getElem_tabulate _ _ _ _

theorem redistAt_of_nil (h : contributors m tgt t = []) : E.redistAt mag ph m tgt t = ⟨E.zero, E.zero, none⟩ := by
  rw [Env.redistAt, h]
  rfl

theorem redistAt_of_singleton (h : contributors m tgt t = [k]) :
    E.redistAt mag ph m tgt t = ⟨E.mergeMag mag [k], E.at_ ph k, some k⟩ := by
  rw [Env.redistAt, h]
  rfl

theorem redistAt_of_dom {d : Nat} (h : (E.redistAt mag ph m tgt t).dom = some d) :
    E.dominant mag (contributors m tgt t) = some d ∧ (E.redistAt mag ph m tgt t).ph = E.at_ ph d := by
  have hdom : E.dominant mag (contributors m tgt t) = some d := h
  refine ⟨hdom, ?_⟩
  rw [Env.redistAt, hdom]
  rfl

theorem dominant_eq_none_iff {ks : List Nat} : E.dominant mag ks = none ↔ ks = [] := by
  cases ks <;> simp [Env.dominant]

end

/-! ### The dominant contributor in the exact reals (R222) -/

/-- Contributor `d` dominates contributor `j`: it is larger, or as large and not the higher. -/
def Dominates (f : Nat → ℝ) (d j : Nat) : Prop := f j < f d ∨ (f j = f d ∧ d ≤ j)

section
variable {f : Nat → ℝ} {a b c : Nat}

theorem dominates_refl (f : Nat → ℝ) (a : Nat) : Dominates f a a := .inr ⟨rfl, le_rfl⟩

theorem Dominates.trans (hab : Dominates f a b) (hbc : Dominates f b c) : Dominates f a c := by
  obtain hab | ⟨hab, hle⟩ := hab <;> obtain hbc | ⟨hbc, hle'⟩ := hbc
  · exact .inl (hbc.trans hab)
  · exact .inl (hbc ▸ hab)
  · exact .inl (hab ▸ hbc)
  · exact .inr ⟨hbc.trans hab, hle.trans hle'⟩

/-- The larger of two contributors, of two equal ones the first. -/
noncomputable def largerOf (f : Nat → ℝ) (a b : Nat) : Nat := if f a < f b then b else a

theorem largerOf_mem (f : Nat → ℝ) (a b : Nat) : largerOf f a b = a ∨ largerOf f a b = b := by
  unfold largerOf
  split <;> simp

theorem largerOf_dominates (h : a < b) : Dominates f (largerOf f a b) a ∧ Dominates f (largerOf f a b) b := by
  unfold largerOf
  split
  · next hlt => exact ⟨.inl hlt, dominates_refl f b⟩
  · next hge =>
    refine ⟨dominates_refl f a, ?_⟩
    obtain hlt | heq := (not_lt.1 hge).lt_or_eq
    · exact .inl hlt
    · exact .inr ⟨heq, h.le⟩

/-- Going through ascending contributors keeps one that dominates all those passed. -/
theorem foldl_largerOf_dominates (f : Nat → ℝ) (ks : List Nat) : ∀ k : Nat, (k :: ks).Pairwise (· < ·) →
    ks.foldl (largerOf f) k ∈ k :: ks ∧ ∀ j ∈ k :: ks, Dominates f (ks.foldl (largerOf f) k) j := by
  induction ks with
  | nil => simp [dominates_refl]
  | cons x xs ih =>
    intro k hsorted
    simp only [List.pairwise_cons, List.forall_mem_cons] at hsorted
    obtain ⟨⟨hkx, hk⟩, hx, hxs⟩ := hsorted
    have hpick := largerOf_mem f k x
    obtain ⟨hmem, hdom⟩ := ih (largerOf f k x) (List.pairwise_cons.2 ⟨by
      obtain h | h := hpick <;> rw [h] <;> assumption, hxs⟩)
    rw [List.forall_mem_cons] at hdom
    obtain ⟨hpicked, hlater⟩ := hdom
    obtain ⟨hfirst, hsecond⟩ := largerOf_dominates (f := f) hkx
    rw [List.foldl_cons]
    constructor
    · obtain h | h := List.mem_cons.1 hmem
      · rw [h]
        obtain h | h := hpick <;> simp [h]
      · simp [h]
    · simp only [List.forall_mem_cons]
      exact ⟨hpicked.trans hfirst, hpicked.trans hsecond, hlater⟩

end

/-! ### The redistributor in the exact reals (R221, R222) -/

section
variable {E : Env ℝ} (hE : E.num = exactNum) (mag : List ℝ)
include hE

theorem exact_zero : E.zero = 0 := by simp [Env.zero, hE, exactNum]

/-- R222: the dominant contributor has the largest magnitude, of several the lowest index. -/
theorem exact_dominant {ks : List Nat} {d : Nat} (hsorted : ks.Pairwise (· < ·)) (h : E.dominant mag ks = some d) :
    d ∈ ks ∧ ∀ j ∈ ks, Dominates (E.at_ mag) d j := by
  cases ks with
  | nil => cases h
  | cons k ks =>
    have hstep : (fun b j => if E.num.lt (E.at_ mag b) (E.at_ mag j) then j else b) = largerOf (E.at_ mag) := by
      funext b j
      simp [largerOf, hE, exactNum]
    rw [Env.dominant, hstep] at h
    obtain rfl := Option.some.inj h
    exact foldl_largerOf_dominates (E.at_ mag) ks k hsorted

theorem exact_mergeMag_nonneg (ks : List Nat) : 0 ≤ E.mergeMag mag ks := by
  match ks with
  | [] => exact (exact_zero hE).ge
  | [k] =>
    simp only [Env.mergeMag, exact_zero hE, hE, exactNum, decide_eq_true_eq]
    split
    · exact Real.sqrt_nonneg _
    · next h => exact not_lt.1 h
  | k :: j :: ks =>
    simp only [Env.mergeMag, hE, exactNum]
    exact Real.sqrt_nonneg _

/-- R221: a target has the root of the energy of its contributors. -/
theorem exact_mergeMag (ks : List Nat) : E.mergeMag mag ks = Real.sqrt (energyOf (ks.map (E.at_ mag))) := by
  have henergy : energyOf (ks.map (E.at_ mag)) = E.mergeMag mag ks * E.mergeMag mag ks := by
    rw [exact_mergeMag_sq hE, energyOf, List.map_map]
    rfl
  rw [henergy, Real.sqrt_mul_self (exact_mergeMag_nonneg hE mag ks)]

/-- R221: the energy of the output is that of the bins with a target. -/
theorem exact_redist_energy_of_targets (ph : List ℝ) {m : Nat} {tgt : Nat → Option Nat}
    (htgt : ∀ k t, k < m → tgt k = some t → t < m) : energyOf ((E.redist mag ph m tgt).map Merged.mag) =
      energyOf (((List.range m).filter fun k => (tgt k).isSome).map (E.at_ mag)) := by
  have hmags : (E.redist mag ph m tgt).map Merged.mag = tabulate m fun t => E.mergeMag mag (contributors m tgt t) :=
    List.map_map
  rw [hmags, energyOf_tabulate, energyOf, List.map_map]
  simp only [exact_mergeMag_sq hE]
  exact sum_over_targets htgt fun k => E.at_ mag k * E.at_ mag k

end

/-- Settles O53: the energy target by target, and the laws of the magnitude and of the dominant contributor of one target. -/
theorem redistributionConservesEnergy : Obligations.RedistributionConservesEnergy := by
  unfold Obligations.RedistributionConservesEnergy
  intro n hop fs mag ph m tgt htgt E out
  have hE : E.num = exactNum := rfl
  refine ⟨exact_redist_energy_of_targets hE mag ph htgt, fun t ht => ⟨E.redistAt mag ph m tgt t, ?_, ?_, ?_, ?_⟩⟩
  · have hlen : t < out.length := (length_redist E mag ph m tgt).symm ▸ ht
    rw [List.getElem?_eq_getElem hlen, redist_getElem]
  · exact exact_mergeMag hE mag _
  · intro d hdom
    obtain ⟨hdominant, hph⟩ := redistAt_of_dom mag ph hdom
    obtain ⟨hmem, hall⟩ := exact_dominant hE mag (contributors_ascending m tgt t) hdominant
    exact ⟨hmem, hph, hall⟩
  · intro hdom
    have hnil := (dominant_eq_none_iff mag).1 hdom
    rw [redistAt_of_nil mag ph hnil]
    exact ⟨hnil, exact_zero hE, exact_zero hE⟩

/-! ### The frame that FSH writes (R227, R228) -/

theorem shiftTarget_eq_some_iff {bins k j : Nat} {d : Int} (hj : j < bins) :
    shiftTarget bins d k = some j ↔ (k : Int) + d = j := by
  unfold shiftTarget
  split <;> simp only [Option.some.injEq, reduceCtorEq, false_iff] <;> omega

section
variable {R : Type} {E : Env R} (shift : R) (mag ph : List R) {j k : Nat}

theorem shiftFrame_getElem (hj : j < (E.shiftFrame shift mag ph).length) : (E.shiftFrame shift mag ph)[j] =
    ⟨(E.redistAt mag ph E.bins (shiftTarget E.bins (E.rnd (E.shiftBins shift))) j).mag,
      (E.redistAt mag ph E.bins (shiftTarget E.bins (E.rnd (E.shiftBins shift))) j).ph⟩ := by
  simp only [Env.shiftFrame, List.getElem_map, redist_getElem]

/-- Over any numerics record a bin of the shifted frame is the one bin that moves to it, by R221 alone on its target, or zero
where none does: two bins that move by the same number of bins stay apart. -/
theorem shiftFrame_cases (hj : j < (E.shiftFrame shift mag ph).length) :
    (∃ k, k < E.bins ∧ (k : Int) + E.rnd (E.shiftBins shift) = j ∧
      (E.shiftFrame shift mag ph)[j] = ⟨E.mergeMag mag [k], E.at_ ph k⟩) ∨
    ((∀ k, k < E.bins → (k : Int) + E.rnd (E.shiftBins shift) ≠ j) ∧
      (E.shiftFrame shift mag ph)[j] = ⟨E.zero, E.zero⟩) := by
  have htarget (i : Nat) := shiftTarget_eq_some_iff (k := i) (d := E.rnd (E.shiftBins shift))
    (length_shiftFrame E shift mag ph ▸ hj)
  rw [shiftFrame_getElem]
  by_cases hsource : ∃ k, k < E.bins ∧ (k : Int) + E.rnd (E.shiftBins shift) = j
  · obtain ⟨k, hk, hmove⟩ := hsource
    have hone := contributors_eq_singleton hk fun i _ => (htarget i).trans (by omega : _ ↔ i = k)
    rw [redistAt_of_singleton mag ph hone]
    exact .inl ⟨k, hk, hmove, rfl⟩
  · have hnone : ∀ k, k < E.bins → (k : Int) + E.rnd (E.shiftBins shift) ≠ j := fun k hk hmove => hsource ⟨k, hk, hmove⟩
    have hnil := contributors_eq_nil fun i hi => mt (htarget i).1 (hnone i hi)
    rw [redistAt_of_nil mag ph hnil]
    exact .inr ⟨hnone, rfl⟩

end

section
variable (p : Csrs)

/-- A single contributor on the hardware (log 9). -/
theorem mergeMag_singleton_env (mag : List Word) (k : Nat) : p.env.mergeMag mag [k] = movedMag (p.env.at_ mag k) := by
  rw [Env.mergeMag, env_zero]
  rfl

/-- R227 on the hardware. -/
theorem rnd_shiftBins_env (shift : Word) : p.env.rnd (p.env.shiftBins shift) =
    saturate (f32Floor (f32Add (f32Div (f32Mul shift (f32OfInt p.env.n)) p.active.fs) 0x3F000000)) := by
  rw [Env.rnd, env_half]
  exact saturate_saturate _

/-- The bins of register `rs1` of `s`, moved as FSH moves them. -/
def State.shiftedFrame (s : State) (p : Csrs) (rs1 : SReg) : List (Bin Word) :=
  p.env.shiftFrame p.shiftHz ((s.frame rs1 p.env.bins).map Bin.mag) ((s.frame rs1 p.env.bins).map Bin.ph)

theorem length_shiftedFrame (s : State) (rs1 : SReg) : (s.shiftedFrame p rs1).length = p.env.bins := length_shiftFrame _ _ _ _

theorem shiftedFrame_cases (s : State) (rs1 : SReg) {j : Nat} (hj : j < (s.shiftedFrame p rs1).length) :
    (∃ k, k < p.env.bins ∧ (k : Int) + p.env.rnd (p.env.shiftBins p.shiftHz) = j ∧
      (s.shiftedFrame p rs1)[j] = ⟨movedMag (s.mag rs1 k), s.ph rs1 k⟩) ∨
    ((∀ k, k < p.env.bins → (k : Int) + p.env.rnd (p.env.shiftBins p.shiftHz) ≠ j) ∧
      (s.shiftedFrame p rs1)[j] = ⟨0, 0⟩) := by
  obtain ⟨k, hk, hmove, hbin⟩ | ⟨hnone, hbin⟩ := shiftFrame_cases p.shiftHz _ _ hj
  · refine .inl ⟨k, hk, hmove, hbin.trans ?_⟩
    rw [mergeMag_singleton_env, frame_map_mag, frame_map_ph, Env.at_, Env.at_, getD_tabulate _ _ _ _ hk,
      getD_tabulate _ _ _ _ hk]
  · exact .inr ⟨hnone, hbin.trans (by rw [env_zero])⟩

theorem issueFault_fsh_none {p : Csrs} {par : Params} {rate : Word → Bool} (h : p.Configured) (rd : SReg) {rs1 : SReg}
    (hs : p.tags.s[rs1].toNat = p.env.bins) : p.issueFault (.fsh rd rs1) par rate = none :=
  (configured_none h.ok _ _).trans (checkS_none hs)

end

/-- Settles O40: the effect of FSH stores the shifted frame, and each of its bins is one that moved there, or zero. -/
theorem fshMovesBins : Obligations.FshMovesBins := by
  unfold Obligations.FshMovesBins
  intro rd rs1 s hconf E bins shift inBins d htag hshift hinBins hfin
  have hd : s.params.env.rnd (s.params.env.shiftBins s.params.shiftHz) = d := rnd_shiftBins_env s.params shift
  have hlen : (s.shiftedFrame s.params rs1).length = bins := length_shiftedFrame s.params s rs1
  have hsource : allFinite (binWords (s.frame rs1 bins)) := allFinite_frame.2 fun k hk => ⟨(hfin k hk).1, (hfin k hk).2.1⟩
  have hout : allFinite (binWords (s.shiftedFrame s.params rs1)) := allFinite_binWords.2 fun b hb => by
    obtain ⟨j, hj, rfl⟩ := List.mem_iff_getElem.1 hb
    obtain ⟨k, hk, -, hbin⟩ | ⟨-, hbin⟩ := shiftedFrame_cases s.params s rs1 hj <;> rw [hbin]
    · obtain ⟨-, hph, hmoved⟩ := hfin k hk
      exact ⟨hmoved, hph⟩
    · exact ⟨rfl, rfl⟩
  have heffect : effectOf (.fsh rd rs1) s.params s = hwEffect
      (shift :: inBins :: binWords (s.frame rs1 bins) ++ binWords (s.shiftedFrame s.params rs1))
      ((s.putFrame rd (s.shiftedFrame s.params rs1)).setSLen rd bins) := fshEffect_spc s.params s rd rs1
  have hblocks : SameBytesOutside [frameBlock rd bins] s.mem (effectOf (.fsh rd rs1) s.params s).after.mem :=
    fshEffect_inBlocks _ _ rd rs1
  have hfinished := (fshEffect_uniform s.params rd rs1).finished (s := s)
  rw [heffect] at hblocks hfinished
  refine ⟨_, exec_completes_hw (issueFault_fsh_none hconf rd htag) heffect ?_, fun j hj => ?_, hblocks, rfl, hfinished⟩
  · exact allFinite_cons.2 ⟨hshift, allFinite_cons.2 ⟨hinBins, allFinite_append.2 ⟨hsource, hout⟩⟩⟩
  · replace hj := hj.trans_eq hlen.symm
    obtain ⟨hmag, hph⟩ := putFrame_word s rd (s.shiftedFrame s.params rs1) j hj
    obtain ⟨i, hi, hmove, hbin⟩ | ⟨hnone, hbin⟩ :=
      shiftedFrame_cases s.params s rs1 hj <;> rw [hbin] at hmag hph
    · rw [hd] at hmove
      refine ⟨fun k _ hk => ?_, fun hno => absurd hmove (hno i hi)⟩
      obtain rfl : i = k := by omega
      exact ⟨hmag, hph⟩
    · rw [hd] at hnone
      exact ⟨fun k hk hmove => absurd hmove (hnone k hk), fun _ => ⟨hmag, hph⟩⟩

end Sys2Proof.Machine

/-! SUPPORT. The statements of the quantizer chapter (spec/45_quantizer.md): ENVC (R247, R248), QNT with strength 0 (R251) and
with a positive strength (R250, R252, R255 to R261), the energy of the quantizer (R263), the nearest note (R244) and the note frequencies
with an accumulator of a note (R241, R259, R265). -/

namespace Sys2Proof.Machine

/-! The theorems of this chapter are elaborated one after the other: elaborating them at once needs more threads than the memory
limit allows. -/

set_option Elab.async false

/-! ### Comparisons in binary32 (R320, R323) -/

section
variable {a b : Word} (ha : f32Finite a = true) (hb : f32Finite b = true)
include ha hb

theorem f32Lt_iff : f32Lt a b = true ↔ f32Fix a < f32Fix b := by simp [f32Lt, ha, hb]
theorem f32Le_iff : f32Le a b = true ↔ f32Fix a ≤ f32Fix b := by simp [f32Le, ha, hb]
theorem f32Eq_iff : f32Eq a b = true ↔ f32Fix a = f32Fix b := by simp [f32Eq, ha, hb]

end

/-! ### The larger of two words, and the largest of a list (R247) -/

section
variable {E : Env Word} (hnum : E.num = hwNum)
include hnum

theorem max2_hw_mem (x y : Word) : E.max2 x y = x ∨ E.max2 x y = y := by
  rw [max2_hw hnum]
  split <;> simp

theorem f32Fix_max2_hw {x y : Word} (hx : f32Finite x = true) (hy : f32Finite y = true) :
    f32Fix (E.max2 x y) = max (f32Fix x) (f32Fix y) := by
  rw [max2_hw hnum]
  split
  · next hlt => rw [max_eq_right ((f32Lt_iff hx hy).1 hlt).le]
  · next hge => rw [max_eq_left (not_lt.1 (mt (f32Lt_iff hx hy).2 hge))]

theorem f32Fix_min2_hw {x y : Word} (hx : f32Finite x = true) (hy : f32Finite y = true) :
    f32Fix (E.min2 x y) = min (f32Fix x) (f32Fix y) := by
  rw [min2_hw hnum]
  split
  · next hlt => rw [min_eq_right ((f32Lt_iff hy hx).1 hlt).le]
  · next hge => rw [min_eq_left (not_lt.1 (mt (f32Lt_iff hy hx).2 hge))]

/-- Going through finite words keeps one of them that is at least every word passed. -/
theorem foldl_max2_hw (xs : List Word) : ∀ x, allFinite (x :: xs) →
    xs.foldl E.max2 x ∈ x :: xs ∧ ∀ y ∈ x :: xs, f32Fix y ≤ f32Fix (xs.foldl E.max2 x) := by
  induction xs with
  | nil => simp
  | cons y ys ih =>
    intro x hfin
    obtain ⟨hx, hfin'⟩ := allFinite_cons.1 hfin
    obtain ⟨hy, hys⟩ := allFinite_cons.1 hfin'
    have hpick := max2_hw_mem hnum x y
    have hpicked : f32Finite (E.max2 x y) = true := by obtain h | h := hpick <;> rwa [h]
    obtain ⟨hmem, hall⟩ := ih (E.max2 x y) (allFinite_cons.2 ⟨hpicked, hys⟩)
    rw [List.forall_mem_cons, f32Fix_max2_hw hnum hx hy, max_le_iff] at hall
    obtain ⟨⟨hfirst, hsecond⟩, hrest⟩ := hall
    rw [List.foldl_cons]
    refine ⟨?_, List.forall_mem_cons.2 ⟨hfirst, List.forall_mem_cons.2 ⟨hsecond, hrest⟩⟩⟩
    obtain h | h := List.mem_cons.1 hmem
    · rw [h]
      obtain h | h := hpick <;> simp [h]
    · simp [h]

/-- The largest of finite words is one of them, and at least every one of them. -/
theorem maxOf_hw (empty : Word) {xs : List Word} (hne : xs ≠ []) (hfin : allFinite xs) :
    E.maxOf empty xs ∈ xs ∧ ∀ y ∈ xs, f32Le y (E.maxOf empty xs) = true := by
  cases xs with
  | nil => exact absurd rfl hne
  | cons x xs =>
    obtain ⟨hmem, hall⟩ := foldl_max2_hw hnum xs x hfin
    exact ⟨hmem, fun y hy => (f32Le_iff (hfin y hy) (hfin _ hmem)).2 (hall y hy)⟩

end

/-! ### The envelope that ENVC captures (R247, R248) -/

section
variable (s : State) (p : Csrs) (rs1 : SReg)

/-- The magnitudes of the processed bins of register `rs1` that the band table puts in band `b` (R247). -/
def State.bandMags (s : State) (p : Csrs) (rs1 : SReg) (b : Nat) : List Word :=
  ((List.range p.env.lines).filter fun k => (s.word (bandBase + k)).toNat == b).map (s.mag rs1)

theorem mem_bandMags {b : Nat} {x : Word} : x ∈ s.bandMags p rs1 b ↔
    ∃ k, k < p.env.lines ∧ (s.word (bandBase + k)).toNat = b ∧ s.mag rs1 k = x := by
  simp [State.bandMags, and_assoc]

theorem getD_nats {a n k : Nat} (hk : k < n) (d : Nat) : (s.nats a n).getD k d = (s.word (a + k)).toNat := by
  simp [State.nats, State.words, hk]

theorem envAt_frame (b : Nat) : p.env.envAt (s.nats bandBase p.env.lines) (tabulate p.env.lines (s.mag rs1)) b =
    p.env.maxOf 0 (s.bandMags p rs1 b) := by
  have hband : ((List.range p.env.lines).filter fun k => (s.nats bandBase p.env.lines).getD k 0 == b) =
      (List.range p.env.lines).filter fun k => (s.word (bandBase + k)).toNat == b :=
    List.filter_congr fun k hk => by rw [getD_nats s (List.mem_range.1 hk)]
  rw [Env.envAt, hband, env_zero, State.bandMags]
  congr 1
  refine List.map_congr_left fun k hk => ?_
  exact getD_tabulate _ _ _ _ (List.mem_range.1 (List.mem_of_mem_filter hk))

variable {s p rs1}

theorem issueFault_envc_none {par : Params} {rate : Word → Bool} (h : p.Configured)
    (hs : p.tags.s[rs1].toNat = p.env.bins) : p.issueFault (.envc rs1) par rate = none :=
  (configured_none h.ok _ _).trans (checkS_none hs)

end

/-- Settles O41: the entry of a band is the largest of the magnitudes of its bins. -/
theorem envcCapturesPeaks : Obligations.EnvcCapturesPeaks := by
  unfold Obligations.EnvcCapturesPeaks
  intro rs1 s hconf lines htag hfin
  have hfinite : allFinite ((s.frame rs1 lines).map Bin.mag) := by
    rw [frame_map_mag]
    exact allFinite_tabulate.2 hfin
  have heffect : effectOf (.envc rs1) s.params s = _ := envcEffect_spc s.params s rs1
  have hblocks : SameBytesOutside [⟨envBase, 48⟩] s.mem (effectOf (.envc rs1) s.params s).after.mem :=
    envcEffect_inBlocks _ _ rs1
  have hfinished := (envcEffect_uniform s.params rs1).finished (s := s)
  rw [heffect] at hblocks hfinished
  refine ⟨_, exec_completes_hw (issueFault_envc_none hconf htag) heffect hfinite, fun b hb => ?_, hblocks, rfl, hfinished⟩
  have hlen : b < (s.params.env.envOf (s.nats bandBase lines) ((s.frame rs1 lines).map Bin.mag)).length := by
    rw [length_envOf]
    exact hb
  rw [complete_word, putWords_word_inside _ _ _ b hlen]
  have hentry : (s.params.env.envOf (s.nats bandBase lines) ((s.frame rs1 lines).map Bin.mag))[b] =
      s.params.env.maxOf 0 (s.bandMags s.params rs1 b) := by
    rw [← envAt_frame, ← frame_map_mag]
    exact getElem_tabulate _ _ _ _
  rw [hentry]
  constructor
  · intro hnone
    have hnil : s.bandMags s.params rs1 b = [] := List.eq_nil_iff_forall_not_mem.2 fun x hx => by
      obtain ⟨k, hk, hband, -⟩ := (mem_bandMags s _ _).1 hx
      exact hnone k hk hband
    rw [hnil]
    rfl
  · intro k hk hband
    have hmem : s.mag rs1 k ∈ s.bandMags s.params rs1 b := (mem_bandMags s _ _).2 ⟨k, hk, hband, rfl⟩
    have hmags : allFinite (s.bandMags s.params rs1 b) := fun x hx => by
      obtain ⟨j, hj, -, rfl⟩ := (mem_bandMags s _ _).1 hx
      exact hfin j hj
    obtain ⟨hlargest, hall⟩ := maxOf_hw (E := s.params.env) rfl 0 (List.ne_nil_of_mem hmem) hmags
    obtain ⟨j, hj, hbandj, hmag⟩ := (mem_bandMags s _ _).1 hlargest
    exact ⟨hall _ hmem, j, hj, hbandj, hmag.symm⟩

/-! ### The strength of QNT (R251) -/

section
variable {E : Env Word} (hnum : E.num = hwNum) {x : Word}
include hnum

theorem max2_hw_finite {y : Word} (hx : f32Finite x = true) (hy : f32Finite y = true) : f32Finite (E.max2 x y) = true := by
  rw [max2_hw hnum]
  split <;> assumption

theorem min2_hw_finite {y : Word} (hx : f32Finite x = true) (hy : f32Finite y = true) : f32Finite (E.min2 x y) = true := by
  rw [min2_hw hnum]
  split <;> assumption

theorem clamp01_hw_finite (hx : f32Finite x = true) : f32Finite (E.clamp01 x) = true := by
  rw [Env.clamp01, zero_hw hnum, one_hw hnum, Env.clamp]
  exact min2_hw_finite hnum (max2_hw_finite hnum hx (by decide)) (by decide)

theorem f32Fix_clamp01_hw (hx : f32Finite x = true) : f32Fix (E.clamp01 x) = min (max (f32Fix x) 0) (2 ^ 149) := by
  have hzero : f32Fix 0 = 0 := by decide
  have hone : f32Fix 0x3F800000 = 2 ^ 149 := by decide
  have hmax : f32Finite (E.max2 x 0) = true := max2_hw_finite hnum hx (by decide)
  rw [Env.clamp01, zero_hw hnum, one_hw hnum, Env.clamp, f32Fix_min2_hw hnum hmax (by decide),
    f32Fix_max2_hw hnum hx (by decide), hzero, hone]

end

/-- A strength counts as 0 exactly where it is at or below 0 (R251). -/
theorem strengthZeroIn_iff {p : Csrs} (hx : f32Finite p.quant.strength = true) :
    p.strengthZeroIn p.env = true ↔ f32Fix p.quant.strength ≤ 0 := by
  have hzero : f32Fix 0 = 0 := by decide
  have hone : (0 : ℤ) < 2 ^ 149 := by norm_num
  have hfix := f32Fix_clamp01_hw (E := p.env) rfl hx
  rw [Csrs.strengthZeroIn, env_zero]
  refine (f32Eq_iff (clamp01_hw_finite (E := p.env) rfl hx) (by decide)).trans ?_
  rw [hzero]
  exact (Eq.congr_left hfix).trans (by omega)

section
variable {s : State} {p : Csrs} {rd rs1 : SReg}

theorem issueFault_qnt_none {par : Params} {rate : Word → Bool} (h : p.Configured) (hs : p.tags.s[rs1].toNat = p.env.bins) :
    p.issueFault (.qnt rd rs1) par rate = none :=
  (configured_none h.ok _ _).trans (checkS_none hs)

theorem frame_getElem {r : SReg} {n k : Nat} (hk : k < (s.frame r n).length) :
    (s.frame r n)[k] = ⟨s.mag r k, s.ph r k⟩ := getElem_tabulate _ _ _ _

theorem effectOf_qnt_zero (h : p.strengthZeroIn p.env = true) :
    effectOf (.qnt rd rs1) p = quantCopyEffect hwStorage spcHardware rd rs1 p :=
  funext fun _ => if_pos h

theorem effectOf_qnt_positive (h : ¬ p.strengthZeroIn p.env = true) :
    effectOf (.qnt rd rs1) p = quantRunEffect hwStorage spcHardware rd rs1 p :=
  funext fun _ => if_neg h

end

/-- Settles O42: with the clamped strength 0 the effect stores the processed bins and a zero bin, and writes no history. -/
theorem qntStrengthZeroCopies : Obligations.QntStrengthZeroCopies := by
  unfold Obligations.QntStrengthZeroCopies
  intro rd rs1 s hconf lines htag hstrength hle hfin
  have hzero : s.params.strengthZeroIn s.params.env = true := (strengthZeroIn_iff hstrength).2 hle
  have heffect := (congrFun (effectOf_qnt_zero hzero) s).trans (quantCopyEffect_spc s.params s rd rs1)
  have hregisters := quantCopyEffect_uniform s.params rd rs1
  have hblocks := qntEffect_inBlocks s.params s rd rs1
  rw [← effectOf_qnt_zero hzero] at hregisters
  have hfinished := hregisters.finished (s := s)
  rw [EffectInBlocks, heffect, Csrs.writtenBlocks, if_pos (show s.params.strengthZero = true from hzero)] at hblocks
  rw [heffect] at hfinished
  have hfinite := allFinite_cons.2 ⟨hstrength, allFinite_frame.2 hfin⟩
  have hbin {k : Nat} (hk : k < lines + 1) :=
    putFrame_word s rd (s.frame rs1 lines ++ [⟨0, 0⟩]) k (by rwa [List.length_append, length_frame])
  refine ⟨_, exec_completes_hw (issueFault_qnt_none hconf htag) heffect hfinite, fun k hk => ?_, ?_, ?_, hblocks, rfl,
    hfinished⟩
  · obtain ⟨hmag, hph⟩ := hbin (Nat.lt_succ_of_lt hk)
    rw [List.getElem_append_left (by rwa [length_frame]), frame_getElem] at hmag hph
    exact ⟨hmag, hph⟩
  · obtain ⟨hmag, -⟩ := hbin (Nat.lt_succ_self lines)
    exact hmag.trans (by simp)
  · obtain ⟨-, hph⟩ := hbin (Nat.lt_succ_self lines)
    exact hph.trans (by simp)

/-! ### The energy of the quantizer where no envelope is reimposed (R261, R263) -/

/-- With a preserve strength that is not above 0 the envelope is not reimposed, as with none (R261). -/
theorem quantFrame_of_not_preserve {R : Type} {E : Env R} {x : QuantIn R}
    (h : E.num.lt E.zero (E.clamp01 x.preserve) = false) : E.quantFrame x = E.quantFrame { x with envelope := none } := by
  have hmags : E.quantMags x = E.quantMags { x with envelope := none } := by
    cases henv : x.envelope <;> simp [Env.quantMags, henv, h] <;> rfl
  rw [Env.quantFrame, hmags]
  rfl

theorem exact_clamp01_of_nonpos {E : Env ℝ} (hE : E.num = exactNum) {y : ℝ} (hy : y ≤ 0) : E.clamp01 y = 0 := by
  have hone : E.one = 1 := by simp [Env.one, hE, exactNum]
  have hmax : E.max2 y 0 = 0 := by
    simp only [Env.max2, hE, exactNum, decide_eq_true_eq]
    split
    · rfl
    · linarith
  rw [Env.clamp01, exact_zero hE, hone, Env.clamp, hmax, Env.min2]
  simp [hE, exactNum]

/-- Settles O54: without an envelope the output has the energy of the redistributed bins, and a preserve strength at or below 0
is as no envelope. -/
theorem quantizerConservesEnergy : Obligations.QuantizerConservesEnergy := by
  unfold Obligations.QuantizerConservesEnergy
  intro n hop fs x hx E
  have hE : E.num = exactNum := rfl
  rcases hx with hnone | hpreserve
  · exact exact_quantFrame_energy hE x hnone
  · have hoff : E.num.lt E.zero (E.clamp01 x.preserve) = false := by
      rw [exact_zero hE, exact_clamp01_of_nonpos hE hpreserve, hE]
      exact decide_eq_false (lt_irrefl 0)
    rw [quantFrame_of_not_preserve hoff]
    exact exact_quantFrame_energy hE { x with envelope := none } rfl

/-! ### Targets and notes (R258) -/

section
variable {R : Type} {E : Env R}

/-- A bin is skipped without a note at strength 0, at frequency 0, and where its pitch is outside the notes (R258). -/
theorem binNote_eq_ite (q : QuantMap R) (k : Nat) : E.binNote q k =
    if E.num.eq q.strength E.zero || E.num.le (E.binfreq k) E.zero || E.num.lt (E.midi (E.binfreq k)) E.zero
        || E.num.lt (E.nat (E.par.notes - 1)) (E.midi (E.binfreq k)) then none
    else E.near q.inScl (E.midi (E.binfreq k)) := by
  by_cases hstrength : E.num.eq q.strength E.zero = true
  · simp [Env.binNote, hstrength]
  · by_cases hfreq : E.num.le (E.binfreq k) E.zero = true
    · simp [Env.binNote, hfreq]
    · simp [Env.binNote, hstrength, hfreq]

/-- The target of a bin that is not skipped is a bin, and it has a note (R258). -/
theorem quantTarget_eq_bind (q : QuantMap R) (k : Nat) : E.quantTarget q k = (E.binNote q k).bind fun note =>
    if E.rnd (E.targetPos q k note) < 0 ∨ (E.lines : Int) - 1 < E.rnd (E.targetPos q k note) then none
    else some ((E.rnd (E.targetPos q k note)).toNat, note) := by
  rw [Env.quantTarget]
  cases E.binNote q k <;> rfl

/-- Going through a list and keeping one of two elements at a time ends with an element of the list. -/
theorem foldl_pick_mem {A : Type} (better : A → A → Bool) (xs : List A) : ∀ x,
    xs.foldl (fun b y => if better b y then y else b) x ∈ x :: xs := by
  induction xs with
  | nil => simp
  | cons y ys ih =>
    intro x
    rw [List.foldl_cons]
    obtain h | h := List.mem_cons.1 (ih (if better x y then y else x))
    · rw [h]
      split <;> simp
    · simp [h]

/-- The nearest note is one of the in-scale notes (R244). -/
theorem near_mem {inScl : Nat → Bool} {m : R} {note : Nat} (h : E.near inScl m = some note) :
    note < E.par.notes ∧ inScl note = true := by
  unfold Env.near at h
  split at h
  · cases h
  · next n ns hnotes =>
    have hmem := foldl_pick_mem
      (fun b j => E.num.lt (E.abs (E.num.sub (E.nat j) m)) (E.abs (E.num.sub (E.nat b) m))) ns n
    rw [Option.some.inj h, ← hnotes] at hmem
    simpa using hmem

theorem binNote_lt {q : QuantMap R} {k note : Nat} (h : E.binNote q k = some note) : note < E.par.notes := by
  unfold Env.binNote at h
  dsimp only at h
  split_ifs at h
  exact (near_mem h).1

/-- Targets matter for the source bins alone (R220). -/
theorem redist_congr {mag ph : List R} {m : Nat} {tgt tgt' : Nat → Option Nat} (h : ∀ k, k < m → tgt k = tgt' k) :
    E.redist mag ph m tgt = E.redist mag ph m tgt' := by
  have hsame (t : Nat) : contributors m tgt t = contributors m tgt' t :=
    List.filter_congr fun k hk => by rw [h k (List.mem_range.1 hk)]
  have hat : E.redistAt mag ph m tgt = E.redistAt mag ph m tgt' :=
    funext fun t => by rw [Env.redistAt, Env.redistAt, hsame]
  rw [Env.redist, Env.redist, hat]

end

/-! ### The rules of the quantizer in binary32 (R241, R255 to R261) -/

section
variable {E : Env Word} (hnum : E.num = hwNum) (hpar : E.par = Params.spc)
include hnum

theorem lit_hw (q : Ratio) :
    E.lit q = if q.den = 1 then f32OfInt q.num else f32Div (f32OfInt q.num) (f32OfInt q.den) := by
  rw [Env.lit, nat_hw hnum, hnum]
  rfl

theorem twoPi_hw : E.twoPi = 0x40C90FDB := by
  have htwo : f32Mul (f32OfInt 2) f32Pi = 0x40C90FDB := by decide +kernel
  rw [Env.twoPi, Env.two, hnum]
  exact htwo

theorem binfreq_hw (k : Nat) : E.binfreq k = f32Div (f32Mul (f32OfInt k) E.fs) (f32OfInt E.n) := by
  rw [Env.binfreq, nat_hw hnum, nat_hw hnum, hnum]
  rfl

theorem rnd_hw (x : Word) : E.rnd x = saturate (f32Floor (f32Add x 0x3F000000)) := by
  rw [Env.rnd, half_hw hnum, hnum]
  exact saturate_saturate _

theorem envScale_hw (p g mag : Word) :
    E.envScale p g mag = f32Mul mag (f32Add (f32Sub 0x3F800000 p) (f32Mul p g)) := by
  rw [Env.envScale, one_hw hnum, hnum]
  rfl

theorem effStrength_hw (s amt r : Word) :
    E.effStrength s amt r = f32Mul s (f32Sub 0x3F800000 (f32Mul (E.clamp01 amt) r)) := by
  rw [Env.effStrength, one_hw hnum, hnum]
  rfl

/-- R258, with the drift where there is one. -/
theorem targetPos_hw (q : QuantMap Word) (k note : Nat) : E.targetPos q k note =
    let ft := f32Add (E.binfreq k) (f32Mul q.strength (f32Sub (E.notefreq note) (E.binfreq k)))
    let drifted := match q.drift with
      | none => ft
      | some d => f32Mul ft (f32Exp2 (f32Div (E.at_ d k) (f32OfInt 1200)))
    f32Div (f32Mul drifted (f32OfInt E.n)) E.fs := by
  rw [Env.targetPos, nat_hw hnum, Env.targetFreq, nat_hw hnum, hnum]
  cases q.drift <;> rfl

/-- R259. -/
theorem accNext_hw (n : Nat) (acc : Word) : E.accNext n acc = E.wrap (f32Add acc
    (f32Div (f32Mul (f32Mul 0x40C90FDB (E.notefreq n)) (f32OfInt E.hop)) E.fs)) := by
  rw [Env.accNext, Env.noteIncr, twoPi_hw hnum, hnum]
  rfl

include hpar

theorem a4Hz_hw : E.lit E.par.a4Hz = 0x43DC0000 := by
  rw [lit_hw hnum, hpar]
  decide +kernel

/-- `Q_SIL_THR`, the quotient 1/1000 rounded (log 6). -/
theorem silThr_hw : E.lit E.par.silThr = 0x3A83126F := by
  rw [lit_hw hnum, hpar]
  decide +kernel

/-- `Q_EPS`, the quotient 1/10^10 rounded (log 6). -/
theorem qEps_hw : E.lit E.par.qEps = 0x2EDBE6FF := by
  rw [lit_hw hnum, hpar]
  decide +kernel

theorem qGmax_hw : E.lit E.par.qGmax = 0x41800000 := by
  rw [lit_hw hnum, hpar]
  decide +kernel

/-- R241, with log 21 for a quotient that rounds to 0. -/
theorem midi_hw (f : Word) : E.midi f = f32Add (f32OfInt 69) (f32Mul (f32OfInt 12)
    (if f32Le (f32Div f 0x43DC0000) 0 then f32Sub (f32Log2 f) (f32Log2 0x43DC0000) else f32Log2 (f32Div f 0x43DC0000))) := by
  rw [Env.midi, Env.logRatio, a4Hz_hw hnum hpar, nat_hw hnum, nat_hw hnum, zero_hw hnum, hnum]
  rfl

/-- R241. -/
theorem notefreq_hw (n : Nat) :
    E.notefreq n = f32Mul 0x43DC0000 (f32Exp2 (f32Div (f32OfInt ((n : Int) - 69)) (f32OfInt 12))) := by
  rw [Env.notefreq, a4Hz_hw hnum hpar, nat_hw hnum, hnum]
  rfl

/-- R258. -/
theorem binNote_hw (q : QuantMap Word) (k : Nat) : E.binNote q k =
    if f32Eq q.strength 0 || f32Le (E.binfreq k) 0 || f32Lt (E.midi (E.binfreq k)) 0
        || f32Lt (f32OfInt 127) (E.midi (E.binfreq k)) then none
    else E.near q.inScl (E.midi (E.binfreq k)) := by
  have hlast : E.nat (E.par.notes - 1) = f32OfInt 127 := by rw [nat_hw hnum, hpar]; rfl
  rw [binNote_eq_ite, hlast, zero_hw hnum, hnum, hwNum_eq, hwNum_le, hwNum_lt]

theorem sounds_hw (a : List (Merged Word)) : E.sounds a = f32Le 0x3A83126F (E.level a) := by
  rw [Env.sounds, silThr_hw hnum hpar, hnum]
  rfl

/-- R259: the accumulator starts at the phase of the loudest target, runs on, or falls silent. -/
theorem noteStep_hw (ph : List Word) (a : List (Merged Word)) (n : Nat) (acc : Word) (sil : Nat) :
    E.noteStep ph a n acc sil =
      let silent := if E.sounds a then 0 else min (sil + 1) 8
      (if E.sounds a then
        if sil = 8 then E.wrap ((((E.loudest a).bind Merged.dom).map fun k => ph.getD k 0).getD 0) else E.accNext n acc
      else if silent = 8 then 0 else E.accNext n acc, silent) := by
  have hfull : E.par.silFrames = 8 := by rw [hpar]; rfl
  unfold Env.noteStep Env.at_
  rw [hfull, zero_hw hnum]
  cases E.sounds a <;> simp only [if_true, if_false, Bool.false_eq_true] <;> split <;> rfl

theorem envGain_hw (env post : Word) :
    E.envGain env post = E.min2 (f32Div env (E.max2 post 0x2EDBE6FF)) 0x41800000 := by
  rw [Env.envGain, qEps_hw hnum hpar, qGmax_hw hnum hpar, hnum]
  rfl

end

/-! ### What a QNT with positive strength computes, entry by entry (R250, R258 to R261), for every numerics record -/

section
variable {R : Type} {E : Env R} {x : QuantIn R}

theorem quantNotes_eq_tabulate : E.quantNotes x = tabulate E.lines fun k => (E.quantTarget (E.quantMap x) k).map Prod.snd :=
  List.map_map

/-- Every bin has the target that R258 gives it, and stays where it is when it is skipped. -/
theorem quantMerged_eq_redist : E.quantMerged x =
    E.redist x.mag x.ph E.lines fun k => some (((E.quantTarget (E.quantMap x) k).map Prod.fst).getD k) :=
  redist_congr fun k hk => by rw [targetOf, Env.quantTargets, getD_tabulate _ _ _ _ hk]

/-- A target has a note of the hardware, if any (R244, R259). -/
theorem targetNote_quantNotes_lt {o : Merged R} {note : Nat} (h : targetNote (E.quantNotes x) o = some note) :
    note < E.par.notes := by
  obtain ⟨k, -, hk⟩ := Option.bind_eq_some_iff.1 h
  have hmem : some note ∈ E.quantNotes x := by
    rw [List.getD_eq_getElem?_getD] at hk
    cases hget : (E.quantNotes x)[k]? with
    | none => simp [hget] at hk
    | some v =>
      obtain rfl : v = some note := by simpa [hget] using hk
      exact List.mem_of_getElem? hget
  rw [quantNotes_eq_tabulate, mem_tabulate] at hmem
  obtain ⟨j, -, hj⟩ := hmem
  obtain ⟨⟨t, note⟩, htarget, rfl⟩ := Option.map_eq_some_iff.1 hj
  rw [quantTarget_eq_bind] at htarget
  obtain ⟨n, hnote, hin⟩ := Option.bind_eq_some_iff.1 htarget
  split at hin
  · cases hin
  · obtain ⟨-, rfl⟩ := Prod.mk.inj (Option.some.inj hin)
    exact binNote_lt hnote

theorem quantFrame_getElem_line {k : Nat} (hk : k < E.lines) (h : k < (E.quantFrame x).length) :
    (E.quantFrame x)[k] = ⟨E.at_ (E.quantMags x) k, E.at_ (E.quantPhases x) k⟩ := by
  simp [Env.quantFrame, Env.at_, List.getElem_append_left, hk]

theorem quantFrame_getElem_nyquist (h : E.lines < (E.quantFrame x).length) :
    (E.quantFrame x)[E.lines] = ⟨E.zero, E.zero⟩ := by simp [Env.quantFrame]

/-- The new accumulator and silence counter of note `n` (R259). -/
def Env.noteHistory (E : Env R) (x : QuantIn R) (n : Nat) : R × Nat :=
  E.noteStep x.ph (noteTargets (E.quantNotes x) (E.quantMerged x) n) n (E.at_ x.acc n) (x.sil.getD n 0)

theorem quantHistory_eq_tabulate : E.quantHistory x = tabulate E.par.notes (E.noteHistory x) := rfl

theorem quantHistory_getElem {n : Nat} (h : n < (E.quantHistory x).length) : (E.quantHistory x)[n] = E.noteHistory x n :=
  getElem_tabulate _ _ _ _

/-- The phase of a target is that of its dominant contributor, or the accumulator of its note where that sounds (R260). -/
theorem at_quantPhases {k : Nat} {o : Merged R} (hk : (E.quantMerged x)[k]? = some o) : E.at_ (E.quantPhases x) k =
    match targetNote (E.quantNotes x) o with
    | none => o.ph
    | some n =>
      if E.sounds (noteTargets (E.quantNotes x) (E.quantMerged x) n) then (E.noteHistory x n).1 else o.ph := by
  have hentry : E.at_ (E.quantPhases x) k =
      E.quantPhase (E.quantNotes x) (E.quantMerged x) ((E.quantHistory x).map Prod.fst) o := by
    simp [Env.quantPhases, Env.at_, hk]
  rw [hentry, Env.quantPhase]
  cases hnote : targetNote (E.quantNotes x) o with
  | none => rfl
  | some n =>
    have hacc : E.at_ ((E.quantHistory x).map Prod.fst) n = (E.noteHistory x n).1 := by
      simp [Env.at_, quantHistory_eq_tabulate, tabulate, targetNote_quantNotes_lt hnote]
    simp only [hacc]

/-- The magnitude of a target where no envelope is reimposed (R250). -/
theorem at_quantMags_plain {k : Nat} {o : Merged R} (hk : (E.quantMerged x)[k]? = some o) (henv : x.envelope = none) :
    E.at_ (E.quantMags x) k = o.mag := by
  simp [Env.quantMags, henv, Env.at_, hk]

/-- The magnitude of a target where the envelope `env` may be reimposed (R261). -/
theorem at_quantMags_envelope {k : Nat} {o : Merged R} (hk : (E.quantMerged x)[k]? = some o) {env : List R}
    (henv : x.envelope = some env) : E.at_ (E.quantMags x) k =
      if E.num.lt E.zero (E.clamp01 x.preserve) then
        E.envScale (E.clamp01 x.preserve) (E.envGain (E.at_ env (x.band.getD k 0))
          (E.at_ (E.envOf x.band ((E.quantMerged x).map Merged.mag)) (x.band.getD k 0))) o.mag
      else o.mag := by
  have hlines : k < E.lines := by
    rw [← length_quantMerged E x]
    exact (List.getElem?_eq_some_iff.1 hk).1
  have hmag : E.at_ ((E.quantMerged x).map Merged.mag) k = o.mag := by simp [Env.at_, hk]
  simp only [Env.quantMags, henv]
  split
  · rw [← hmag]
    exact getD_tabulate _ _ _ _ hlines
  · exact hmag

end

/-! ### What a QNT with positive strength stores (R250) -/

section
variable {s : State} {p : Csrs} {rd rs1 : SReg}

/-- The state after the stores of a QNT with positive strength: the frame, the accumulators, the silence counters. -/
def State.putQuant (s : State) (rd : SReg) (frame : List (Bin Word)) (hist : List (Word × Nat)) : State :=
  ((s.putFrame rd frame).putWords accBase (hist.map Prod.fst)).putWords silBase (natWords (hist.map Prod.snd))

variable {frame : List (Bin Word)} {hist : List (Word × Nat)}

/-- The frame registers lie below the history (R73). -/
theorem putQuant_word_frame {k : Nat} (hk : k < frame.length) (hsize : frame.length ≤ 4096) :
    (s.putQuant rd frame hist).word (sBase rd + 2 * k) = frame[k].mag ∧
      (s.putQuant rd frame hist).word (sBase rd + 2 * k + 1) = frame[k].ph := by
  have hrd : rd.val < 4 := rd.isLt
  have hkept {a : Nat} (ha : a < accBase) : (s.putQuant rd frame hist).word a = (s.putFrame rd frame).word a := by
    have hsil : a < silBase := ha.trans (by decide)
    rw [State.putQuant, putWords_word_outside _ _ _ _ (.inl hsil), putWords_word_outside _ _ _ _ (.inl ha)]
  have hbelow : sBase rd + 2 * k + 1 < accBase := by
    simp only [sBase, accBase]
    omega
  rw [hkept (by omega), hkept hbelow]
  exact putFrame_word s rd frame k hk

theorem putQuant_word_history (hlen : hist.length = 128) {n : Nat} (hn : n < hist.length) :
    (s.putQuant rd frame hist).word (accBase + n) = hist[n].1 ∧
      (s.putQuant rd frame hist).word (silBase + n) = BitVec.ofNat 32 hist[n].2 := by
  have hbelow : accBase + n < silBase := by
    simp only [accBase, silBase]
    omega
  constructor
  · rw [State.putQuant, putWords_word_outside _ _ _ _ (.inl hbelow), putWords_word_inside _ _ _ n (by simpa using hn),
      List.getElem_map]
  · rw [State.putQuant, putWords_word_inside _ _ _ n (by simpa using hn)]
    simp [natWords]

/-- A QNT that is checked, with a strength above 0 and finite reals, completes and leaves the frame of R250, the history of R259
and the history registers of R256. -/
theorem exec_qnt_positive (hconf : s.params.Configured) (htag : s.params.tags.s[rs1].toNat = s.params.env.bins)
    (hpositive : ¬ s.params.strengthZeroIn s.params.env = true)
    (hreads : ∀ d ∈ s.quantReads rs1 s.params, f32Finite d.word = true)
    (hreals : allFinite (quantReals s.params.env (s.quantIn rs1 s.params))) :
    let E := s.params.env
    let x := s.quantIn rs1 s.params
    ∃ t, exec (.qnt rd rs1) s = .next t ∧
      (∀ k, k < E.lines → t.mag rd k = E.at_ (E.quantMags x) k ∧ t.ph rd k = E.at_ (E.quantPhases x) k) ∧
      (t.mag rd E.lines = 0 ∧ t.ph rd E.lines = 0) ∧
      (∀ n, n < 128 → t.word (accBase + n) = (E.noteHistory x n).1 ∧
        t.word (silBase + n) = BitVec.ofNat 32 (E.noteHistory x n).2) ∧
      SameBytesOutside [frameBlock rd (E.lines + 1), ⟨accBase, 128⟩, ⟨silBase, 128⟩] s.mem t.mem ∧ t.delay = s.delay ∧
      s.Finished t ({ s.csr with
        qPrevE := E.energy x.mag
        qTrCnt := BitVec.ofNat 32 (E.quantCnt x - 1)
        qFirst := false }.withSLen rd (E.lines + 1)) := by
  intro E x
  have heffect := (congrFun (effectOf_qnt_positive hpositive) s).trans (quantRunEffect_spc s.params s rd rs1)
  have hregisters := quantRunEffect_uniform s.params rd rs1
  have hblocks := qntEffect_inBlocks s.params s rd rs1
  rw [← effectOf_qnt_positive hpositive] at hregisters
  have hfinished := hregisters.finished (s := s)
  rw [EffectInBlocks, heffect, Csrs.writtenBlocks,
    if_neg (show ¬ s.params.strengthZero = true from hpositive)] at hblocks
  rw [heffect] at hfinished
  have hexec := exec_completes (issueFault_qnt_none (rd := rd) hconf htag) (by
    rw [heffect]
    intro d hd
    obtain hd | hd := List.mem_append.1 hd
    · exact (quantReads_ok s.params s hd).trans (hreads d hd)
    · obtain ⟨w, hw, rfl⟩ := List.mem_map.1 hd
      exact hreals w hw)
  rw [heffect] at hexec
  have hlen : (E.quantFrame x).length = E.lines + 1 := length_quantFrame E x
  have hsize : (E.quantFrame x).length ≤ 4096 := hlen.trans_le (hconf.bins_le.trans hconf.size_le)
  have hbin {k : Nat} (hk : k < (E.quantFrame x).length) :=
    putQuant_word_frame (s := s) (rd := rd) (hist := E.quantHistory x) hk hsize
  refine ⟨_, hexec, fun k hk => ?_, ?_, fun n hn => ?_, hblocks, rfl, hfinished⟩
  · have hline := hbin (k := k) (by omega)
    rwa [quantFrame_getElem_line hk] at hline
  · have hnyquist := hbin (k := E.lines) (by omega)
    rw [quantFrame_getElem_nyquist, env_zero] at hnyquist
    exact hnyquist
  · have hhist := putQuant_word_history (s := s) (rd := rd) (frame := E.quantFrame x) (hist := E.quantHistory x)
      (length_quantHistory E x) (n := n) (by rw [length_quantHistory]; exact hn)
    rwa [quantHistory_getElem] at hhist

end

/-! ### QNT with a positive strength, spelled in binary32 (R250) -/

section
variable (s : State) (p : Csrs) (rs1 : SReg)

theorem quantIn_mag : (s.quantIn rs1 p).mag = tabulate p.env.lines (s.mag rs1) := by
  rw [quantIn_spc, ← frame_map_mag]

theorem quantIn_ph : (s.quantIn rs1 p).ph = tabulate p.env.lines (s.ph rs1) := by
  rw [quantIn_spc, ← frame_map_ph]

theorem quantIn_band : (s.quantIn rs1 p).band = tabulate p.env.lines fun k => (s.word (bandBase + k)).toNat := by
  rw [quantIn_spc]
  exact List.map_map

theorem quantIn_envelope : (s.quantIn rs1 p).envelope =
    if p.quant.envEn then some (tabulate 48 fun b => s.word (envBase + b)) else none := by
  rw [quantIn_spc]
  rfl

theorem strength_mem_quantReads : hwDatum p.quant.strength ∈ s.quantReads rs1 p := by
  simp [State.quantReads, Storage.quantReads]

/-- R258: the position of a target on the hardware, with the drift value of the bin where the drift is enabled. -/
theorem targetPos_frame {k : Nat} (hk : k < p.env.lines) (note : Nat) :
    let ft := f32Add (p.env.binfreq k) (f32Mul (p.env.quantStrength (s.quantIn rs1 p))
      (f32Sub (p.env.notefreq note) (p.env.binfreq k)))
    p.env.targetPos (p.env.quantMap (s.quantIn rs1 p)) k note = f32Div (f32Mul
      (if p.quant.driftEn then f32Mul ft (f32Exp2 (f32Div (s.word (driftBase + k)) (f32OfInt 1200))) else ft)
      (f32OfInt p.env.n)) p.active.fs := by
  have hdrift : (p.env.quantMap (s.quantIn rs1 p)).drift =
      if p.quant.driftEn then some (s.words driftBase p.env.lines) else none := by
    rw [Env.quantMap, quantIn_spc]
  have hstrength : (p.env.quantMap (s.quantIn rs1 p)).strength = p.env.quantStrength (s.quantIn rs1 p) := rfl
  rw [targetPos_hw (E := p.env) rfl, hdrift, hstrength]
  cases p.quant.driftEn with
  | false => simp only [Bool.false_eq_true, if_false, env_fs]
  | true => simp only [if_true, Env.at_, getD_words s _ _ _ k hk, env_fs]

/-- R255: the detection test on the hardware. -/
theorem transientDetected_env (e : Word) :
    p.env.transientDetected p.qFirst p.qTrCnt.toNat p.quant.transThr p.qPrevE e = p.transient e := by
  have hcount : (p.qTrCnt.toNat == 0) = (p.qTrCnt == 0) := by
    rw [Bool.eq_iff_iff, beq_iff_eq, beq_iff_eq, ← BitVec.toNat_inj]
    rfl
  rw [Env.transientDetected, Env.transientLimit, max2_hw (E := p.env) rfl, hcount]
  rfl

/-- R256: the counter at the start of the ramp step, 8 on a transient. -/
theorem quantCnt_frame : p.env.quantCnt (s.quantIn rs1 p) =
    if p.transient (p.env.energy (tabulate p.env.lines (s.mag rs1))) then 8 else p.qTrCnt.toNat := by
  rw [Env.quantCnt, quantIn_mag, ← transientDetected_env]
  rw [quantIn_spc]
  rfl

/-- R255 to R257: the effective strength on the hardware. -/
theorem quantStrength_frame : p.env.quantStrength (s.quantIn rs1 p) = f32Mul (p.env.clamp01 p.quant.strength)
    (f32Sub 0x3F800000 (f32Mul (p.env.clamp01 p.quant.transAmt) (p.env.rampFactor (p.env.quantCnt (s.quantIn rs1 p))))) := by
  rw [Env.quantStrength, effStrength_hw (E := p.env) rfl]
  simp only [quantIn_spc]

/-- R258: the target and the note of a bin on the hardware. -/
theorem quantTarget_frame {k : Nat} (hk : k < p.env.lines) :
    let f := p.env.binfreq k
    let strength := p.env.quantStrength (s.quantIn rs1 p)
    let drifted := fun v =>
      if p.quant.driftEn then f32Mul v (f32Exp2 (f32Div (s.word (driftBase + k)) (f32OfInt 1200))) else v
    p.env.quantTarget (p.env.quantMap (s.quantIn rs1 p)) k =
      if f32Eq strength 0 || f32Le f 0 || f32Lt (p.env.midi f) 0 || f32Lt (f32OfInt 127) (p.env.midi f) then none
      else (p.env.near (fun n => p.inScl n) (p.env.midi f)).bind fun note =>
        let ft := drifted (f32Add f (f32Mul strength (f32Sub (p.env.notefreq note) f)))
        let t := saturate (f32Floor (f32Add (f32Div (f32Mul ft (f32OfInt p.env.n)) p.active.fs) 0x3F000000))
        if t < 0 ∨ (p.env.lines : Int) - 1 < t then none else some (t.toNat, note) := by
  have hinScl : (p.env.quantMap (s.quantIn rs1 p)).inScl = fun n => p.inScl n := by simp only [Env.quantMap, quantIn_spc]
  have hstrength : (p.env.quantMap (s.quantIn rs1 p)).strength = p.env.quantStrength (s.quantIn rs1 p) := rfl
  have hposition := targetPos_frame s p rs1 hk
  rw [quantTarget_eq_bind, binNote_hw (E := p.env) rfl rfl, hinScl, hstrength]
  simp only [rnd_hw (E := p.env) rfl, hposition]
  split <;> rfl

/-- R259: the new accumulator and silence counter of a note on the hardware. -/
theorem noteHistory_frame {n : Nat} (hn : n < 128) :
    let x := s.quantIn rs1 p
    let mine := noteTargets (p.env.quantNotes x) (p.env.quantMerged x) n
    let sil := (s.word (silBase + n)).toNat
    let silent := if f32Le 0x3A83126F (p.env.level mine) then 0 else min (sil + 1) 8
    let run := p.env.accNext n (s.word (accBase + n))
    p.env.noteHistory x n = (if f32Le 0x3A83126F (p.env.level mine) then
        if sil = 8 then p.env.wrap ((((p.env.loudest mine).bind Merged.dom).map fun k =>
          (tabulate p.env.lines (s.ph rs1)).getD k 0).getD 0) else run
      else if silent = 8 then 0 else run, silent) := by
  have hacc : p.env.at_ (s.quantIn rs1 p).acc n = s.word (accBase + n) := by
    simp only [quantIn_spc]
    exact getD_words s _ _ _ n hn
  have hsil : (s.quantIn rs1 p).sil.getD n 0 = (s.word (silBase + n)).toNat := by
    simp only [quantIn_spc]
    exact getD_nats s hn 0
  dsimp only
  rw [Env.noteHistory, quantIn_ph, hacc, hsil, noteStep_hw (E := p.env) rfl rfl, sounds_hw (E := p.env) rfl rfl]

/-- R261: the magnitude of a target on the hardware. -/
theorem quantMags_frame {k : Nat} {o : Merged Word} (ho : (p.env.quantMerged (s.quantIn rs1 p))[k]? = some o) :
    let band := fun k => (s.word (bandBase + k)).toNat
    let preserve := p.env.clamp01 p.quant.preserve
    let post := p.env.envOf (tabulate p.env.lines band) ((p.env.quantMerged (s.quantIn rs1 p)).map Merged.mag)
    let gain := fun b => p.env.min2 (f32Div ((tabulate 48 fun b => s.word (envBase + b)).getD b 0)
      (p.env.max2 (post.getD b 0) 0x2EDBE6FF)) 0x41800000
    p.env.at_ (p.env.quantMags (s.quantIn rs1 p)) k =
      if p.quant.envEn && f32Lt 0 preserve then
        f32Mul o.mag (f32Add (f32Sub 0x3F800000 preserve) (f32Mul preserve (gain (band k))))
      else o.mag := by
  intro band preserve post gain
  have hk : k < p.env.lines := by
    rw [← length_quantMerged p.env (s.quantIn rs1 p)]
    exact (List.getElem?_eq_some_iff.1 ho).1
  have hband : (s.quantIn rs1 p).band = tabulate p.env.lines band := quantIn_band s p rs1
  have hbandk : (s.quantIn rs1 p).band.getD k 0 = band k := by rw [hband, getD_tabulate _ _ _ _ hk]
  have hpreserve : p.env.clamp01 (s.quantIn rs1 p).preserve = preserve := by simp only [quantIn_spc, preserve]
  have henvelope := quantIn_envelope s p rs1
  cases hen : p.quant.envEn with
  | false =>
    rw [hen] at henvelope
    exact at_quantMags_plain ho henvelope
  | true =>
    rw [hen] at henvelope
    rw [at_quantMags_envelope ho henvelope, hbandk, hpreserve, hband, envScale_hw (E := p.env) rfl,
      envGain_hw (E := p.env) rfl rfl, env_zero, env_num, hwNum_lt]
    simp only [Bool.true_and, Env.at_, env_zero]
    rfl

end

/-- Settles O43: each rule of R250 in binary32, on what the command stores. -/
theorem qntQuantizes : Obligations.QntQuantizes := by
  unfold Obligations.QntQuantizes
  intro rd rs1 s hconf p E fs mags phs band sil e cnt strength freq ratio octaves midi notefreq drifted target notes merged
    mine sounds silent run attack acc phase preserve post gain magnitude htag hpos hreads hreals
  have hnum : E.num = hwNum := rfl
  have hpar : E.par = Params.spc := rfl
  let x := s.quantIn rs1 p
  have hfin : f32Finite p.quant.strength = true := hreads (hwDatum p.quant.strength) (strength_mem_quantReads s p rs1)
  have hpositive : ¬ p.strengthZeroIn E = true := fun h => absurd ((strengthZeroIn_iff hfin).1 h) (not_le.2 hpos)
  have hmags : x.mag = mags := quantIn_mag s p rs1
  have hphs : x.ph = phs := quantIn_ph s p rs1
  have hcnt : E.quantCnt x = cnt := quantCnt_frame s p rs1
  have hstrength : E.quantStrength x = strength := (quantStrength_frame s p rs1).trans (by rw [hcnt])
  have htarget (k : Nat) (hk : k < E.lines) : E.quantTarget (E.quantMap x) k = target k := by
    have hfreq : E.binfreq k = freq k := binfreq_hw hnum k
    have hmidi : E.midi (freq k) = midi k := midi_hw hnum hpar _
    have hnotefreq : E.notefreq = notefreq := funext (notefreq_hw hnum hpar)
    have h := quantTarget_frame s p rs1 hk
    dsimp only at h
    rw [hstrength, hfreq, hmidi, hnotefreq] at h
    exact h
  have hnotes : E.quantNotes x = notes :=
    quantNotes_eq_tabulate.trans (List.map_congr_left fun k hk => by rw [htarget k (List.mem_range.1 hk)])
  have hmerged : E.quantMerged x = merged := by
    rw [quantMerged_eq_redist, hmags, hphs]
    exact redist_congr fun k hk => by rw [htarget k hk]
  have hmine (n : Nat) : noteTargets (E.quantNotes x) (E.quantMerged x) n = mine n := by
    rw [hnotes, hmerged]
    rfl
  have hhistory (n : Nat) (hn : n < 128) : E.noteHistory x n = (acc n, silent n) := by
    have hrun : E.accNext n (s.word (accBase + n)) = run n := by
      rw [accNext_hw hnum, notefreq_hw hnum hpar]
      rfl
    have h := noteHistory_frame s p rs1 hn
    dsimp only at h
    rw [hmine, hrun] at h
    exact h
  have hphase {k : Nat} {o : Merged Word} (ho : (E.quantMerged x)[k]? = some o) : E.at_ (E.quantPhases x) k = phase o := by
    have htargetNote : targetNote (E.quantNotes x) o = o.dom.bind fun k => notes.getD k none := by
      rw [hnotes]
      rfl
    rw [at_quantPhases ho, htargetNote]
    dsimp only [phase]
    cases hnote : o.dom.bind fun k => notes.getD k none with
    | none => rfl
    | some n =>
      have hn : n < 128 := targetNote_quantNotes_lt (htargetNote.trans hnote)
      simp only [hmine, hhistory n hn, sounds_hw hnum hpar]
      rfl
  have hmagnitude {k : Nat} {o : Merged Word} (ho : (E.quantMerged x)[k]? = some o) :
      E.at_ (E.quantMags x) k = magnitude k o.mag := by
    have h := quantMags_frame s p rs1 ho
    rw [hmerged] at h
    exact h
  obtain ⟨t, hexec, hframe, ⟨hnyquistMag, hnyquistPh⟩, hstored, hblocks, hdelay, hfinished⟩ :=
    exec_qnt_positive (rd := rd) hconf htag hpositive hreads hreals
  rw [hcnt, hmags] at hfinished
  refine ⟨t, hexec, fun k hk => ?_, hnyquistMag, hnyquistPh, fun n hn => ?_, hblocks, hdelay, hfinished⟩
  · have ho : (E.quantMerged x)[k]? = some ((E.quantMerged x)[k]'(by rwa [length_quantMerged])) := List.getElem?_eq_getElem _
    obtain ⟨hmag, hph⟩ := hframe k hk
    exact ⟨_, hmerged ▸ ho, hmag.trans (hmagnitude ho), hph.trans (hphase ho)⟩
  · obtain ⟨hacc, hsil⟩ := hstored n hn
    rw [hhistory n hn] at hacc hsil
    exact ⟨hacc, hsil⟩

/-! ### The nearest note in the exact reals (R244) -/

section
variable {E : Env ℝ} (hE : E.num = exactNum) {inScl : Nat → Bool} {m : ℝ}

theorem near_eq_none_iff {R : Type} {E : Env R} {inScl : Nat → Bool} {m : R} :
    E.near inScl m = none ↔ ∀ i, i < E.par.notes → inScl i = false := by
  have hnil : E.near inScl m = none ↔ (List.range E.par.notes).filter inScl = [] := by
    unfold Env.near
    split
    · next h => simp [h]
    · next h => simp [h]
  rw [hnil]
  simp

include hE

theorem exact_abs (x : ℝ) : E.abs x = |x| := by
  simp only [Env.abs, Env.neg, exact_zero hE, hE, exactNum, decide_eq_true_eq, zero_sub]
  split
  · next h => rw [abs_of_neg h]
  · next h => rw [abs_of_nonneg (not_lt.1 h)]

/-- R244: the nearest note is in scale and dominates every note in scale in nearness. -/
theorem exact_near {i : Nat} (h : E.near inScl m = some i) : i < E.par.notes ∧ inScl i = true ∧
    ∀ j, j < E.par.notes → inScl j = true → Dominates (fun j => -|(j : ℝ) - m|) i j := by
  obtain ⟨hlt, hin⟩ := near_mem h
  refine ⟨hlt, hin, fun j hj hinj => ?_⟩
  have hstep : (fun b j => if E.num.lt (E.abs (E.num.sub (E.nat j) m)) (E.abs (E.num.sub (E.nat b) m)) then j else b) =
      largerOf fun j : Nat => -|(j : ℝ) - m| := by
    funext b j
    simp [largerOf, exact_abs hE, Env.nat, hE, exactNum]
  have hmem : j ∈ (List.range E.par.notes).filter inScl := by simp [hj, hinj]
  have hsorted : ((List.range E.par.notes).filter inScl).Pairwise (· < ·) := List.pairwise_lt_range.filter _
  unfold Env.near at h
  split at h
  · cases h
  · next n ns hnotes =>
    rw [hnotes] at hmem hsorted
    rw [← Option.some.inj h, hstep]
    exact (foldl_largerOf_dominates _ ns n hsorted).2 j hmem

end

/-! ### The note frequencies on the hardware (R241)

The interval of a note is one where `exp2` is pinned, so that no free value is left (log 2). -/

/-- The interval of a note is found again among those of all notes. -/
theorem nearestSemitone_semitones : ∀ n : Nat, n < 128 → f32Finite (semitones ((n : ℤ) - 69)) = true ∧
    nearestSemitone (semitones ((n : ℤ) - 69)) = (n : ℤ) - 69 := by decide +kernel

theorem f32Exp2_semitones {n : Nat} (hn : n < 128) :
    f32Exp2 (semitones ((n : ℤ) - 69)) = f32OfFix (noteRatio ((n : ℤ) - 69)) := by
  obtain ⟨hfin, hnearest⟩ := nearestSemitone_semitones n hn
  have hnote : isNoteInterval (semitones ((n : ℤ) - 69)) = true := by
    simp only [isNoteInterval, hnearest, beq_self_eq_true, Bool.and_true, Bool.and_eq_true, decide_eq_true_eq]
    omega
  simp only [f32Exp2, hfin, Bool.not_true, Bool.false_eq_true, if_false, hnote, if_true, hnearest]

/-- The frequency of a note on the hardware. -/
def noteFrequency (n : Nat) : Word := f32Mul 0x43DC0000 (f32OfFix (noteRatio ((n : ℤ) - 69)))

theorem notefreq_hw_eq {E : Env Word} (hnum : E.num = hwNum) (hpar : E.par = Params.spc) {n : Nat} (hn : n < 128) :
    E.notefreq n = noteFrequency n := by
  have hexp := f32Exp2_semitones hn
  rw [semitones] at hexp
  rw [notefreq_hw hnum hpar, hexp, noteFrequency]

/-- The twelfth power of a note frequency lies between those of the exact frequency less and plus 1e-5 of it: 128 comparisons of
integers. -/
theorem noteFrequency_pow : ∀ n : Nat, n < 128 → f32Finite (noteFrequency n) = true ∧ 0 ≤ f32Fix (noteFrequency n) ∧
    99999 ^ 12 * 440 ^ 12 * 2 ^ n * (2 ^ 149) ^ 12 ≤ f32Fix (noteFrequency n) ^ 12 * 100000 ^ 12 * 2 ^ 69 ∧
    f32Fix (noteFrequency n) ^ 12 * 100000 ^ 12 * 2 ^ 69 ≤ 100001 ^ 12 * 440 ^ 12 * 2 ^ n * (2 ^ 149) ^ 12 := by
  decide +kernel

/-- The frequency of a note in the exact reals (R241). -/
noncomputable def exactFrequency (n : Nat) : ℝ := 440 * (2 : ℝ) ^ (((n : ℝ) - 69) / 12)

theorem exactFrequency_pos (n : Nat) : 0 < exactFrequency n := by
  unfold exactFrequency
  positivity

/-- Twelve semitones are an octave. -/
theorem exactFrequency_pow (n : Nat) : exactFrequency n ^ 12 * 2 ^ 69 = 440 ^ 12 * 2 ^ n := by
  have hoctaves : ((2 : ℝ) ^ (((n : ℝ) - 69) / 12)) ^ 12 * 2 ^ 69 = 2 ^ n := by
    rw [← Real.rpow_natCast, ← Real.rpow_mul (by norm_num), ← Real.rpow_natCast 2 69, ← Real.rpow_add (by norm_num),
      ← Real.rpow_natCast 2 n]
    congr 1
    push_cast
    ring
  rw [exactFrequency, mul_pow, mul_assoc, hoctaves]

theorem noteFrequency_near {n : Nat} (hn : n < 128) : f32Finite (noteFrequency n) = true ∧
    |realOf (noteFrequency n) - exactFrequency n| ≤ exactFrequency n / 100000 := by
  obtain ⟨hfin, hnonneg, hlow, hhigh⟩ := noteFrequency_pow n hn
  refine ⟨hfin, ?_⟩
  have hexact := exactFrequency_pow n
  have hpos := exactFrequency_pos n
  rw [realOf]
  generalize f32Fix (noteFrequency n) = z at hnonneg hlow hhigh
  generalize exactFrequency n = y at hexact hpos
  have hz : (0 : ℝ) ≤ z := by exact_mod_cast hnonneg
  have hlow' : (99999 * y * 2 ^ 149) ^ 12 ≤ (z * 100000 : ℝ) ^ 12 := by
    have hcast : (99999 ^ 12 * 440 ^ 12 * 2 ^ n * (2 ^ 149) ^ 12 : ℝ) ≤ (z : ℝ) ^ 12 * 100000 ^ 12 * 2 ^ 69 := by
      exact_mod_cast hlow
    rw [mul_assoc _ (440 ^ 12) (2 ^ n : ℝ), ← hexact] at hcast
    refine le_of_mul_le_mul_right ?_ (show (0 : ℝ) < 2 ^ 69 by positivity)
    linarith
  have hhigh' : (z * 100000 : ℝ) ^ 12 ≤ (100001 * y * 2 ^ 149) ^ 12 := by
    have hcast : (z : ℝ) ^ 12 * 100000 ^ 12 * 2 ^ 69 ≤ (100001 ^ 12 * 440 ^ 12 * 2 ^ n * (2 ^ 149) ^ 12 : ℝ) := by
      exact_mod_cast hhigh
    rw [mul_assoc _ (440 ^ 12) (2 ^ n : ℝ), ← hexact] at hcast
    refine le_of_mul_le_mul_right ?_ (show (0 : ℝ) < 2 ^ 69 by positivity)
    linarith
  rw [pow_le_pow_iff_left₀ (by positivity) (by positivity) (by norm_num)] at hlow' hhigh'
  rw [abs_le]
  constructor
  · rw [neg_le_sub_iff_le_add, ← sub_le_iff_le_add, le_div_iff₀ (by positivity)]
    linarith
  · rw [sub_le_iff_le_add, div_le_iff₀ (by positivity)]
    linarith

/-! ### The accumulator of a note over several frames (R259, R265) -/

section
variable (n : Nat) (hop : Int) (fs : ℝ)

/-- Numbers that lie whole turns apart have the same `wrap` (R10). -/
theorem exactWrap_wrap_add (x y : ℝ) :
    (exactEnv n hop fs).wrap ((exactEnv n hop fs).wrap x + y) = (exactEnv n hop fs).wrap (x + y) := by
  rw [exactWrap_eq_sub_ceil n hop fs x, sub_add_eq_add_sub, exactWrap_sub_turns]

/-- In the exact reals an accumulator turns by the increment of its note every frame. -/
theorem exact_accNext_iterate (note : Nat) {a : ℝ} (ha : (exactEnv n hop fs).wrap a = a) (frames : Nat) :
    ((exactEnv n hop fs).accNext note)^[frames] a =
      (exactEnv n hop fs).wrap (a + frames * (exactEnv n hop fs).noteIncr note) := by
  induction frames with
  | zero => simp [ha]
  | succ frames ih =>
    rw [Function.iterate_succ_apply', ih]
    refine (exactWrap_wrap_add n hop fs _ _).trans (congrArg _ ?_)
    push_cast
    ring

theorem exact_noteIncr (note : Nat) :
    (exactEnv n hop fs).noteIncr note = 2 * Real.pi * exactFrequency note * hop / fs := by
  simp [Env.noteIncr, Env.notefreq, Env.twoPi, Env.two, Env.lit, Env.nat, exactEnv, exactNum, Params.spc, exactFrequency]

end

/-- The phase of the worked example after a number of frames, in millionths (R265). -/
def examplePhase (frames : Nat) : Int :=
  [500000, -729835, -1959671, 3093680, 1863844, 634009, -595826, -1825661, -3055497].getD frames 0

/-- The whole turns that `wrap` has taken off in the worked example after a number of frames. -/
def exampleTurns (frames : Nat) : Int := [0, 16, 32, 47, 63, 79, 95, 111, 127].getD frames 0

/-- On the hardware the worked example is within three millionths of its phases, over all its frames. -/
theorem example_accumulator : ∀ frames : Nat, frames ≤ 8 →
    (f32Fix (((⟨hwNum, Params.spc, 256, 64, 0x45FA0000⟩ : Env Word).accNext 95)^[frames] 0x3F000000) * 1000000
      - examplePhase frames * 2 ^ 149).natAbs ≤ 3 * 2 ^ 149 := by decide +kernel

/-- 1975.5332 Hz, from its twelfth power. -/
theorem exactFrequency_95 : 1975.53320502 < exactFrequency 95 ∧ exactFrequency 95 < 1975.53320503 := by
  have hpow : exactFrequency 95 ^ 12 = 440 ^ 12 * 2 ^ 26 := by
    have h := exactFrequency_pow 95
    refine mul_right_cancel₀ (show (2 : ℝ) ^ 69 ≠ 0 by positivity) ?_
    rw [h]
    norm_num
  have hpos := (exactFrequency_pos 95).le
  constructor
  · rw [← pow_lt_pow_iff_left₀ (by norm_num) hpos (show 12 ≠ 0 by norm_num), hpow]
    norm_num
  · rw [← pow_lt_pow_iff_left₀ hpos (by norm_num) (show 12 ≠ 0 by norm_num), hpow]
    norm_num

/-- The increment of note 95 in the worked example, 99.3 radians a frame. -/
theorem exact_noteIncr_95 :
    99.30112966 < (exactEnv 256 64 8000).noteIncr 95 ∧ (exactEnv 256 64 8000).noteIncr 95 < 99.30112967 := by
  obtain ⟨hlow, hhigh⟩ := exactFrequency_95
  have hpiLow := Real.pi_gt_d20
  have hpiHigh := Real.pi_lt_d20
  have hincr : (exactEnv 256 64 8000).noteIncr 95 = Real.pi * exactFrequency 95 * 0.016 := by
    rw [exact_noteIncr]
    push_cast
    ring
  have hprodLow := mul_lt_mul'' hpiLow hlow (by norm_num) (by norm_num)
  have hprodHigh := mul_lt_mul'' hpiHigh hhigh Real.pi_pos.le (exactFrequency_pos 95).le
  rw [hincr]
  constructor <;> linarith

/-- In the exact reals the worked example is within a millionth of its phases. -/
theorem exact_example {frames : Nat} (h : frames ≤ 8) :
    |((exactEnv 256 64 8000).accNext 95)^[frames] (1 / 2) - examplePhase frames / 1000000| ≤ 1 / 1000000 := by
  obtain ⟨hincrLow, hincrHigh⟩ := exact_noteIncr_95
  have hpiLow := Real.pi_gt_d20
  have hpiHigh := Real.pi_lt_d20
  have hstart : (exactEnv 256 64 8000).wrap (1 / 2) = 1 / 2 :=
    exactWrap_eq_of_turns _ _ _ (by linarith) (by linarith) 0 (by simp)
  have hnear : |1 / 2 + frames * (exactEnv 256 64 8000).noteIncr 95 - exampleTurns frames * (2 * Real.pi)
      - examplePhase frames / 1000000| ≤ 1 / 1000000 := by
    rw [abs_le]
    interval_cases frames <;> norm_num [exampleTurns, examplePhase] <;> constructor <;> linarith
  have hsize : |(examplePhase frames : ℝ) / 1000000| ≤ 3.1 := by
    rw [abs_le]
    interval_cases frames <;> norm_num [examplePhase]
  rw [exact_accNext_iterate _ _ _ _ hstart]
  obtain ⟨hlow, hhigh⟩ := abs_le.1 hnear
  obtain ⟨hsizeLow, hsizeHigh⟩ := abs_le.1 hsize
  rw [exactWrap_eq_of_turns 256 64 8000 (y := 1 / 2 + frames * (exactEnv 256 64 8000).noteIncr 95
    - exampleTurns frames * (2 * Real.pi)) (by linarith) (by linarith) (exampleTurns frames) (by ring)]
  exact hnear

theorem closeTo_of_near {x y c : ℝ} (hx : |x - c| ≤ 1 / 1000000) (hy : |y - c| ≤ 3 / 1000000) : closeTo x y := by
  have hdist : |y - x| ≤ 1 / 100000 := by
    have htriangle := abs_sub_le y c x
    rw [abs_sub_comm c x] at htriangle
    linarith
  have hone : 1 ≤ max 1 |x| := le_max_left _ _
  unfold closeTo
  linarith

/-- Settles O55: the search for the nearest note keeps the nearest, lowest note; the note frequencies by their twelfth powers; and
the two accumulators of the worked example are both near the phases of its table. -/
theorem nearestNote : Obligations.NearestNote := by
  unfold Obligations.NearestNote
  refine ⟨?_, ?_, fun i hi => ?_⟩
  · intro n hop fs m inScl E
    split
    · next hnone => exact near_eq_none_iff.1 hnone
    · next i hsome =>
      obtain ⟨hlt, hin, hnearest⟩ := exact_near (E := E) rfl hsome
      refine ⟨hlt, hin, fun j hj hinj => ?_⟩
      obtain h | ⟨h, hle⟩ := hnearest j hj hinj
      · exact .inl (neg_lt_neg_iff.1 h)
      · exact .inr ⟨(neg_inj.1 h).symm, hle⟩
  · intro p n hn exact
    rw [notefreq_hw_eq (E := p.env) rfl rfl hn]
    exact noteFrequency_near hn
  · refine closeTo_of_near (exact_example hi) ?_
    have hnear := example_accumulator i hi
    generalize ((⟨hwNum, Params.spc, 256, 64, 0x45FA0000⟩ : Env Word).accNext 95)^[i] 0x3F000000 = w at hnear ⊢
    have hcast : |(f32Fix w * 1000000 - examplePhase i * 2 ^ 149 : ℝ)| ≤ 3 * 2 ^ 149 := by
      rw [← Nat.cast_le (α := ℝ), Nat.cast_natAbs] at hnear
      exact_mod_cast hnear
    have hscale : realOf w - examplePhase i / 1000000 =
        (f32Fix w * 1000000 - examplePhase i * 2 ^ 149 : ℝ) / (1000000 * 2 ^ 149) := by
      rw [realOf]
      field_simp
    rw [hscale, abs_div, abs_of_pos (show (0 : ℝ) < 1000000 * 2 ^ 149 by positivity), div_le_iff₀ (by positivity)]
    exact hcast.trans_eq (by ring)

end Sys2Proof.Machine

/-! SUPPORT. The statements of the mask chapter (spec/46_mask.md): MSKB (R286), MSK (R288, R289), and the mask curves in the exact
reals and at the cutoff on the hardware (R281 to R284). -/

namespace Sys2Proof.Machine

/-! ### MSKB and the checks of both commands (R285, R286, R288) -/

section
variable {p : Csrs} {par : Params} {rate : Word → Bool} (h : p.Configured)
include h

theorem issueFault_mskb_none : p.issueFault .mskb par rate = none := configured_none h.ok _ _

theorem issueFault_msk_none (rd : SReg) {rs1 rs2 : SReg} (hwet : p.tags.s[rs1].toNat = p.env.bins)
    (hdry : p.tags.s[rs2].toNat = p.env.bins) : p.issueFault (.msk rd rs1 rs2) par rate = none := by
  refine (configured_none h.ok _ _).trans ?_
  rw [checkS_none hwet, checkS_none hdry]
  rfl

end

/-- The mask table in storage, entry by entry (R285). -/
theorem putWords_maskTable (s : State) (E : Env Word) (mode : MaskMode) (lo hi w : Word) {k : Nat} (hk : k < E.lines) :
    (s.putWords maskBase (E.maskTable mode lo hi w)).word (maskBase + k) = E.maskFn mode lo hi w (E.binfreq k) := by
  rw [putWords_word_inside _ _ _ k (by rwa [length_maskTable])]
  exact getElem_tabulate _ _ _ _

/-- Settles O44: the effect of MSKB stores the mask table, built from finite parameters. -/
theorem mskbBuildsMask : Obligations.MskbBuildsMask := by
  unfold Obligations.MskbBuildsMask
  intro s hconf p E value hlo hhi hwidth hvalues
  have hparams : allFinite p.maskParams :=
    allFinite_cons.2 ⟨hlo, allFinite_cons.2 ⟨hhi, allFinite_cons.2 ⟨hwidth, allFinite_nil⟩⟩⟩
  have htable : allFinite (E.maskTable p.mask.mode p.mask.lo p.mask.hi p.mask.width) := allFinite_tabulate.2 hvalues
  have hexec := exec_completes_hw (issueFault_mskb_none hconf) (mskbEffect_spc p s) (allFinite_append.2 ⟨hparams, htable⟩)
  have hblocks : SameBytesOutside [⟨maskBase, E.lines⟩] s.mem (effectOf .mskb p s).after.mem := mskbEffect_inBlocks _ _
  have hfinished := (mskbEffect_uniform p).finished (s := s)
  rw [show effectOf .mskb p s = _ from mskbEffect_spc p s] at hblocks hfinished
  exact ⟨_, hexec, fun k hk => putWords_maskTable s E _ _ _ _ hk, hblocks, rfl, hfinished⟩

/-! ### MSK (R288, R289) -/

/-- The blend of one bin on the hardware, with the split of the phase at one half (R288, R289). -/
theorem maskBin_env (p : Csrs) (m : Word) (wet dry : Bin Word) : p.env.maskBin m wet dry =
    ⟨f32Add (f32Mul wet.mag m) (f32Mul dry.mag (f32Sub 0x3F800000 m)),
      if f32Lt m 0x3F000000 then dry.ph else wet.ph⟩ := by
  have hsplit : p.env.lit p.env.par.maskPhaseSplit = 0x3F000000 := env_half p
  rw [Env.maskBin, hsplit, env_one]
  rfl

section
variable (p : Csrs) (s : State) (rs1 rs2 : SReg) {k : Nat}

/-- The frame that MSK makes of the frames `rs1` and `rs2` of `s` and of the mask table in `s`. -/
def State.maskedFrame : List (Bin Word) :=
  maskFrame p.env (s.words maskBase p.env.lines) (s.frame rs1 p.env.lines) (s.frame rs2 p.env.lines)

theorem length_maskedFrame : (s.maskedFrame p rs1 rs2).length = p.env.lines + 1 := length_maskFrame _ _ _ _

/-- A processed bin of the frame of MSK. -/
theorem maskedFrame_getElem_line (hk : k < p.env.lines) (hlen : k < (s.maskedFrame p rs1 rs2).length) :
    (s.maskedFrame p rs1 rs2)[k] =
      ⟨f32Add (f32Mul (s.mag rs1 k) (s.word (maskBase + k)))
        (f32Mul (s.mag rs2 k) (f32Sub 0x3F800000 (s.word (maskBase + k)))),
       if f32Lt (s.word (maskBase + k)) 0x3F000000 then s.ph rs2 k else s.ph rs1 k⟩ := by
  simp only [State.maskedFrame, maskFrame]
  rw [List.getElem_append_left (by rwa [length_tabulate]), getElem_tabulate, maskBin_env, Env.at_,
    getD_words s maskBase _ _ k hk, binAt_frame _ _ hk, binAt_frame _ _ hk]

/-- The Nyquist bin of the frame of MSK is zero (R232). -/
theorem maskedFrame_getElem_nyquist (hlen : p.env.lines < (s.maskedFrame p rs1 rs2).length) :
    (s.maskedFrame p rs1 rs2)[p.env.lines] = ⟨0, 0⟩ := by
  simp only [State.maskedFrame, maskFrame]
  rw [List.getElem_append_right (by rw [length_tabulate])]
  simp

/-- Every bin that MSK makes is finite where the blends and the phases of its operands are. -/
theorem allFinite_maskedFrame (hfin : ∀ k, k < p.env.lines → f32Finite (s.ph rs1 k) = true ∧
      f32Finite (s.ph rs2 k) = true ∧ f32Finite (f32Add (f32Mul (s.mag rs1 k) (s.word (maskBase + k)))
        (f32Mul (s.mag rs2 k) (f32Sub 0x3F800000 (s.word (maskBase + k))))) = true) :
    allFinite (binWords (s.maskedFrame p rs1 rs2)) := by
  refine allFinite_binWords.2 fun b hb => ?_
  obtain ⟨k, hk, rfl⟩ := List.mem_iff_getElem.1 hb
  have hle := (length_maskedFrame p s rs1 rs2).symm ▸ hk
  obtain hline | rfl := (Nat.lt_succ_iff.1 hle).lt_or_eq
  · obtain ⟨hwet, hdry, hblend⟩ := hfin k hline
    rw [maskedFrame_getElem_line p s rs1 rs2 hline hk]
    refine ⟨hblend, ?_⟩
    dsimp only
    split <;> assumption
  · rw [maskedFrame_getElem_nyquist]
    exact ⟨rfl, rfl⟩

end

/-- Settles O45: the effect of MSK stores the masked frame, blended bins and then a zero bin. -/
theorem mskBlends : Obligations.MskBlends := by
  unfold Obligations.MskBlends
  intro rd rs1 rs2 s hconf lines m blend hwet hdry hfin
  have hreads : allFinite (binWords (s.frame rs1 lines) ++ binWords (s.frame rs2 lines) ++ s.words maskBase lines) := by
    refine allFinite_append.2 ⟨allFinite_append.2 ⟨allFinite_frame.2 fun k hk => ?_, allFinite_frame.2 fun k hk => ?_⟩,
      allFinite_words.2 fun k hk => ?_⟩ <;> obtain ⟨hmag1, hph1, hmag2, hph2, hm, -⟩ := hfin k hk
    · exact ⟨hmag1, hph1⟩
    · exact ⟨hmag2, hph2⟩
    · exact hm
  have hout : allFinite (binWords (s.maskedFrame s.params rs1 rs2)) :=
    allFinite_maskedFrame s.params s rs1 rs2 fun k hk => by
      obtain ⟨-, hph1, -, hph2, -, hblend⟩ := hfin k hk
      exact ⟨hph1, hph2, hblend⟩
  have heffect := mskEffect_spc s.params s rd rs1 rs2
  have hexec := exec_completes_hw (issueFault_msk_none hconf rd hwet hdry) heffect (allFinite_append.2 ⟨hreads, hout⟩)
  have hblocks : SameBytesOutside [frameBlock rd (lines + 1)] s.mem (effectOf (.msk rd rs1 rs2) s.params s).after.mem :=
    mskEffect_inBlocks _ _ rd rs1 rs2
  have hfinished := (mskEffect_uniform s.params rd rs1 rs2).finished (s := s)
  rw [show effectOf (.msk rd rs1 rs2) s.params s = _ from heffect] at hblocks hfinished
  have hlen : (s.maskedFrame s.params rs1 rs2).length = lines + 1 := length_maskedFrame s.params s rs1 rs2
  have hbin {k : Nat} (hk : k < (s.maskedFrame s.params rs1 rs2).length) :=
    putFrame_word s rd (s.maskedFrame s.params rs1 rs2) k hk
  refine ⟨_, hexec, fun k hk => ?_, ?_, ?_, hblocks, rfl, hfinished⟩
  · have hline := hbin (k := k) (by omega)
    rw [maskedFrame_getElem_line s.params s rs1 rs2 hk] at hline
    exact hline
  · have hnyquist := hbin (k := lines) (by omega)
    rw [maskedFrame_getElem_nyquist] at hnyquist
    exact hnyquist.1
  · have hnyquist := hbin (k := lines) (by omega)
    rw [maskedFrame_getElem_nyquist] at hnyquist
    exact hnyquist.2

/-! ### The smooth step and the transition in the exact reals (R281, R282) -/

/-- `smooth` of R281 in the exact reals. -/
def smoothStep (x : ℝ) : ℝ := x * x * (3 - 2 * x)

theorem smoothStep_zero : smoothStep 0 = 0 := by norm_num [smoothStep]

theorem smoothStep_one : smoothStep 1 = 1 := by norm_num [smoothStep]

theorem smoothStep_half : smoothStep (1 / 2) = 1 / 2 := by norm_num [smoothStep]

/-- The difference of two values of the step is the difference of the positions times a factor that is not negative between 0
and 1. -/
theorem smoothStep_le {x y : ℝ} (hx : 0 ≤ x) (hxy : x ≤ y) (hy : y ≤ 1) : smoothStep x ≤ smoothStep y := by
  have hfactor : 0 ≤ 3 * (x + y) - 2 * (x * x + x * y + y * y) := by
    have hxx : x * x ≤ x := mul_le_of_le_one_right hx (hxy.trans hy)
    have hyy : y * y ≤ y := mul_le_of_le_one_right (hx.trans hxy) hy
    linarith [two_mul_le_add_sq x y, sq x, sq y]
  have hdiff : smoothStep y - smoothStep x = (y - x) * (3 * (x + y) - 2 * (x * x + x * y + y * y)) := by
    unfold smoothStep
    ring
  linarith [mul_nonneg (sub_nonneg.2 hxy) hfactor]

theorem smoothStep_mem {x : ℝ} (hx : 0 ≤ x) (hx' : x ≤ 1) : 0 ≤ smoothStep x ∧ smoothStep x ≤ 1 :=
  ⟨smoothStep_zero ▸ smoothStep_le le_rfl hx hx', smoothStep_one ▸ smoothStep_le hx hx' le_rfl⟩

/-- The transition position of R282, before the clamp, in the exact reals. -/
noncomputable def transition (f fc w : ℝ) : ℝ := (Real.logb 2 (f / fc) + w / 2) / w

/-- The clamp of a transition position to 0..1. -/
noncomputable def clampUnit (x : ℝ) : ℝ := min (max x 0) 1

theorem clampUnit_nonneg (x : ℝ) : 0 ≤ clampUnit x := le_min (le_max_right _ _) zero_le_one
theorem clampUnit_le_one (x : ℝ) : clampUnit x ≤ 1 := min_le_right _ _
theorem clampUnit_mono {x y : ℝ} (h : x ≤ y) : clampUnit x ≤ clampUnit y := min_le_min_right _ (max_le_max_right _ h)
theorem clampUnit_of_nonpos {x : ℝ} (h : x ≤ 0) : clampUnit x = 0 := by
  rw [clampUnit, max_eq_right h, min_eq_left zero_le_one]
theorem clampUnit_of_one_le {x : ℝ} (h : 1 ≤ x) : clampUnit x = 1 := by
  rw [clampUnit, max_eq_left (zero_le_one.trans h), min_eq_right h]

section
variable {f g fc w : ℝ} (hfc : 0 < fc) (hw : 0 < w)
include hfc hw

theorem transition_mono (hf : 0 < f) (hfg : f ≤ g) : transition f fc w ≤ transition g fc w := by
  have hlog : Real.logb 2 (f / fc) ≤ Real.logb 2 (g / fc) :=
    Real.logb_le_logb_of_le (by norm_num) (by positivity) (div_le_div_of_nonneg_right hfg hfc.le)
  exact div_le_div_of_nonneg_right (by linarith) hw.le

theorem transition_cutoff : transition fc fc w = 1 / 2 := by
  rw [transition, div_self hfc.ne', Real.logb_one, zero_add, div_div, mul_comm, ← div_div, div_self hw.ne']

omit hw in
/-- A number of octaves from the cutoff is that fraction of the width from the middle of the transition. -/
theorem transition_octaves (x : ℝ) : transition (fc * (2 : ℝ) ^ x) fc w = (x + w / 2) / w := by
  rw [transition, mul_div_cancel_left₀ _ hfc.ne', Real.logb_rpow (by norm_num) (by norm_num)]

theorem transition_nonpos (hf : 0 < f) (hstart : f ≤ fc * (2 : ℝ) ^ (-(w / 2))) : transition f fc w ≤ 0 := by
  refine (transition_mono hfc hw hf hstart).trans_eq ?_
  rw [transition_octaves hfc, neg_add_cancel, zero_div]

theorem one_le_transition (hend : fc * (2 : ℝ) ^ (w / 2) ≤ f) : 1 ≤ transition f fc w := by
  refine le_of_eq_of_le ?_ (transition_mono hfc hw (by positivity) hend)
  rw [transition_octaves hfc, add_halves, div_self hw.ne']

end

/-! ### The rising curve (R283) -/

/-- The high-pass curve of a positive cutoff and width in the exact reals: 0 at and below frequency 0, above it the step. -/
noncomputable def risingCurve (f fc w : ℝ) : ℝ := if f ≤ 0 then 0 else smoothStep (clampUnit (transition f fc w))

theorem risingCurve_of_nonpos {f : ℝ} (hf : f ≤ 0) (fc w : ℝ) : risingCurve f fc w = 0 := if_pos hf

theorem risingCurve_of_pos {f : ℝ} (hf : 0 < f) (fc w : ℝ) :
    risingCurve f fc w = smoothStep (clampUnit (transition f fc w)) := if_neg hf.not_ge

theorem risingCurve_mem (f fc w : ℝ) : 0 ≤ risingCurve f fc w ∧ risingCurve f fc w ≤ 1 := by
  obtain hf | hf := le_or_gt f 0
  · rw [risingCurve_of_nonpos hf]
    exact ⟨le_rfl, zero_le_one⟩
  · rw [risingCurve_of_pos hf]
    exact smoothStep_mem (clampUnit_nonneg _) (clampUnit_le_one _)

section
variable {f g fc w : ℝ} (hfc : 0 < fc) (hw : 0 < w)
include hfc hw

theorem risingCurve_cutoff : risingCurve fc fc w = 1 / 2 := by
  have hclamp : clampUnit (1 / 2) = 1 / 2 := by norm_num [clampUnit]
  rw [risingCurve_of_pos hfc, transition_cutoff hfc hw, hclamp, smoothStep_half]

theorem risingCurve_start (hstart : f ≤ fc * (2 : ℝ) ^ (-(w / 2))) : risingCurve f fc w = 0 := by
  obtain hf | hf := le_or_gt f 0
  · exact risingCurve_of_nonpos hf _ _
  · rw [risingCurve_of_pos hf, clampUnit_of_nonpos (transition_nonpos hfc hw hf hstart), smoothStep_zero]

theorem risingCurve_end (hend : fc * (2 : ℝ) ^ (w / 2) ≤ f) : risingCurve f fc w = 1 := by
  have hf : 0 < f := lt_of_lt_of_le (by positivity) hend
  rw [risingCurve_of_pos hf, clampUnit_of_one_le (one_le_transition hfc hw hend), smoothStep_one]

theorem risingCurve_mono (hfg : f ≤ g) : risingCurve f fc w ≤ risingCurve g fc w := by
  obtain hf | hf := le_or_gt f 0
  · rw [risingCurve_of_nonpos hf]
    exact (risingCurve_mem g fc w).1
  · rw [risingCurve_of_pos hf, risingCurve_of_pos (hf.trans_le hfg)]
    exact smoothStep_le (clampUnit_nonneg _) (clampUnit_mono (transition_mono hfc hw hf hfg)) (clampUnit_le_one _)

end

/-! ### The mask curves of the model in the exact reals (R283, R284) -/

section
variable {E : Env ℝ} (hE : E.num = exactNum)
include hE

theorem exact_one : E.one = 1 := by simp [Env.one, hE, exactNum]

theorem exact_clamp01 (x : ℝ) : E.clamp01 x = clampUnit x := by
  have hmax : E.max2 x 0 = max x 0 := by simp [Env.max2, hE, exactNum, max_def_lt]
  rw [Env.clamp01, exact_zero hE, exact_one hE, Env.clamp, hmax, clampUnit]
  simp [Env.min2, hE, exactNum, min_comm _ (1 : ℝ), min_def_lt]

theorem exact_smooth (x : ℝ) : E.smooth x = smoothStep x := by
  simp [Env.smooth, Env.nat, Env.two, hE, exactNum, smoothStep]

theorem exact_pos {f fc : ℝ} (hf : 0 < f) (hfc : 0 < fc) (w : ℝ) : E.pos f fc w = clampUnit (transition f fc w) := by
  have hratio : E.logRatio f fc = Real.logb 2 (f / fc) := by
    have hpos : ¬ f / fc ≤ 0 := (div_pos hf hfc).not_ge
    simp [Env.logRatio, exact_zero hE, hE, exactNum, hpos]
  rw [Env.pos, exact_clamp01 hE, hratio]
  simp [Env.posRaw, Env.two, hE, exactNum, transition]

theorem exact_passThrough (fc w : ℝ) : E.passThrough fc w = true ↔ fc ≤ 0 ∨ w ≤ 0 := by
  simp [Env.passThrough, exact_zero hE, hE, exactNum]

theorem exact_curves_passThrough {fc w : ℝ} (h : fc ≤ 0 ∨ w ≤ 0) (f : ℝ) :
    E.lowPass f fc w = 1 ∧ E.highPass f fc w = 1 := by
  rw [Env.lowPass, Env.highPass, if_pos ((exact_passThrough hE fc w).2 h), if_pos ((exact_passThrough hE fc w).2 h)]
  exact ⟨exact_one hE, exact_one hE⟩

/-- Both curves of a positive cutoff and width, by the rising one. -/
theorem exact_curves {fc w : ℝ} (hfc : 0 < fc) (hw : 0 < w) (f : ℝ) :
    E.lowPass f fc w = 1 - risingCurve f fc w ∧ E.highPass f fc w = risingCurve f fc w := by
  have hpass : ¬ E.passThrough fc w = true :=
    mt (exact_passThrough hE fc w).1 (not_or.2 ⟨hfc.not_ge, hw.not_ge⟩)
  have hle : E.num.le f E.zero = true ↔ f ≤ 0 := by simp [exact_zero hE, hE, exactNum]
  rw [Env.lowPass, Env.highPass, if_neg hpass, if_neg hpass, exact_one hE]
  obtain hf | hf := le_or_gt f 0
  · rw [if_pos (hle.2 hf), if_pos (hle.2 hf), risingCurve_of_nonpos hf, sub_zero]
    exact ⟨rfl, exact_zero hE⟩
  · rw [if_neg (mt hle.1 hf.not_ge), if_neg (mt hle.1 hf.not_ge), risingCurve_of_pos hf, exact_smooth hE,
      exact_pos hE hf hfc, hE]
    exact ⟨rfl, rfl⟩

/-- Both curves are in 0..1 for every input. -/
theorem exact_curves_mem (f fc w : ℝ) :
    (0 ≤ E.lowPass f fc w ∧ E.lowPass f fc w ≤ 1) ∧ 0 ≤ E.highPass f fc w ∧ E.highPass f fc w ≤ 1 := by
  by_cases hpass : fc ≤ 0 ∨ w ≤ 0
  · obtain ⟨hlow, hhigh⟩ := exact_curves_passThrough hE hpass f
    rw [hlow, hhigh]
    exact ⟨⟨zero_le_one, le_rfl⟩, zero_le_one, le_rfl⟩
  · obtain ⟨hfc, hw⟩ := not_or.1 hpass
    obtain ⟨hlow, hhigh⟩ := exact_curves hE (not_le.1 hfc) (not_le.1 hw) f
    obtain ⟨hnonneg, hle⟩ := risingCurve_mem f fc w
    rw [hlow, hhigh]
    exact ⟨⟨sub_nonneg.2 hle, sub_le_self 1 hnonneg⟩, hnonneg, hle⟩

/-- The band-pass mask is the product of the two curves (R284). -/
theorem exact_maskFn_bandPass (lo hi w f : ℝ) :
    E.maskFn .bandPass lo hi w f = E.highPass f lo w * E.lowPass f hi w := by
  rw [Env.maskFn, hE]
  rfl

theorem exact_maskFn_mem (mode : MaskMode) (lo hi w f : ℝ) :
    0 ≤ E.maskFn mode lo hi w f ∧ E.maskFn mode lo hi w f ≤ 1 := by
  obtain ⟨hlow, -⟩ := exact_curves_mem hE f hi w
  obtain ⟨-, hhigh⟩ := exact_curves_mem hE f lo w
  cases mode with
  | lowPass => exact hlow
  | highPass => exact hhigh
  | bandPass =>
    rw [exact_maskFn_bandPass hE]
    exact ⟨mul_nonneg hhigh.1 hlow.1, mul_le_one₀ hhigh.2 hlow.1 hlow.2⟩

end

/-! ### Words of one value

A word other than a zero is told by its value: its size gives the exponent, then the fraction, and its value the sign. -/

theorem f32_fields (w : Word) : f32Exp w = w.toNat / 2 ^ 23 % 256 ∧ f32Frac w = w.toNat % 2 ^ 23 ∧
    (f32Neg w = true ↔ 2 ^ 31 ≤ w.toNat) := by
  have hlt := w.isLt
  have hexp := f32Exp_ofNat w.toNat
  have hfrac := f32Frac_ofNat w.toNat
  rw [BitVec.ofNat_toNat, BitVec.setWidth_eq] at hexp hfrac
  refine ⟨by omega, hfrac, ?_⟩
  rw [f32Neg, BitVec.msb_eq_decide, decide_eq_true_eq]

theorem f32Mag_ge {w : Word} (h : f32Exp w ≠ 0) : 2 ^ (f32Exp w + 22) ≤ f32Mag w := by
  rw [f32Mag, if_neg h, Nat.shiftLeft_eq, show f32Exp w + 22 = 23 + (f32Exp w - 1) by omega, Nat.pow_add]
  exact Nat.mul_le_mul_right _ (Nat.le_add_right _ _)

section
variable {a b : Word}

theorem f32Exp_le_of_mag (h : f32Mag a = f32Mag b) : f32Exp b ≤ f32Exp a := by
  by_contra hlt
  have hgap : 2 ^ (f32Exp a + 23) ≤ 2 ^ (f32Exp b + 22) := Nat.pow_le_pow_right (by omega) (by omega)
  have hlow := f32Mag_lt a
  have hhigh := f32Mag_ge (w := b) (by omega)
  omega

theorem f32Frac_eq_of_mag (h : f32Mag a = f32Mag b) (hexp : f32Exp a = f32Exp b) : f32Frac a = f32Frac b := by
  rw [f32Mag, f32Mag, hexp] at h
  split at h
  · exact h
  · rw [Nat.shiftLeft_eq, Nat.shiftLeft_eq] at h
    exact Nat.add_left_cancel (Nat.eq_of_mul_eq_mul_right (Nat.two_pow_pos _) h)

theorem f32Neg_iff (h0 : f32Fix a ≠ 0) : f32Neg a = true ↔ f32Fix a < 0 := by
  unfold f32Fix at h0 ⊢
  split
  · next hneg =>
    rw [if_pos hneg] at h0
    simp only [hneg, true_iff]
    omega
  · next hneg =>
    simp only [hneg, Bool.false_eq_true, false_iff]
    omega

theorem eq_of_f32Fix_eq (h : f32Fix a = f32Fix b) (h0 : f32Fix b ≠ 0) : a = b := by
  have hmag : f32Mag a = f32Mag b := by rw [← natAbs_f32Fix, ← natAbs_f32Fix, h]
  have hneg : f32Neg a = true ↔ f32Neg b = true := by
    rw [f32Neg_iff h0, f32Neg_iff (h ▸ h0), h]
  have hexp : f32Exp a = f32Exp b := (f32Exp_le_of_mag hmag.symm).antisymm (f32Exp_le_of_mag hmag)
  have hfrac := f32Frac_eq_of_mag hmag hexp
  obtain ⟨haExp, haFrac, haNeg⟩ := f32_fields a
  obtain ⟨hbExp, hbFrac, hbNeg⟩ := f32_fields b
  have hsign : 2 ^ 31 ≤ a.toNat ↔ 2 ^ 31 ≤ b.toNat := haNeg.symm.trans (hneg.trans hbNeg)
  have haLt := a.isLt
  have hbLt := b.isLt
  exact BitVec.eq_of_toNat_eq (by omega)

end

/-! ### The mask curves at the cutoff on the hardware (R283, R328) -/

/-- The logarithm of 1 is a zero, whatever the free value: the bound on it is relative (log 2). -/
theorem f32Log2_one : HasFix (f32Log2 0x3F800000) 0 := by
  have href : log2Ref 0x3F800000 = 0 := by decide +kernel
  have hheld : f32Log2 0x3F800000 = heldBy 0 (Config.log2Raw 0x3F800000) := by
    rw [← href]
    rfl
  rw [hheld]
  obtain ⟨hraw, hfinite, hbound⟩ | hexact := heldBy_cases 0 (Config.log2Raw 0x3F800000)
  · rw [hraw]
    exact ⟨hfinite, by omega⟩
  · rw [hexact]
    exact hasFix_zero

/-- A finite number divided by itself is exactly 1. -/
theorem f32Div_self {x : Word} (hx : f32Finite x = true) (h0 : f32Fix x ≠ 0) : f32Div x x = 0x3F800000 := by
  have hone : HasFix 0x3F800000 (2 ^ 149) := ⟨by decide, by decide⟩
  obtain ⟨-, hfix⟩ := HasFix.div ⟨hx, rfl⟩ ⟨hx, rfl⟩ h0 hone.representable (mul_comm _ _)
  exact eq_of_f32Fix_eq (hfix.trans hone.2.symm) (by rw [hone.2]; norm_num)

/-- Half of a number of at least 2^24 units is a number. -/
theorem half_representable {x : Word} (hx : f32Finite x = true) (hlow : 2 ^ 24 ≤ f32Fix x) :
    ∃ y, f32Fix x = 2 * y ∧ Representable y := by
  obtain ⟨⟨c, j, hcj, hc⟩, hlt⟩ := HasFix.representable ⟨hx, rfl⟩
  obtain ⟨i, rfl⟩ : ∃ i, j = i + 1 := Nat.exists_eq_succ_of_ne_zero fun h0 => by
    rw [h0, Nat.pow_zero, Nat.mul_one] at hcj
    omega
  have hdouble : (f32Fix x).natAbs = 2 * (c * 2 ^ i) := by rw [hcj, Nat.pow_succ]; ring
  refine ⟨((c * 2 ^ i : ℕ) : ℤ), by omega, ⟨c, i, Int.natAbs_natCast _, hc⟩, ?_⟩
  rw [Int.natAbs_natCast]
  omega

theorem smooth_hw {E : Env Word} (hnum : E.num = hwNum) (x : Word) :
    E.smooth x = f32Mul (f32Mul x x) (f32Sub (f32OfInt 3) (f32Mul (f32OfInt 2) x)) := by
  rw [Env.smooth, nat_hw hnum, Env.two, hnum]
  rfl

/-- The transition position of a zero logarithm is exactly one half. -/
theorem posRaw_env (p : Csrs) {l w : Word} (hl : HasFix l 0) (hw : f32Finite w = true) (hlow : 2 ^ 24 ≤ f32Fix w) :
    p.env.posRaw l w = 0x3F000000 := by
  obtain ⟨y, hy, hrep⟩ := half_representable hw hlow
  have htwo : HasFix (f32OfInt 2) (2 * 2 ^ 149) := hasFix_ofInt (by decide)
  have hhalf : HasFix 0x3F000000 (2 ^ 148) := ⟨by decide, by decide⟩
  have hquot : HasFix (f32Div w (f32OfInt 2)) y :=
    HasFix.div ⟨hw, rfl⟩ htwo (by norm_num) hrep (by rw [hy]; ring)
  have hsum : HasFix (f32Add l (f32Div w (f32OfInt 2))) y := by
    simpa using hl.add hquot (by simpa using hrep)
  obtain ⟨-, hfix⟩ := hsum.div ⟨hw, rfl⟩ (by omega) hhalf.representable (by rw [hy]; ring)
  exact eq_of_f32Fix_eq (hfix.trans hhalf.2.symm) (by rw [hhalf.2]; norm_num)

section
variable (p : Csrs) {fc w : Word} (hfc : f32Finite fc = true) (hpos : 0 < f32Fix fc)
include hfc hpos

theorem f32Le_zero_of_pos : f32Le fc 0 = false := by
  have hzero : f32Fix 0 = 0 := by decide
  rw [← Bool.not_eq_true, f32Le_iff hfc (by decide), hzero]
  omega

theorem logRatio_self_env : HasFix (p.env.logRatio fc fc) 0 := by
  have hnot : f32Le 0x3F800000 0 = false := by decide
  have hlog : p.env.logRatio fc fc = f32Log2 0x3F800000 := by
    simp only [Env.logRatio, env_num, env_zero, hwNum_div, hwNum_le, f32Div_self hfc hpos.ne', hnot]
    rfl
  rw [hlog]
  exact f32Log2_one

variable (hw : f32Finite w = true) (hlow : 2 ^ 24 ≤ f32Fix w)
include hw hlow

/-- At the cutoff the smooth step is taken at one half. -/
theorem smooth_pos_env : p.env.smooth (p.env.pos fc fc w) = 0x3F000000 := by
  have hclamp : p.env.clamp01 0x3F000000 = 0x3F000000 := by
    rw [Env.clamp01, env_zero, env_one, Env.clamp, max2_hw (env_num p), min2_hw (env_num p)]
    decide
  have hstep : f32Mul (f32Mul 0x3F000000 0x3F000000) (f32Sub (f32OfInt 3) (f32Mul (f32OfInt 2) 0x3F000000)) =
      0x3F000000 := by decide +kernel
  rw [Env.pos, posRaw_env p (logRatio_self_env p hfc hpos) hw hlow, hclamp, smooth_hw (env_num p)]
  exact hstep

theorem curves_env_cutoff : p.env.lowPass fc fc w = 0x3F000000 ∧ p.env.highPass fc fc w = 0x3F000000 := by
  have hsub : f32Sub 0x3F800000 0x3F000000 = 0x3F000000 := by decide +kernel
  have hfcLe : p.env.num.le fc p.env.zero = false := by rw [env_zero]; exact f32Le_zero_of_pos hfc hpos
  have hwLe : p.env.num.le w p.env.zero = false := by
    rw [env_zero]
    exact f32Le_zero_of_pos hw (by omega)
  have hpass : p.env.passThrough fc w = false := by rw [Env.passThrough, hfcLe, hwLe]; rfl
  simp only [Env.lowPass, Env.highPass, hpass, hfcLe, Bool.false_eq_true, if_false,
    smooth_pos_env p hfc hpos hw hlow, env_one, and_true]
  exact hsub

end

/-- Settles O56: in the exact reals by the rising curve, and at the cutoff on the hardware by the exact steps of the rule. -/
theorem maskCurves : Obligations.MaskCurves := by
  unfold Obligations.MaskCurves
  refine ⟨fun n hop fs => ?_, fun p fc w hfc hpos hw hlow => curves_env_cutoff p hfc hpos hw hlow⟩
  intro E
  have hE : E.num = exactNum := rfl
  refine ⟨fun f fc w hfc hw => ?_, fun f fc w hpass => exact_curves_passThrough hE hpass f, fun lo hi w f =>
    ⟨rfl, rfl, rfl, fun mode => exact_maskFn_mem hE mode lo hi w f⟩⟩
  have hlow (x : ℝ) : E.lowPass x fc w = 1 - risingCurve x fc w := (exact_curves hE hfc hw x).1
  refine ⟨?_, ?_, fun hstart => ?_, fun hend => ?_, fun g hfg => ?_⟩
  · rw [hlow, (exact_curves hE hfc hw f).2, sub_add_cancel]
  · rintro rfl
    rw [hlow, risingCurve_cutoff hfc hw]
    norm_num
  · rw [hlow, risingCurve_start hfc hw hstart, sub_zero]
  · rw [hlow, risingCurve_end hfc hw hend, sub_self]
  · rw [hlow, hlow]
    exact sub_le_sub_left (risingCurve_mono hfc hw hfg) 1

end Sys2Proof.Machine

/-! SUPPORT. The statements of the delay chapter (spec/47_delay.md): SDLP (R302 to R304), SDL (R306), and the slot that
SDL reads (R306, R396). -/

namespace Sys2Proof.Machine

/-! ### Tabulated bins -/

theorem tabulate_congr {A : Type} {n : Nat} {f g : Nat → A} (h : ∀ k, k < n → f k = g k) : tabulate n f = tabulate n g :=
  List.map_congr_left fun k hk => h k (List.mem_range.1 hk)

theorem binWords_append (xs ys : List (Bin Word)) : binWords (xs ++ ys) = binWords xs ++ binWords ys :=
  List.flatMap_append

theorem allFinite_binWords_tabulate {n : Nat} {f : Nat → Bin Word} : allFinite (binWords (tabulate n f)) ↔
    ∀ k, k < n → f32Finite (f k).mag = true ∧ f32Finite (f k).ph = true := by
  simp [allFinite_binWords]

/-! ### SDLP (R302 to R304) -/

/-- The tables of a build of the delay lines, line by line: both fit their regions (R73). -/
theorem buildDelay_word (p : Csrs) (s : State) {E : Env Word} (hnum : E.num = hwNum) (hlines : E.lines ≤ 2048) (depth : Nat)
    {k : Nat} (hk : k < E.lines) :
    (hwStorage.buildDelay s p E depth).word (dampBase + k) = dampValue E.lines p.delay.damping k ∧
    (hwStorage.buildDelay s p E depth).word (dlenBase + k) =
      BitVec.ofNat 32 (delayLength E.lines E.fs E.hop p.delay.timeMs p.delay.slope depth k) := by
  rw [buildDelay_spc p s hnum]
  constructor
  · rw [putWords_word_outside _ _ _ _ (.inl (by simp only [dampBase, dlenBase]; omega)),
      putWords_word_inside _ _ _ k (by rwa [length_dampTable])]
    exact (getElem_tabulate _ _ _ _).trans (damp_hw hnum _ _)
  · rw [Env.dlenTable, natWords_tabulate, putWords_word_inside _ _ _ k (by rwa [length_tabulate]), getElem_tabulate,
      delayLen_hw hnum]

/-- Settles O46: the effect of SDLP builds both tables, whose reals are finite. -/
theorem sdlpBuildsTables : Obligations.SdlpBuildsTables := by
  unfold Obligations.SdlpBuildsTables
  intro s hconf p E fs hop htime hslope hdamping hvalues
  have hlines : E.lines ≤ 2048 := by
    have hsize : p.active.n.toNat ≤ 4096 := hconf.size_le
    have hhalf : E.lines = p.active.n.toNat / 2 := rfl
    omega
  have hparams : allFinite p.delayParams :=
    allFinite_cons.2 ⟨htime, allFinite_cons.2 ⟨hslope, allFinite_cons.2 ⟨hdamping, allFinite_nil⟩⟩⟩
  have hreals : allFinite (p.delayReals E) := by
    rw [delayReals_spc p rfl]
    refine allFinite_append.2 ⟨allFinite_tabulate.2 fun k hk => ?_, allFinite_tabulate.2 fun k hk => ?_⟩
    · rw [delayRaw_hw rfl]
      exact (hvalues k hk).1
    · rw [damp_hw rfl]
      exact (hvalues k hk).2
  have hexec := exec_completes_hw (i := .sdlp) (configured_none hconf.ok _ none) (sdlpEffect_spc p s)
    (allFinite_append.2 ⟨hparams, hreals⟩)
  have hblocks : SameBytesOutside [⟨dampBase, E.lines⟩, ⟨dlenBase, E.lines⟩] s.mem (effectOf .sdlp p s).after.mem :=
    sdlpEffect_inBlocks _ _
  have hlengths := sdlpEffect_lengths (s := s) (p := p) ⟨hconf.legal.depthLow, hconf.legal.depthHigh⟩
  have hfinished := (sdlpEffect_uniform p).finished (s := s)
  rw [show effectOf .sdlp p s = _ from sdlpEffect_spc p s] at hblocks hlengths hfinished
  refine ⟨_, hexec, fun k hk => ?_, hblocks, ?_, hfinished⟩
  · obtain ⟨hdamp, hdlen⟩ := buildDelay_word p s rfl hlines p.sdDepth.toNat hk
    obtain ⟨hlow, hhigh⟩ := hlengths k hk
    exact ⟨hdamp, hdlen, hlow, hhigh⟩
  · show (hwStorage.buildDelay s p E p.sdDepth.toNat).delay = s.delay
    rw [buildDelay_spc p s rfl]
    rfl

/-! ### The delay-line RAM after a slot of every line is filled (R306) -/

section
variable {w : Nat} {bs : List (Bin (Datum Word))}

/-- A byte outside the pairs that are filled reads as before. -/
theorem fillSlot_byte_outside {a : Nat} : ∀ {k : Nat} {m : Memory},
    (∀ j, j < bs.length → a < 4 * delayIndex (k + j) w ∨ 4 * (delayIndex (k + j) w + 2) ≤ a) →
    (fillSlot Params.spc w k bs m).byte? a = m.byte? a := by
  induction bs with
  | nil => intros; rfl
  | cons b bs ih =>
    intro k m h
    have hrest : (fillSlot Params.spc w k (b :: bs) m).byte? a =
        (m.writeWords (delayIndex k w) [b.mag.word, b.ph.word]).byte? a := ih fun j hj => by
      have := h (j + 1) (by simpa using hj)
      rwa [show k + 1 + j = k + (j + 1) by omega]
    have hfirst := h 0 (by simp)
    rw [hrest]
    apply byte_writeBytes_outside
    simp only [length_flatMap_wordBytes, List.length_cons, List.length_nil]
    rw [Nat.add_zero] at hfirst
    omega

/-- A word outside the pairs that are filled reads as before. -/
theorem fillSlot_word_outside {a k : Nat} {m : Memory} (fresh : Nat → Byte)
    (h : ∀ j, j < bs.length → a < delayIndex (k + j) w ∨ delayIndex (k + j) w + 2 ≤ a) :
    (fillSlot Params.spc w k bs m).word fresh a = m.word fresh a := by
  have hbyte (i : Nat) (hi : i < 4) : (fillSlot Params.spc w k bs m).byte? (4 * a + i) = m.byte? (4 * a + i) :=
    fillSlot_byte_outside fun j hj => by
      have := h j hj
      omega
  simp only [Memory.word, hbyte 0 (by omega), hbyte 1 (by omega), hbyte 2 (by omega), hbyte 3 (by omega)]

/-- The filled slot of a line reads as the pair stored there: the lines are apart by more than a pair. -/
theorem fillSlot_word_inside (fresh : Nat → Byte) : ∀ {k : Nat} {m : Memory} (j : Nat) (hj : j < bs.length),
    (fillSlot Params.spc w k bs m).word fresh (delayIndex (k + j) w) = bs[j].mag.word ∧
    (fillSlot Params.spc w k bs m).word fresh (delayIndex (k + j) w + 1) = bs[j].ph.word := by
  induction bs with
  | nil => intro k m j hj; simp at hj
  | cons b bs ih =>
    intro k m j hj
    cases j with
    | zero =>
      have hkept {i : Nat} (hi : i < 2) : (fillSlot Params.spc w k (b :: bs) m).word fresh (delayIndex k w + i) =
          (m.writeWords (delayIndex k w) [b.mag.word, b.ph.word]).word fresh (delayIndex k w + i) :=
        fillSlot_word_outside (k := k + 1) (bs := bs) fresh fun j _ => by
          simp only [delayIndex, Params.spc]
          omega
      have hstored {i : Nat} (hi : i < 2) : (fillSlot Params.spc w k (b :: bs) m).word fresh (delayIndex k w + i) =
          [b.mag.word, b.ph.word][i] := (hkept hi).trans (word_writeWords_inside _ _ _ [_, _] i hi)
      exact ⟨hstored (i := 0) (by omega), hstored (i := 1) (by omega)⟩
    | succ j =>
      have hrest := ih (k := k + 1) (m := m.writeWords (delayIndex k w) [b.mag.word, b.ph.word]) j (by simpa using hj)
      rwa [show k + 1 + j = k + (j + 1) by omega] at hrest

end

/-! ### What SDL computes, line by line (R306) -/

theorem issueFault_sdl_none {p : Csrs} {par : Params} {rate : Word → Bool} (h : p.Configured) (rd : SReg) {rs1 : SReg}
    (hs : p.tags.s[rs1].toNat = p.env.bins) : p.issueFault (.sdl rd rs1) par rate = none :=
  (configured_none h.ok _ _).trans (checkS_none hs)

section
variable (p : Csrs) (s : State) (rs1 : SReg)

/-- The scalars of an SDL on the default hardware. -/
def Csrs.delayScalars (p : Csrs) : DelayMix Word := p.env.delayMix p.delay.feedback p.delay.mix p.delay.gain

/-- The pair that SDL reads of line `k`. -/
def State.delayedBin (k : Nat) : Bin Word :=
  s.delayBin k (delayReadIndex p.sdWr.toNat (s.word (dlenBase + k)).toNat p.sdDepth.toNat)

/-- The pair that SDL writes to line `k`. -/
def State.delayLine (k : Nat) : Bin Word :=
  p.env.delayWrite p.delayScalars (s.word (dampBase + k)) ⟨s.mag rs1 k, s.ph rs1 k⟩ (s.delayedBin p k)

/-- The pair that SDL makes of bin `k`. -/
def State.delayBlend (k : Nat) : Bin Word :=
  p.env.delayOut p.delayScalars ⟨s.mag rs1 k, s.ph rs1 k⟩ (s.delayedBin p k)

/-- The frame that SDL makes: the blends, and the zeroed Nyquist bin (R232). -/
def State.delayedFrame : List (Bin Word) := tabulate p.env.lines (s.delayBlend p rs1) ++ [⟨0, 0⟩]

/-- What SDL leaves but for completion: the lines written, the frame stored, the write index moved on. -/
def State.runDelayLines (rd : SReg) : State :=
  let lines := (tabulate p.env.lines (s.delayLine p rs1)).map fun b => (⟨hwDatum b.mag, hwDatum b.ph⟩ : Bin (Datum Word))
  let t := ((hwStorage.putDelaySlot Params.spc p.sdWr.toNat 0 lines s).putFrame rd
    (s.delayedFrame p rs1)).setSLen rd p.env.bins
  { t with csr := { t.csr with sdWr := BitVec.ofNat 32 ((p.sdWr.toNat + 1) % p.sdDepth.toNat) } }

/-- The effect of SDL, with what each line reads and writes as one function of the line. -/
theorem sdlEffect_lines (rd : SReg) : effectOf (.sdl rd rs1) p s =
    hwEffect ([p.delay.feedback, p.delay.mix, p.delay.gain] ++ binWords (s.frame rs1 p.env.lines)
        ++ s.words dampBase p.env.lines ++ binWords (tabulate p.env.lines (s.delayedBin p))
        ++ binWords (tabulate p.env.lines (s.delayLine p rs1)) ++ binWords (s.delayedFrame p rs1))
      (s.runDelayLines p rs1 rd) := by
  have hlen {k : Nat} (hk : k < p.env.lines) : (s.nats dlenBase p.env.lines).getD k 0 = (s.word (dlenBase + k)).toNat := by
    have hk' : k < p.active.n.toNat / 2 := hk
    simp [State.nats, State.words, hk']
  have hread : (tabulate p.env.lines fun k => s.delayBin k
      (delayReadIndex p.sdWr.toNat ((s.nats dlenBase p.env.lines).getD k 0) p.sdDepth.toNat)) =
      tabulate p.env.lines (s.delayedBin p) := tabulate_congr fun k hk => by rw [hlen hk]; rfl
  have hdelayed {k : Nat} (hk : k < p.env.lines) : p.env.binAt (tabulate p.env.lines (s.delayedBin p)) k = s.delayedBin p k :=
    getD_tabulate _ _ _ k hk
  have hwritten : (tabulate p.env.lines fun k => p.env.delayWrite p.delayScalars
      (p.env.at_ (s.words dampBase p.env.lines) k) (p.env.binAt (s.frame rs1 p.env.lines) k)
      (p.env.binAt (tabulate p.env.lines (s.delayedBin p)) k)) = tabulate p.env.lines (s.delayLine p rs1) :=
    tabulate_congr fun k hk => by
      rw [hdelayed hk, binAt_frame _ _ hk, Env.at_, getD_words s dampBase _ _ k hk]
      rfl
  have hout : (tabulate p.env.lines fun k => p.env.delayOut p.delayScalars (p.env.binAt (s.frame rs1 p.env.lines) k)
      (p.env.binAt (tabulate p.env.lines (s.delayedBin p)) k)) = tabulate p.env.lines (s.delayBlend p rs1) :=
    tabulate_congr fun k hk => by
      rw [hdelayed hk, binAt_frame _ _ hk]
      rfl
  refine (sdlEffect_spc p s rd rs1).trans ?_
  dsimp only
  rw [hread, ← Csrs.delayScalars, hwritten, hout]
  rfl

theorem length_delayedFrame : (s.delayedFrame p rs1).length = p.env.lines + 1 := by
  rw [State.delayedFrame, List.length_append, length_tabulate, List.length_singleton]

/-- The destination after SDL: the blend of every line, and the zero bin. -/
theorem runDelayLines_frame (rd : SReg) :
    (∀ k, k < p.env.lines → (s.runDelayLines p rs1 rd).mag rd k = (s.delayBlend p rs1 k).mag ∧
      (s.runDelayLines p rs1 rd).ph rd k = (s.delayBlend p rs1 k).ph) ∧
    (s.runDelayLines p rs1 rd).mag rd p.env.lines = 0 ∧ (s.runDelayLines p rs1 rd).ph rd p.env.lines = 0 := by
  have hbin {k : Nat} (hk : k < (s.delayedFrame p rs1).length) :
      (s.runDelayLines p rs1 rd).mag rd k = (s.delayedFrame p rs1)[k].mag ∧
        (s.runDelayLines p rs1 rd).ph rd k = (s.delayedFrame p rs1)[k].ph := putFrame_word _ rd _ k hk
  have hlen := length_delayedFrame p s rs1
  refine ⟨fun k hk => ?_, ?_⟩
  · have hline : (s.delayedFrame p rs1)[k]'(by omega) = s.delayBlend p rs1 k := by
      simp only [State.delayedFrame]
      rw [List.getElem_append_left (by rwa [length_tabulate]), getElem_tabulate]
    rw [← hline]
    exact hbin (by omega)
  · have hnyquist : (s.delayedFrame p rs1)[p.env.lines]'(by omega) = ⟨0, 0⟩ := by
      simp only [State.delayedFrame]
      rw [List.getElem_append_right (by rw [length_tabulate])]
      simp
    have hlast := hbin (k := p.env.lines) (by omega)
    rwa [hnyquist] at hlast

/-- The delay lines after SDL: the new pair in the write slot of every line, and every other byte as it was. -/
theorem runDelayLines_delay (rd : SReg) :
    (∀ k, k < p.env.lines → (s.runDelayLines p rs1 rd).delayBin k p.sdWr.toNat = s.delayLine p rs1 k) ∧
    ∀ a, (∀ k, k < p.env.lines → a < 4 * delayIndex k p.sdWr.toNat ∨ 4 * (delayIndex k p.sdWr.toNat + 2) ≤ a) →
      (s.runDelayLines p rs1 rd).delay.byte? a = s.delay.byte? a := by
  have hdelay : (s.runDelayLines p rs1 rd).delay = fillSlot Params.spc p.sdWr.toNat 0
      ((tabulate p.env.lines (s.delayLine p rs1)).map fun b => (⟨hwDatum b.mag, hwDatum b.ph⟩ : Bin (Datum Word)))
      s.delay := by
    simp only [State.runDelayLines, putDelaySlot_eq_fillSlot]
    rfl
  refine ⟨fun k hk => ?_, fun a ha => ?_⟩
  · have hlen : k < ((tabulate p.env.lines (s.delayLine p rs1)).map fun b =>
        (⟨hwDatum b.mag, hwDatum b.ph⟩ : Bin (Datum Word))).length := by rwa [List.length_map, length_tabulate]
    obtain ⟨hmag, hph⟩ := fillSlot_word_inside (w := p.sdWr.toNat) (k := 0) (m := s.delay)
      (Config.powerOnDelay (s.runDelayLines p rs1 rd).epoch) k hlen
    rw [Nat.zero_add, List.getElem_map, getElem_tabulate] at hmag hph
    rw [State.delayBin, State.delayWord, State.delayWord, hdelay, hmag, hph]
    rfl
  · rw [hdelay]
    refine fillSlot_byte_outside fun j hj => ?_
    rw [List.length_map, length_tabulate] at hj
    rw [Nat.zero_add]
    exact ha j hj

end

/-- Settles O47: every pair that SDL reads, writes and stores is finite, and each is the rule's formula in binary32. -/
theorem sdlRunsDelayLines : Obligations.SdlRunsDelayLines := by
  unfold Obligations.SdlRunsDelayLines
  intro rd rs1 s hconf p E w depth fb mix gain dry d line mag ph htag hfeedback hmix hgain hfin
  have hscalars : p.delayScalars = ⟨fb, mix, gain⟩ := by
    rw [Csrs.delayScalars, Env.delayMix, env_zero]
  have hline (k : Nat) : s.delayLine p rs1 k = ⟨line k, s.ph rs1 k⟩ := by
    rw [State.delayLine, hscalars]
    rfl
  have hblend (k : Nat) : s.delayBlend p rs1 k = ⟨mag k, ph k⟩ := by
    rw [State.delayBlend, hscalars, Env.delayOut, env_one]
    rfl
  have hregisters : allFinite [p.delay.feedback, p.delay.mix, p.delay.gain] :=
    allFinite_cons.2 ⟨hfeedback, allFinite_cons.2 ⟨hmix, allFinite_cons.2 ⟨hgain, allFinite_nil⟩⟩⟩
  have hzero : allFinite (binWords [(⟨0, 0⟩ : Bin Word)]) :=
    allFinite_cons.2 ⟨rfl, allFinite_cons.2 ⟨rfl, allFinite_nil⟩⟩
  have hdata : allFinite ([p.delay.feedback, p.delay.mix, p.delay.gain] ++ binWords (s.frame rs1 E.lines)
      ++ s.words dampBase E.lines ++ binWords (tabulate E.lines (s.delayedBin p))
      ++ binWords (tabulate E.lines (s.delayLine p rs1)) ++ binWords (s.delayedFrame p rs1)) := by
    simp only [allFinite_append, State.delayedFrame, binWords_append, allFinite_frame, allFinite_words,
      allFinite_binWords_tabulate, hline, hblend]
    refine ⟨⟨⟨⟨⟨hregisters, fun k hk => ?_⟩, fun k hk => ?_⟩, fun k hk => ?_⟩, fun k hk => ?_⟩, fun k hk => ?_, hzero⟩
      <;> obtain ⟨hm, hp, hdamp, hdm, hdp, hl, hbm, hbp⟩ := hfin k hk
    · exact ⟨hm, hp⟩
    · exact hdamp
    · exact ⟨hdm, hdp⟩
    · exact ⟨hl, hp⟩
    · exact ⟨hbm, hbp⟩
  have heffect := sdlEffect_lines p s rs1 rd
  have hexec := exec_completes_hw (issueFault_sdl_none hconf rd htag) heffect hdata
  have hblocks : SameBytesOutside [frameBlock rd (E.lines + 1)] s.mem (effectOf (.sdl rd rs1) p s).after.mem :=
    sdlEffect_inBlocks _ _ rd rs1
  have hfinished := (sdlEffect_uniform p rd rs1).finished (s := s)
  rw [heffect] at hblocks hfinished
  obtain ⟨hframe, hnyquist⟩ := runDelayLines_frame p s rs1 rd
  obtain ⟨hslots, hbytes⟩ := runDelayLines_delay p s rs1 rd
  refine ⟨_, hexec, fun k hk => ?_, hnyquist.1, hnyquist.2, hbytes, hblocks, hfinished⟩
  obtain ⟨hm, hp⟩ := hframe k hk
  rw [hblend] at hm hp
  exact ⟨hm, hp, (hslots k hk).trans (hline k)⟩

/-! ### The slots of a delay line (R306, R396) -/

/-- The slot that lies `dlen` behind the write slot, around the end of the line. -/
theorem delayReadIndex_eq {w dlen depth : Nat} (hw : w < depth) (hlen : dlen ≤ depth) :
    delayReadIndex w dlen depth = if dlen ≤ w then w - dlen else w + depth - dlen := by
  unfold delayReadIndex
  split
  · next hle => rw [Int.emod_eq_of_lt (by omega) (by omega)]; omega
  · next hgt => rw [← Int.add_emod_right, Int.emod_eq_of_lt (by omega) (by omega)]; omega

/-- Settles O60: the slot is behind the write slot in the line, or the line's length ahead of that. -/
theorem delayReadsAnotherSlot : Obligations.DelayReadsAnotherSlot := by
  unfold Obligations.DelayReadsAnotherSlot
  intro w dlen depth hw hone hlast
  rw [delayReadIndex_eq hw (by omega)]
  split
  · next hle =>
    rw [show w - dlen + dlen = w by omega]
    exact ⟨by omega, by omega, Nat.mod_eq_of_lt hw⟩
  · next hgt =>
    rw [show w + depth - dlen + dlen = w + depth by omega, Nat.add_mod_right]
    exact ⟨by omega, by omega, Nat.mod_eq_of_lt hw⟩

end Sys2Proof.Machine

/-! SUPPORT. The statement of the numerics chapter (spec/48_numerics.md): the five operations of the hardware are correctly
rounded (R323). -/

namespace Sys2Proof.Machine

/-! ### The nearest integer to a quotient, ties to even -/

/-- No integer is nearer to `n / d` than the rounded quotient, and where another one is as near the rounded quotient is even. -/
theorem roundQuot_nearest (n : ℕ) {d : ℕ} (hd : 0 < d) (m : ℤ) :
    |(roundQuot n d : ℤ) * d - n| ≤ |m * d - n| ∧
      (|(roundQuot n d : ℤ) * d - n| = |m * d - n| → m ≠ roundQuot n d → roundQuot n d % 2 = 0) := by
  obtain ⟨q, hq⟩ : ∃ q, q = n / d := ⟨_, rfl⟩
  obtain ⟨r, hr⟩ : ∃ r, r = n % d := ⟨_, rfl⟩
  have hlt : r < d := hr ▸ Nat.mod_lt n hd
  have hn : (n : ℤ) = q * d + r := by
    rw [hq, hr]
    exact_mod_cast (Nat.div_add_mod' n d).symm
  -- The distance of `m` from `q`, in steps of the quotient.
  obtain ⟨t, rfl⟩ : ∃ t, m = q + t := ⟨m - q, by ring⟩
  have hdist (u : ℤ) : (q + u) * d - n = u * d - r := by rw [hn]; ring
  have hsteps : t * d ≤ -d ∨ t = 0 ∨ t = 1 ∨ 2 * (d : ℤ) ≤ t * d := by
    have hpos : (0 : ℤ) ≤ d := Int.natCast_nonneg d
    rcases (by omega : t ≤ -1 ∨ t = 0 ∨ t = 1 ∨ 2 ≤ t) with ht | rfl | rfl | ht
    · exact .inl (by linarith [mul_le_mul_of_nonneg_right ht hpos])
    · exact .inr (.inl rfl)
    · exact .inr (.inr (.inl rfl))
    · exact .inr (.inr (.inr (mul_le_mul_of_nonneg_right ht hpos)))
  have hround : roundQuot n d = q + (if 2 * r < d then 0 else if d < 2 * r then 1 else q % 2) := by
    unfold roundQuot
    rw [← hq, ← hr]
    dsimp only
    split_ifs <;> rfl
  have hcases : (roundQuot n d = q ∧ 2 * r < d) ∨ (roundQuot n d = q + 1 ∧ d < 2 * r) ∨
      (2 * r = d ∧ roundQuot n d % 2 = 0 ∧ (roundQuot n d = q ∨ roundQuot n d = q + 1)) := by
    split_ifs at hround <;> omega
  have hself : |(roundQuot n d : ℤ) * d - n| = if roundQuot n d = q then (r : ℤ) else d - r := by
    split
    · next h => rw [h, ← Int.add_zero (q : ℤ), hdist, Int.abs_eq_natAbs]; omega
    · next h =>
      have hsucc : roundQuot n d = q + 1 := by omega
      rw [hsucc, Nat.cast_succ, hdist, Int.abs_eq_natAbs]
      omega
  rw [hself, hdist, Int.abs_eq_natAbs]
  rcases hsteps with ht | rfl | rfl | ht <;> split_ifs <;> omega

/-! ### The pattern of a rounded quotient is the nearest one -/

section
variable {n d : ℕ}

/-- A finite rounded pattern has not left the finite range. -/
theorem body_lt_of_pack_finite {neg : Bool} (h : f32Finite (f32Pack neg n d) = true) :
    packShift n d <<< 23 + packMantissa n d < 0x7F800000 := by
  by_contra hbody
  have hpack : f32Pack neg n d = BitVec.ofNat 32 (if neg then 0x80000000 + 0x7F800000 else 0x7F800000) := by
    unfold f32Pack
    unfold packMantissa at hbody
    generalize hk : packShift n d = k at hbody
    have hk' : Nat.log2 (n / d) - 23 = k := hk
    simp only [hk', hbody, if_false]
  rw [hpack] at h
  cases neg <;> exact absurd h (by decide)

/-- The last bit of a pattern is that of its mantissa. -/
theorem f32Make_last_bit (neg : Bool) (k : ℕ) {q : ℕ} (hq : q % 2 = 0) : (f32Make neg k q).getLsbD 0 = false := by
  rw [f32Make, BitVec.getLsbD_ofNat, Nat.testBit_zero, Nat.shiftLeft_eq]
  have heven : (if neg = true then 0x80000000 + (k * 2 ^ 23 + q) else k * 2 ^ 23 + q) % 2 = 0 := by split <;> omega
  rw [heven]
  rfl

/-- A finite pattern is a multiple of the unit of the mantissa, or has fewer bits than a mantissa that is shifted. -/
theorem f32Fix_on_grid (c : Word) (k : ℕ) : (∃ m : ℤ, f32Fix c = m * 2 ^ k) ∨ (k ≠ 0 ∧ f32Fix c < 2 ^ (k + 23)) := by
  obtain ⟨u, j, hmag, hu⟩ := f32Mag_cases c
  by_cases hkj : k ≤ j
  · have hdvd : 2 ^ k ∣ f32Mag c := hmag ▸ (Nat.pow_dvd_pow 2 hkj).mul_left u
    obtain ⟨v, hv⟩ := hdvd
    refine .inl ⟨signed (f32Neg c) v, ?_⟩
    rw [f32Fix_eq_signed, hv]
    cases f32Neg c <;> simp only [signed, if_true, if_false, Bool.false_eq_true] <;> push_cast <;> ring
  · refine .inr ⟨by omega, ?_⟩
    have hlt : f32Mag c < 2 ^ (k + 23) := by
      rw [hmag]
      calc u * 2 ^ j < 2 ^ 24 * 2 ^ j := Nat.mul_lt_mul_of_pos_right hu (Nat.two_pow_pos j)
        _ = 2 ^ (24 + j) := (Nat.pow_add 2 24 j).symm
        _ ≤ 2 ^ (k + 23) := Nat.pow_le_pow_right (by omega) (by omega)
    have hle : f32Fix c ≤ f32Mag c := by
      have := natAbs_f32Fix c
      omega
    exact hle.trans_lt (by exact_mod_cast hlt)

/-- Among the finite patterns none is nearer to a quotient than its rounded mantissa, shifted; where another one is as near the
mantissa is even. -/
theorem packMantissa_nearest (hd : 0 < d) {c : ℤ}
    (hc : (∃ m : ℤ, c = m * 2 ^ packShift n d) ∨ (packShift n d ≠ 0 ∧ c < 2 ^ (packShift n d + 23))) :
    |((packMantissa n d * 2 ^ packShift n d : ℕ) : ℤ) * d - n| ≤ |c * d - n| ∧
      (|((packMantissa n d * 2 ^ packShift n d : ℕ) : ℤ) * d - n| = |c * d - n| →
        c ≠ (packMantissa n d * 2 ^ packShift n d : ℕ) → packMantissa n d % 2 = 0) := by
  have hpos : 0 < d <<< packShift n d := by
    rw [Nat.shiftLeft_eq]
    exact Nat.mul_pos hd (Nat.two_pow_pos _)
  have hnearest (m : ℤ) := roundQuot_nearest n hpos m
  have hscale (m : ℤ) : m * (d <<< packShift n d : ℕ) = m * 2 ^ packShift n d * d := by
    rw [Nat.shiftLeft_eq]
    push_cast
    ring
  have hmant : roundQuot n (d <<< packShift n d) = packMantissa n d := rfl
  simp only [hmant, hscale] at hnearest
  rw [Nat.cast_mul, Nat.cast_pow, Nat.cast_ofNat]
  rcases hc with ⟨m, rfl⟩ | ⟨hshift, hsmall⟩
  · obtain ⟨hle, heven⟩ := hnearest m
    exact ⟨hle, fun heq hne => heven heq fun hm => hne (by rw [hm])⟩
  · -- The smallest mantissa of 24 bits lies between the short pattern and the quotient, nearer to it.
    have hquot : 2 ^ (packShift n d + 23) * d ≤ n :=
      (Nat.mul_le_mul_right d (packShift_pos hshift)).trans (Nat.div_mul_le_self n d)
    have hquot' : (2 : ℤ) ^ 23 * 2 ^ packShift n d * d ≤ n := by
      rw [← pow_add, Nat.add_comm]
      exact_mod_cast hquot
    have hlt : c * d < 2 ^ 23 * 2 ^ packShift n d * d := by
      rw [← pow_add, Nat.add_comm]
      exact mul_lt_mul_of_pos_right hsmall (by exact_mod_cast hd)
    have hstrict : |2 ^ 23 * 2 ^ packShift n d * (d : ℤ) - n| < |c * d - n| := by
      rw [abs_of_nonpos (by linarith), abs_of_nonpos (by linarith)]
      linarith
    have hbetter := (hnearest (2 ^ 23)).1.trans_lt hstrict
    exact ⟨hbetter.le, fun heq => absurd heq hbetter.ne⟩

end

/-! ### Correct rounding (R323) -/

theorem abs_sub_ite_neg (p : Bool) (z : ℤ) (y : ℝ) :
    |(z : ℝ) - (if p then -y else y)| = |((if p then -z else z : ℤ) : ℝ) - y| := by
  cases p with
  | false => rfl
  | true =>
    simp only [if_true]
    rw [← abs_neg, Int.cast_neg]
    congr 1
    ring

theorem abs_sub_div {d : ℕ} (hd : 0 < d) (n : ℕ) (z : ℤ) : |(z : ℝ) - (n : ℝ) / d| = ((|z * d - n| : ℤ) : ℝ) / d := by
  have hd' : (0 : ℝ) < d := by exact_mod_cast hd
  rw [Int.cast_abs, eq_div_iff hd'.ne', ← abs_of_pos hd', ← abs_mul, abs_of_pos hd']
  congr 1
  push_cast
  field_simp

/-- A quotient is rounded correctly where its pattern is finite. -/
theorem f32Pack_rounds {neg : Bool} {n d : ℕ} (hd : 0 < d) (hfin : f32Finite (f32Pack neg n d) = true) :
    RoundsTo ((if neg then -((n : ℝ) / d) else (n : ℝ) / d) / 2 ^ 149) (f32Pack neg n d) := by
  intro c _
  have hbody := body_lt_of_pack_finite hfin
  obtain ⟨-, hneg, hmag⟩ := f32Pack_spec neg hbody
  have hfix : f32Fix (f32Pack neg n d) = signed neg (packMantissa n d * 2 ^ packShift n d) := by
    rw [f32Fix_eq_signed, hneg, hmag]
  -- Both distances, of the magnitudes and with the sign of the quotient, as multiples of `1 / d` units.
  have hself : |realOf (f32Pack neg n d) - (if neg then -((n : ℝ) / d) else (n : ℝ) / d) / 2 ^ 149| =
      ((|((packMantissa n d * 2 ^ packShift n d : ℕ) : ℤ) * d - n| : ℤ) : ℝ) / d / 2 ^ 149 := by
    rw [abs_realOf_sub, hfix, abs_signed_sub, ← Int.cast_natCast, abs_sub_div hd]
  have hother : |realOf c - (if neg then -((n : ℝ) / d) else (n : ℝ) / d) / 2 ^ 149| =
      ((|(if neg then -f32Fix c else f32Fix c) * d - n| : ℤ) : ℝ) / d / 2 ^ 149 := by
    rw [abs_realOf_sub, abs_sub_ite_neg, abs_sub_div hd]
  have hgrid : (∃ m : ℤ, (if neg then -f32Fix c else f32Fix c) = m * 2 ^ packShift n d) ∨
      (packShift n d ≠ 0 ∧ (if neg then -f32Fix c else f32Fix c) < 2 ^ (packShift n d + 23)) := by
    cases neg with
    | false => exact f32Fix_on_grid c _
    | true =>
      rw [if_pos rfl, ← f32Fix_flip]
      exact f32Fix_on_grid (f32Flip c) _
  obtain ⟨hle, heven⟩ := packMantissa_nearest hd hgrid
  have hd' : (0 : ℝ) < d := by exact_mod_cast hd
  rw [hself, hother, div_le_div_iff_of_pos_right (by positivity), div_le_div_iff_of_pos_right hd', Int.cast_le,
    div_left_inj' (by positivity), div_left_inj' hd'.ne', Int.cast_inj]
  refine ⟨hle, fun heq hne => ?_⟩
  rw [f32Pack_eq_make neg hbody]
  refine f32Make_last_bit _ _ (heven heq fun hsame => hne ?_)
  rw [realOf, realOf, hfix, signed, ← hsame]
  cases neg <;> simp

/-- A real on the same side of every midpoint of two patterns as `x`, which lies on none, is rounded as `x` is. -/
theorem RoundsTo.of_same_side {x y : ℝ} {r : Word} (h : RoundsTo x r) (hoff : ∀ m : ℤ, x * 2 ^ 150 ≠ m)
    (hbelow : ∀ m : ℤ, x * 2 ^ 150 < m → y * 2 ^ 150 < m) (habove : ∀ m : ℤ, m < x * 2 ^ 150 → m < y * 2 ^ 150) :
    RoundsTo y r := by
  intro c hc
  by_cases hsame : realOf c = realOf r
  · exact ⟨by rw [hsame], fun _ hne => absurd hsame hne⟩
  have hmid : (realOf r + realOf c) * 2 ^ 149 = ((f32Fix r + f32Fix c : ℤ) : ℝ) := by
    rw [realOf, realOf, ← add_div, div_mul_cancel₀ _ (by positivity)]
    push_cast
    rfl
  have hpow : (2 : ℝ) ^ 150 = 2 * 2 ^ 149 := by norm_num
  have hpos : (0 : ℝ) < 2 ^ 149 := by positivity
  have hle := sq_le_sq.2 (h c hc).1
  have hstrict : |realOf r - y| < |realOf c - y| := by
    refine sq_lt_sq.1 ?_
    rcases lt_or_gt_of_ne hsame with hlt | hgt
    · have hx : ((f32Fix r + f32Fix c : ℤ) : ℝ) ≤ x * 2 ^ 150 := by rw [← hmid, hpow]; nlinarith
      have hy := habove _ (hx.lt_of_ne (hoff _).symm)
      rw [← hmid, hpow] at hy
      nlinarith
    · have hx : x * 2 ^ 150 ≤ ((f32Fix r + f32Fix c : ℤ) : ℝ) := by rw [← hmid, hpow]; nlinarith
      have hy := hbelow _ (hx.lt_of_ne (hoff _))
      rw [← hmid, hpow] at hy
      nlinarith
  exact ⟨hstrict.le, fun heq => absurd heq hstrict.ne⟩

/-! ### The four operations -/

section
variable {a b : Word}

theorem cast_signed (p : Bool) (n : ℕ) : ((signed p n : ℤ) : ℝ) = if p then -(n : ℝ) else n := by
  cases p <;> simp [signed]

theorem realOf_eq_ite (w : Word) : realOf w = (if f32Neg w then -(f32Mag w : ℝ) else f32Mag w) / 2 ^ 149 := by
  rw [realOf, f32Fix_eq_signed, cast_signed]

theorem ite_neg_mul (p q : Bool) (x y : ℝ) : (if p then -x else x) * (if q then -y else y) =
    if (p != q) = true then -(x * y) else x * y := by
  cases p <;> cases q <;> simp

theorem ite_neg_div (p q : Bool) (x y : ℝ) : (if p then -x else x) / (if q then -y else y) =
    if (p != q) = true then -(x / y) else x / y := by
  cases p <;> cases q <;> simp [neg_div, div_neg]

/-- A sum is an exact number of units. -/
theorem f32Add_rounds (ha : f32Finite a = true) (hb : f32Finite b = true) (h : f32Finite (f32Add a b) = true) :
    RoundsTo (realOf a + realOf b) (f32Add a b) := by
  have hsum : realOf a + realOf b = ((f32Fix a + f32Fix b : ℤ) : ℝ) / 2 ^ 149 := by
    rw [realOf, realOf, ← add_div]
    push_cast
    rfl
  simp only [f32Add, ha, hb, Bool.and_self, if_true] at h ⊢
  rw [hsum]
  generalize f32Fix a + f32Fix b = z at *
  have hround := f32Pack_rounds Nat.one_pos h
  have hsigned : signed (z < 0 || (z == 0 && f32Neg a && f32Neg b)) z.natAbs = z :=
    signed_natAbs (by by_cases h0 : z = 0 <;> simp [h0])
  have hvalue : (if (z < 0 || (z == 0 && f32Neg a && f32Neg b)) = true then -(((z.natAbs : ℕ) : ℝ) / (1 : ℕ))
      else ((z.natAbs : ℕ) : ℝ) / (1 : ℕ)) = z := by
    rw [Nat.cast_one, div_one, ← cast_signed, hsigned]
  rwa [hvalue] at hround

theorem f32Finite_flip (w : Word) : f32Finite (f32Flip w) = f32Finite w := by rw [f32Finite, f32Exp_flip, f32Finite]

/-- A difference is the sum with the other sign. -/
theorem f32Sub_rounds (ha : f32Finite a = true) (hb : f32Finite b = true) (h : f32Finite (f32Sub a b) = true) :
    RoundsTo (realOf a - realOf b) (f32Sub a b) := by
  rw [sub_eq_add_neg, ← realOf_flip]
  exact f32Add_rounds ha ((f32Finite_flip b).trans hb) h

theorem f32One_cast : ((f32One : ℕ) : ℝ) = 2 ^ 149 := by rw [f32One_eq, Nat.cast_pow, Nat.cast_ofNat]

/-- A product of magnitudes counts units of 2^-298. -/
theorem f32Mul_rounds (ha : f32Finite a = true) (hb : f32Finite b = true) (h : f32Finite (f32Mul a b) = true) :
    RoundsTo (realOf a * realOf b) (f32Mul a b) := by
  have hvalue : realOf a * realOf b = (if (f32Neg a != f32Neg b) = true then -(((f32Mag a * f32Mag b : ℕ) : ℝ) / f32One)
      else ((f32Mag a * f32Mag b : ℕ) : ℝ) / f32One) / 2 ^ 149 := by
    rw [realOf_eq_ite a, realOf_eq_ite b, div_mul_div_comm, ite_neg_mul, f32One_cast, Nat.cast_mul]
    split <;> ring
  simp only [f32Mul, ha, hb, Bool.and_self, if_true] at h ⊢
  rw [hvalue]
  exact f32Pack_rounds (by rw [f32One_eq]; positivity) h

/-- A quotient by a zero is no finite pattern. -/
theorem f32Div_rounds (ha : f32Finite a = true) (hb : f32Finite b = true) (h : f32Finite (f32Div a b) = true) :
    RoundsTo (realOf a / realOf b) (f32Div a b) := by
  by_cases hzero : f32Mag b = 0
  · rw [f32Div, hzero] at h
    simp only [bne_self_eq_false, Bool.and_false, Bool.false_eq_true, if_false] at h
    exact absurd h (by decide)
  have hvalue : realOf a / realOf b = (if (f32Neg a != f32Neg b) = true then -(((f32Mag a * f32One : ℕ) : ℝ) / f32Mag b)
      else ((f32Mag a * f32One : ℕ) : ℝ) / f32Mag b) / 2 ^ 149 := by
    rw [realOf_eq_ite a, realOf_eq_ite b, div_div_div_cancel_right₀ (by positivity), ite_neg_div, Nat.cast_mul, f32One_cast]
    split <;> field_simp
  simp only [f32Div, ha, hb, Bool.and_self, bne_iff_ne.2 hzero, if_true] at h ⊢
  rw [hvalue]
  exact f32Pack_rounds (by omega) h

end

/-! ### The square root -/

/-- The bits found so far and those still to come enclose the root. -/
theorem isqrtFrom_spec (x : ℕ) : ∀ k acc : ℕ, acc * acc ≤ x → x < (acc + 2 ^ k) * (acc + 2 ^ k) →
    isqrtFrom k x acc * isqrtFrom k x acc ≤ x ∧ x < (isqrtFrom k x acc + 1) * (isqrtFrom k x acc + 1) := by
  intro k
  induction k with
  | zero => exact fun acc hlow hhigh => ⟨hlow, hhigh⟩
  | succ k ih =>
    intro acc hlow hhigh
    rw [isqrtFrom, Nat.one_shiftLeft]
    split
    · next hle => exact ih _ hle (by rwa [Nat.add_assoc, ← Nat.two_mul, ← Nat.pow_succ'])
    · next hgt => exact ih _ hlow (not_le.1 hgt)

theorem isqrt_spec (x : ℕ) : isqrt x * isqrt x ≤ x ∧ x < (isqrt x + 1) * (isqrt x + 1) := by
  refine isqrtFrom_spec x _ 0 (Nat.zero_le x) ?_
  rw [Nat.zero_add, ← Nat.pow_add]
  exact Nat.lt_log2_self.trans_le (Nat.pow_le_pow_right (by omega) (by omega))

/-- The root of `x` and whether it is exact, as a number of halves: an odd one stands for what lies between. -/
def stickyRoot (x : ℕ) : ℕ := 2 * isqrt x + (if isqrt x * isqrt x = x then 0 else 1)

/-- The halves that stand for the root are exact, or an odd number of them within one of the root. -/
theorem stickyRoot_cases (x : ℕ) : (stickyRoot x : ℝ) = (2 : ℝ) * √x ∨
    (stickyRoot x % 2 = 1 ∧ (stickyRoot x : ℝ) - 1 < (2 : ℝ) * √x ∧ (2 : ℝ) * √x < (stickyRoot x : ℝ) + 1) := by
  obtain ⟨hlow, hhigh⟩ := isqrt_spec x
  unfold stickyRoot
  by_cases hexact : isqrt x * isqrt x = x
  · left
    have hroot : √(x : ℝ) = isqrt x := by
      conv_lhs => rw [← hexact, Nat.cast_mul]
      exact Real.sqrt_mul_self (Nat.cast_nonneg _)
    rw [if_pos hexact, hroot]
    push_cast
    ring
  · right
    have hlow' : (isqrt x : ℝ) < √x := Real.lt_sqrt_of_sq_lt (by
      rw [sq]
      exact_mod_cast hlow.lt_of_ne hexact)
    have hhigh' : √(x : ℝ) < isqrt x + 1 := (Real.sqrt_lt' (by positivity)).2 (by
      rw [sq]
      exact_mod_cast hhigh)
    rw [if_neg hexact]
    refine ⟨by omega, ?_, ?_⟩ <;> push_cast <;> linarith

/-- Rounding the halves that stand for a root rounds the root, where the midpoints of patterns are even numbers of halves. -/
theorem stickyRoot_rounds {x j : ℕ} {r : Word} (hj : 1 ≤ j)
    (h : RoundsTo ((stickyRoot x : ℝ) / 2 ^ (j + 150)) r) : RoundsTo ((2 : ℝ) * √x / 2 ^ (j + 150)) r := by
  rcases stickyRoot_cases x with hexact | ⟨hodd, hlow, hhigh⟩
  · rwa [← hexact]
  have hpow : (2 : ℝ) ^ (j + 150) = 2 ^ j * 2 ^ 150 := pow_add 2 j 150
  have hpos : (0 : ℝ) < 2 ^ j := by positivity
  have hunits (y : ℝ) : y / 2 ^ (j + 150) * 2 ^ 150 = y / 2 ^ j := by
    rw [hpow]
    field_simp
  obtain ⟨i, rfl⟩ : ∃ i, j = i + 1 := ⟨j - 1, by omega⟩
  have heven (m : ℤ) : m * 2 ^ (i + 1) = 2 * (m * 2 ^ i) := by ring
  refine h.of_same_side (fun m => ?_) (fun m => ?_) (fun m => ?_) <;> rw [hunits]
  · rw [ne_eq, div_eq_iff hpos.ne']
    intro heq
    have hint : (stickyRoot x : ℤ) = m * 2 ^ (i + 1) := by exact_mod_cast heq
    rw [heven] at hint
    omega
  · rw [hunits, div_lt_iff₀ hpos, div_lt_iff₀ hpos]
    intro hlt
    have hint : (stickyRoot x : ℤ) < m * 2 ^ (i + 1) := by exact_mod_cast hlt
    have hnext : (stickyRoot x : ℤ) + 1 ≤ m * 2 ^ (i + 1) := hint
    exact hhigh.trans_le (by exact_mod_cast hnext)
  · rw [hunits, lt_div_iff₀ hpos, lt_div_iff₀ hpos]
    intro hlt
    have hint : m * 2 ^ (i + 1) < (stickyRoot x : ℤ) := by exact_mod_cast hlt
    have hprev : m * 2 ^ (i + 1) ≤ (stickyRoot x : ℤ) - 1 := by omega
    exact lt_of_le_of_lt (by exact_mod_cast hprev) hlow

theorem div_one_shiftLeft_lt {n m i j : ℕ} (h : n < 2 ^ m) (hm : m ≤ i + j) : n / (1 <<< j) < 2 ^ i := by
  rw [Nat.one_shiftLeft, Nat.div_lt_iff_lt_mul (Nat.two_pow_pos j), ← Nat.pow_add]
  exact h.trans_le (Nat.pow_le_pow_right (by omega) hm)

/-- A number of fractions of a unit, rounded. -/
theorem f32Pack_rounds_shift {n k : ℕ} (hfin : f32Finite (f32Pack false n (1 <<< k)) = true) :
    RoundsTo ((n : ℝ) / 2 ^ (k + 149)) (f32Pack false n (1 <<< k)) := by
  have hround := f32Pack_rounds (by rw [Nat.one_shiftLeft]; positivity) hfin
  rwa [if_neg (by decide), Nat.one_shiftLeft, Nat.cast_pow, Nat.cast_ofNat, div_div, ← pow_add,
    ← Nat.one_shiftLeft] at hround

/-- A zero is its own root. -/
theorem roundsTo_zero {r : Word} (h : realOf r = 0) : RoundsTo 0 r := by
  intro c _
  rw [h, sub_zero, abs_zero, sub_zero]
  exact ⟨abs_nonneg _, fun heq hne => absurd (abs_eq_zero.1 heq.symm) hne⟩

section
variable {a : Word}

/-- The root of a positive pattern is the rounded root of its magnitude, with 256 further bits and a sticky one. -/
theorem f32Sqrt_of_pos (ha : f32Finite a = true) (hmag : f32Mag a ≠ 0) (hneg : f32Neg a = false) :
    f32Sqrt a = f32Pack false (stickyRoot (f32Mag a <<< 661)) (1 <<< 257) := by
  simp only [f32Sqrt, ha, hmag, hneg, Bool.not_true, Bool.false_eq_true, if_false]
  rfl

theorem f32Sqrt_of_zero (ha : f32Finite a = true) (hmag : f32Mag a = 0) : f32Sqrt a = a := by
  simp only [f32Sqrt, ha, hmag, Bool.not_true, Bool.false_eq_true, if_false, if_true]

/-- A pattern that is not below zero is a zero or has no sign. -/
theorem f32Neg_of_nonneg (h : 0 ≤ realOf a) (hmag : f32Mag a ≠ 0) : f32Neg a = false := by
  by_contra hneg
  have hneg : f32Neg a = true := by simpa using hneg
  have hpos : (0 : ℝ) < f32Mag a := by exact_mod_cast Nat.pos_of_ne_zero hmag
  rw [realOf_eq_ite, if_pos hneg, le_div_iff₀ (by positivity)] at h
  linarith

/-- A root has half as many bits as its square. -/
theorem stickyRoot_lt {x k : ℕ} (h : x < 2 ^ (2 * k)) : stickyRoot x < 2 ^ (k + 1) := by
  have hroot : isqrt x < 2 ^ k := by
    by_contra hge
    have hsq : 2 ^ k * 2 ^ k ≤ isqrt x * isqrt x := Nat.mul_le_mul (not_lt.1 hge) (not_lt.1 hge)
    rw [← Nat.pow_add, ← Nat.two_mul] at hsq
    exact absurd (hsq.trans (isqrt_spec x).1) (not_le.2 h)
  rw [stickyRoot, Nat.pow_succ]
  split <;> omega

theorem f32Mag_shiftLeft_lt (ha : f32Finite a = true) {k j : ℕ} (hj : 277 + k ≤ j) : f32Mag a <<< k < 2 ^ j := by
  have hexp := f32Exp_lt a
  have hinf : f32Exp a ≠ 255 := by simpa [f32Finite] using ha
  rw [Nat.shiftLeft_eq]
  calc f32Mag a * 2 ^ k < 2 ^ (f32Exp a + 23) * 2 ^ k := Nat.mul_lt_mul_of_pos_right (f32Mag_lt a) (Nat.two_pow_pos k)
    _ = 2 ^ (f32Exp a + 23 + k) := (Nat.pow_add ..).symm
    _ ≤ 2 ^ j := Nat.pow_le_pow_right (by omega) (by omega)

theorem f32Mag_shiftLeft_cast (hneg : f32Neg a = false) (k : ℕ) :
    ((f32Mag a <<< k : ℕ) : ℝ) = realOf a * 2 ^ (149 + k) := by
  rw [realOf_eq_ite, hneg, if_neg (by decide), Nat.shiftLeft_eq, pow_add]
  push_cast
  field_simp

theorem f32Sqrt_finite (ha : f32Finite a = true) (h : 0 ≤ realOf a) : f32Finite (f32Sqrt a) = true := by
  by_cases hmag : f32Mag a = 0
  · rwa [f32Sqrt_of_zero ha hmag]
  rw [f32Sqrt_of_pos ha hmag (f32Neg_of_nonneg h hmag)]
  refine (small_pack false _ _ 213 ?_ (by omega) (by omega)).1
  exact div_one_shiftLeft_lt (stickyRoot_lt (k := 469) (f32Mag_shiftLeft_lt ha (by omega))) (by omega)

theorem f32Sqrt_rounds (ha : f32Finite a = true) (h : 0 ≤ realOf a) : RoundsTo √(realOf a) (f32Sqrt a) := by
  by_cases hmag : f32Mag a = 0
  · have hzero : realOf a = 0 := by
      rw [realOf_eq_ite, hmag]
      simp
    rw [f32Sqrt_of_zero ha hmag, hzero, Real.sqrt_zero]
    exact roundsTo_zero hzero
  have hneg := f32Neg_of_nonneg h hmag
  have hfin := f32Sqrt_finite ha h
  have hvalue : √(realOf a) = (2 : ℝ) * √((f32Mag a <<< 661 : ℕ) : ℝ) / 2 ^ (256 + 150) := by
    rw [f32Mag_shiftLeft_cast hneg, show 149 + 661 = 405 + 405 from rfl, pow_add, Real.sqrt_mul h,
      Real.sqrt_mul_self (by positivity), show 256 + 150 = 1 + 405 from rfl, pow_add, pow_one,
      mul_div_mul_left _ _ two_ne_zero, mul_div_cancel_right₀ _ (by positivity)]
  rw [f32Sqrt_of_pos ha hmag hneg] at hfin ⊢
  rw [hvalue]
  refine stickyRoot_rounds (by omega) ?_
  exact f32Pack_rounds_shift hfin

end

/-- Settles O59: each operation packs its exact result, the root with a sticky bit for what it drops. -/
theorem arithmeticIsCorrectlyRounded : Obligations.ArithmeticIsCorrectlyRounded := by
  unfold Obligations.ArithmeticIsCorrectlyRounded
  exact fun a b ha hb => ⟨f32Add_rounds ha hb, f32Sub_rounds ha hb, f32Mul_rounds ha hb, f32Div_rounds ha hb,
    fun h => ⟨f32Sqrt_rounds ha h, f32Sqrt_finite ha h⟩⟩

end Sys2Proof.Machine

/-! SUPPORT. The statements of the exceptions chapter (spec/60_exceptions.md): illegal words and discarded commands (R342,
R346), taking a fault (R345), the length checks (R343), writes to `IP` (R347, R351) and the interrupt line (R350). -/

namespace Sys2Proof.Machine

/-! ### What a word written to `CMD` does besides running a command -/

section
variable {s : State} {w : Word} {rest : List HostEvent}

/-- A word written to `CMD` while a fault is recorded is taken from the bus and discarded (R346). -/
theorem step_command_discarded (hidle : s.inFlight = none) (herr : s.csr.err = true)
    (hp : s.pending = .write cmdAddr w :: rest) : step s = .next { s with pending := rest } := by
  simp [step, advance, State.plan, State.serve, State.command, hidle, hp, herr]

/-- A word that does not decode raises `IllegalCmd` with the whole word (R342). -/
theorem step_command_illegal {why : IllegalWord} (hidle : s.inFlight = none) (herr : s.csr.err = false)
    (hp : s.pending = .write cmdAddr w :: rest) (hw : decode w = .error why) :
    step s = .next (State.raise { s with pending := rest } .illegalCmd w) := by
  simp [step, advance, State.plan, State.serve, State.command, hidle, hp, herr, hw]

end

/-- Settles O4: `IllegalCmd` is none of the three CFG faults, so taking it leaves `CFG_OK`. -/
theorem illegalWordFaults : Obligations.IllegalWordFaults := by
  unfold Obligations.IllegalWordFaults
  intro s w why rest hidle herr hp hw
  rw [step_command_illegal hidle herr hp hw, raise_of_keeps_cfgOk rfl]
  rfl

/-- What the host reads does not depend on its accesses to come. -/
theorem memRead_withPending (s : State) (rest : List HostEvent) (a : WordAddr) :
    State.memRead { s with pending := rest } a = s.memRead a := rfl

/-- Settles O9: a word written to `CMD` is discarded; no other access looks at `ERR`. -/
theorem discardWhileFaulted : Obligations.DiscardWhileFaulted := by
  unfold Obligations.DiscardWhileFaulted
  refine ⟨fun s w rest hidle herr hp => step_command_discarded hidle herr hp,
    fun s a v rest hidle ha hp => step_write_idle hidle ha hp, fun s a rest hidle hp => ?_⟩
  rw [step_read_idle hidle hp, State.serveRead, memRead_withPending]

/-! ### Taking a fault (R345) -/

/-- Settles O10: the checks read the registers themselves, and the fault is taken as its cause says. -/
theorem faultEntry : Obligations.FaultEntry := by
  unfold Obligations.FaultEntry
  intro i s f hidle hf
  rw [exec_faults (by rwa [params_of_idle hidle])]
  cases hcause : f.cause with
  | cfgBadSize | cfgBadHop | cfgBadRate =>
    rw [raise_of_clears_cfgOk rfl]
    rfl
  | lenMismatch | illegalCmd | notConfigured =>
    rw [raise_of_keeps_cfgOk rfl]
    rfl

/-! ### The length checks (R343) -/

/-- The information word of `LenMismatch` as its two fields, the tag's low 24 bits above the buffer id (R341). -/
theorem lenInfo_eq_append (id : BitVec 8) (tag : Word) :
    lenInfo id.toNat tag = (tag.setWidth 24 ++ id : BitVec (24 + 8)) := by
  refine BitVec.eq_of_getLsbD_eq fun j hj => ?_
  have hid : (BitVec.ofNat 32 id.toNat).getLsbD j = id.getLsbD j := by
    rw [BitVec.getLsbD_ofNat, ← BitVec.testBit_toNat]
    simp [hj]
  rw [lenInfo, BitVec.getLsbD_or, BitVec.getLsbD_shiftLeft, BitVec.getLsbD_append, BitVec.getLsbD_setWidth, hid]
  by_cases hlow : j < 8
  · simp [hlow]
  · simp [hlow, hj, BitVec.getLsbD_of_ge id j (by omega), show j - 8 < 24 by omega]

/-- A check against an active length that is a register compares the two registers. -/
theorem lenCheck_toNat (id : BitVec 8) (tag need : Word) : lenCheck id.toNat tag need.toNat =
    if tag = need then none else some ⟨.lenMismatch, (tag.setWidth 24 ++ id : BitVec (24 + 8))⟩ := by
  rw [lenCheck, lenInfo_eq_append]
  simp only [BitVec.toNat_inj]

/-- The check of the frame register `r`, whose buffer id is `4 + r` (R341). -/
theorem checkS_eq (p : Csrs) (r : SReg) : p.checkS r =
    if p.tags.s[r].toNat = p.active.n.toNat / 2 + 1 then none
    else some ⟨.lenMismatch, (p.tags.s[r].setWidth 24 ++ BitVec.ofNat 8 (4 + r.val) : BitVec (24 + 8))⟩ := by
  have hid : (BitVec.ofNat 8 (4 + r.val)).toNat = 4 + r.val := by
    rw [BitVec.toNat_ofNat]
    omega
  rw [← lenInfo_eq_append, hid]
  rfl

/-- Settles O12: on configured registers a command's fault is that of the checks its rule lists. -/
theorem lengthChecks : Obligations.LengthChecks := by
  unfold Obligations.LengthChecks
  intro p hok
  dsimp only
  have hown (i : Instr) (own : Option RaisedFault) : p.configured i own = own := configured_none hok i own
  have htime : p.checkT = _ := lenCheck_toNat 0 p.tags.t p.active.n
  have hspectrum : p.checkZ = _ := lenCheck_toNat 1 p.tags.z p.active.n
  rw [← htime, ← hspectrum]
  simp only [← checkS_eq]
  refine ⟨hown _ _, hown _ _, fun _ => hown _ _, hown _ _, fun _ => hown _ _,
    fun rd rs1 rs2 => ⟨hown _ _, hown _ _, hown _ _, hown _ _, hown _ _, hown _ _, hown _ _, ?_⟩, fun hn htag => ?_⟩
  · refine (hown _ _).trans ?_
    cases p.checkS rs1 <;> rfl
  · refine (hown _ _).trans ?_
    rw [checkS_eq, htag, hn]
    decide

/-! ### Writes to `IP`, and the interrupt line (R347, R350, R351) -/

/-- Settles O15: the write is one to a control register, and it clears what its bits say. -/
theorem returnFromFault : Obligations.ReturnFromFault := by
  unfold Obligations.ReturnFromFault
  intro s v rest hidle hp
  have hwrite : State.memWrite { s with pending := rest } 0x00006 v = { s with pending := rest, csr := s.csr.writeIp v } :=
    memWrite_csr (by decide)
  rw [step_write_idle hidle (by decide) hp, hwrite, Csrs.writeIp_eq]

/-- Two flags in bits 0 and 1 of a word are read back. -/
theorem getLsbD_flagPair (a b : Bool) :
    (flagBit a 0 ||| flagBit b 1).getLsbD 0 = a ∧ (flagBit a 0 ||| flagBit b 1).getLsbD 1 = b := by
  simp only [BitVec.getLsbD_or, getLsbD_flagBit _ (show 0 < 32 by decide), getLsbD_flagBit _ (show 1 < 32 by decide)]
  simp

/-- Settles O16: bits 0 and 1 of `IE` and `IP` are the flags that the line is made of. -/
theorem interruptLine : Obligations.InterruptLine := by
  unfold Obligations.InterruptLine
  intro s
  have hie : s.readCsr 0x05 = flagBit s.csr.ieDone 0 ||| flagBit s.csr.ieErr 1 := rfl
  have hip : s.readCsr 0x06 = flagBit s.csr.ipDone 0 ||| flagBit s.csr.err 1 := rfl
  obtain ⟨hieDone, hieErr⟩ := getLsbD_flagPair s.csr.ieDone s.csr.ieErr
  obtain ⟨hipDone, hipErr⟩ := getLsbD_flagPair s.csr.ipDone s.csr.err
  rw [hie, hip, hieDone, hieErr, hipDone, hipErr, State.irq]

end Sys2Proof.Machine

/-! SUPPORT. The statements of the reset chapter (spec/70_reset_and_hazards.md): hard reset (R380). -/

namespace Sys2Proof.Machine

/-! ### Hard reset (R380) -/

/-- A hard reset waits for no command in flight, which is lost (R380, log 13). -/
theorem step_hardReset {s : State} {rest : List HostEvent} (hp : s.pending = .hardReset :: rest) :
    step s = .next (State.hardReset { s with pending := rest }) := by
  cases hc : s.inFlight with
  | none => simp [step, advance, State.plan, State.serve, hc, hp]
  | some c => exact step_serves_busy hc hp rfl

/-- The control registers that read other than 0 after a hard reset are `ID` and `STATUS` (R380). -/
theorem readCsr_reset (off : Nat) : State.reset.readCsr off =
    if off = 0x00 then 0x53504331 else if off = 0x02 then 0x00000018 else 0 := by
  by_cases hoff : off < 64
  · have hlisted : ∀ off < 64, State.reset.readCsr off =
        if off = 0x00 then 0x53504331 else if off = 0x02 then 0x00000018 else 0 := by decide
    exact hlisted off hoff
  · rw [readCsr_eq_getD, if_neg (by omega), if_neg (by omega)]
    exact List.getD_eq_default _ _ (by rw [List.length_set]; exact not_lt.1 hoff)

/-- Settles O19: the reset is served first, and it leaves the reset registers and storage that nothing has written. -/
theorem hardReset : Obligations.HardReset := by
  unfold Obligations.HardReset
  intro s rest hp
  refine ⟨_, step_hardReset hp, rfl, rfl, fun off => ?_, fun a => ⟨rfl, rfl⟩, rfl, rfl, rfl, rfl⟩
  exact (readCsr_congr rfl rfl off).trans (readCsr_reset off)

/-- Settles O25: nothing is written, configured, recorded or in flight. -/
theorem resetIsWellFormed : Obligations.ResetIsWellFormed :=
  ⟨State.Sound.wf_of_idle ⟨rfl, rfl, rfl, fun hok => (by cases hok), Csrs.legal_reset⟩ rfl, rfl⟩

end Sys2Proof.Machine
